-- ==== Sys2Proof/Word.lean ====
section
/-! DEFINITION. The plainest data of the model: bytes, the two small fixed arrays (four of a thing: heads, slots;
three of a thing: station ports) and nothing else. Byte order, escaping and CRC stand in Machine/Bytes.lean. -/

namespace Sys2Proof

/-- One byte on a wire, in a frame body or in a record. -/
abbrev Byte := BitVec 8

/-- A head link H0..H3, or a slot 0..3. -/
abbrev HeadNo := Fin 4

/-- A station port S0..S2. -/
abbrev PortNo := Fin 3

/-- Four of a thing, by number 0..3 (head links, slots, stitch entries, sets of heads). -/
structure Quad (α : Type) where
  q0 : α
  q1 : α
  q2 : α
  q3 : α
  deriving DecidableEq, Repr

/-- The same thing four times. -/
def Quad.fill {α : Type} (x : α) : Quad α := ⟨x, x, x, x⟩

/-- The thing with the given number. -/
def Quad.get {α : Type} (v : Quad α) : Fin 4 → α
  | 0 => v.q0
  | 1 => v.q1
  | 2 => v.q2
  | 3 => v.q3

/-- The four with the thing of the given number replaced. -/
def Quad.set {α : Type} (v : Quad α) (i : Fin 4) (x : α) : Quad α :=
  match i with
  | 0 => { v with q0 := x }
  | 1 => { v with q1 := x }
  | 2 => { v with q2 := x }
  | 3 => { v with q3 := x }

/-- The four with one of them changed by a function. -/
def Quad.modify {α : Type} (v : Quad α) (i : Fin 4) (f : α → α) : Quad α := v.set i (f (v.get i))

/-- Each of the four changed by a function. -/
def Quad.map {α β : Type} (f : α → β) (v : Quad α) : Quad β := ⟨f v.q0, f v.q1, f v.q2, f v.q3⟩

/-- The four in order of their number. -/
def Quad.toList {α : Type} (v : Quad α) : List α := [v.q0, v.q1, v.q2, v.q3]

/-- Three of a thing, by number 0..2 (station ports). -/
structure Triple (α : Type) where
  t0 : α
  t1 : α
  t2 : α
  deriving DecidableEq, Repr

/-- The same thing three times. -/
def Triple.fill {α : Type} (x : α) : Triple α := ⟨x, x, x⟩

/-- The thing with the given number. -/
def Triple.get {α : Type} (v : Triple α) : Fin 3 → α
  | 0 => v.t0
  | 1 => v.t1
  | 2 => v.t2

/-- The three with the thing of the given number replaced. -/
def Triple.set {α : Type} (v : Triple α) (i : Fin 3) (x : α) : Triple α :=
  match i with
  | 0 => { v with t0 := x }
  | 1 => { v with t1 := x }
  | 2 => { v with t2 := x }

/-- The three with one of them changed by a function. -/
def Triple.modify {α : Type} (v : Triple α) (i : Fin 3) (f : α → α) : Triple α := v.set i (f (v.get i))

/-- Each of the three changed by a function. -/
def Triple.map {α β : Type} (f : α → β) (v : Triple α) : Triple β := ⟨f v.t0, f v.t1, f v.t2⟩

/-- The three in order of their number. -/
def Triple.toList {α : Type} (v : Triple α) : List α := [v.t0, v.t1, v.t2]

end Sys2Proof
end

