-- ==== Sys2Proof/Syntax.lean ====
section
/-! DEFINITION. The commands of the FS-24: one constructor for each row of spec/opcode_table.json, with the row's
operands. The table gives no bits, so the operands are what the row's rule says the step carries. -/

namespace Sys2Proof

/-- The sense of an edge of the mark-sensor input (R15, R18). -/
inductive EdgeSense where
  | rising
  | falling
  deriving DecidableEq, Repr

/-- The steps of the FS-24. `bytes` are the bytes received on the named input since its last step, without the
closing sequence that the step itself stands for (assumption 10). A host command carries the port and the tag of
its frame (R172) and the fields of its payload (R178). -/
inductive Instr where
  /-- POWER_ON_RESET (R2, R41): the A/B inputs and the carriers as they stand at the reset. -/
  | powerOnReset (a b : Bool) (carriers : Quad Bool)
  /-- ENCODER_TRANSITION (R1): the new state of the encoder inputs. -/
  | encoderTransition (a b : Bool)
  /-- MARK_EDGE (R18): an edge of the mark-sensor input. -/
  | markEdge (edge : EdgeSense)
  /-- CARRIER_GAINED (R41). -/
  | carrierGained (h : HeadNo)
  /-- CARRIER_LOST (R41): `bytes` were received before the loss. -/
  | carrierLost (h : HeadNo) (bytes : List Byte)
  /-- HEAD_FRAME (R40): `bytes`, then a closing delimiter. -/
  | headFrame (h : HeadNo) (bytes : List Byte)
  /-- HEAD_FRAME_ABORT (R36): `bytes`, then the abort sequence. -/
  | headFrameAbort (h : HeadNo) (bytes : List Byte)
  /-- ENGINE_TAKE_LINE (R61). -/
  | engineTakeLine
  /-- LINE_PUBLISH (R78). -/
  | linePublish
  /-- STOP_COMPLETE (R171). -/
  | stopComplete
  /-- EDIT_EXPIRY (R162). -/
  | editExpiry
  /-- STATION_FRAME (R173): `bytes`, then a closing delimiter. -/
  | stationFrame (p : PortNo) (bytes : List Byte)
  /-- STATION_FRAME_ABORT (R36, R173): `bytes`, then the abort sequence. -/
  | stationFrameAbort (p : PortNo) (bytes : List Byte)
  /-- FRAME_TIMEOUT (R174): `bytes`, then the 50 ms limit runs out. -/
  | frameTimeout (p : PortNo) (bytes : List Byte)
  /-- RESPONSE_SENT (R175). -/
  | responseSent (p : PortNo)
  /-- IDENT (R179). -/
  | ident (p : PortNo) (tag : Byte)
  /-- STATUS (R180). -/
  | status (p : PortNo) (tag : Byte)
  /-- ACK_ATTN (R183). -/
  | ackAttn (p : PortNo) (tag : Byte)
  /-- END_SERVICE (R183). -/
  | endService (p : PortNo) (tag : Byte)
  /-- ARM (R170). -/
  | arm (p : PortNo) (tag : Byte)
  /-- DISARM (R171). -/
  | disarm (p : PortNo) (tag : Byte)
  /-- RESET_POSITION (R13). -/
  | resetPosition (p : PortNo) (tag : Byte)
  /-- CLAIM_EDIT (R162). -/
  | claimEdit (p : PortNo) (tag : Byte)
  /-- RELEASE_EDIT (R162). -/
  | releaseEdit (p : PortNo) (tag : Byte)
  /-- STAGE_WRITE (R163). -/
  | stageWrite (p : PortNo) (tag sec entry : Byte) (data : List Byte)
  /-- STAGE_READ (R163). -/
  | stageRead (p : PortNo) (tag sec entry : Byte)
  /-- ACTIVE_READ (R163). -/
  | activeRead (p : PortNo) (tag sec entry : Byte)
  /-- COMMIT (R164). -/
  | commit (p : PortNo) (tag : Byte)
  /-- CANCEL_PENDING (R166). -/
  | cancelPending (p : PortNo) (tag : Byte)
  /-- FETCH (R145). -/
  | fetch (p : PortNo) (tag count : Byte)
  /-- SEEK (R147). -/
  | seek (p : PortNo) (tag target : Byte) (seq : BitVec 32)
  /-- SUBSCRIBE (R148). -/
  | subscribe (p : PortNo) (tag classes : Byte) (watermark : BitVec 16) (enable : Byte)
  /-- READ_CELLS (R97). -/
  | readCells (p : PortNo) (tag : Byte) (first : BitVec 16) (count : Byte)
  /-- READ_CANDIDATES (R114). -/
  | readCandidates (p : PortNo) (tag : Byte)
  /-- READ_STREAKS (R135). -/
  | readStreaks (p : PortNo) (tag : Byte)
  /-- RESYNC_HEAD (R47). -/
  | resyncHead (p : PortNo) (tag head : Byte)
  /-- FORCE_MARK (R157). -/
  | forceMark (p : PortNo) (tag marker : Byte) (distance : BitVec 16)
  deriving DecidableEq, Repr

end Sys2Proof
end

