-- ==== Sys2Proof/Decode.lean ====
section
/-! DEFINITION. The command that a word of the opcode table spells. No row of spec/opcode_table.json gives bits
(98_reader.md counts no row with fixed bits), so no word spells a command. The station commands' codes and payloads
are read in Machine/Operands.lean. -/

namespace Sys2Proof

/-- The command spelt by the `nbits` bits of `w`: none, since no row of the table gives bits. -/
def decodeTableWord (_nbits _w : Nat) : Option Instr := none

end Sys2Proof
end

