-- ==== Sys2Proof/Machine/Recipe.lean ====
section
/-! DEFINITION. Recipe copies (R160): the six sections, their entries and the default copy. Every field is the
unsigned number its bytes carry (R178), since STAGE_WRITE stores out-of-range values as given (R163). A yes/no
field is 1 for yes. -/

namespace Sys2Proof.Machine

/-- One entry of the HEADS section, the stitch table (R50). -/
structure HeadEntry where
  enabled : Nat
  expectedId : Nat
  l0 : Nat
  n : Nat
  g0 : Nat
  deriving DecidableEq, Repr

/-- One entry of the LANES section (R67). -/
structure LaneEntry where
  enabled : Nat
  first : Nat
  last : Nat
  guard : Nat
  base : Nat
  /-- NONE 0, MK0 1, MK1 2 (R178). -/
  marker : Nat
  deriving DecidableEq, Repr

/-- One entry of the PROFILES section (R75). -/
structure Profile where
  pinEnable : Nat
  streakEnable : Nat
  markEnable : Nat
  tp : Nat
  ts : Nat
  k : Nat
  lOpen : Nat
  lClose : Nat
  warm : Nat
  deriving DecidableEq, Repr

/-- The PATCH section (R15). -/
structure PatchFields where
  /-- Coat length C; 0 is continuous mode. -/
  c : Nat
  g : Nat
  m : Nat
  leadLen : Nat
  trailLen : Nat
  wm : Nat
  f : Nat
  /-- RISING 0, FALLING 1 (R178). -/
  polarity : Nat
  deriving DecidableEq, Repr

/-- One entry of the MARKERS section (R150). -/
structure MarkerFields where
  offset : Nat
  width : Nat
  spacing : Nat
  deriving DecidableEq, Repr

/-- A recipe copy: HEADS, LANES, PROFILES, PATCH, MARKERS and, as `p` and `pmax`, GENERAL (R160). -/
structure Recipe where
  heads : Quad HeadEntry
  lanes : List LaneEntry
  profiles : List Profile
  patch : PatchFields
  mk0 : MarkerFields
  mk1 : MarkerFields
  p : Nat
  pmax : Nat
  deriving DecidableEq, Repr

/-- The default stitch entry of head `i` (R50): disabled, 512 cells from global cell 512 × i. -/
def defaultHead (i : Nat) : HeadEntry := ⟨0, 0, 0, 512, 512 * i⟩

/-- The default lane (R67). -/
def defaultLane : LaneEntry := ⟨0, 0, 0, 0, 0, 0⟩

/-- The default profile (R75). -/
def defaultProfile : Profile := ⟨1, 1, 0, 400, 40, 6, 64, 16, 16⟩

/-- The default PATCH section (R15): continuous mode. -/
def defaultPatch : PatchFields := ⟨0, 1, 0, 0, 0, 0, 0, 0⟩

/-- The default marker entry (R150). -/
def defaultMarker : MarkerFields := ⟨0, 64, 0⟩

/-- The default copy (R160). -/
def defaultRecipe : Recipe where
  heads := ⟨defaultHead 0, defaultHead 1, defaultHead 2, defaultHead 3⟩
  lanes := List.replicate 16 defaultLane
  profiles := List.replicate 16 defaultProfile
  patch := defaultPatch
  mk0 := defaultMarker
  mk1 := defaultMarker
  p := 16
  pmax := 64

/-- Lane `i` of a copy (R67). -/
def Recipe.lane (r : Recipe) (i : Nat) : LaneEntry := r.lanes.getD i defaultLane

/-- Profile `i` of a copy (R75). -/
def Recipe.profile (r : Recipe) (i : Nat) : Profile := r.profiles.getD i defaultProfile

/-- The entry, if enabled, feeds the global cell (R51). -/
def HeadEntry.feeds (e : HeadEntry) (cell : Nat) : Bool :=
  e.enabled == 1 && decide (e.g0 ≤ cell) && decide (cell < e.g0 + e.n)

/-- The lane, if enabled, holds the global cell (R67). -/
def LaneEntry.holds (l : LaneEntry) (cell : Nat) : Bool :=
  l.enabled == 1 && decide (l.first ≤ cell) && decide (cell ≤ l.last)

/-- The copies differ in geometry (R160): any field of any entry of HEADS or LANES differs. -/
def geometryDiffers (a b : Recipe) : Bool := a.heads != b.heads || a.lanes != b.lanes

end Sys2Proof.Machine
end

