-- ==== Sys2Proof/Machine/State.lean ====
section
/-! DEFINITION. The state of the FS-24, block by block in the order of 00_scope.md 1.4, as plain data, and its
value after a power-on reset. INVENTORY.md lists each field with its rule and reset value. -/

namespace Sys2Proof.Machine

/-! ### Names -/

/-- The run states (R170). -/
inductive RunState where
  | idle
  | armed
  | stopping
  deriving DecidableEq, Repr

/-- The tracker states (R16). -/
inductive TrackerMode where
  | off
  | seek
  | track
  | lost
  | continuous
  deriving DecidableEq, Repr

/-- The start flags of a queued start or a patch: neither, ACQ or FLYWHEEL (R23). -/
inductive StartKind where
  | plain
  | acq
  | flywheel
  deriving DecidableEq, Repr

/-- The states of a head link (R41). -/
inductive LinkState where
  | down
  | hunt
  | locked
  deriving DecidableEq, Repr

/-- The states of a slot (R53). -/
inductive SlotState where
  | free
  | opened
  | ready
  | inWork
  deriving DecidableEq, Repr

/-- The zone of a line with its lead and trail flags (R25, R72): a coated line may carry both flags. -/
inductive Zone where
  | body
  | lead
  | trail
  | leadTrail
  | gap
  | unknown
  deriving DecidableEq, Repr

/-- The recipe copy a slot refers to (R161). -/
inductive CopyRef where
  | none
  | active
  | retiring
  deriving DecidableEq, Repr

/-- The polarity of a streak (R118). -/
inductive Polarity where
  | light
  | dark
  deriving DecidableEq, Repr

/-- A marker output. -/
inductive Marker where
  | mk0
  | mk1
  deriving DecidableEq, Repr

/-- Why a streak closed (R133, R139). -/
inductive CloseReason where
  | decay
  | merged
  | reset
  | recipe
  | disarm
  deriving DecidableEq, Repr

/-- The event codes (R140). -/
inductive EventCode where
  | armed
  | disarmed
  | recipeSwap
  | headLocked
  | headLost
  | headChanged
  | headMismatch
  | regAcquired
  | regLost
  | markMissed
  | streakTableFull
  | candidateTableFull
  | markQueueFull
  | linesSkipped
  | reverseOverrun
  | positionLimit
  | editExpired
  deriving DecidableEq, Repr

/-- The attention causes, highest rank first (R181). -/
inductive Cause where
  | alert
  | streak
  | pinhole
  | data
  deriving DecidableEq, Repr

/-! ### Position counter and line trigger generator -/

/-- The position counter (R1, R2, R5, R14). -/
structure PositionCounter where
  /-- Channel A of the reference input state. -/
  refA : Bool
  /-- Channel B of the reference input state. -/
  refB : Bool
  /-- The raw position E. -/
  e : BitVec 32
  /-- The web position W. -/
  w : Nat
  /-- The backlog L. -/
  l : Nat
  /-- A reverse-overrun episode is open. -/
  overrun : Bool
  illegal : Nat
  limitDiscards : Nat
  reverseDiscards : Nat
  deriving DecidableEq, Repr

/-- The line trigger generator (R7, R14). -/
structure TriggerGenerator where
  /-- The next trigger position T, held exactly. -/
  t : Nat
  lastTrigger : Nat
  /-- The next line number. -/
  n : BitVec 16
  /-- The pending skipped count. -/
  skipped : Nat
  linesSkipped : Nat
  /-- The bytes of the last frame sent on the trigger output (R11, R35); empty when none was sent. -/
  out : List Byte
  deriving DecidableEq, Repr

/-! ### Registration tracker -/

/-- An entry of the pending start queue (R23). -/
structure StartEntry where
  pos : Nat
  err : Int
  kind : StartKind
  deriving DecidableEq, Repr

/-- The current patch (R16, R24). -/
structure Patch where
  num : Nat
  s : Nat
  endW : Nat
  err : Int
  kind : StartKind
  deriving DecidableEq, Repr

/-- The registration tracker (R16, R30). -/
structure Tracker where
  mode : TrackerMode
  /-- The predicted edge position. -/
  pred : Nat
  /-- The previous edge position. -/
  prev : Nat
  misses : Nat
  queue : List StartEntry
  patch : Option Patch
  prevShort : Bool
  /-- The last patch number given. -/
  lastPatch : Nat
  frozen : Bool
  spurious : Nat
  backlogEdges : Nat
  marksMissed : Nat
  startsDropped : Nat
  deriving DecidableEq, Repr

/-! ### Head links -/

/-- A byte-stream receiver (R36): the frame in reception, or none when `isOpen` is no. -/
structure Reception where
  isOpen : Bool
  /-- A byte has been received since the frame's opening delimiter. -/
  begun : Bool
  /-- The unescaped bytes stored so far. -/
  stored : List Byte
  /-- An escape byte is held. -/
  escape : Bool
  malformed : Bool
  deriving DecidableEq, Repr

/-- A head link receiver (R36, R41 to R45, R49). -/
structure Link where
  state : LinkState
  rx : Reception
  /-- The good run of HUNT. -/
  good : Nat
  /-- The head id of the good run. -/
  runId : Nat
  /-- The bad run of LOCKED. -/
  bad : Nat
  /-- The learned head id; 0 when no head has been learned. -/
  learned : Nat
  /-- HEAD_MISMATCH was appended in this HUNT episode. -/
  mismatchReported : Bool
  aborted : Nat
  badFrames : Nat
  idMismatches : Nat
  deriving DecidableEq, Repr

/-! ### Line assembler -/

/-- A slot of the line assembler with its line record (R52, R53). -/
structure Slot where
  state : SlotState
  line : BitVec 16
  /-- The opening rank. -/
  rank : Nat
  w : Nat
  zone : Zone
  patchNum : Nat
  patchS : Nat
  patchErr : Int
  patchKind : StartKind
  prevShort : Bool
  skippedBefore : Nat
  copy : CopyRef
  expected : Quad Bool
  received : Quad Bool
  absent : Quad Bool
  /-- One value for each global cell. -/
  cells : List Nat
  deriving DecidableEq, Repr

/-- The line assembler (R53, R54, R66). -/
structure Assembler where
  slots : Quad Slot
  /-- The rank of the line opened last; 0 when none was given. -/
  lastRank : Nat
  late : Quad Nat
  duplicate : Quad Nat
  short : Quad Nat
  illum : Quad Nat
  forced : Nat
  deriving DecidableEq, Repr

/-! ### Detection engine -/

/-- A cell record of the baseline file (R81). -/
structure CellRec where
  seeded : Bool
  /-- The baseline multiplied by 16. -/
  b16 : Nat
  /-- The streak counter S. -/
  s : Int
  warm : Nat
  /-- The open-streak slot the cell is a member of. -/
  member : Option Nat
  deriving DecidableEq, Repr

/-- An open streak (R118). -/
structure Streak where
  openSeq : Nat
  pol : Polarity
  lane : Nat
  profile : Nat
  extL : Nat
  extR : Nat
  openW : Nat
  openPatch : Nat
  curPatch : Nat
  lines : Nat
  patches : Nat
  peak : Nat
  wideL : Nat
  wideR : Nat
  held : Bool
  deriving DecidableEq, Repr

/-- A pinhole candidate (R100). -/
structure Candidate where
  lane : Nat
  patch : Nat
  firstW : Nat
  lastW : Nat
  lines : Nat
  hullL : Nat
  hullR : Nat
  extL : Nat
  extR : Nat
  area : Nat
  peak : Nat
  profile : Nat
  target : Option Marker
  sat : Bool
  edge : Bool
  lead : Bool
  trail : Bool
  held : Bool
  deriving DecidableEq, Repr

/-- The patch tally (R31). -/
structure Tally where
  num : Nat
  firstW : Nat
  lastW : Nat
  s : Nat
  err : Int
  kind : StartKind
  coated : Nat
  pinholes : Nat
  streakOpens : Nat
  lateMarks : Nat
  skipped : Nat
  short : Bool
  cut : Bool
  deriving DecidableEq, Repr

/-- What a line, reset or stop adds to a tally (R32), with the patch it belongs to. -/
inductive Contribution where
  | pinhole (patch : Nat)
  | streakOpen (patch : Nat)
  | lateMark (patch : Nat)
  deriving DecidableEq, Repr

/-- An entry of the list of pending reset requests (R95): the whole file, or the cells of one head as intervals of
first cell and count. -/
inductive ResetRequest where
  | full
  | head (h : HeadNo) (cells : List (Nat × Nat))
  deriving DecidableEq, Repr

/-- The engine's tables (R79): the baseline file, the open-streak table, the candidate table, the tally, and the
counters that STATUS reports with them (R115, R136). -/
structure EngineTables where
  cells : List CellRec
  streaks : List (Option Streak)
  streakLatch : Bool
  cands : List (Option Candidate)
  candLatch : Bool
  tally : Option Tally
  splits : Nat
  refusals : Nat
  deriving DecidableEq, Repr

/-! ### The line operation in progress -/

/-- The classes of a cell (R70). -/
inductive CellClass where
  | margin
  | absent
  | inner
  | edge
  deriving DecidableEq, Repr

/-- What stages 1 and 2 hand on for a cell (R93). -/
structure CellResult where
  cls : CellClass
  /-- The lane of a lane cell, 0 for a MARGIN cell. -/
  lane : Nat
  /-- The profile index of a worked cell, 0 otherwise. -/
  profile : Nat
  judged : Bool
  d : Int
  x : Nat
  pin : Bool
  deriving DecidableEq, Repr

/-- A run of adjacent cells of one kind (R99, R117): `key` is the lane, with the polarity for a streak run. -/
structure Run (κ : Type) where
  key : κ
  left : Nat
  right : Nat
  /-- The largest |d| among its cells. -/
  peak : Nat
  /-- Some cell has x = 4095. -/
  sat : Bool
  /-- Some cell is of class EDGE. -/
  edge : Bool
  /-- The profile index of its left cell. -/
  profile : Nat
  deriving DecidableEq, Repr

/-- What step 4 does with a streak (R124, R125). -/
inductive StreakFate where
  /-- MERGED into the streak with the given open seq. -/
  | merged (into : Nat)
  | decays
  | held
  | extended
  deriving DecidableEq, Repr

/-- What step 3 does with a candidate (R105, R106). -/
inductive CandFate where
  | long
  | closes
  | held
  | stays
  deriving DecidableEq, Repr

/-- A piece of work of stage 3 that may append a record: the fate of one streak, given with the streak as it stood
before the line (R124, R125), or one lone run (R126, R127). -/
inductive StreakItem where
  | fate (slot : Nat) (was : Option Streak) (f : StreakFate)
  | run (r : Run (Nat × Polarity))
  deriving DecidableEq, Repr

/-- A piece of work of stage 4 that may append a record: the fate of one candidate (R105, R106), one lone run (R107,
R108), or the SPLIT record of a run whose CANDIDATE_TABLE_FULL is appended already (R108). -/
inductive PinItem where
  | fate (slot : Nat) (f : CandFate)
  | run (r : Run Nat)
  | report (r : Run Nat)
  deriving DecidableEq, Repr

/-- How far the line operation has come with the line in work (R77, R78). `outs` are what stages 1 and 2 handed on. -/
inductive LineProgress where
  /-- No stage has begun; also where no line is in work. -/
  | begun
  /-- Stage 3, with the work that is left of it. -/
  | streaks (outs : List CellResult) (items : List StreakItem)
  /-- Stage 4, with the candidates of another patch that are still to close (R101, R109). -/
  | closes (outs : List CellResult) (slots : List Nat)
  /-- Stage 4, with the work that is left of it. -/
  | pinholes (items : List PinItem)
  /-- Stage 5 has ended; the line waits to be published. -/
  | ended
  deriving DecidableEq, Repr

/-- The sections of a copy that the engine keeps (R77). -/
structure KeptSections where
  heads : Quad HeadEntry
  lanes : List LaneEntry
  mk0 : MarkerFields
  mk1 : MarkerFields
  deriving DecidableEq, Repr

/-- The detection engine (R77, R79, R95). -/
structure Engine where
  /-- The tables as the engine works on them. -/
  work : EngineTables
  /-- The tables as the last published line, or the last completed stop, left them. -/
  pub : EngineTables
  /-- Line number and W of the last line published. -/
  lastLine : Option (BitVec 16 × Nat)
  kept : Option KeptSections
  resets : List ResetRequest
  /-- Contributions made since the engine took the line in work, not yet entered (R32). -/
  contribs : List Contribution
  /-- How far the line in work has come. -/
  progress : LineProgress
  deriving DecidableEq, Repr

/-! ### Defect list -/

/-- The flags of a PINHOLE record (R138). -/
structure PinFlags where
  sat : Bool
  edge : Bool
  lead : Bool
  trail : Bool
  held : Bool
  long : Bool
  split : Bool
  cut : Bool
  deriving DecidableEq, Repr

/-- What a PINHOLE record holds besides seq and W (R112). -/
structure PinholeBody where
  flags : PinFlags
  lane : Nat
  profile : Nat
  lastW : Nat
  lines : Nat
  left : Nat
  right : Nat
  area : Nat
  peak : Nat
  patch : Nat
  deriving DecidableEq, Repr

/-- What a STREAK_OPEN record holds besides seq and W (R132). -/
structure StreakOpenBody where
  lane : Nat
  profile : Nat
  pol : Polarity
  left : Nat
  right : Nat
  patch : Nat
  cellsAtOpen : Nat
  deriving DecidableEq, Repr

/-- What a STREAK_CLOSE record holds besides seq and W (R133). -/
structure StreakCloseBody where
  lane : Nat
  profile : Nat
  pol : Polarity
  held : Bool
  openSeq : Nat
  /-- 0 when absent. -/
  mergedInto : Nat
  reason : CloseReason
  lines : Nat
  patches : Nat
  wideL : Nat
  wideR : Nat
  peak : Nat
  deriving DecidableEq, Repr

/-- What a PATCH record holds besides seq and W (R33). -/
structure PatchBody where
  num : Nat
  lastW : Nat
  s : Nat
  err : Int
  pinholes : Nat
  streakOpens : Nat
  lateMarks : Nat
  skipped : Nat
  kind : StartKind
  short : Bool
  cut : Bool
  deriving DecidableEq, Repr

/-- A record's kind and contents (R137). -/
inductive RecordBody where
  | pinhole (b : PinholeBody)
  | streakOpen (b : StreakOpenBody)
  | streakClose (b : StreakCloseBody)
  | patch (b : PatchBody)
  | event (code : EventCode) (arg : Nat)
  deriving DecidableEq, Repr

/-- A defect record (R137): its sequence number, its principal web position and its contents. -/
structure Record where
  seq : Nat
  w : Nat
  body : RecordBody
  deriving DecidableEq, Repr

/-- The defect list (R141): its records, oldest first, and the next sequence number. -/
structure DefectList where
  records : List Record
  next : Nat
  deriving DecidableEq, Repr

/-! ### Marker scheduler -/

/-- An entry of the mark queue (R152). -/
structure MarkEntry where
  marker : Marker
  start : Nat
  stop : Nat
  rank : Nat
  deriving DecidableEq, Repr

/-- The marker scheduler (R152, R156, R159). -/
structure Scheduler where
  queue : List MarkEntry
  /-- The queue-full latch. -/
  latch : Bool
  nextRank : Nat
  /-- Output MK0 is active. -/
  mk0 : Bool
  /-- Output MK1 is active. -/
  mk1 : Bool
  merges : Nat
  late : Nat
  dropped : Nat
  discarded : Nat
  deriving DecidableEq, Repr

/-! ### Recipe store -/

/-- A pending copy with the port that committed it (R161). -/
structure PendingCopy where
  copy : Recipe
  port : PortNo
  deriving DecidableEq, Repr

/-- The recipe store (R161, R162, R170). -/
structure RecipeStore where
  run : RunState
  active : Recipe
  staging : Option Recipe
  pending : Option PendingCopy
  retiring : Option Recipe
  holder : Option PortNo
  /-- What the holder's silence timer was last loaded with, in ms; 0 while it is stopped. -/
  silenceMs : Nat
  /-- Who caused the stop in progress: a port 0..2, or 3 for the position limit. -/
  stopBy : Nat
  deriving DecidableEq, Repr

/-! ### Station ports -/

/-- A set of subscription classes (R143). -/
structure ClassSet where
  pin : Bool
  streak : Bool
  patch : Bool
  event : Bool
  deriving DecidableEq, Repr

/-- A set of attention causes (R181). -/
structure CauseSet where
  alert : Bool
  streak : Bool
  pinhole : Bool
  data : Bool
  deriving DecidableEq, Repr

/-- A station port: reception and responses (R173 to R175), reading state in the defect list (R143) and attention
(R181, R182). -/
structure Port where
  rx : Reception
  /-- The body of the response in progress. -/
  response : Option (List Byte)
  /-- The body of the held frame. -/
  held : Option (List Byte)
  /-- The bytes of the last response frame sent; empty when none was sent. -/
  sent : List Byte
  badFrames : Nat
  aborted : Nat
  inactivity : Nat
  overruns : Nat
  cursor : Nat
  sub : ClassSet
  watermark : Nat
  skipped : Nat
  enable : CauseSet
  /-- The pending set. -/
  causes : CauseSet
  /-- The in-service set. -/
  service : CauseSet
  /-- ATNn is asserted. -/
  atn : Bool
  deriving DecidableEq, Repr

/-! ### The machine -/

/-- The state of the FS-24, with the queue of waiting commands. -/
structure State where
  pos : PositionCounter
  trig : TriggerGenerator
  trk : Tracker
  links : Quad Link
  asm : Assembler
  eng : Engine
  list : DefectList
  mark : Scheduler
  rcp : RecipeStore
  ports : Triple Port
  /-- How many free choices have been drawn (assumption 7); the model's own field. -/
  freeCount : Nat
  /-- The commands that are waiting, first in, first out; the model's own field. -/
  pending : List Instr
  deriving DecidableEq, Repr

/-- Why a step stops with a fault. The manual gives the FS-24 no fault that stops it: a bad frame is counted, a bad
command is answered with a status, a full table drops or refuses and counts. So no step raises one, and the type
has no constructor (safe: nothing is stopped that the hardware carries on). -/
inductive Fault where
  deriving DecidableEq, Repr

/-- Why a step has no meaning. -/
inductive Refusal where
  /-- Raised by an arm of `exec` for a command that has no meaning yet; safe, since the machine stops. No arm of
  this model raises it. -/
  | notModelled (mnemonic : String)
  deriving DecidableEq, Repr

/-! ### Power-on reset -/

/-- A receiver with no frame open (R36). -/
def Reception.shut : Reception := ⟨false, false, [], false, false⟩

/-- A receiver with a new, still empty frame (R36). -/
def Reception.fresh : Reception := ⟨true, false, [], false, false⟩

/-- The cell record after a cell reset (R81). -/
def CellRec.blank : CellRec := ⟨false, 0, 0, 0, Option.none⟩

/-- A link after power-on reset, without carrier (03 3.7). -/
def Link.reset : Link := ⟨.down, Reception.shut, 0, 0, 0, 0, false, 0, 0, 0⟩

/-- A slot after power-on reset (R53; the parts without a stated value by assumption 17). -/
def Slot.reset : Slot where
  state := .free
  line := 0
  rank := 0
  w := 0
  zone := .unknown
  patchNum := 0
  patchS := 0
  patchErr := 0
  patchKind := .plain
  prevShort := false
  skippedBefore := 0
  copy := .none
  expected := Quad.fill false
  received := Quad.fill false
  absent := Quad.fill false
  cells := List.replicate 2048 0

/-- The engine's tables after power-on reset (R79, R81, R100, R118). -/
def EngineTables.reset : EngineTables where
  cells := List.replicate 2048 CellRec.blank
  streaks := List.replicate 32 Option.none
  streakLatch := false
  cands := List.replicate 24 Option.none
  candLatch := false
  tally := Option.none
  splits := 0
  refusals := 0

/-- A port after power-on reset (R143, R174, R175, R181, R182). -/
def Port.reset : Port where
  rx := Reception.shut
  response := Option.none
  held := Option.none
  sent := []
  badFrames := 0
  aborted := 0
  inactivity := 0
  overruns := 0
  cursor := 1
  sub := ⟨true, true, true, true⟩
  watermark := 1
  skipped := 0
  enable := ⟨true, true, true, true⟩
  causes := ⟨false, false, false, false⟩
  service := ⟨false, false, false, false⟩
  atn := false

/-- The machine right after a power-on reset: every field at the value the manual states, or at the value that a row
of the assumption log names (1, 7, 8, 17). The A/B inputs are sampled low and no head has carrier (assumption 1). -/
def State.reset : State where
  pos := ⟨false, false, 0, 0, 0, false, 0, 0, 0⟩
  trig := ⟨0, 0, 0, 0, 0, []⟩
  trk := ⟨.off, 0, 0, 0, [], Option.none, false, 0, false, 0, 0, 0, 0⟩
  links := Quad.fill Link.reset
  asm := ⟨Quad.fill Slot.reset, 0, Quad.fill 0, Quad.fill 0, Quad.fill 0, Quad.fill 0, 0⟩
  eng := ⟨EngineTables.reset, EngineTables.reset, Option.none, Option.none, [], [], .begun⟩
  list := ⟨[], 1⟩
  mark := ⟨[], false, 1, false, false, 0, 0, 0, 0⟩
  rcp := ⟨.idle, defaultRecipe, Option.none, Option.none, Option.none, Option.none, 0, 3⟩
  ports := Triple.fill Port.reset
  freeCount := 0
  pending := []

end Sys2Proof.Machine
end

