-- ==== Sys2Proof/Machine/Bytes.lean ====
section
/-! DEFINITION. Byte order, the shared frame format with its CRC and escaping (R35, R37), the byte-stream receiver
(R36), and the limits and saturating counts that several blocks use. -/

namespace Sys2Proof.Machine

/-! ### Limits and counters -/

/-- The position limit, 2^32 − 1 (R2, R6). -/
def maxPos : Nat := 4294967295

/-- The largest sequence or patch number (00_scope.md 1.7). -/
def maxSeq : Nat := 4294967295

/-- Where 16-bit counts stop (00_scope.md 1.7). -/
def maxCount : Nat := 65535

/-- A 16-bit count raised by one: it stops at 65535 (00_scope.md 1.7). -/
def bump (n : Nat) : Nat := min (n + 1) maxCount

/-- A 16-bit count raised by `k`: it stops at 65535. -/
def bumpBy (n k : Nat) : Nat := min (n + k) maxCount

/-- The number that follows a sequence or patch number: 0 is never given (R24, R141). -/
def following (q : Nat) : Nat := if q = maxSeq then 1 else q + 1

/-! ### Byte order -/

/-- A number in `n` bytes, most significant byte first (R178). -/
def be : Nat → Nat → List Byte
  | 0, _ => []
  | n + 1, v => BitVec.ofNat 8 (v / 256 ^ n) :: be n v

/-- The number that bytes carry, most significant byte first. -/
def ofBe (bs : List Byte) : Nat := bs.foldl (fun acc b => acc * 256 + b.toNat) 0

/-- A yes/no field (R178). -/
def boolByte (b : Bool) : List Byte := be 1 (if b then 1 else 0)

/-- The fields of the given sizes, in order, as numbers. -/
def splitFields : List Nat → List Byte → List Nat
  | [], _ => []
  | n :: ns, bs => ofBe (bs.take n) :: splitFields ns (bs.drop n)

/-! ### CRC (R37) -/

/-- One bit of the CRC: compare with the top bit, shift, and XOR with 0x8005 when they differ. -/
def crcBit (r : BitVec 16) (bit : Bool) : BitVec 16 :=
  if bit = r.getLsbD 15 then r <<< 1 else (r <<< 1) ^^^ 0x8005#16

/-- The CRC over one byte, most significant bit first. -/
def crcByte (r : BitVec 16) (b : Byte) : BitVec 16 :=
  crcBit (crcBit (crcBit (crcBit (crcBit (crcBit (crcBit (crcBit r (b.getLsbD 7)) (b.getLsbD 6)) (b.getLsbD 5))
    (b.getLsbD 4)) (b.getLsbD 3)) (b.getLsbD 2)) (b.getLsbD 1)) (b.getLsbD 0)

/-- The CRC of a body: the register starts at 0xFFFF. -/
def crc (body : List Byte) : BitVec 16 := body.foldl crcByte 0xFFFF#16

/-- A body followed by its two CRC bytes, high byte first (R35). -/
def withCrc (body : List Byte) : List Byte := body ++ be 2 (crc body).toNat

/-! ### Sending (R35) -/

/-- One body or CRC byte as it goes on the wire. -/
def escapeByte (b : Byte) : List Byte :=
  if b = 0xB2#8 ∨ b = 0xB5#8 then [0xB5#8, b ^^^ 0x30#8] else [b]

/-- Bytes as they go on the wire. -/
def escapeBytes (bs : List Byte) : List Byte := bs.flatMap escapeByte

/-- A frame as the FS-24 sends it: both delimiters, the body and its CRC escaped. -/
def frameOf (body : List Byte) : List Byte := 0xB2#8 :: (escapeBytes (withCrc body) ++ [0xB2#8])

/-! ### Receiving (R36) -/

/-- What ends a frame at a receiver: a delimiter closes it, with the bytes it stored and its malformed mark, or an
abort sequence. -/
inductive FrameEnd where
  | closed (stored : List Byte) (malformed : Bool)
  | aborted
  deriving DecidableEq, Repr

/-- Stores one unescaped byte, within the receiver's length limit: a frame that goes beyond it is malformed. -/
def Reception.store (limit : Nat) (r : Reception) (b : Byte) : Reception :=
  if r.stored.length < limit then { r with stored := r.stored ++ [b], begun := true }
  else { r with malformed := true, begun := true }

/-- One byte at a receiver (R36): the reception after it and the frame it ends, if it ends one. A closed frame in
which no byte was received is not a frame; an escape byte counts as one (DEDUCED, assumption 11). -/
def Reception.feed (limit : Nat) (r : Reception) (b : Byte) : Reception × Option FrameEnd :=
  if !r.isOpen then
    (if b = 0xB2#8 then Reception.fresh else r, none)
  else if r.escape then
    if b = 0xB2#8 then (Reception.fresh, some .aborted)
    else if b = 0x82#8 then ({ r with escape := false }.store limit 0xB2#8, none)
    else if b = 0x85#8 then ({ r with escape := false }.store limit 0xB5#8, none)
    else ({ r with escape := false, malformed := true }, none)
  else if b = 0xB2#8 then
    (Reception.fresh, if r.begun then some (.closed r.stored r.malformed) else none)
  else if b = 0xB5#8 then ({ r with escape := true, begun := true }, none)
  else (r.store limit b, none)

/-- Bytes at a receiver, in order: the reception after them and the frames they end. -/
def Reception.feedAll (limit : Nat) (r : Reception) : List Byte → Reception × List FrameEnd
  | [] => (r, [])
  | b :: bs =>
    match r.feed limit b with
    | (r', none) => r'.feedAll limit bs
    | (r', some e) =>
      match r'.feedAll limit bs with
      | (r'', es) => (r'', e :: es)

/-- The closing delimiter that a HEAD_FRAME or STATION_FRAME step ends with. -/
def delimiter : List Byte := [0xB2#8]

/-- The abort sequence that an abort step ends with. -/
def abortSequence : List Byte := [0xB5#8, 0xB2#8]

/-- The most unescaped bytes a head link stores (R36). -/
def headLimit : Nat := 778

/-- The most unescaped bytes a station port stores (R173). -/
def stationLimit : Nat := 1202

/-- The body of a closed frame that is intact (R37): not malformed, at least three bytes, and the last two equal to
the CRC of what stands before them. -/
def intactBody (stored : List Byte) (malformed : Bool) : Option (List Byte) :=
  let n := stored.length
  if malformed || decide (n < 3) then none
  else
    let body := stored.take (n - 2)
    if ofBe (stored.drop (n - 2)) = (crc body).toNat then some body else none

end Sys2Proof.Machine
end

