-- ==== Sys2Proof/Machine/Flags.lean ====
section
/-! DEFINITION. The set and flag bytes of the manual (R138, R178) and the ranks of attention causes (R181, R182). -/

namespace Sys2Proof.Machine

/-- A byte with the given bits, bit 0 first. -/
def bitsByte (bits : List Bool) : List Byte :=
  be 1 (bits.foldr (fun b acc => acc * 2 + (if b then 1 else 0)) 0)

/-- A set of heads: bit h set for head h (R178). -/
def headSetByte (s : Quad Bool) : List Byte := bitsByte s.toList

/-- The subscription classes of a set byte; bits 4 to 7 are not examined (R178). -/
def ClassSet.ofByte (b : Byte) : ClassSet := ⟨b.getLsbD 0, b.getLsbD 1, b.getLsbD 2, b.getLsbD 3⟩

/-- The attention causes of a set byte; bits 4 to 7 are not examined (R178). -/
def CauseSet.ofByte (b : Byte) : CauseSet := ⟨b.getLsbD 0, b.getLsbD 1, b.getLsbD 2, b.getLsbD 3⟩

/-- A set of attention causes as a byte; bits 4 to 7 are 0 (R178). -/
def CauseSet.toByte (s : CauseSet) : List Byte := bitsByte [s.alert, s.streak, s.pinhole, s.data]

/-- The empty set of causes. -/
def CauseSet.empty : CauseSet := ⟨false, false, false, false⟩

/-- The set holds the cause. -/
def CauseSet.has (s : CauseSet) : Cause → Bool
  | .alert => s.alert
  | .streak => s.streak
  | .pinhole => s.pinhole
  | .data => s.data

/-- The set with the cause put in or taken out. -/
def CauseSet.put (s : CauseSet) (c : Cause) (x : Bool) : CauseSet :=
  match c with
  | .alert => { s with alert := x }
  | .streak => { s with streak := x }
  | .pinhole => { s with pinhole := x }
  | .data => { s with data := x }

/-- The causes that are in both sets. -/
def CauseSet.inter (s t : CauseSet) : CauseSet :=
  ⟨s.alert && t.alert, s.streak && t.streak, s.pinhole && t.pinhole, s.data && t.data⟩

/-- The highest-ranked cause of the set (R181). -/
def CauseSet.highest (s : CauseSet) : Option Cause :=
  if s.alert then some .alert
  else if s.streak then some .streak
  else if s.pinhole then some .pinhole
  else if s.data then some .data
  else none

/-- The rank of a cause, 1 the highest (R181); also its code in a response (R178). -/
def Cause.rank : Cause → Nat
  | .alert => 1
  | .streak => 2
  | .pinhole => 3
  | .data => 4

/-- The level of ATNn (R182): a cause is pending, and none is in service or the highest pending one ranks above
every cause in service. -/
def attentionLevel (causes service : CauseSet) : Bool :=
  match causes.highest with
  | none => false
  | some c =>
    match service.highest with
    | none => true
    | some d => decide (c.rank < d.rank)

/-- The line carries the lead flag (R72). -/
def Zone.hasLead : Zone → Bool
  | .lead | .leadTrail => true
  | .body | .trail | .gap | .unknown => false

/-- The line carries the trail flag (R72). -/
def Zone.hasTrail : Zone → Bool
  | .trail | .leadTrail => true
  | .body | .lead | .gap | .unknown => false

/-- The line is coated (R72). -/
def Zone.coated : Zone → Bool
  | .body | .lead | .trail | .leadTrail => true
  | .gap | .unknown => false

/-- The flags byte of a PINHOLE record (R138). -/
def PinFlags.bits (f : PinFlags) : List Bool :=
  [f.sat, f.edge, f.lead, f.trail, f.held, f.long, f.split, f.cut]

end Sys2Proof.Machine
end

