-- ==== Sys2Proof/Machine/Records.lean ====
section
/-! DEFINITION. The 32-byte form of a defect record (R138, R139, R140). -/

namespace Sys2Proof.Machine

/-- The code of an event (R140). -/
def EventCode.num : EventCode → Nat
  | .armed => 1
  | .disarmed => 2
  | .recipeSwap => 3
  | .headLocked => 4
  | .headLost => 5
  | .headChanged => 6
  | .headMismatch => 7
  | .regAcquired => 8
  | .regLost => 9
  | .markMissed => 10
  | .streakTableFull => 11
  | .candidateTableFull => 12
  | .markQueueFull => 13
  | .linesSkipped => 14
  | .reverseOverrun => 15
  | .positionLimit => 16
  | .editExpired => 17

/-- The code of a close reason (R139). -/
def CloseReason.num : CloseReason → Nat
  | .decay => 1
  | .merged => 2
  | .reset => 3
  | .recipe => 4
  | .disarm => 5

/-- The code of a polarity (R139). -/
def Polarity.num : Polarity → Nat
  | .light => 0
  | .dark => 1

/-- The code of a record kind (R138). -/
def RecordBody.kindNum : RecordBody → Nat
  | .pinhole _ => 1
  | .streakOpen _ => 2
  | .streakClose _ => 3
  | .patch _ => 4
  | .event _ _ => 5

/-- The flag bits of a record, bit 0 first (R138). -/
def RecordBody.flagBits : RecordBody → List Bool
  | .pinhole b => b.flags.bits
  | .streakOpen _ => []
  | .streakClose b => [b.pol == .dark, false, false, false, b.held]
  | .patch b =>
    [b.kind == .acq, b.kind == .flywheel, b.short, b.cut, false, false, false, decide (b.err < 0)]
  | .event _ _ => []

/-- The lane field: 0xFF for PATCH and EVENT (R138). -/
def RecordBody.laneField : RecordBody → Nat
  | .pinhole b => b.lane
  | .streakOpen b => b.lane
  | .streakClose b => b.lane
  | .patch _ => 0xFF
  | .event _ _ => 0xFF

/-- The profile field: 0xFF for PATCH and EVENT (R138). -/
def RecordBody.profileField : RecordBody → Nat
  | .pinhole b => b.profile
  | .streakOpen b => b.profile
  | .streakClose b => b.profile
  | .patch _ => 0xFF
  | .event _ _ => 0xFF

/-- The body of a record, offsets 12 to 31 (R139); `w` is the record's W. -/
def RecordBody.bytes (w : Nat) : RecordBody → List Byte
  | .pinhole b =>
    be 4 b.lastW ++ be 1 b.lines ++ be 1 0 ++ be 2 b.left ++ be 2 b.right ++ be 2 b.area ++ be 2 b.peak ++
      be 4 b.patch ++ be 2 0
  | .streakOpen b =>
    be 1 b.pol.num ++ be 1 0 ++ be 2 b.left ++ be 2 b.right ++ be 2 b.cellsAtOpen ++ be 4 b.patch ++ be 8 0
  | .streakClose b =>
    be 4 b.openSeq ++ be 4 b.mergedInto ++ be 1 b.reason.num ++ be 1 0 ++ be 2 b.lines ++ be 2 b.patches ++
      be 2 b.wideL ++ be 2 b.wideR ++ be 2 b.peak
  | .patch b =>
    be 4 b.num ++ be 3 (b.lastW - w) ++ be 3 (w - b.s) ++ be 2 b.err.natAbs ++ be 2 b.pinholes ++
      be 2 b.streakOpens ++ be 2 b.lateMarks ++ be 2 b.skipped
  | .event code arg => be 1 code.num ++ be 1 0 ++ be 2 arg ++ be 16 0

/-- A defect record as 32 bytes (R138). -/
def Record.bytes (r : Record) : List Byte :=
  be 1 r.body.kindNum ++ bitsByte r.body.flagBits ++ be 1 r.body.laneField ++ be 1 r.body.profileField ++
    be 4 r.seq ++ be 4 r.w ++ r.body.bytes r.w

end Sys2Proof.Machine
end

