-- ==== Sys2Proof/Machine/DefectList.lean ====
section
/-! DEFINITION. The defect list (chapter 9): append with drop, cursors, skipped counts and the reports to attention,
and what the reading commands do to a port's reading state. -/

namespace Sys2Proof.Machine

/-- The most records the list holds (R141). -/
def listCapacity : Nat := 512

/-- The record's class is in the subscription (R137). -/
def ClassSet.takes (s : ClassSet) : RecordBody → Bool
  | .pinhole _ => s.pin
  | .streakOpen _ => s.streak
  | .streakClose _ => s.streak
  | .patch _ => s.patch
  | .event _ _ => s.event

/-- The cause that a record of this kind raises (R181). -/
def RecordBody.cause : RecordBody → Option Cause
  | .event _ _ => some .alert
  | .streakOpen _ => some .streak
  | .pinhole _ => some .pinhole
  | .streakClose _ => none
  | .patch _ => none

/-- The records from the one the cursor names to the newest (R143). -/
def DefectList.from (l : DefectList) (cursor : Nat) : List Record :=
  l.records.dropWhile (fun r => r.seq != cursor)

/-- A port's unread count (R143). -/
def DefectList.unread (l : DefectList) (p : Port) : Nat :=
  (l.from p.cursor).countP (fun r => p.sub.takes r.body)

/-- The record that an append drops: the oldest, when the list is full (R142). -/
def DefectList.dropped (l : DefectList) : Option Record :=
  if listCapacity ≤ l.records.length then l.records.head? else none

/-- The list after an append (R142): the oldest dropped when full, the new record placed with the next sequence
number. -/
def DefectList.push (l : DefectList) (w : Nat) (body : RecordBody) : DefectList where
  records := (if listCapacity ≤ l.records.length then l.records.drop 1 else l.records) ++ [⟨l.next, w, body⟩]
  next := following l.next

/-- The port with a cause set pending if it is enabled, and ATNn set again (R181, R182). -/
def Port.raise (p : Port) (c : Cause) : Port :=
  let causes := if p.enable.has c then p.causes.put c true else p.causes
  { p with causes := causes, atn := attentionLevel causes p.service }

/-- The drop at a port whose cursor stands on the dropped record (R142). -/
def Port.onDrop (p : Port) : Option Record → Port
  | none => p
  | some r =>
    if p.cursor = r.seq then
      { p with cursor := following r.seq, skipped := if p.sub.takes r.body then bump p.skipped else p.skipped }
    else p

/-- The kind report of an append at a port (R144, R181). -/
def Port.reportKind (p : Port) (body : RecordBody) : Port :=
  match body.cause with
  | some c => if p.sub.takes body then p.raise c else p
  | none => p

/-- The append at one port (R142, R144): the drop, the kind report and the DATA crossing, `old` and `new` being the
list before the drop and after the append. -/
def Port.onAppend (old new : DefectList) (body : RecordBody) (p : Port) : Port :=
  let p1 := p.onDrop old.dropped
  let p2 := p1.reportKind body
  if old.unread p < p.watermark ∧ p.watermark ≤ new.unread p1 then p2.raise .data else p2

/-- An append to the defect list (R142): the record takes the next sequence number, and every port's reading state
and attention follow. -/
def append (w : Nat) (body : RecordBody) (s : State) : State :=
  { s with
    list := s.list.push w body
    ports := s.ports.map (Port.onAppend s.list (s.list.push w body) body) }

/-- An EVENT record with the W at the append (R140). -/
def appendEvent (code : EventCode) (arg : Nat) (s : State) : State := append s.pos.w (.event code arg) s

/-- The list holds a record with the number (R141). -/
def DefectList.retained (l : DefectList) (q : Nat) : Bool := l.records.any (fun r => r.seq == q)

/-- The oldest sequence number, or 0 when the list is empty (R141, R178). -/
def DefectList.oldest (l : DefectList) : Nat := (l.records.head?.map Record.seq).getD 0

/-- The newest sequence number, or 0 when the list is empty (R141, R178). -/
def DefectList.newest (l : DefectList) : Nat := (l.records.getLast?.map Record.seq).getD 0

/-- What a FETCH of `n` records delivers to a port (R145). -/
def DefectList.delivered (l : DefectList) (p : Port) (n : Nat) : List Record :=
  ((l.from p.cursor).filter (fun r => p.sub.takes r.body)).take n

/-- The cursor after a FETCH of `n` records (R145): behind the last record delivered when all `n` were, the next
sequence number otherwise. -/
def DefectList.cursorAfter (l : DefectList) (p : Port) (n : Nat) : Nat :=
  let out := l.delivered p n
  match out.getLast? with
  | some r => if out.length = n then following r.seq else l.next
  | none => l.next

end Sys2Proof.Machine
end

