-- ==== Sys2Proof/Machine/Marks.lean ====
section
/-! DEFINITION. The marker scheduler (chapter 10): entering an action, merging, the full queue, and driving the
outputs. -/

namespace Sys2Proof.Machine

/-- The most entries the mark queue holds (R152). -/
def markCapacity : Nat := 32

/-- Two intervals of one marker collide (R154): the gap between [a, b) and [c, d) is less than the spacing. -/
def intervalsCollide (spacing a b c d : Nat) : Bool :=
  if a ≤ c then decide (c < b + spacing) else decide (a < d + spacing)

/-- The entry is of the marker and collides with the interval. -/
def MarkEntry.hit (e : MarkEntry) (m : Marker) (spacing lo hi : Nat) : Bool :=
  e.marker == m && intervalsCollide spacing lo hi e.start e.stop

/-- The lowest start of the interval and the entries. -/
def lowestStart (lo : Nat) (es : List MarkEntry) : Nat := es.foldl (fun acc e => min acc e.start) lo

/-- The highest end of the interval and the entries. -/
def highestStop (hi : Nat) (es : List MarkEntry) : Nat := es.foldl (fun acc e => max acc e.stop) hi

/-- Folds colliding entries into the interval, round by round, until it collides with none (R154): the enlarged
interval and the entries left. Each round but the last takes an entry out, so as many rounds as there are entries
suffice. -/
def foldColliding (m : Marker) (spacing : Nat) : Nat → Nat → Nat → List MarkEntry → Nat × Nat × List MarkEntry
  | 0, lo, hi, q => (lo, hi, q)
  | fuel + 1, lo, hi, q =>
    let hits := q.filter (fun e => e.hit m spacing lo hi)
    if hits.isEmpty then (lo, hi, q)
    else
      foldColliding m spacing fuel (lowestStart lo hits) (highestStop hi hits)
        (q.filter (fun e => !e.hit m spacing lo hi))

/-- The entry with the lowest arrival rank. -/
def lowestRank : List MarkEntry → Option MarkEntry
  | [] => none
  | e :: es =>
    match lowestRank es with
    | none => some e
    | some f => if f.rank < e.rank then some f else some e

/-- Puts an entry in its place: by start, then by arrival rank (R152). -/
def insertMark (x : MarkEntry) : List MarkEntry → List MarkEntry
  | [] => [x]
  | e :: es =>
    if x.start < e.start ∨ (x.start = e.start ∧ x.rank < e.rank) then x :: e :: es else e :: insertMark x es

/-- The marker has an entry whose interval holds W (R156). -/
def markActive (m : Marker) (w : Nat) (q : List MarkEntry) : Bool :=
  q.any (fun e => e.marker == m && decide (e.start ≤ w) && decide (w < e.stop))

/-- Removes the entries whose end W has reached, clears the latch when one leaves, and sets both outputs (R155,
R156). -/
def Scheduler.settle (w : Nat) (k : Scheduler) : Scheduler :=
  let q := k.queue.filter (fun e => decide (w < e.stop))
  { k with
    queue := q
    latch := if q.length < k.queue.length then false else k.latch
    mk0 := markActive .mk0 w q
    mk1 := markActive .mk1 w q }

/-- What became of an action (R157). -/
inductive MarkOutcome where
  | entered
  | merged
  | dropped
  deriving DecidableEq, Repr

/-- The outcome of an action, its interval after the due test, and whether it was due. -/
structure MarkResult where
  outcome : MarkOutcome
  start : Nat
  stop : Nat
  due : Bool
  deriving DecidableEq, Repr

/-- The due test (R153): where the action's interval begins. -/
def dueStart (w start : Nat) : Nat := if start ≤ w then w else start

/-- Enters an interval in the queue (R153 to R155), all but the late mark and the MARK_QUEUE_FULL event. The survivor of
the first round keeps its place in the later ones (DEDUCED, assumption 13). -/
def Scheduler.enter (w : Nat) (m : Marker) (start width spacing : Nat) (k : Scheduler) : Scheduler × MarkResult :=
  let lo := dueStart w start
  let hi := lo + width
  let due := decide (start ≤ w)
  match lowestRank (k.queue.filter (fun e => e.hit m spacing lo hi)) with
  | some survivor =>
    match foldColliding m spacing k.queue.length lo hi k.queue with
    | (lo', hi', rest) =>
      let leaving := k.queue.length - rest.length - 1
      ({ k with
          queue := insertMark { survivor with start := lo', stop := hi' } rest
          latch := if 0 < leaving then false else k.latch
          merges := bumpBy k.merges (1 + leaving) }.settle w,
        ⟨.merged, lo, hi, due⟩)
  | none =>
    if k.queue.length < markCapacity then
      ({ k with
          queue := insertMark ⟨m, lo, hi, k.nextRank⟩ k.queue
          nextRank := k.nextRank + 1 }.settle w,
        ⟨.entered, lo, hi, due⟩)
    else ({ k with dropped := bump k.dropped, latch := true }.settle w, ⟨.dropped, lo, hi, due⟩)

/-- The argument of MARK_QUEUE_FULL (R140). -/
def Marker.num : Marker → Nat
  | .mk0 => 0
  | .mk1 => 1

/-- The action is reported as a late mark (R153): it was due, it was entered or merged, and its patch number is not
0. -/
def MarkResult.isLate (r : MarkResult) (patch : Nat) : Bool := r.due && r.outcome != .dropped && patch != 0

/-- Enters an action in the machine (R153, R155): the scheduler, the late-mark counter and MARK_QUEUE_FULL. -/
def enterAction (m : Marker) (start width spacing patch : Nat) (s : State) : State × MarkResult :=
  match s.mark.enter s.pos.w m start width spacing with
  | (k, r) =>
    let s1 := { s with mark := { k with late := if r.isLate patch then bump k.late else k.late } }
    (if r.outcome = .dropped ∧ s.mark.latch = false then appendEvent .markQueueFull m.num s1 else s1, r)

/-- An action of the detection engine (R151): placed at R plus the marker's offset, a late mark reported back to the
engine (R32). -/
def handAction (m : Marker) (f : MarkerFields) (r patch : Nat) (s : State) : State :=
  match enterAction m (r + f.offset) f.width f.spacing patch s with
  | (s1, res) =>
    if res.isLate patch then
      { s1 with eng := { s1.eng with contribs := s1.eng.contribs ++ [.lateMark patch] } }
    else s1

/-- W has changed (R156). -/
def settleMarks (s : State) : State := { s with mark := s.mark.settle s.pos.w }

end Sys2Proof.Machine
end

