-- ==== Sys2Proof/Machine/Ops.lean ====
section
/-! DEFINITION. Shared operations of the machine: recipe copies and slots (R161, R169), completion and forcing of
slots (R58, R60), the swap of recipe copies (R168) and the beginning of a stop (R171). -/

namespace Sys2Proof.Machine

/-! ### Copies and slots -/

/-- The recipe copy a slot refers to (R161). -/
def State.copyOf (s : State) : CopyRef → Recipe
  | .retiring => s.rcp.retiring.getD s.rcp.active
  | .active => s.rcp.active
  | .none => s.rcp.active

/-- How many slots refer to the copy (R161). -/
def State.references (s : State) (c : CopyRef) : Nat := s.asm.slots.toList.countP (fun x => x.copy == c)

/-- The machine with one slot changed. -/
def State.withSlot (s : State) (i : Fin 4) (x : Slot) : State :=
  { s with asm := { s.asm with slots := s.asm.slots.set i x } }

/-- A retiring copy that no slot refers to is discarded (R169). -/
def discardRetiring (s : State) : State :=
  if s.references .retiring = 0 then { s with rcp := { s.rcp with retiring := none } } else s

/-- A slot made FREE: its sets emptied, its reference given up (R62, R64). The other parts of the line it held stay as
they stand (DESIGN CHOICE, assumption 29). -/
def Slot.freed (x : Slot) : Slot :=
  { x with
    state := .free, copy := .none
    expected := Quad.fill false, received := Quad.fill false, absent := Quad.fill false }

/-- Slot `i` becomes FREE, with the effect on a retiring copy (R62, R169). -/
def freeSlot (i : Fin 4) (s : State) : State := discardRetiring (s.withSlot i (s.asm.slots.get i).freed)

/-- The union of the received and absent sets equals the expected set (R58). -/
def Slot.covered (x : Slot) : Bool :=
  [0, 1, 2, 3].all fun h : Fin 4 => (x.received.get h || x.absent.get h) == x.expected.get h

/-- The completion test (R58): a complete OPEN slot becomes READY. -/
def Slot.completed (x : Slot) : Slot :=
  if x.state = .opened ∧ x.covered = true then { x with state := .ready } else x

/-- A set of heads by a condition on the head number. -/
def headSet (p : Fin 4 → Bool) : Quad Bool := ⟨p 0, p 1, p 2, p 3⟩

/-- Forcing of one slot (R60): an OPEN slot 3 or more lines behind `n` becomes READY with its silent heads absent. -/
def Slot.stale (x : Slot) (n : BitVec 16) : Bool := x.state == .opened && decide (3 ≤ (n - x.line).toNat)

/-- A forced slot (R60). -/
def Slot.forcedReady (x : Slot) : Slot :=
  { x with
    state := .ready
    absent := headSet fun h => x.absent.get h || (x.expected.get h && !x.received.get h) }

/-- Forcing at a trigger (R60): every stale slot, each counted. -/
def forceSlots (s : State) : State :=
  let n := s.trig.n
  { s with
    asm := { s.asm with
      slots := s.asm.slots.map fun x => if x.stale n then x.forcedReady else x
      forced := bumpBy s.asm.forced (s.asm.slots.toList.countP fun x => x.stale n) } }

/-- The lowest-numbered FREE slot (R54). -/
def State.freeSlotNo (s : State) : Option (Fin 4) :=
  [0, 1, 2, 3].find? fun i => (s.asm.slots.get i).state == .free

/-- The slot IN_WORK (R53). -/
def State.slotInWork (s : State) : Option (Fin 4) :=
  [0, 1, 2, 3].find? fun i => (s.asm.slots.get i).state == .inWork

/-- A set of heads without a head. -/
def Slot.without (x : Slot) (h : HeadNo) : Slot :=
  { x with
    expected := x.expected.set h false
    received := x.received.set h false
    absent := x.absent.set h false }

/-- A head is lost to the assembler (R59): it leaves the sets of every OPEN slot, and the completion test is made. -/
def headLostAtSlots (h : HeadNo) (s : State) : State :=
  { s with
    asm := { s.asm with
      slots := s.asm.slots.map fun x => if x.state = .opened then (x.without h).completed else x } }

/-! ### Swaps (R167, R168) -/

/-- A pending copy exists and no retiring copy exists (R167). -/
def State.swapWaits (s : State) : Bool := s.rcp.pending.isSome && s.rcp.retiring.isNone

/-- The tracker takes up a new copy's patch fields (R29). It does so only while the run state is ARMED. -/
def Tracker.adopt (f : PatchFields) (k : Tracker) : Tracker :=
  match k.mode with
  | .off => k
  | .continuous => if f.c = 0 then k else { k with mode := .seek, misses := 0 }
  | .seek | .lost =>
    if f.c = 0 then
      { k with
        mode := .continuous, queue := [], patch := none
        startsDropped := bumpBy k.startsDropped k.queue.length }
    else k
  | .track =>
    if f.c = 0 then
      { k with
        mode := .continuous, queue := [], patch := none
        startsDropped := bumpBy k.startsDropped k.queue.length }
    else { k with pred := k.prev + (f.c + f.g) }

/-- The argument of RECIPE_SWAP (R140): the committing port, plus 256 when the geometry differs. -/
def swapArgument (old new : Recipe) (p : PortNo) : Nat := p.val + if geometryDiffers old new then 256 else 0

/-- A swap as one step at the recipe store (R168), with the tracker's adoption (R29): the copy the slots refer to
retires or is discarded, the pending copy becomes active, RECIPE_SWAP is appended. The new pitch is taken up by
`adoptPitch` or by the trigger itself (R10). -/
def takeSwap (s : State) : State :=
  match s.rcp.pending with
  | none => s
  | some pc =>
    let old := s.rcp.active
    let s1 := { s with
      rcp := { s.rcp with
        active := pc.copy
        pending := none
        retiring := if s.references .active = 0 then none else some old }
      asm := { s.asm with
        slots := s.asm.slots.map fun x => if x.copy = .active then { x with copy := .retiring } else x } }
    let s2 := appendEvent .recipeSwap (swapArgument old pc.copy pc.port) s1
    if s2.rcp.run = .armed then { s2 with trk := s2.trk.adopt s2.rcp.active.patch } else s2

/-- A swap taken at another point than a line trigger (R10): T becomes the last trigger position plus the new P. -/
def adoptPitch (s : State) : State :=
  { s with trig := { s.trig with t := s.trig.lastTrigger + s.rcp.active.p } }

/-- A swap point other than a line trigger (R167). -/
def swapPoint (s : State) : State := if s.swapWaits then adoptPitch (takeSwap s) else s

/-! ### Stops (R171) -/

/-- The pending skipped count is reported and cleared (R9, R12), with the given W. -/
def reportSkipped (w : Nat) (s : State) : State :=
  if 0 < s.trig.skipped then
    let s1 := append w (.event .linesSkipped s.trig.skipped) s
    { s1 with trig := { s1.trig with skipped := 0 } }
  else s

/-- An OPEN or READY slot is freed uninspected by a stop (R64). -/
def Slot.stopped (x : Slot) : Slot := if x.state = .opened ∨ x.state = .ready then x.freed else x

/-- The stop begins (R171): STOPPING, triggers stop, the tracker is frozen, OPEN and READY slots are freed. `by_` is
the port whose DISARM caused it, or 3 for the position limit. -/
def beginStop (by_ : Nat) (s : State) : State :=
  let s1 := { s with rcp := { s.rcp with run := .stopping, stopBy := by_ } }
  let s2 := reportSkipped s1.pos.w s1
  discardRetiring { s2 with
    trk := { s2.trk with frozen := true }
    asm := { s2.asm with slots := s2.asm.slots.map Slot.stopped } }

/-- The position counter's part at the position limit (R6): POSITION_LIMIT is appended and, when ARMED, the stop is
requested. That no trigger or miss of the same count falls between the append and the stop with its LINES_SKIPPED is
the model's choice (DESIGN CHOICE, assumption 25). -/
def positionLimit (s : State) : State :=
  if s.rcp.run = .armed then beginStop 3 (appendEvent .positionLimit 1 s)
  else appendEvent .positionLimit 0 s

end Sys2Proof.Machine
end

