-- ==== Sys2Proof/Machine/Assembler.lean ====
section
/-! DEFINITION. The line assembler's side of a line packet (R48, R55 to R58) and of a line's delivered cells (R63). -/

namespace Sys2Proof.Machine

/-- A line packet (R48). -/
structure Packet where
  head : HeadNo
  tag : BitVec 16
  illumFault : Bool
  count : Nat
  values : List Nat
  deriving DecidableEq, Repr

/-- Values written over the cells from `g0` on (R56). -/
def placeCells (cells : List Nat) (g0 : Nat) (values : List Nat) : List Nat :=
  cells.take g0 ++ values ++ cells.drop (g0 + values.length)

/-- The OPEN slot whose line number is the tag (R55). -/
def State.openSlotFor (s : State) (tag : BitVec 16) : Option (Fin 4) :=
  [0, 1, 2, 3].find? fun i => (s.asm.slots.get i).state == .opened && (s.asm.slots.get i).line == tag

/-- An accepted packet at its slot (R56, R57, R58). -/
def Slot.accept (x : Slot) (e : HeadEntry) (k : Packet) : Slot :=
  if k.illumFault || decide (k.count < e.l0 + e.n) then
    { x with absent := x.absent.set k.head true }.completed
  else
    { x with
      cells := placeCells x.cells e.g0 ((k.values.drop e.l0).take e.n)
      received := x.received.set k.head true }.completed

/-- A late packet (R55). -/
def countLate (h : HeadNo) (s : State) : State := { s with asm := { s.asm with late := s.asm.late.modify h bump } }

/-- An accepted packet (R56, R57): the slot, and the counter of what kept its cells out. -/
def acceptPacket (i : Fin 4) (k : Packet) (s : State) : State :=
  let x := s.asm.slots.get i
  let e := (s.copyOf x.copy).heads.get k.head
  let s1 := s.withSlot i (x.accept e k)
  if k.illumFault then { s1 with asm := { s1.asm with illum := s1.asm.illum.modify k.head bump } }
  else if k.count < e.l0 + e.n then { s1 with asm := { s1.asm with short := s1.asm.short.modify k.head bump } }
  else s1

/-- A line packet at the assembler (R55): late, duplicate or accepted. -/
def takePacket (k : Packet) (s : State) : State :=
  match s.openSlotFor k.tag with
  | none => countLate k.head s
  | some i =>
    let x := s.asm.slots.get i
    if !x.expected.get k.head then countLate k.head s
    else if x.received.get k.head || x.absent.get k.head then
      { s with asm := { s.asm with duplicate := s.asm.duplicate.modify k.head bump } }
    else acceptPacket i k s

/-- The cell was delivered on the line (R63): an enabled head of the slot's copy that is in the received set feeds
it. -/
def Slot.delivered (x : Slot) (copy : Recipe) (cell : Nat) : Bool :=
  [0, 1, 2, 3].any fun h : Fin 4 => x.received.get h && (copy.heads.get h).feeds cell

end Sys2Proof.Machine
end

