-- ==== Sys2Proof/Machine/Cells.lean ====
section
/-! DEFINITION. Stages 1 and 2 of the line operation: cell classes and profile indices (R69 to R73), and seeding,
warm-up, judging, adaptation and streak counters (R82 to R91). Each cell's work reads and writes its own record
alone. -/

namespace Sys2Proof.Machine

/-- The line in work as the stages see it: its slot's contents and its recipe copy (R77). -/
structure Line where
  slot : Slot
  copy : Recipe
  deriving DecidableEq, Repr

/-- The enabled lane that holds a cell (R69). -/
def Recipe.laneOf (r : Recipe) (cell : Nat) : Option Nat := r.lanes.findIdx? fun l => l.holds cell

/-- The cell lies in the edge band of its lane (R70, R71). -/
def LaneEntry.inBand (l : LaneEntry) (cell : Nat) : Bool :=
  decide (cell - l.first < l.guard) || decide (l.last - cell < l.guard)

/-- The class of a cell of lane `lane`, if it lies in one (R70). -/
def Line.classOf (ln : Line) (cell : Nat) : Option Nat → CellClass
  | none => .margin
  | some lane =>
    if !ln.slot.delivered ln.copy cell then .absent
    else if (ln.copy.lane lane).inBand cell then .edge
    else .inner

/-- The profile index (R73): the base profile with three bits ORed in. -/
def profileIndex (base : Nat) (edge lead trail : Bool) : Nat :=
  base ||| (if edge then 1 else 0) ||| (if lead then 2 else 0) ||| (if trail then 4 else 0)

/-- The direction of a streak input (R87). -/
inductive StreakInput where
  | light
  | dark
  | quiet
  deriving DecidableEq, Repr

/-- The streak input of a deviation under a threshold (R87). -/
def streakInput (ts : Nat) (d : Int) : StreakInput :=
  if (ts : Int) ≤ d then .light else if d ≤ -(ts : Int) then .dark else .quiet

/-- The streak counter after an input (R91). -/
def moveCounter (s : Int) : StreakInput → Int
  | .light => if 0 ≤ s then min (s + 1) 4095 else 1
  | .dark => if s ≤ 0 then max (s - 1) (-4095) else -1
  | .quiet => if 0 < s then s - 1 else if s < 0 then s + 1 else 0

/-- Adaptation with shift `k` (R89): the quotient is rounded toward minus infinity. -/
def adapt (b16 x k : Nat) : Nat := ((b16 : Int) + ((16 * x : Int) - (b16 : Int)) / (2 ^ k : Int)).toNat

/-- The deviation of a value from a record's baseline (R84). -/
def deviation (b16 x : Nat) : Int := (x : Int) - ((b16 / 16 : Nat) : Int)

/-- The deviation freezes the baseline (R88). -/
def frozenBy (p : Profile) (d : Int) (x : Nat) : Bool := decide ((p.tp : Int) ≤ d) || x == 4095

/-- The baseline after a judging line (R88). -/
def judgedBaseline (p : Profile) (b16 : Nat) (d : Int) (x : Nat) : Nat :=
  if frozenBy p d x then b16
  else if p.ts ≤ d.natAbs then adapt b16 x (min (p.k + 4) 14)
  else adapt b16 x p.k

/-- The record after stage 2 worked on it with a profile and a value (R83, R85, R87 to R91). -/
def CellRec.worked (r : CellRec) (p : Profile) (x : Nat) : CellRec :=
  if !r.seeded then { r with seeded := true, b16 := 16 * x, warm := p.warm }
  else if 0 < r.warm then { r with b16 := adapt r.b16 x p.k, warm := r.warm - 1 }
  else
    let d := deviation r.b16 x
    let b16 := judgedBaseline p r.b16 d x
    if p.streakEnable = 1 then { r with b16 := b16, s := moveCounter r.s (streakInput p.ts d) }
    else { r with b16 := b16, s := 0, member := none }

/-- Stages 1 and 2 at one cell: its record after the line and what is handed on. -/
def Line.workCell (ln : Line) (cell : Nat) (r : CellRec) (x : Nat) : CellRec × CellResult :=
  let lane := ln.copy.laneOf cell
  let cls := ln.classOf cell lane
  let laneNo := lane.getD 0
  if ln.slot.zone.coated && (cls == .inner || cls == .edge) then
    let idx := profileIndex (ln.copy.lane laneNo).base (cls == .edge) ln.slot.zone.hasLead ln.slot.zone.hasTrail
    let p := ln.copy.profile idx
    let judged := r.seeded && r.warm == 0
    let d := if r.seeded then deviation r.b16 x else 0
    (r.worked p x, ⟨cls, laneNo, idx, judged, d, x, judged && p.pinEnable == 1 && frozenBy p d x⟩)
  else (r, ⟨cls, laneNo, 0, false, 0, x, false⟩)

/-- Stages 1 and 2 over the baseline file from a cell on, with the slot's cell values. -/
def Line.workCells (ln : Line) : Nat → List CellRec → List Nat → List (CellRec × CellResult)
  | _, [], _ => []
  | cell, r :: rs, xs => ln.workCell cell r (xs.headD 0) :: ln.workCells (cell + 1) rs xs.tail

end Sys2Proof.Machine
end

