-- ==== Sys2Proof/Machine/Runs.lean ====
section
/-! DEFINITION. Runs of adjacent cells, their matching to tracked defects, and tables of slots: what stages 3 and 4
share (R99, R102, R117, R122). -/

namespace Sys2Proof.Machine

/-- The run of one cell. -/
def Run.single {κ : Type} (key : κ) (cell : Nat) (o : CellResult) : Run κ :=
  ⟨key, cell, cell, o.d.natAbs, o.x == 4095, o.cls == .edge, o.profile⟩

/-- The run with the next cell. -/
def Run.grow {κ : Type} (r : Run κ) (cell : Nat) (o : CellResult) : Run κ :=
  { r with
    right := cell, peak := max r.peak o.d.natAbs, sat := r.sat || o.x == 4095, edge := r.edge || o.cls == .edge }

/-- How many cells a run has. -/
def Run.cells {κ : Type} (r : Run κ) : Nat := r.right + 1 - r.left

/-- The maximal runs of adjacent cells with one key, in increasing order of left cell, from a cell on with a run
already begun. -/
def runsFrom {κ : Type} [DecidableEq κ] (key : CellRec → CellResult → Option κ) :
    Nat → Option (Run κ) → List (CellRec × CellResult) → List (Run κ)
  | _, cur, [] => cur.toList
  | cell, cur, (r, o) :: rest =>
    match key r o, cur with
    | none, cur => cur.toList ++ runsFrom key (cell + 1) none rest
    | some k, none => runsFrom key (cell + 1) (some (Run.single k cell o)) rest
    | some k, some run =>
      if run.key = k then runsFrom key (cell + 1) (some (run.grow cell o)) rest
      else run :: runsFrom key (cell + 1) (some (Run.single k cell o)) rest

/-- The run shares a cell with the extent widened by one cell at each end (R102, R122). -/
def Run.meets {κ : Type} (r : Run κ) (extL extR : Nat) : Bool :=
  decide (r.left ≤ extR + 1) && decide (extL ≤ r.right + 1)

/-- A component of the matching relation with at least one run (R102, R122): its runs and its tracked defects' slots. -/
structure Component (κ : Type) where
  runs : List (Run κ)
  slots : List Nat
  deriving DecidableEq, Repr

/-- The components with one more run: those that share a slot with it join it. -/
def addRun {κ : Type} (comps : List (Component κ)) (r : Run κ) (slots : List Nat) : List (Component κ) :=
  let touched := comps.filter fun c => c.slots.any fun i => slots.contains i
  let others := comps.filter fun c => !c.slots.any fun i => slots.contains i
  let old := touched.flatMap Component.slots
  others ++ [⟨touched.flatMap Component.runs ++ [r], old ++ slots.filter fun i => !old.contains i⟩]

/-- The components of the matching relation that hold runs. -/
def componentsOf {κ : Type} (slotsOf : Run κ → List Nat) (runs : List (Run κ)) : List (Component κ) :=
  runs.foldl (fun comps r => addRun comps r (slotsOf r)) []

/-- The leftmost cell of runs. -/
def hullLeft {κ : Type} (start : Nat) (runs : List (Run κ)) : Nat := runs.foldl (fun acc r => min acc r.left) start

/-- The rightmost cell of runs. -/
def hullRight {κ : Type} (start : Nat) (runs : List (Run κ)) : Nat := runs.foldl (fun acc r => max acc r.right) start

/-- The largest peak of runs. -/
def runsPeak {κ : Type} (start : Nat) (runs : List (Run κ)) : Nat := runs.foldl (fun acc r => max acc r.peak) start

/-- The slots of a table whose entry meets a condition, in increasing order. -/
def slotsWhere {α : Type} (p : α → Bool) (t : List (Option α)) : List Nat :=
  (t.zipIdx).filterMap fun x => match x with
    | (some a, i) => if p a then some i else none
    | (none, _) => none

/-- The entry of a slot. -/
def entryAt {α : Type} (t : List (Option α)) (i : Nat) : Option α := t.getD i none

/-- The lowest-numbered empty slot. -/
def emptySlot {α : Type} (t : List (Option α)) : Option Nat := t.findIdx? Option.isNone

/-- How many entries a table holds. -/
def occupied {α : Type} (t : List (Option α)) : Nat := t.countP Option.isSome

/-- Some cell of an extent is ABSENT on the line (R106, R125). -/
def extentAbsent (outs : List CellResult) (extL extR : Nat) : Bool :=
  ((outs.drop extL).take (extR + 1 - extL)).any fun o => o.cls == .absent

/-- The engine's tables as it works on them, replaced. -/
def State.withWork (s : State) (t : EngineTables) : State := { s with eng := { s.eng with work := t } }

/-- A contribution of the line, reset or stop in hand (R32). -/
def contribute (c : Contribution) (s : State) : State :=
  { s with eng := { s.eng with contribs := s.eng.contribs ++ [c] } }

/-- The marker output of a lane (R67, R178). -/
def LaneEntry.target (l : LaneEntry) : Option Marker :=
  if l.marker = 1 then some .mk0 else if l.marker = 2 then some .mk1 else none

/-- The fields of a marker in a copy (R150). -/
def Recipe.markerFields (r : Recipe) : Marker → MarkerFields
  | .mk0 => r.mk0
  | .mk1 => r.mk1

/-- The mark target of a defect of a lane under a profile (R107, R134): the lane's marker when the profile has
mark_enable. -/
def Recipe.markTarget (r : Recipe) (lane profile : Nat) : Option Marker :=
  if (r.profile profile).markEnable = 1 then (r.lane lane).target else none

end Sys2Proof.Machine
end

