-- ==== Sys2Proof/Machine/Streaks.lean ====
section
/-! DEFINITION. Stage 3 of the line operation, streak tracking (chapter 8). -/

namespace Sys2Proof.Machine

/-! ### Hot cells (R116) -/

/-- The polarity of the open streak a cell is a member of. -/
def memberPolarity (t : List (Option Streak)) (r : CellRec) : Option Polarity :=
  match r.member with
  | none => none
  | some i => (entryAt t i).map Streak.pol

/-- The polarity for which a cell is hot (R116). A cell with member none is not holding-hot (DEDUCED, assumption 23). -/
def hotPolarity (copy : Recipe) (t : List (Option Streak)) (r : CellRec) (o : CellResult) : Option Polarity :=
  let p := copy.profile o.profile
  if !o.judged || p.streakEnable != 1 then none
  else if (p.lOpen : Int) ≤ r.s ∨ (memberPolarity t r = some .light ∧ (p.lClose : Int) ≤ r.s) then some .light
  else if r.s ≤ -(p.lOpen : Int) ∨ (memberPolarity t r = some .dark ∧ r.s ≤ -(p.lClose : Int)) then some .dark
  else none

/-- The streak runs of the line (R117). -/
def streakRuns (copy : Recipe) (t : List (Option Streak)) (cells : List (CellRec × CellResult)) :
    List (Run (Nat × Polarity)) :=
  runsFrom (fun r o => (hotPolarity copy t r o).map fun pol => (o.lane, pol)) 0 none cells

/-- The run matches the streak (R122). -/
def Streak.matchedBy (st : Streak) (r : Run (Nat × Polarity)) : Bool :=
  (st.lane, st.pol) == r.key && r.meets st.extL st.extR

/-! ### Ages and closes -/

/-- How far a streak's open seq lies behind the next sequence number (R119). -/
def streakDistance (next openSeq : Nat) : Nat := (next + 4294967296 - openSeq) % 4294967296

/-- The distance of the streak in a slot, 0 for an empty slot. -/
def distanceAt (next : Nat) (t : List (Option Streak)) (i : Nat) : Nat :=
  match entryAt t i with
  | some st => streakDistance next st.openSeq
  | none => 0

/-- Slots of open streaks in age order, oldest first (R119). -/
def streakAgeOrder (next : Nat) (t : List (Option Streak)) (slots : List Nat) : List Nat :=
  slots.insertionSort fun i j => distanceAt next t j ≤ distanceAt next t i

/-- Clears the member field of every cell that names the slot (R92). -/
def clearMembers (i : Nat) (cells : List CellRec) : List CellRec :=
  cells.map fun r => if r.member = some i then { r with member := none } else r

/-- The STREAK_CLOSE record of a streak (R133). -/
def Streak.closeBody (st : Streak) (reason : CloseReason) (mergedInto : Nat) : RecordBody :=
  .streakClose ⟨st.lane, st.profile, st.pol, st.held, st.openSeq, mergedInto, reason, st.lines, st.patches,
    st.wideL, st.wideR, st.peak⟩

/-- A streak leaves the table (R92, R125, R127): its slot empties, its members are cleared, the latch is cleared. -/
def dropStreak (i : Nat) (s : State) : State :=
  let t := s.eng.work
  s.withWork { t with streaks := t.streaks.set i none, streakLatch := false, cells := clearMembers i t.cells }

/-- The streak in slot `i` closes, reported by the fields of `st` (R124, R125, R130, R131). -/
def closeStreakAs (st : Streak) (i : Nat) (reason : CloseReason) (mergedInto w : Nat) (s : State) : State :=
  append w (st.closeBody reason mergedInto) (dropStreak i s)

/-- The streak in slot `i` closes with its fields as they stand; an empty slot closes nothing. -/
def closeStreak (i : Nat) (reason : CloseReason) (w : Nat) (s : State) : State :=
  match entryAt s.eng.work.streaks i with
  | some st => closeStreakAs st i reason 0 w s
  | none => s

/-- The given open streaks close in age order (R130, R131). -/
def closeStreaks (slots : List Nat) (reason : CloseReason) (w : Nat) (s : State) : State :=
  (streakAgeOrder s.list.next s.eng.work.streaks slots).foldl (fun s i => closeStreak i reason w s) s

/-! ### The stage on a coated line (R128) -/

/-- A streak's patch brought up to date (R121). -/
def Streak.onPatch (patch : Nat) (st : Streak) : Streak :=
  if st.curPatch = patch then st else { st with curPatch := patch, patches := bump st.patches }

/-- The oldest streak of a component (R123). -/
def survivorOf (next : Nat) (t : List (Option Streak)) (slots : List Nat) : Option Nat :=
  (streakAgeOrder next t slots).head?

/-- A streak extended by its matching runs (R123). -/
def Streak.extended (st : Streak) (runs : List (Run (Nat × Polarity))) : Streak :=
  match runs with
  | [] => st
  | r :: _ =>
    let left := hullLeft r.left runs
    let right := hullRight r.right runs
    let wider := decide (st.wideR + 1 - st.wideL < right + 1 - left)
    { st with
      extL := left, extR := right, lines := bump st.lines, peak := runsPeak st.peak runs
      wideL := if wider then left else st.wideL
      wideR := if wider then right else st.wideR }

/-- The membership of one component set exactly (R123): the cells of its runs name the survivor, and no other cell
names a streak of the component. -/
def setMembers (survivor : Nat) (c : Component (Nat × Polarity)) (cells : List CellRec) : List CellRec :=
  cells.zipIdx.map fun x =>
    if c.runs.any fun r => decide (r.left ≤ x.2) && decide (x.2 ≤ r.right) then { x.1 with member := some survivor }
    else match x.1.member with
      | some i => if c.slots.contains i then { x.1 with member := none } else x.1
      | none => x.1

/-- Step 3 for one component with a streak (R123). -/
def extendStreak (next : Nat) (s : State) (c : Component (Nat × Polarity)) : State :=
  let t := s.eng.work
  match survivorOf next t.streaks c.slots with
  | none => s
  | some i =>
    match entryAt t.streaks i with
    | none => s
    | some st =>
      s.withWork { t with
        streaks := t.streaks.set i (some (st.extended c.runs))
        cells := setMembers i c t.cells }

/-- The fate of the streak in slot `i` (R124, R125). -/
def streakFate (next : Nat) (t : List (Option Streak)) (comps : List (Component (Nat × Polarity)))
    (outs : List CellResult) (i : Nat) : StreakFate :=
  match comps.find? fun c => c.slots.contains i with
  | some c =>
    match survivorOf next t c.slots with
    | some j => if j = i then .extended else .merged (((entryAt t j).map Streak.openSeq).getD 0)
    | none => .extended
  | none =>
    match entryAt t i with
    | some st => if extentAbsent outs st.extL st.extR then .held else .decays
    | none => .extended

/-- Step 4 for the streak in slot `i`; `was` is the streak as it stood before the line's patch update, which a MERGED
close reports (R124, assumption 12). -/
def settleStreak (w i : Nat) (was : Option Streak) (f : StreakFate) (s : State) : State :=
  match f with
  | .merged into =>
    match was with
    | some st => closeStreakAs st i .merged into w s
    | none => s
  | .decays => closeStreak i .decay w s
  | .held =>
    match entryAt s.eng.work.streaks i with
    | some st =>
      s.withWork { s.eng.work with streaks := s.eng.work.streaks.set i (some { st with held := true }) }
    | none => s
  | .extended => s

/-- The streak that a lone run opens (R126). -/
def newStreak (w patch seq : Nat) (r : Run (Nat × Polarity)) : Streak where
  openSeq := seq
  pol := r.key.2
  lane := r.key.1
  profile := r.profile
  extL := r.left
  extR := r.right
  openW := w
  openPatch := patch
  curPatch := patch
  lines := 1
  patches := 1
  peak := r.peak
  wideL := r.left
  wideR := r.right
  held := false

/-- Names the slot in the cells of a run (R126). -/
def joinMembers (i : Nat) (r : Run (Nat × Polarity)) (cells : List CellRec) : List CellRec :=
  cells.zipIdx.map fun x =>
    if decide (r.left ≤ x.2) && decide (x.2 ≤ r.right) then { x.1 with member := some i } else x.1

/-- A lone run opens a streak in slot `i` (R126): the record, the tally's count, the mark action (R134). -/
def openStreak (ln : Line) (r : Run (Nat × Polarity)) (i : Nat) (s : State) : State :=
  let w := ln.slot.w
  let patch := ln.slot.patchNum
  let t := s.eng.work
  let s1 := s.withWork { t with
    streaks := t.streaks.set i (some (newStreak w patch s.list.next r))
    cells := joinMembers i r t.cells }
  let s2 := contribute (.streakOpen patch)
    (append w (.streakOpen ⟨r.key.1, r.profile, r.key.2, r.left, r.right, patch, r.cells⟩) s1)
  match ln.copy.markTarget r.key.1 r.profile with
  | some m => handAction m (ln.copy.markerFields m) w patch s2
  | none => s2

/-- A lone run refused for a full table (R127). -/
def refuseStreak (ln : Line) (r : Run (Nat × Polarity)) (s : State) : State :=
  let t := s.eng.work
  let s1 := s.withWork { t with refusals := bump t.refusals, streakLatch := true }
  if t.streakLatch then s1 else append ln.slot.w (.event .streakTableFull r.key.1) s1

/-- Step 5 for one lone run. -/
def loneStreakRun (ln : Line) (s : State) (r : Run (Nat × Polarity)) : State :=
  match emptySlot s.eng.work.streaks with
  | some i => openStreak ln r i s
  | none => refuseStreak ln r s

/-- One piece of work of steps 4 and 5. -/
def runStreakItem (ln : Line) (s : State) : StreakItem → State
  | .fate i was f => settleStreak ln.slot.w i was f s
  | .run r => loneStreakRun ln s r

/-- Steps 1 to 3 of stage 3 on a coated line, which append no record, and the work of steps 4 and 5 (R120 to R128). -/
def streakBegin (ln : Line) (outs : List CellResult) (s : State) : List StreakItem × State :=
  let next := s.list.next
  let t := s.eng.work
  let streaks := t.streaks.map fun o => o.map (Streak.onPatch ln.slot.patchNum)
  let runs := streakRuns ln.copy streaks (t.cells.zip outs)
  let slotsOf := fun r => slotsWhere (fun st => st.matchedBy r) streaks
  let comps := (componentsOf slotsOf runs).filter fun c => !c.slots.isEmpty
  let open_ := streakAgeOrder next streaks (slotsWhere (fun _ => true) streaks)
  (open_.map (fun i => .fate i (entryAt t.streaks i) (streakFate next streaks comps outs i)) ++
      (runs.filter fun r => (slotsOf r).isEmpty).map .run,
    comps.foldl (extendStreak next) (s.withWork { t with streaks := streaks }))

/-- Stage 3 begins (R120, R128): nothing to do on a line that is not coated. -/
def beginStreaks (ln : Line) (outs : List CellResult) (s : State) : List StreakItem × State :=
  if ln.slot.zone.coated then streakBegin ln outs s else ([], s)

/-- Stage 3 to its end; `outs` are what stages 1 and 2 handed on. -/
def streakStage (ln : Line) (outs : List CellResult) (s : State) : State :=
  match beginStreaks ln outs s with
  | (items, s1) => items.foldl (runStreakItem ln) s1

end Sys2Proof.Machine
end

