-- ==== Sys2Proof/Machine/Pinholes.lean ====
section
/-! DEFINITION. Stage 4 of the line operation, pinhole tracking (chapter 7). -/

namespace Sys2Proof.Machine

/-- The cell is a pinhole cell as stage 3 left it (R98): flagged, and no member of an open LIGHT streak. -/
def isPinholeCell (t : List (Option Streak)) (r : CellRec) (o : CellResult) : Bool :=
  o.pin && memberPolarity t r != some .light

/-- The pinhole runs of the line (R99). -/
def pinholeRuns (t : List (Option Streak)) (cells : List (CellRec × CellResult)) : List (Run Nat) :=
  runsFrom (fun r o => if isPinholeCell t r o then some o.lane else none) 0 none cells

/-- The run matches the candidate (R102). -/
def Candidate.matchedBy (k : Candidate) (r : Run Nat) : Bool := k.lane == r.key && r.meets k.extL k.extR

/-- The first-line W of the candidate in a slot, 0 for an empty slot. -/
def firstWAt (t : List (Option Candidate)) (i : Nat) : Nat := ((entryAt t i).map Candidate.firstW).getD 0

/-- Slots of candidates in age order (R100): by first-line W, and of two with the same, the lower slot first. The
slots are given in increasing order, which the sort keeps for equals. -/
def candAgeOrder (t : List (Option Candidate)) (slots : List Nat) : List Nat :=
  slots.insertionSort fun i j => firstWAt t i < firstWAt t j ∨ (firstWAt t i = firstWAt t j ∧ i ≤ j)

/-- How a PINHOLE record came about (R112): an ordinary close, LONG, SPLIT or CUT. -/
inductive PinEnd where
  | ordinary
  | long
  | split
  | cut
  deriving DecidableEq, Repr

/-- The PINHOLE record of a candidate (R112). -/
def Candidate.closeBody (k : Candidate) (how : PinEnd) : RecordBody :=
  .pinhole
    { flags := ⟨k.sat, k.edge, k.lead, k.trail, k.held, how == .long, how == .split, how == .cut⟩
      lane := k.lane, profile := k.profile, lastW := k.lastW, lines := k.lines
      left := k.hullL, right := k.hullR, area := k.area, peak := k.peak, patch := k.patch }

/-- A PINHOLE record is appended, counted for its patch (R32), and its mark action handed on (R113). -/
def reportPinhole (markers : Marker → MarkerFields) (k : Candidate) (how : PinEnd) (s : State) : State :=
  let s1 := contribute (.pinhole k.patch) (append k.firstW (k.closeBody how) s)
  match k.target with
  | some m => handAction m (markers m) k.firstW k.patch s1
  | none => s1

/-- A candidate slot empties, and the latch is cleared (R108). -/
def dropCand (i : Nat) (s : State) : State :=
  let t := s.eng.work
  s.withWork { t with cands := t.cands.set i none, candLatch := false }

/-- The candidate in slot `i` closes; an empty slot closes nothing. -/
def closeCand (markers : Marker → MarkerFields) (how : PinEnd) (s : State) (i : Nat) : State :=
  match entryAt s.eng.work.cands i with
  | some k => reportPinhole markers k how (dropCand i s)
  | none => s

/-- The given candidates close in age order. -/
def closeCands (markers : Marker → MarkerFields) (how : PinEnd) (slots : List Nat) (s : State) : State :=
  (candAgeOrder s.eng.work.cands slots).foldl (closeCand markers how) s

/-- Every open candidate. -/
def State.candSlots (s : State) : List Nat := slotsWhere (fun _ => true) s.eng.work.cands

/-- The oldest candidate of a component (R103). -/
def candSurvivor (t : List (Option Candidate)) (slots : List Nat) : Option Nat := (candAgeOrder t slots).head?

/-- A survivor extended by its matching runs and the candidates it absorbs (R103). -/
def Candidate.extended (k : Candidate) (w : Nat) (trail : Bool) (runs : List (Run Nat)) (absorbed : List Candidate) :
    Candidate :=
  match runs with
  | [] => k
  | r :: _ =>
    { k with
      lastW := w
      lines := k.lines + 1
      hullL := absorbed.foldl (fun acc a => min acc a.hullL) (hullLeft k.hullL runs)
      hullR := absorbed.foldl (fun acc a => max acc a.hullR) (hullRight k.hullR runs)
      extL := hullLeft r.left runs
      extR := hullRight r.right runs
      area := min (k.area + (absorbed.map Candidate.area).sum + (runs.map Run.cells).sum) maxCount
      peak := absorbed.foldl (fun acc a => max acc a.peak) (runsPeak k.peak runs)
      sat := k.sat || absorbed.any Candidate.sat || runs.any Run.sat
      edge := k.edge || absorbed.any Candidate.edge || runs.any Run.edge
      lead := k.lead || absorbed.any Candidate.lead
      trail := k.trail || absorbed.any Candidate.trail || trail
      held := k.held || absorbed.any Candidate.held }

/-- Step 2 for one component with a candidate (R103, R104): the survivor is extended, the absorbed leave the table. -/
def extendCand (ln : Line) (t0 : List (Option Candidate)) (s : State) (c : Component Nat) : State :=
  match candSurvivor t0 c.slots with
  | none => s
  | some i =>
    match entryAt t0 i with
    | none => s
    | some k =>
      let others := c.slots.filter fun j => j != i
      let s1 := others.foldl (fun s j => dropCand j s) s
      let t := s1.eng.work
      s1.withWork { t with
        cands := t.cands.set i
          (some (k.extended ln.slot.w ln.slot.zone.hasTrail c.runs (others.filterMap (entryAt t0)))) }

/-- The fate of the candidate in slot `i`, as step 2 left the table `t` (R105, R106). -/
def candFate (pmax : Nat) (t : List (Option Candidate)) (comps : List (Component Nat)) (outs : List CellResult)
    (i : Nat) : CandFate :=
  match entryAt t i with
  | none => .stays
  | some k =>
    if comps.any fun c => c.slots.contains i then (if pmax ≤ k.lines then .long else .stays)
    else if extentAbsent outs k.extL k.extR then .held
    else .closes

/-- Step 3 for the candidate in slot `i`. -/
def settleCand (markers : Marker → MarkerFields) (i : Nat) (f : CandFate) (s : State) : State :=
  match f with
  | .long => closeCand markers .long s i
  | .closes => closeCand markers .ordinary s i
  | .held =>
    match entryAt s.eng.work.cands i with
    | some k => s.withWork { s.eng.work with cands := s.eng.work.cands.set i (some { k with held := true }) }
    | none => s
  | .stays => s

/-- The candidate that a lone run opens (R107). -/
def newCand (ln : Line) (r : Run Nat) : Candidate where
  lane := r.key
  patch := ln.slot.patchNum
  firstW := ln.slot.w
  lastW := ln.slot.w
  lines := 1
  hullL := r.left
  hullR := r.right
  extL := r.left
  extR := r.right
  area := min r.cells maxCount
  peak := r.peak
  profile := r.profile
  target := ln.copy.markTarget r.key r.profile
  sat := r.sat
  edge := r.edge
  lead := ln.slot.zone.hasLead
  trail := ln.slot.zone.hasTrail
  held := false

/-- A run finds no room in the table (R108): it is counted, and CANDIDATE_TABLE_FULL is appended unless the latch is
set. -/
def splitNotice (ln : Line) (r : Run Nat) (s : State) : State :=
  let t := s.eng.work
  let s1 := s.withWork { t with splits := bump t.splits, candLatch := true }
  if t.candLatch then s1 else append ln.slot.w (.event .candidateTableFull r.key) s1

/-- The SPLIT record of a run with no room in the table (R108). -/
def splitReport (ln : Line) (r : Run Nat) (s : State) : State :=
  reportPinhole ln.copy.markerFields (newCand ln r) .split s

/-- A run with no room in the table, reported SPLIT (R108). -/
def splitRun (ln : Line) (r : Run Nat) (s : State) : State := splitReport ln r (splitNotice ln r s)

/-- A lone run opens a candidate in slot `i`, which closes LONG at once where PMAX allows one line (R107, R105). -/
def openCand (ln : Line) (r : Run Nat) (i : Nat) (s : State) : State :=
  let t := s.eng.work
  let s1 := s.withWork { t with cands := t.cands.set i (some (newCand ln r)) }
  if ln.copy.pmax ≤ 1 then closeCand ln.copy.markerFields .long s1 i else s1

/-- Step 4 for one lone run (R107, R105, R108). -/
def lonePinholeRun (ln : Line) (s : State) (r : Run Nat) : State :=
  match emptySlot s.eng.work.cands with
  | some i => openCand ln r i s
  | none => splitRun ln r s

/-- One piece of work of steps 3 and 4. -/
def runPinItem (ln : Line) (s : State) : PinItem → State
  | .fate i f => settleCand ln.copy.markerFields i f s
  | .run r => lonePinholeRun ln s r
  | .report r => splitReport ln r s

/-- One piece of work of steps 3 and 4 up to its first record: a run with no room leaves its SPLIT record to follow its
CANDIDATE_TABLE_FULL. -/
def advancePinItem (ln : Line) (s : State) (x : PinItem) (rest : List PinItem) : List PinItem × State :=
  match x, emptySlot s.eng.work.cands with
  | .run r, none => (.report r :: rest, splitNotice ln r s)
  | x, _ => (rest, runPinItem ln s x)

/-- Steps 1 and 2 of stage 4, which append no record, on a coated line of the candidates' patch or with the table empty,
and the work of steps 3 and 4 (R109). -/
def pinholeBegin (ln : Line) (outs : List CellResult) (s : State) : List PinItem × State :=
  let t := s.eng.work
  let runs := pinholeRuns t.streaks (t.cells.zip outs)
  let slotsOf := fun r => slotsWhere (fun k => k.matchedBy r) t.cands
  let comps := (componentsOf slotsOf runs).filter fun c => !c.slots.isEmpty
  let s2 := comps.foldl (extendCand ln t.cands) s
  let t2 := s2.eng.work.cands
  ((candAgeOrder t2 (slotsWhere (fun _ => true) t2)).map (fun i => .fate i (candFate ln.copy.pmax t2 comps outs i)) ++
      (runs.filter fun r => (slotsOf r).isEmpty).map .run, s2)

/-- Steps 1 to 4 begin: nothing to do on a line that is not coated (R109). -/
def beginPinholes (ln : Line) (outs : List CellResult) (s : State) : List PinItem × State :=
  if ln.slot.zone.coated then pinholeBegin ln outs s else ([], s)

/-- Steps 1 to 4 to their end (R109). -/
def pinholeLine (ln : Line) (outs : List CellResult) (s : State) : State :=
  match beginPinholes ln outs s with
  | (items, s1) => items.foldl (runPinItem ln) s1

/-- The open candidates carry another patch number than the line (R101). -/
def State.otherPatch (s : State) (patch : Nat) : Bool :=
  s.eng.work.cands.any fun o => match o with
    | some k => k.patch != patch
    | none => false

/-- The candidates that stage 4 closes before its steps, in age order (R101, R109): all of them on a line that is not
coated or is of another patch. -/
def patchCloses (ln : Line) (s : State) : List Nat :=
  if !ln.slot.zone.coated || s.otherPatch ln.slot.patchNum then candAgeOrder s.eng.work.cands s.candSlots else []

/-- Stage 4 (R101, R109). -/
def pinholeStage (ln : Line) (outs : List CellResult) (s : State) : State :=
  pinholeLine ln outs ((patchCloses ln s).foldl (closeCand ln.copy.markerFields .ordinary) s)

end Sys2Proof.Machine
end

