-- ==== Sys2Proof/Machine/Tallies.lean ====
section
/-! DEFINITION. Stage 5 of the line operation, the patch tally (R31 to R34). -/

namespace Sys2Proof.Machine

/-- The patch a contribution belongs to (R32). -/
def Contribution.patch : Contribution → Nat
  | .pinhole p => p
  | .streakOpen p => p
  | .lateMark p => p

/-- A tally with one contribution, if it is of the tally's patch (R32). -/
def Tally.add (t : Tally) (c : Contribution) : Tally :=
  if c.patch = t.num then
    match c with
    | .pinhole _ => { t with pinholes := bump t.pinholes }
    | .streakOpen _ => { t with streakOpens := bump t.streakOpens }
    | .lateMark _ => { t with lateMarks := bump t.lateMarks }
  else t

/-- A tally with the contributions of its patch (R32). -/
def Tally.addAll (t : Tally) (cs : List Contribution) : Tally := cs.foldl Tally.add t

/-- A tally opened by a line (R31). -/
def openTally (x : Slot) : Tally where
  num := x.patchNum
  firstW := x.w
  lastW := x.w
  s := x.patchS
  err := x.patchErr
  kind := x.patchKind
  coated := 0
  pinholes := 0
  streakOpens := 0
  lateMarks := 0
  skipped := 0
  short := false
  cut := false

/-- A tally with a coated line of its patch counted, its skipped-before count included (R31, R32). -/
def Tally.countLine (t : Tally) (x : Slot) : Tally :=
  { t with lastW := x.w, coated := bump t.coated, skipped := bumpBy t.skipped x.skippedBefore }

/-- The PATCH record of a tally (R33). -/
def Tally.closeBody (t : Tally) : RecordBody :=
  .patch
    { num := t.num, lastW := t.lastW, s := t.s, err := t.err, pinholes := t.pinholes, streakOpens := t.streakOpens
      lateMarks := t.lateMarks, skipped := t.skipped, kind := t.kind, short := t.short, cut := t.cut }

/-- The line counts in the tally of its patch: it is coated with a nonzero patch number (R31). -/
def Slot.tallied (x : Slot) : Bool := x.zone.coated && x.patchNum != 0

/-- The tally that a coated line with a nonzero patch number opens (R31), with the contributions of its patch. -/
def openedTally (x : Slot) (cs : List Contribution) : Option Tally :=
  if x.tallied then some (((openTally x).addAll cs).countLine x) else none

/-- The machine with the working tally replaced. -/
def State.withTally (s : State) (t : Option Tally) : State := s.withWork { s.eng.work with tally := t }

/-- Stage 5 (R31 to R33): contributions of the open tally's patch are entered; the line extends it, or closes it and
may open its own. -/
def tallyStage (x : Slot) (s : State) : State :=
  let cs := s.eng.contribs
  let s0 := { s with eng := { s.eng with contribs := [] } }
  match s0.eng.work.tally with
  | none => s0.withTally (openedTally x cs)
  | some t =>
    let t1 := t.addAll cs
    if x.tallied && x.patchNum == t.num then s0.withTally (some (t1.countLine x))
    else
      let t2 := { t1 with short := t1.short || x.prevShort }
      append t2.firstW t2.closeBody (s0.withTally (openedTally x cs))

/-- The close of the tally by a stop (R34): late marks and candidate closes of the stop are entered first. -/
def cutTally (s : State) : State :=
  let cs := s.eng.contribs
  let s0 := { s with eng := { s.eng with contribs := [] } }
  match s0.eng.work.tally with
  | none => s0
  | some t =>
    let t1 := { t.addAll cs with cut := true }
    append t1.firstW t1.closeBody (s0.withTally none)

end Sys2Proof.Machine
end

