-- ==== Sys2Proof/Machine/LineOperation.lean ====
section
/-! DEFINITION. The detection engine's line operation (R61, R62, R77 to R80) with the resets applied on taking a line
(R94, R95, R110, R130), and the completion of a stop (R171): the meanings of ENGINE_TAKE_LINE, LINE_PUBLISH and
STOP_COMPLETE. -/

namespace Sys2Proof.Machine

/-! ### Cell resets -/

/-- The request's reset set holds the cell (R94, R95). -/
def ResetRequest.covers (q : ResetRequest) (cell : Nat) : Bool :=
  match q with
  | .full => true
  | .head _ cells => cells.any fun x => decide (x.1 ≤ cell) && decide (cell < x.1 + x.2)

/-- Applies a cell reset to the records of its set (R94). -/
def resetCells (covers : Nat → Bool) (cells : List CellRec) : List CellRec :=
  cells.zipIdx.map fun x => if covers x.2 then CellRec.blank else x.1

/-- The streak in a slot has a member in the reset set (R130). -/
def streakTouched (covers : Nat → Bool) (cells : List CellRec) (i : Nat) : Bool :=
  cells.zipIdx.any fun x => x.1.member == some i && covers x.2

/-- The candidate's hull holds a cell of the reset set (R110). -/
def Candidate.touched (covers : Nat → Bool) (k : Candidate) : Bool :=
  (List.range (k.hullR + 1 - k.hullL)).any fun j => covers (k.hullL + j)

/-- Every open streak. -/
def State.streakSlots (s : State) : List Nat := slotsWhere (fun _ => true) s.eng.work.streaks

/-- A reset with its closes (R110, R130): the given streaks close with a reason, then the given candidates with CUT,
and the records of the set are reset. -/
def applyReset (markers : Marker → MarkerFields) (reason : CloseReason) (w : Nat) (covers : Nat → Bool)
    (streaks cands : List Nat) (s : State) : State :=
  let s1 := closeCands markers .cut cands (closeStreaks streaks reason w s)
  s1.withWork { s1.eng.work with cells := resetCells covers s1.eng.work.cells }

/-- A requested reset, from ARM or HEAD_CHANGED (R94). -/
def applyRequest (markers : Marker → MarkerFields) (w : Nat) (s : State) (q : ResetRequest) : State :=
  let t := s.eng.work
  applyReset markers .reset w q.covers (s.streakSlots.filter (streakTouched q.covers t.cells))
    (slotsWhere (fun k => k.touched q.covers) t.cands) s

/-- The geometry reset (R94). -/
def applyGeometry (markers : Marker → MarkerFields) (w : Nat) (s : State) : State :=
  applyReset markers .recipe w (fun _ => true) s.streakSlots s.candSlots s

/-- The sections the engine keeps of a copy (R77). -/
def keptOf (r : Recipe) : KeptSections := ⟨r.heads, r.lanes, r.mk0, r.mk1⟩

/-- HEADS or LANES of the copy differs from what the engine keeps (R77). -/
def geometryMoved (k : Option KeptSections) (r : Recipe) : Bool :=
  match k with
  | none => false
  | some x => x.heads != r.heads || x.lanes != r.lanes

/-! ### Taking a line -/

/-- Of two slots, the occupied one with the lower opening rank. -/
def olderSlot (s : State) (best : Option (Fin 4)) (i : Fin 4) : Option (Fin 4) :=
  if (s.asm.slots.get i).state = .free then best
  else
    match best with
    | none => some i
    | some j => if (s.asm.slots.get i).rank < (s.asm.slots.get j).rank then some i else best

/-- The oldest occupied slot (R61). -/
def State.oldestSlot (s : State) : Option (Fin 4) := [0, 1, 2, 3].foldl (olderSlot s) none

/-- The slot that the engine takes (R61): no line is in work and the oldest occupied slot is READY. -/
def State.takeable (s : State) : Option (Fin 4) :=
  if s.slotInWork.isSome then none
  else
    match s.oldestSlot with
    | none => none
    | some i => if (s.asm.slots.get i).state = .ready then some i else none

/-- The engine takes the line in slot `i` (R61, R77): IN_WORK, the requested resets, the geometry reset, and the copy's
sections kept. -/
def takeLine (i : Fin 4) (s : State) : State :=
  let x := { s.asm.slots.get i with state := .inWork }
  let copy := s.copyOf x.copy
  let s1 := s.withSlot i x
  let s2 := { s1 with eng := { s1.eng with contribs := [], resets := [], progress := .begun } }
  let s3 := s.eng.resets.foldl (applyRequest copy.markerFields x.w) s2
  let s4 := if geometryMoved s.eng.kept copy then applyGeometry copy.markerFields x.w s3 else s3
  { s4 with eng := { s4.eng with kept := some (keptOf copy) } }

/-- ENGINE_TAKE_LINE (R61). Where its condition does not hold, the event does not arise (assumption 5). -/
def execEngineTakeLine (s : State) : Host.Outcome State Fault Refusal :=
  .next (match s.takeable with
    | some i => takeLine i s
    | none => s)

/-! ### The line operation -/

/-- Stages 1 and 2 on the baseline file (R77): what they hand on, and the machine with the records worked. -/
def cellStages (ln : Line) (s : State) : List CellResult × State :=
  let out := ln.workCells 0 s.eng.work.cells ln.slot.cells
  (out.map Prod.snd, s.withWork { s.eng.work with cells := out.map Prod.fst })

/-- The five stages, each to its end (R77). -/
def runStages (ln : Line) (s : State) : State :=
  match cellStages ln s with
  | (outs, s1) => tallyStage ln.slot (pinholeStage ln outs (streakStage ln outs s1))

/-- The line operation goes on by one piece of work, which appends at most one of the line's records and hands that
record's mark action on (R77, R78). -/
def advance (ln : Line) (s : State) : LineProgress → LineProgress × State
  | .begun =>
    match cellStages ln s with
    | (outs, s1) =>
      match beginStreaks ln outs s1 with
      | (items, s2) => (.streaks outs items, s2)
  | .streaks outs [] => (.closes outs (patchCloses ln s), s)
  | .streaks outs (x :: items) => (.streaks outs items, runStreakItem ln s x)
  | .closes outs [] =>
    match beginPinholes ln outs s with
    | (items, s1) => (.pinholes items, s1)
  | .closes outs (i :: slots) => (.closes outs slots, closeCand ln.copy.markerFields .ordinary s i)
  | .pinholes [] => (.ended, tallyStage ln.slot s)
  | .pinholes (x :: items) =>
    match advancePinItem ln s x items with
    | (left, s1) => (.pinholes left, s1)
  | .ended => (.ended, s)

/-- What is left of the five stages (R77). -/
def finish (ln : Line) (s : State) : LineProgress → State
  | .begun => runStages ln s
  | .streaks outs items => tallyStage ln.slot (pinholeStage ln outs (items.foldl (runStreakItem ln) s))
  | .closes outs slots =>
    tallyStage ln.slot (pinholeLine ln outs (slots.foldl (closeCand ln.copy.markerFields .ordinary) s))
  | .pinholes items => tallyStage ln.slot (items.foldl (runPinItem ln) s)
  | .ended => s

/-- The machine with the line in work at another point of its operation. -/
def State.atProgress (s : State) (φ : LineProgress) : State := { s with eng := { s.eng with progress := φ } }

/-- The line in slot `i`, with its recipe copy (R77). -/
def State.lineOf (s : State) (i : Fin 4) : Line := ⟨s.asm.slots.get i, s.copyOf (s.asm.slots.get i).copy⟩

/-- The line in slot `i` is worked on by one piece (R77, R78). -/
def advanceLine (i : Fin 4) (s : State) : State :=
  match advance (s.lineOf i) (s.atProgress .begun) s.eng.progress with
  | (φ, t) => t.atProgress φ

/-- What the machine does while no command waits: the engine goes on with the line in work (R77). That it goes on then,
and a piece of work at a time, is the model's choice (assumptions 2 and 14). -/
def idle (s : State) : State :=
  match s.slotInWork with
  | some i => advanceLine i s
  | none => s

/-- The state the readers see is brought up to date (R79). -/
def publishTables (s : State) : State := { s with eng := { s.eng with pub := s.eng.work } }

/-- What is left of the line in slot `i` is worked through, the line is published, and its slot freed (R62, R78). -/
def publishLine (i : Fin 4) (s : State) : State :=
  let x := s.asm.slots.get i
  let s1 := publishTables (finish (s.lineOf i) (s.atProgress .begun) s.eng.progress)
  freeSlot i { s1 with eng := { s1.eng with lastLine := some (x.line, x.w) } }

/-- LINE_PUBLISH (R78). With no line in work the event does not arise (assumption 5). -/
def execLinePublish (s : State) : Host.Outcome State Fault Refusal :=
  .next (match s.slotInWork with
    | some i => publishLine i s
    | none => s)

/-! ### The completion of a stop -/

/-- The marker fields for the closes of a stop (R150): those the engine keeps, or the active copy's when no line was
taken in the run. -/
def State.stopMarkers (s : State) : Marker → MarkerFields :=
  match s.eng.kept with
  | none => s.rcp.active.markerFields
  | some k => fun m => match m with
    | .mk0 => k.mk0
    | .mk1 => k.mk1

/-- The W of the closes of a stop (R133): the last line published, or W when no line was taken in the run. -/
def State.stopW (s : State) : Nat :=
  match s.eng.kept, s.eng.lastLine with
  | some _, some x => x.2
  | _, _ => s.pos.w

/-- The tracker at the completion of a stop (R17). -/
def Tracker.stopped (k : Tracker) : Tracker :=
  { k with mode := .off, queue := [], patch := none, prevShort := false, misses := 0, frozen := false }

/-- The closes of a stop (R34, R111, R131): streaks with DISARM, candidates with CUT, the tally with CUT; both tables
end empty with their latches clear. -/
def stopCloses (s : State) : State :=
  let s1 := closeStreaks s.streakSlots .disarm s.stopW { s with eng := { s.eng with contribs := [] } }
  let s2 := cutTally (closeCands s.stopMarkers .cut s1.candSlots s1)
  s2.withWork { s2.eng.work with streakLatch := false, candLatch := false }

/-- The stop completes (R171): the closes, the tracker OFF, DISARMED, IDLE, and IDLE is a swap point (R167). -/
def completeStop (s : State) : State :=
  let s1 := publishTables (stopCloses s)
  let s2 := appendEvent .disarmed s1.rcp.stopBy { s1 with trk := s1.trk.stopped }
  swapPoint { s2 with rcp := { s2.rcp with run := .idle } }

/-- STOP_COMPLETE (R171): in STOPPING with no line in work. Otherwise the event does not arise (assumption 5). -/
def execStopComplete (s : State) : Host.Outcome State Fault Refusal :=
  .next (if s.rcp.run = .stopping ∧ s.slotInWork.isNone then completeStop s else s)

end Sys2Proof.Machine
end

