-- ==== Sys2Proof/Config.lean ====
section
/-! DEFINITION. What the manual leaves open: constants without a body, so that no proof can lean on a value. -/

namespace Sys2Proof.Config

/-- The major number of the firmware level (R179 gives none; assumption 9). It alters no behaviour. -/
opaque firmwareMajor : Byte

/-- The minor number of the firmware level (R179 gives none; assumption 9). It alters no behaviour. -/
opaque firmwareMinor : Byte

/-- The free choices: the `k`-th time two blocks act on one forward count in an order the manual leaves open
(R12, R26, R142), `orderChoice k` says which of them goes first (assumption 7). -/
opaque orderChoice : Nat → Bool

end Sys2Proof.Config
end

