-- ==== Sys2Proof/Machine/Links.lean ====
section
/-! DEFINITION. The head link receivers (chapter 3): the head frame body, judging, link states, identity, and the
meanings of CARRIER_GAINED, CARRIER_LOST, HEAD_FRAME and HEAD_FRAME_ABORT. -/

namespace Sys2Proof.Machine

/-! ### The head frame body (R38) -/

/-- A head frame: IDLE, or LINE with its tag, ILLUM_FAULT flag, cell count and cell values. -/
inductive HeadFrame where
  | idle (id : Nat)
  | line (id : Nat) (tag : BitVec 16) (illumFault : Bool) (count : Nat) (values : List Nat)
  deriving DecidableEq, Repr

/-- The head id of a frame. -/
def HeadFrame.id : HeadFrame → Nat
  | .idle id => id
  | .line id _ _ _ _ => id

/-- `n` cell values, packed two to three bytes (R38). -/
def unpackCells : Nat → List Byte → List Nat
  | 1, b0 :: b1 :: _ => [b0.toNat * 16 + b1.toNat / 16]
  | n + 2, b0 :: b1 :: b2 :: rest =>
    (b0.toNat * 16 + b1.toNat / 16) :: (b1.toNat % 16 * 256 + b2.toNat) :: unpackCells n rest
  | _, _ => []

/-- Reads a head frame body; none when it is malformed (R38, R39). -/
def readHeadBody (body : List Byte) : Option HeadFrame :=
  let id := ofBe ((body.drop 1).take 2)
  if id = 0 then none
  else if body.head? = some 2#8 then (if body.length = 3 then some (.idle id) else none)
  else if body.head? = some 1#8 then
    let n := ofBe ((body.drop 6).take 2)
    if 1 ≤ n ∧ n ≤ 512 ∧ body.length = 8 + (3 * n + 1) / 2 then
      some (.line id (BitVec.ofNat 16 (ofBe ((body.drop 3).take 2))) ((body.getD 5 0).getLsbD 0) n
        (unpackCells n (body.drop 8)))
    else none
  else none

/-! ### Judging (R40) -/

/-- The judgement of a frame: good, or bad with or without failing the identity test. -/
inductive Verdict where
  | good (f : HeadFrame)
  | bad (mismatch : Bool)
  deriving DecidableEq, Repr

/-- The identity test (R40, test 4) fails. -/
def identityFails (e : HeadEntry) (k : Link) (id : Nat) : Bool :=
  (e.expectedId != 0 && e.expectedId != id) || (k.state == .locked && id != k.learned)

/-- The cell count test (R40, test 5) fails. -/
def countFails (e : HeadEntry) : HeadFrame → Bool
  | .idle _ => false
  | .line _ _ _ n _ => e.enabled == 1 && decide (n < e.l0 + e.n)

/-- A closed frame judged in the order of R40, by the link's stitch entry of the active copy. -/
def judge (e : HeadEntry) (k : Link) (stored : List Byte) (malformed : Bool) : Verdict :=
  match intactBody stored malformed with
  | none => .bad false
  | some body =>
    match readHeadBody body with
    | none => .bad false
    | some f =>
      if identityFails e k f.id then .bad true
      else if countFails e f then .bad false
      else .good f

/-! ### Link states (R41 to R47) -/

/-- The machine with one link changed. -/
def State.withLink (s : State) (h : HeadNo) (k : Link) : State := { s with links := s.links.set h k }

/-- Why a link left LOCKED (R46). -/
inductive LostCause where
  | carrier
  | badFrames
  | resync
  deriving DecidableEq, Repr

/-- The number of a cause (R46). -/
def LostCause.num : LostCause → Nat
  | .carrier => 1
  | .badFrames => 2
  | .resync => 3

/-- A link has left LOCKED (R46): HEAD_LOST, and the assembler is told. -/
def headLost (h : HeadNo) (c : LostCause) (s : State) : State :=
  headLostAtSlots h (appendEvent .headLost (h.val + 256 * c.num) s)

/-- A new HUNT episode (R45): the good run is 0 and no mismatch has been reported. The bad run, which R43 keeps in
LOCKED only, stays as it stands (DESIGN CHOICE, assumption 27). -/
def Link.hunt (k : Link) : Link := { k with state := .hunt, good := 0, mismatchReported := false }

/-- The entry in the list of pending reset requests (R95) of a HEAD_CHANGED on head `h` with the given cells. -/
def requestHeadReset (h : HeadNo) (cells : Nat × Nat) : List ResetRequest → List ResetRequest
  | [] => [.head h [cells]]
  | .full :: rest => .full :: rest
  | .head h' cs :: rest =>
    if h' = h then .head h' (cs ++ [cells]) :: rest else .head h' cs :: requestHeadReset h cells rest

/-- A link enters LOCKED with a head id (R42, R44); the good run stays as it stands (DEDUCED, assumption 21), and so
does the mismatch flag (DESIGN CHOICE, assumption 27). -/
def lockLink (h : HeadNo) (id : Nat) (s : State) : State :=
  let k := s.links.get h
  let s1 := appendEvent .headLocked h.val (s.withLink h { k with state := .locked, bad := 0, learned := id })
  if k.learned = 0 ∨ k.learned = id then s1
  else
    let s2 := appendEvent .headChanged h.val s1
    let e := s2.rcp.active.heads.get h
    if e.enabled = 1 then
      { s2 with eng := { s2.eng with resets := requestHeadReset h (e.g0, e.n) s2.eng.resets } }
    else s2

/-- The packet of a good LINE frame (R48). -/
def deliver (h : HeadNo) (f : HeadFrame) (s : State) : State :=
  match f with
  | .idle _ => s
  | .line _ tag illum n values => takePacket ⟨h, tag, illum, n, values⟩ s

/-- A good frame at a link (R42, R43). -/
def goodFrame (h : HeadNo) (f : HeadFrame) (s : State) : State :=
  let k := s.links.get h
  match k.state with
  | .down => s
  | .hunt =>
    let run := if k.good ≠ 0 ∧ k.runId = f.id then k.good + 1 else 1
    let s1 := s.withLink h { k with good := run, runId := f.id }
    if 4 ≤ run then lockLink h f.id s1 else s1
  | .locked => deliver h f (s.withLink h { k with bad := 0 })

/-- A bad frame's counters (R40). -/
def Link.countBad (k : Link) (mismatch : Bool) : Link :=
  { k with
    badFrames := bump k.badFrames
    idMismatches := if mismatch then bump k.idMismatches else k.idMismatches }

/-- A bad frame at a link (R42, R43, R45). -/
def badFrame (h : HeadNo) (mismatch : Bool) (s : State) : State :=
  let k := (s.links.get h).countBad mismatch
  match k.state with
  | .down => s
  | .hunt =>
    if mismatch = true ∧ k.mismatchReported = false then
      appendEvent .headMismatch h.val (s.withLink h { k with good := 0, mismatchReported := true })
    else s.withLink h { k with good := 0 }
  | .locked =>
    if 3 ≤ k.bad + 1 then headLost h .badFrames (s.withLink h { k with bad := 3 }.hunt)
    else s.withLink h { k with bad := k.bad + 1 }

/-- A frame ended at a link (R40): judged when closed, counted when aborted. -/
def headFrameEnd (h : HeadNo) (s : State) : FrameEnd → State
  | .aborted =>
    let k := s.links.get h
    s.withLink h { k with aborted := bump k.aborted }
  | .closed stored malformed =>
    match judge (s.rcp.active.heads.get h) (s.links.get h) stored malformed with
    | .good f => goodFrame h f s
    | .bad mismatch => badFrame h mismatch s

/-- Bytes at a head link (R36): in DOWN they open no frame (R41). -/
def headBytes (h : HeadNo) (bytes : List Byte) (s : State) : State :=
  let k := s.links.get h
  if k.state = .down then s
  else
    match k.rx.feedAll headLimit bytes with
    | (rx, ends) => ends.foldl (headFrameEnd h) (s.withLink h { k with rx := rx })

/-! ### Meanings -/

/-- CARRIER_GAINED (R41): in DOWN the link enters HUNT and a new episode begins. -/
def execCarrierGained (h : HeadNo) (s : State) : Host.Outcome State Fault Refusal :=
  .next <|
    let k := s.links.get h
    if k.state = .down then s.withLink h { k with rx := Reception.shut }.hunt else s

/-- The link after the loss of carrier (R41): the frame in reception aborted and counted, the runs cleared, DOWN. The
mismatch flag, which belongs to a HUNT episode (R45), stays as it stands (DESIGN CHOICE, assumption 27). -/
def Link.dropped (k : Link) : Link :=
  { k with
    state := .down, rx := Reception.shut, good := 0, runId := 0, bad := 0
    aborted := if k.rx.isOpen && k.rx.begun then bump k.aborted else k.aborted }

/-- CARRIER_LOST (R41, R46) after the given bytes. -/
def execCarrierLost (h : HeadNo) (bytes : List Byte) (s : State) : Host.Outcome State Fault Refusal :=
  .next <|
    let s1 := headBytes h bytes s
    let k := s1.links.get h
    match k.state with
    | .down => s1
    | .hunt => s1.withLink h k.dropped
    | .locked => headLost h .carrier (s1.withLink h k.dropped)

/-- HEAD_FRAME (R36, R40): the given bytes, then a delimiter. -/
def execHeadFrame (h : HeadNo) (bytes : List Byte) (s : State) : Host.Outcome State Fault Refusal :=
  .next (headBytes h (bytes ++ delimiter) s)

/-- HEAD_FRAME_ABORT (R36, R40): the given bytes, then the abort sequence. -/
def execHeadFrameAbort (h : HeadNo) (bytes : List Byte) (s : State) : Host.Outcome State Fault Refusal :=
  .next (headBytes h (bytes ++ abortSequence) s)

/-- RESYNC_HEAD on a link (R47). -/
def resyncLink (h : HeadNo) (s : State) : State :=
  let k := s.links.get h
  match k.state with
  | .down => s
  | .hunt => s.withLink h k.hunt
  | .locked => headLost h .resync (s.withLink h k.hunt)

end Sys2Proof.Machine
end

