-- ==== Sys2Proof/Machine/Operands.lean ====
section
/-! DEFINITION. The operand forms of the station commands (R172, R176 to R178): the entries of a recipe copy as bytes,
the command codes, payload lengths and statuses, and response bodies. -/

namespace Sys2Proof.Machine

/-! ### Recipe entries as bytes (R178) -/

/-- The recipe sections by their code (R178). -/
inductive Section where
  | heads
  | lanes
  | profiles
  | patch
  | markers
  | general
  deriving DecidableEq, Repr

/-- The section with a code. -/
def sectionOf (code : Byte) : Option Section :=
  match code.toNat with
  | 1 => some .heads
  | 2 => some .lanes
  | 3 => some .profiles
  | 4 => some .patch
  | 5 => some .markers
  | 6 => some .general
  | _ => none

/-- How many entries a section has (R160). -/
def Section.entries : Section → Nat
  | .heads => 4
  | .lanes => 16
  | .profiles => 16
  | .patch => 1
  | .markers => 2
  | .general => 1

/-- The sizes of the fields of one entry, in order (R178). -/
def Section.sizes : Section → List Nat
  | .heads => [1, 2, 2, 2, 2]
  | .lanes => [1, 2, 2, 1, 1, 1]
  | .profiles => [1, 1, 1, 2, 2, 1, 2, 2, 1]
  | .patch => [4, 4, 4, 2, 2, 2, 1, 1]
  | .markers => [4, 2, 2]
  | .general => [2, 1]

/-- The size of one entry (R178). -/
def Section.entrySize (x : Section) : Nat := x.sizes.sum

/-- A number, taken as a head number 0..3. -/
def headNo (n : Nat) : HeadNo := Fin.ofNat 4 n

/-- The fields of an entry, in the order of R178. -/
def Recipe.fields (r : Recipe) (x : Section) (entry : Nat) : List Nat :=
  match x with
  | .heads =>
    let e := r.heads.get (headNo entry)
    [e.enabled, e.expectedId, e.l0, e.n, e.g0]
  | .lanes =>
    let e := r.lane entry
    [e.enabled, e.first, e.last, e.guard, e.base, e.marker]
  | .profiles =>
    let e := r.profile entry
    [e.pinEnable, e.streakEnable, e.markEnable, e.tp, e.ts, e.k, e.lOpen, e.lClose, e.warm]
  | .patch =>
    let f := r.patch
    [f.c, f.g, f.m, f.leadLen, f.trailLen, f.wm, f.f, f.polarity]
  | .markers =>
    let f := if entry = 0 then r.mk0 else r.mk1
    [f.offset, f.width, f.spacing]
  | .general => [r.p, r.pmax]

/-- Numbers in bytes of the given sizes. -/
def joinFields : List Nat → List Nat → List Byte
  | n :: ns, v :: vs => be n v ++ joinFields ns vs
  | _, _ => []

/-- An entry as bytes (R163, R178). -/
def Recipe.entryBytes (r : Recipe) (x : Section) (entry : Nat) : List Byte := joinFields x.sizes (r.fields x entry)

/-- The copy with the fields of an entry replaced (R163). -/
def Recipe.withFields (r : Recipe) (x : Section) (entry : Nat) (fs : List Nat) : Recipe :=
  match x, fs with
  | .heads, [a, b, c, d, e] => { r with heads := r.heads.set (headNo entry) ⟨a, b, c, d, e⟩ }
  | .lanes, [a, b, c, d, e, f] => { r with lanes := r.lanes.set entry ⟨a, b, c, d, e, f⟩ }
  | .profiles, [a, b, c, d, e, f, g, h, i] => { r with profiles := r.profiles.set entry ⟨a, b, c, d, e, f, g, h, i⟩ }
  | .patch, [a, b, c, d, e, f, g, h] => { r with patch := ⟨a, b, c, d, e, f, g, h⟩ }
  | .markers, [a, b, c] => if entry = 0 then { r with mk0 := ⟨a, b, c⟩ } else { r with mk1 := ⟨a, b, c⟩ }
  | .general, [a, b] => { r with p := a, pmax := b }
  | _, _ => r

/-- The copy with an entry replaced by the fields that bytes carry (R163, R178). -/
def Recipe.withEntry (r : Recipe) (x : Section) (entry : Nat) (data : List Byte) : Recipe :=
  r.withFields x entry (splitFields x.sizes data)

/-! ### Statuses and replies (R176) -/

/-- The status codes (R176). -/
inductive Status where
  | ok
  | held
  | notHolder
  | invalid
  | pending
  | nonePending
  | state
  | notReady
  | range
  | length
  | unknown
  deriving DecidableEq, Repr

/-- The number of a status (R176). -/
def Status.num : Status → Nat
  | .ok => 0
  | .held => 1
  | .notHolder => 2
  | .invalid => 3
  | .pending => 4
  | .nonePending => 5
  | .state => 6
  | .notReady => 7
  | .range => 8
  | .length => 9
  | .unknown => 10

/-- What a command is answered with: a status and a payload. -/
structure Reply where
  status : Status
  payload : List Byte
  deriving DecidableEq, Repr

/-- OK with a payload. -/
def Reply.ok (payload : List Byte) : Reply := ⟨.ok, payload⟩

/-- A status with an empty payload. -/
def Reply.plain (x : Status) : Reply := ⟨x, []⟩

/-- The body of a command frame (R172). -/
def commandBody (code tag : Byte) (payload : List Byte) : List Byte :=
  code :: tag :: (be 2 payload.length ++ payload)

/-- The body of a response frame (R172). -/
def responseBody (code tag : Byte) (r : Reply) : List Byte :=
  code :: tag :: (be 1 r.status.num ++ be 2 r.payload.length ++ r.payload)

/-! ### The commands (R177) -/

/-- The commands of the FS-24 (R177). -/
inductive Command where
  | ident
  | status
  | ackAttn
  | endService
  | arm
  | disarm
  | resetPosition
  | claimEdit
  | releaseEdit
  | stageWrite
  | stageRead
  | activeRead
  | commit
  | cancelPending
  | fetch
  | seek
  | subscribe
  | readCells
  | readCandidates
  | readStreaks
  | resyncHead
  | forceMark
  deriving DecidableEq, Repr

/-- The code of a command (R177). -/
def Command.code : Command → Byte
  | .ident => 0x01
  | .status => 0x02
  | .ackAttn => 0x03
  | .endService => 0x04
  | .arm => 0x10
  | .disarm => 0x11
  | .resetPosition => 0x12
  | .claimEdit => 0x20
  | .releaseEdit => 0x21
  | .stageWrite => 0x22
  | .stageRead => 0x23
  | .activeRead => 0x24
  | .commit => 0x25
  | .cancelPending => 0x26
  | .fetch => 0x30
  | .seek => 0x31
  | .subscribe => 0x32
  | .readCells => 0x40
  | .readCandidates => 0x41
  | .readStreaks => 0x42
  | .resyncHead => 0x50
  | .forceMark => 0x51

/-- Every command. -/
def allCommands : List Command :=
  [.ident, .status, .ackAttn, .endService, .arm, .disarm, .resetPosition, .claimEdit, .releaseEdit, .stageWrite,
    .stageRead, .activeRead, .commit, .cancelPending, .fetch, .seek, .subscribe, .readCells, .readCandidates,
    .readStreaks, .resyncHead, .forceMark]

/-- The command that a code names (R177). -/
def commandOf (code : Byte) : Option Command := allCommands.find? fun c => c.code == code

/-- The payload length a command calls for (R176, R178): exactly this many bytes, but for STAGE_WRITE, which asks for
at least 2. -/
def Command.payloadLength : Command → Nat
  | .ident | .status | .ackAttn | .endService | .arm | .disarm | .resetPosition | .claimEdit | .releaseEdit
  | .commit | .cancelPending | .readCandidates | .readStreaks => 0
  | .stageWrite | .stageRead | .activeRead => 2
  | .fetch => 1
  | .seek => 5
  | .subscribe => 4
  | .readCells => 3
  | .resyncHead => 1
  | .forceMark => 3

/-- The payload length passes the port's check (R176, check 3). -/
def Command.lengthFits (c : Command) (n : Nat) : Bool :=
  match c with
  | .stageWrite => decide (2 ≤ n)
  | _ => n == c.payloadLength

/-- Field `i` of a one-byte-per-field payload. -/
def byteAt (payload : List Byte) (i : Nat) : Byte := payload.getD i 0

/-- The two-byte field at an offset of a payload. -/
def wordAt (payload : List Byte) (i : Nat) : BitVec 16 := BitVec.ofNat 16 (ofBe ((payload.drop i).take 2))

/-- The four-byte field at an offset of a payload. -/
def longAt (payload : List Byte) (i : Nat) : BitVec 32 := BitVec.ofNat 32 (ofBe ((payload.drop i).take 4))

end Sys2Proof.Machine
end

