-- ==== Sys2Proof/Machine/Reads.lean ====
section
/-! DEFINITION. The commands that read the machine, move a port's cursor, serve attention, resynchronise a head or force
a mark, each at the block that owns it (R47, R97, R114, R135, R145 to R148, R157, R179, R180, R183), with the layouts
of their responses (R178). -/

namespace Sys2Proof.Machine

/-- The machine with one port changed. -/
def State.withPort (s : State) (p : PortNo) (x : Port) : State := { s with ports := s.ports.set p x }

/-! ### The defect list's commands -/

/-- The cursor and the unread count of a port, as SEEK and SUBSCRIBE answer them (R178). -/
def cursorReply (l : DefectList) (x : Port) : Reply := .ok (be 4 x.cursor ++ be 2 (l.unread x))

/-- FETCH (R145). -/
def cmdFetch (p : PortNo) (count : Byte) (s : State) : State × Reply :=
  let n := count.toNat
  if n < 1 ∨ 16 < n then (s, .plain .range)
  else
    let x := s.ports.get p
    let out := s.list.delivered x n
    let x1 := { x with cursor := s.list.cursorAfter x n, skipped := 0 }
    (s.withPort p x1,
      .ok (be 2 x.skipped ++ be 4 x1.cursor ++ be 2 (s.list.unread x1) ++ be 1 out.length ++ out.flatMap Record.bytes))

/-- The cursor that a SEEK asks for, if it may (R147): to a sequence number 0, OLDEST 1, NEXT 2. -/
def seekTarget (l : DefectList) (target : Byte) (seq : BitVec 32) : Option Nat :=
  match target.toNat with
  | 0 => if l.retained seq.toNat ∨ seq.toNat = l.next then some seq.toNat else none
  | 1 => some ((l.records.head?.map Record.seq).getD l.next)
  | 2 => some l.next
  | _ => none

/-- SEEK (R147). -/
def cmdSeek (p : PortNo) (target : Byte) (seq : BitVec 32) (s : State) : State × Reply :=
  match seekTarget s.list target seq with
  | none => (s, .plain .range)
  | some c =>
    let x := { s.ports.get p with cursor := c }
    (s.withPort p x, cursorReply s.list x)

/-- The port after a SUBSCRIBE (R148, R181): the three fields replaced, and the pending flags of causes taken out of the
mask cleared. -/
def Port.subscribed (x : Port) (sub : ClassSet) (watermark : Nat) (enable : CauseSet) : Port :=
  let causes := x.causes.inter enable
  { x with
    sub := sub, watermark := watermark, enable := enable, causes := causes
    atn := attentionLevel causes x.service }

/-- SUBSCRIBE (R148), with the DATA test of R144. -/
def cmdSubscribe (p : PortNo) (classes : Byte) (watermark : BitVec 16) (enable : Byte) (s : State) : State × Reply :=
  let n := watermark.toNat
  if n < 1 ∨ 512 < n then (s, .plain .range)
  else
    let x := s.ports.get p
    let x1 := x.subscribed (ClassSet.ofByte classes) n (CauseSet.ofByte enable)
    let x2 := if s.list.unread x < x.watermark ∧ n ≤ s.list.unread x1 then x1.raise .data else x1
    (s.withPort p x2, cursorReply s.list x2)

/-! ### The engine's published tables -/

/-- The last published line, in seven bytes (R178). -/
def lastLineBytes : Option (BitVec 16 × Nat) → List Byte
  | none => be 7 0
  | some x => be 1 1 ++ be 2 x.1.toNat ++ be 4 x.2

/-- A 16-bit two's complement number (R178). -/
def signedWord (v : Int) : List Byte := be 2 ((v % 65536).toNat)

/-- One cell record in a READ_CELLS response (R178). -/
def cellBytes (cell : Nat) (r : CellRec) : List Byte :=
  be 2 cell ++ boolByte r.seeded ++ be 2 r.b16 ++ signedWord r.s ++ be 1 r.warm ++ be 1 (r.member.getD 0xFF)

/-- Cell records in increasing order from a cell on. -/
def cellsBytes : Nat → List CellRec → List Byte
  | _, [] => []
  | cell, r :: rs => cellBytes cell r ++ cellsBytes (cell + 1) rs

/-- READ_CELLS (R97). -/
def cmdReadCells (first : BitVec 16) (count : Byte) (s : State) : State × Reply :=
  let f := first.toNat
  let n := count.toNat
  if n < 1 ∨ 64 < n ∨ 2048 < f + n then (s, .plain .range)
  else (s, .ok (lastLineBytes s.eng.lastLine ++ cellsBytes f ((s.eng.pub.cells.drop f).take n)))

/-- A mark target as a byte (R178). -/
def targetNum : Option Marker → Nat
  | none => 0
  | some .mk0 => 1
  | some .mk1 => 2

/-- One candidate in a READ_CANDIDATES response (R178). -/
def candBytes (i : Nat) (k : Candidate) : List Byte :=
  be 1 i ++ be 1 k.lane ++ be 4 k.patch ++ be 4 k.firstW ++ be 4 k.lastW ++ be 1 k.lines ++ be 2 k.hullL ++
    be 2 k.hullR ++ be 2 k.extL ++ be 2 k.extR ++ be 2 k.area ++ be 2 k.peak ++ be 1 k.profile ++
    be 1 (targetNum k.target) ++ bitsByte [k.sat, k.edge, k.lead, k.trail, k.held]

/-- One open streak in a READ_STREAKS response (R178). -/
def streakBytes (i : Nat) (st : Streak) : List Byte :=
  be 1 i ++ be 4 st.openSeq ++ be 1 st.pol.num ++ be 1 st.lane ++ be 1 st.profile ++ be 2 st.extL ++ be 2 st.extR ++
    be 4 st.openW ++ be 4 st.openPatch ++ be 4 st.curPatch ++ be 2 st.lines ++ be 2 st.patches ++ be 2 st.peak ++
    be 2 st.wideL ++ be 2 st.wideR ++ boolByte st.held

/-- The entries of a table in increasing slot order. -/
def tableBytes {α : Type} (f : Nat → α → List Byte) : Nat → List (Option α) → List Byte
  | _, [] => []
  | i, none :: rest => tableBytes f (i + 1) rest
  | i, some x :: rest => f i x ++ tableBytes f (i + 1) rest

/-- READ_CANDIDATES (R114). -/
def cmdReadCandidates (s : State) : State × Reply :=
  let t := s.eng.pub
  (s, .ok (lastLineBytes s.eng.lastLine ++ boolByte t.candLatch ++ be 1 (occupied t.cands) ++
    tableBytes candBytes 0 t.cands))

/-- READ_STREAKS (R135). -/
def cmdReadStreaks (s : State) : State × Reply :=
  let t := s.eng.pub
  (s, .ok (lastLineBytes s.eng.lastLine ++ boolByte t.streakLatch ++ be 1 (occupied t.streaks) ++
    tableBytes streakBytes 0 t.streaks))

/-! ### RESYNC_HEAD and FORCE_MARK -/

/-- RESYNC_HEAD (R47). -/
def cmdResyncHead (head : Byte) (s : State) : State × Reply :=
  if 3 < head.toNat then (s, .plain .range) else (resyncLink (headNo head.toNat) s, .ok [])

/-- The number of a mark outcome (R178). -/
def MarkOutcome.num : MarkOutcome → Nat
  | .entered => 0
  | .merged => 1
  | .dropped => 2

/-- The marker a FORCE_MARK names (R157). -/
def markerOf (code : Byte) : Option Marker :=
  match code.toNat with
  | 0 => some .mk0
  | 1 => some .mk1
  | _ => none

/-- FORCE_MARK (R157): an action at W plus a distance, with patch number 0. -/
def cmdForceMark (marker : Byte) (distance : BitVec 16) (s : State) : State × Reply :=
  match markerOf marker with
  | none => (s, .plain .range)
  | some m =>
    let f := s.rcp.active.markerFields m
    match enterAction m (s.pos.w + distance.toNat) f.width f.spacing 0 s with
    | (s1, r) => (s1, .ok (be 1 r.outcome.num ++ be 5 r.start ++ be 5 r.stop))

/-! ### Attention (R183) -/

/-- The response of ACK_ATTN and END_SERVICE (R178): a cause, 0 for NONE, and the two sets. -/
def attentionReply (c : Option Cause) (x : Port) : Reply :=
  .ok (be 1 ((c.map Cause.rank).getD 0) ++ x.causes.toByte ++ x.service.toByte)

/-- The port with its two sets replaced and ATNn set again (R182). -/
def Port.withSets (x : Port) (causes service : CauseSet) : Port :=
  { x with causes := causes, service := service, atn := attentionLevel causes service }

/-- ACK_ATTN (R183). -/
def cmdAckAttn (p : PortNo) (s : State) : State × Reply :=
  let x := s.ports.get p
  match x.causes.highest with
  | none => (s, attentionReply none x)
  | some c =>
    let x1 := x.withSets (x.causes.put c false) (x.service.put c true)
    (s.withPort p x1, attentionReply (some c) x1)

/-- END_SERVICE (R183). -/
def cmdEndService (p : PortNo) (s : State) : State × Reply :=
  let x := s.ports.get p
  match x.service.highest with
  | none => (s, attentionReply none x)
  | some c =>
    let x1 := x.withSets x.causes (x.service.put c false)
    (s.withPort p x1, attentionReply (some c) x1)

/-! ### IDENT and STATUS -/

/-- The characters "Mabeka" (R179). -/
def vendorBytes : List Byte := [0x4D, 0x61, 0x62, 0x65, 0x6B, 0x61]

/-- The characters "FS-24" (R179). -/
def partBytes : List Byte := [0x46, 0x53, 0x2D, 0x32, 0x34]

/-- IDENT (R179). -/
def cmdIdent (p : PortNo) (s : State) : State × Reply :=
  (s, .ok (be 1 vendorBytes.length ++ vendorBytes ++ be 1 partBytes.length ++ partBytes ++
    [Config.firmwareMajor, Config.firmwareMinor] ++ be 1 4 ++ be 1 16 ++ be 1 16 ++ be 1 p.val))

/-- The codes of the run states (R178). -/
def RunState.num : RunState → Nat
  | .idle => 0
  | .armed => 1
  | .stopping => 2

/-- The codes of the tracker states (R178). -/
def TrackerMode.num : TrackerMode → Nat
  | .off => 0
  | .seek => 1
  | .track => 2
  | .lost => 3
  | .continuous => 4

/-- The codes of the link states (R178). -/
def LinkState.num : LinkState → Nat
  | .down => 0
  | .hunt => 1
  | .locked => 2

/-- The codes of the slot states (R178). -/
def SlotState.num : SlotState → Nat
  | .free => 0
  | .opened => 1
  | .ready => 2
  | .inWork => 3

/-- A port number in one byte, 0xFF for none (R178). -/
def portByte (p : Option PortNo) : List Byte := be 1 ((p.map Fin.val).getD 0xFF)

/-- The run group of STATUS (R180). -/
def runGroup (r : RecipeStore) : List Byte :=
  be 1 r.run.num ++ boolByte r.pending.isSome ++ portByte (r.pending.map PendingCopy.port) ++
    boolByte r.retiring.isSome ++ portByte r.holder

/-- The position group of STATUS (R180). -/
def positionGroup (p : PositionCounter) (g : TriggerGenerator) : List Byte :=
  be 4 p.e.toNat ++ be 4 p.w ++ be 2 p.l ++ be 5 g.t ++ be 4 g.lastTrigger ++ be 2 g.n.toNat ++ be 2 p.illegal ++
    be 2 p.limitDiscards ++ be 2 p.reverseDiscards ++ be 2 g.linesSkipped

/-- The current patch in the tracker group: number, S and end, 0 for none (R178). -/
def patchBytes : Option Patch → List Byte
  | none => be 13 0
  | some p => be 4 p.num ++ be 4 p.s ++ be 5 p.endW

/-- The open tally in the tracker group: patch number and coated-line count, 0 for none (R178). -/
def tallyBytes : Option Tally → List Byte
  | none => be 6 0
  | some t => be 4 t.num ++ be 2 t.coated

/-- The tracker group of STATUS (R180); the tally as of the last published line (R79); `pred` as it is held (PRESUMED,
assumption 18). -/
def trackerGroup (k : Tracker) (tally : Option Tally) : List Byte :=
  be 1 k.mode.num ++ boolByte k.frozen ++ be 5 k.pred ++ be 1 k.misses ++ be 1 k.queue.length ++ patchBytes k.patch ++
    be 4 k.lastPatch ++ tallyBytes tally ++ be 2 k.spurious ++ be 2 k.backlogEdges ++ be 2 k.marksMissed ++
    be 2 k.startsDropped

/-- One link in the links group of STATUS (R180). -/
def linkBytes (k : Link) : List Byte :=
  be 1 k.state.num ++ be 2 k.learned ++ be 2 k.aborted ++ be 2 k.badFrames ++ be 2 k.idMismatches

/-- One slot in the assembler group of STATUS (R180): a FREE slot has no line and no sets. -/
def slotBytes (x : Slot) : List Byte :=
  if x.state = .free then be 6 0
  else
    be 1 x.state.num ++ be 2 x.line.toNat ++ headSetByte x.expected ++ headSetByte x.received ++ headSetByte x.absent

/-- The four counters of one head in the assembler group of STATUS (R180). -/
def headCounters (a : Assembler) (h : HeadNo) : List Byte :=
  be 2 (a.late.get h) ++ be 2 (a.duplicate.get h) ++ be 2 (a.short.get h) ++ be 2 (a.illum.get h)

/-- The assembler group of STATUS (R180). -/
def assemblerGroup (a : Assembler) : List Byte :=
  a.slots.toList.flatMap slotBytes ++ [0, 1, 2, 3].flatMap (headCounters a) ++ be 2 a.forced

/-- The engine group of STATUS (R180), as of the last published line. -/
def engineGroup (e : Engine) : List Byte :=
  lastLineBytes e.lastLine ++ be 1 (occupied e.pub.cands) ++ be 1 (occupied e.pub.streaks) ++
    boolByte e.pub.candLatch ++ boolByte e.pub.streakLatch ++ be 2 e.pub.splits ++ be 2 e.pub.refusals

/-- The list group of STATUS (R180). -/
def listGroup (l : DefectList) : List Byte := be 4 l.oldest ++ be 4 l.newest ++ be 4 l.next ++ be 2 l.records.length

/-- The markers group of STATUS (R180). -/
def markersGroup (k : Scheduler) : List Byte :=
  be 1 k.queue.length ++ boolByte k.latch ++ boolByte k.mk0 ++ boolByte k.mk1 ++ be 2 k.merges ++ be 2 k.late ++
    be 2 k.dropped ++ be 2 k.discarded

/-- The four counters of one port in the ports group of STATUS (R180). -/
def portCounters (x : Port) : List Byte :=
  be 2 x.badFrames ++ be 2 x.aborted ++ be 2 x.inactivity ++ be 2 x.overruns

/-- The ports group of STATUS (R180), with the sending port's attention. -/
def portsGroup (ports : Triple Port) (p : PortNo) : List Byte :=
  let x := ports.get p
  ports.toList.flatMap portCounters ++ x.causes.toByte ++ x.service.toByte ++ x.enable.toByte

/-- STATUS (R180): the groups in the order of its table, all taken at one moment (DESIGN CHOICE, assumption 15). -/
def cmdStatus (p : PortNo) (s : State) : State × Reply :=
  (s, .ok (runGroup s.rcp ++ positionGroup s.pos s.trig ++ trackerGroup s.trk s.eng.pub.tally ++
    s.links.toList.flatMap linkBytes ++ assemblerGroup s.asm ++ engineGroup s.eng ++ listGroup s.list ++
    markersGroup s.mark ++ portsGroup s.ports p))

end Sys2Proof.Machine
end

