-- ==== Sys2Proof/Machine/Checks.lean ====
section
/-! DEFINITION. The checks that COMMIT makes on the staging copy (R165), in their order. -/

namespace Sys2Proof.Machine

/-- The detail codes of INVALID, in the order of the checks (R165). -/
inductive Detail where
  | headsRange
  | headOverlap
  | laneRange
  | laneOverlap
  | laneCoverage
  | profileRange
  | patchRange
  | queueDepth
  | markerRange
  | markerOffset
  | pitch
  deriving DecidableEq, Repr

/-- The number of a detail code (R176). -/
def Detail.num : Detail → Nat
  | .headsRange => 1
  | .headOverlap => 2
  | .laneRange => 3
  | .laneOverlap => 4
  | .laneCoverage => 5
  | .profileRange => 6
  | .patchRange => 7
  | .queueDepth => 8
  | .markerRange => 9
  | .markerOffset => 10
  | .pitch => 11

/-- The entry reported where the check concerns no single entry (R176). -/
def noEntry : Nat := 0xFF

/-- The largest length in counts (R15, R150). -/
def maxLength : Nat := 16777215

/-- A number within a range, both ends included. -/
def within (lo hi n : Nat) : Bool := decide (lo ≤ n) && decide (n ≤ hi)

/-- A stitch entry within its ranges (R50). -/
def HeadEntry.inRange (e : HeadEntry) : Bool :=
  within 0 1 e.enabled && within 0 65535 e.expectedId && within 0 511 e.l0 && within 1 512 e.n &&
    within 0 512 (e.l0 + e.n) && within 0 2047 e.g0 && within 0 2048 (e.g0 + e.n)

/-- A lane within its ranges (R67). -/
def LaneEntry.inRange (l : LaneEntry) : Bool :=
  within 0 1 l.enabled && within 0 2047 l.first && within l.first 2047 l.last && within 0 15 l.guard &&
    within 0 15 l.base && within 0 2 l.marker

/-- A profile within its ranges (R75). -/
def Profile.inRange (p : Profile) : Bool :=
  within 0 1 p.pinEnable && within 0 1 p.streakEnable && within 0 1 p.markEnable && within 1 4095 p.tp &&
    within 1 4095 p.ts && within 1 10 p.k && within 2 4095 p.lOpen && within 1 (p.lOpen - 1) p.lClose &&
    within 0 255 p.warm

/-- The PATCH section within its ranges (R15). -/
def PatchFields.inRange (f : PatchFields) : Bool :=
  (f.c == 0 || within 16 maxLength f.c) && within 1 maxLength f.g && within 0 maxLength f.m &&
    within 0 65535 f.leadLen && within 0 65535 f.trailLen && within 0 65535 f.wm && within 0 7 f.f &&
    within 0 1 f.polarity

/-- A marker entry within its ranges (R150). -/
def MarkerFields.inRange (f : MarkerFields) : Bool :=
  within 0 maxLength f.offset && within 1 65535 f.width && within 0 65535 f.spacing

/-- Two enabled stitch entries feed a common global cell (R50, R165). -/
def headsOverlap (a b : HeadEntry) : Bool :=
  a.enabled == 1 && b.enabled == 1 && decide (a.g0 < b.g0 + b.n) && decide (b.g0 < a.g0 + a.n)

/-- Two enabled lanes share a cell (R68, R165). -/
def lanesOverlap (a b : LaneEntry) : Bool :=
  a.enabled == 1 && b.enabled == 1 && decide (a.first ≤ b.last) && decide (b.first ≤ a.last)

/-- The number of the first element at fault. -/
def firstAt {α : Type} (bad : α → Bool) : Nat → List α → Option Nat
  | _, [] => none
  | i, x :: xs => if bad x then some i else firstAt bad (i + 1) xs

/-- The lower number of the first pair at fault: the lowest element that is at fault with a later one. -/
def firstPair {α : Type} (bad : α → α → Bool) : Nat → List α → Option Nat
  | _, [] => none
  | i, x :: xs => if xs.any (bad x) then some i else firstPair bad (i + 1) xs

/-- Every cell of the lane, if enabled, is fed by an enabled head (R68). -/
def laneCovered (heads : List HeadEntry) (l : LaneEntry) : Bool :=
  l.enabled != 1 || (List.range (l.last + 1 - l.first)).all fun i => heads.any fun e => e.feeds (l.first + i)

/-- An enabled lane names the marker output, 1 for MK0 and 2 for MK1 (R165). -/
def markerNamed (lanes : List LaneEntry) (m : Nat) : Bool := lanes.any fun l => l.enabled == 1 && l.marker == m

/-- The marker is named by an enabled lane and its offset is below (PMAX + 5) × P (R150, R165). -/
def offsetFails (r : Recipe) (m : Nat) (f : MarkerFields) : Bool :=
  markerNamed r.lanes m && decide (f.offset < (r.pmax + 5) * r.p)

/-- The entry at fault of one check, if the copy fails it (R165). -/
def Recipe.fails (r : Recipe) : Detail → Option Nat
  | .headsRange => firstAt (fun e => !e.inRange) 0 r.heads.toList
  | .headOverlap => firstPair headsOverlap 0 r.heads.toList
  | .laneRange => firstAt (fun l => !l.inRange) 0 r.lanes
  | .laneOverlap => firstPair lanesOverlap 0 r.lanes
  | .laneCoverage => firstAt (fun l => !laneCovered r.heads.toList l) 0 r.lanes
  | .profileRange => firstAt (fun p => !p.inRange) 0 r.profiles
  | .patchRange => if r.patch.inRange then none else some noEntry
  | .queueDepth =>
    if 0 < r.patch.c ∧ 4 * (r.patch.c + r.patch.g) ≤ r.patch.m then some noEntry else none
  | .markerRange => firstAt (fun f => !f.inRange) 0 [r.mk0, r.mk1]
  | .markerOffset => if offsetFails r 1 r.mk0 then some 0 else if offsetFails r 2 r.mk1 then some 1 else none
  | .pitch => if within 1 4095 r.p && within 1 255 r.pmax then none else some noEntry

/-- The checks in their order (R165). -/
def allDetails : List Detail :=
  [.headsRange, .headOverlap, .laneRange, .laneOverlap, .laneCoverage, .profileRange, .patchRange, .queueDepth,
    .markerRange, .markerOffset, .pitch]

/-- The first check that the copy fails, with the entry reported (R165). -/
def Recipe.firstFault (r : Recipe) : Option (Detail × Nat) :=
  allDetails.findSome? fun d => (r.fails d).map fun e => (d, e)

/-- A copy that COMMIT accepts (R165). -/
def Recipe.valid (r : Recipe) : Bool := r.firstFault.isNone

end Sys2Proof.Machine
end

