-- ==== Sys2Proof/Machine/Tracker.lean ====
section
/-! DEFINITION. The registration tracker (chapter 2): pushes, pops, misses, mark edges and the zone of a line, and the
meaning of MARK_EDGE. -/

namespace Sys2Proof.Machine

/-- The most entries the pending start queue holds (R23). -/
def startCapacity : Nat := 4

/-- Puts a start in its place by position (R23). -/
def insertStart (x : StartEntry) : List StartEntry → List StartEntry
  | [] => [x]
  | e :: es => if x.pos < e.pos then x :: e :: es else e :: insertStart x es

/-- The tracker is at work: not OFF and not frozen. -/
def Tracker.running (k : Tracker) : Bool := k.mode != .off && !k.frozen

/-- One pop (R24): the start begins the current patch. `prevShort` is set when W has not reached the end of the patch
before, also of one that began at this same event (DEDUCED, assumption 22). -/
def popStart (e : StartEntry) (rest : List StartEntry) (s : State) : State :=
  let k := s.trk
  let num := following k.lastPatch
  let wasCoated := match k.patch with
    | none => false
    | some p => decide (s.pos.w < p.endW)
  { s with
    trk := { k with
      queue := rest
      lastPatch := num
      patch := some ⟨num, e.pos, e.pos + s.rcp.active.patch.c, e.err, e.kind⟩
      prevShort := wasCoated || k.prevShort } }

/-- The pops of every start W has reached, at most `fuel` of them (R24). -/
def popStarts : Nat → State → State
  | 0, s => s
  | fuel + 1, s =>
    match s.trk.queue with
    | [] => s
    | e :: rest => if e.pos ≤ s.pos.w then popStarts fuel (popStart e rest s) else s

/-- The pop test of R24, made when W changes and when a start is pushed. -/
def popWork (s : State) : State := if s.trk.running then popStarts s.trk.queue.length s else s

/-- A push (R23). From TRACK with a full queue, registration is lost; R19 tests the room before it pushes. -/
def pushStart (pos : Nat) (err : Int) (kind : StartKind) (s : State) : State :=
  let k := s.trk
  if k.queue.any (fun e => e.pos == pos) then
    { s with trk := { k with startsDropped := bump k.startsDropped } }
  else if k.queue.length < startCapacity then
    { s with trk := { k with queue := insertStart ⟨pos, err, kind⟩ k.queue } }
  else
    appendEvent .regLost 2 { s with trk := { k with startsDropped := bump k.startsDropped, mode := .lost } }

/-- The condition of a miss (R21): in TRACK and not frozen, W has passed pred + Wm. -/
def State.missDue (s : State) : Bool :=
  s.trk.mode == .track && !s.trk.frozen && decide (s.trk.pred + s.rcp.active.patch.wm < s.pos.w)

/-- One miss (R21, R22): counted and reported, then bridged by the flywheel or the loss of registration. -/
def missMark (s : State) : State :=
  let f := s.rcp.active.patch
  let misses := s.trk.misses + 1
  let s1 := appendEvent .markMissed misses
    { s with trk := { s.trk with misses := misses, marksMissed := bump s.trk.marksMissed } }
  if misses ≤ f.f then
    let s2 := pushStart (s1.trk.pred + f.m) 0 .flywheel s1
    { s2 with trk := { s2.trk with prev := s2.trk.pred, pred := s2.trk.pred + (f.c + f.g) } }
  else appendEvent .regLost 1 { s1 with trk := { s1.trk with mode := .lost } }

/-- The miss test, made again as often as it requires, at most `fuel` times (R21). -/
def missMarks : Nat → State → State
  | 0, s => s
  | fuel + 1, s => if s.missDue then missMarks fuel (missMark s) else s

/-- The miss test of R21. A miss that takes the count above F ends the run of misses, so F + 1 rounds suffice. No other
block's record falls between the events of the run (DEDUCED, assumption 24). -/
def missWork (s : State) : State := missMarks (s.rcp.active.patch.f + 1) s

/-- The count at which W reaches the end of the current patch, in TRACK and not frozen (R28). -/
def State.coatToGapDue (s : State) : Bool :=
  s.trk.mode == .track && !s.trk.frozen &&
    match s.trk.patch with
    | none => false
    | some p => p.endW == s.pos.w

/-- The coat-to-gap transition (R28): a swap point. -/
def coatToGapWork (s : State) : State := if s.coatToGapDue then swapPoint s else s

/-- A pop is due (R24). -/
def State.popDue (s : State) : Bool :=
  s.trk.running && match s.trk.queue with
    | [] => false
    | e :: _ => decide (e.pos ≤ s.pos.w)

/-- The edge is a mark edge by the active copy's polarity (R18). -/
def isMarkEdge (e : EdgeSense) (polarity : Nat) : Bool :=
  match e with
  | .rising => polarity == 0
  | .falling => polarity != 0

/-- A mark edge in SEEK or LOST (R19). -/
def acquire (s : State) : State :=
  let f := s.rcp.active.patch
  let w := s.pos.w
  if s.trk.queue.length < startCapacity then
    let s1 := { s with
      trk := { s.trk with mode := .track, misses := 0, prev := w, pred := w + (f.c + f.g) } }
    popWork (pushStart (w + f.m) 0 .acq (appendEvent .regAcquired 0 s1))
  else { s with trk := { s.trk with startsDropped := bump s.trk.startsDropped } }

/-- A mark edge in TRACK (R20). -/
def edgeInTrack (s : State) : State :=
  let f := s.rcp.active.patch
  let w := s.pos.w
  let k := s.trk
  if w + f.wm < k.pred ∨ w ≤ k.prev then { s with trk := { k with spurious := bump k.spurious } }
  else
    let s1 := { s with trk := { k with misses := 0, prev := w, pred := w + (f.c + f.g) } }
    popWork (pushStart (w + f.m) ((w : Int) - (k.pred : Int)) .plain s1)

/-- A mark edge at the tracker (R18). -/
def takeEdge (s : State) : State :=
  if s.trk.frozen then s
  else
    match s.trk.mode with
    | .off | .continuous => s
    | .seek | .lost =>
      if 0 < s.pos.l then { s with trk := { s.trk with backlogEdges := bump s.trk.backlogEdges } } else acquire s
    | .track =>
      if 0 < s.pos.l then { s with trk := { s.trk with backlogEdges := bump s.trk.backlogEdges } } else edgeInTrack s

/-- What the tracker hands to an opening line (R25 to R27). -/
structure LineZone where
  zone : Zone
  patchNum : Nat
  patchS : Nat
  patchErr : Int
  patchKind : StartKind
  deriving DecidableEq, Repr

/-- A zone with no patch: patch number 0 (R25, R27). R26 hands S, registration error and start flags for a coated line
of a patch only; they are 0, 0 and none here (DESIGN CHOICE, assumption 30). -/
def LineZone.bare (z : Zone) : LineZone := ⟨z, 0, 0, 0, .plain⟩

/-- The zone of a coated line by its two flags (R25). -/
def zoneOf (lead trail : Bool) : Zone :=
  match lead, trail with
  | false, false => .body
  | true, false => .lead
  | false, true => .trail
  | true, true => .leadTrail

/-- The zone of a line opened at the present W (R25, R27). -/
def State.lineZone (s : State) : LineZone :=
  let f := s.rcp.active.patch
  let w := s.pos.w
  match s.trk.mode with
  | .continuous => .bare .body
  | .off => .bare .unknown
  | .seek | .track | .lost =>
    match s.trk.patch with
    | none => .bare .unknown
    | some p =>
      if p.s ≤ w ∧ w < p.endW then
        ⟨zoneOf (decide (w < p.s + f.leadLen)) (decide (p.endW ≤ w + f.trailLen)), p.num, p.s, p.err, p.kind⟩
      else if p.endW + f.g + f.wm < w ∧ s.trk.queue = [] then .bare .unknown
      else .bare .gap

/-- MARK_EDGE (R18): an edge of the other polarity reaches no rule. -/
def execMarkEdge (edge : EdgeSense) (s : State) : Host.Outcome State Fault Refusal :=
  .next (if isMarkEdge edge s.rcp.active.patch.polarity then takeEdge s else s)

end Sys2Proof.Machine
end

