-- ==== Sys2Proof/Machine/Position.lean ====
section
/-! DEFINITION. The position counter and the line trigger generator (chapter 1): counts, triggers, opening and
skipping of lines, and the meanings of POWER_ON_RESET and ENCODER_TRANSITION. -/

namespace Sys2Proof.Machine

/-! ### Line triggers -/

/-- The heads that line expects (R54): enabled in the active copy and LOCKED at the trigger. -/
def State.expectedHeads (s : State) : Quad Bool :=
  headSet fun h => (s.rcp.active.heads.get h).enabled == 1 && (s.links.get h).state == .locked

/-- Line n opens in slot `i` (R8, R9, R26, R54): the slot takes its parts, the trigger word goes out (R11), n rises,
and the pending skipped count is reported. -/
def openLine (i : Fin 4) (s : State) : State :=
  let z := s.lineZone
  let x : Slot := { s.asm.slots.get i with
    state := .opened, line := s.trig.n, rank := s.asm.lastRank + 1, w := s.pos.w
    zone := z.zone, patchNum := z.patchNum, patchS := z.patchS, patchErr := z.patchErr, patchKind := z.patchKind
    prevShort := s.trk.prevShort, skippedBefore := s.trig.skipped, copy := .active
    expected := s.expectedHeads, received := Quad.fill false, absent := Quad.fill false }
  let s1 := s.withSlot i x.completed
  reportSkipped s1.pos.w { s1 with
    asm := { s1.asm with lastRank := s1.asm.lastRank + 1 }
    trk := { s1.trk with prevShort := false }
    trig := { s1.trig with n := s1.trig.n + 1, out := frameOf (be 2 s.trig.n.toNat) } }

/-- A trigger that finds no FREE slot (R9). -/
def skipLine (s : State) : State :=
  { s with trig := { s.trig with skipped := bump s.trig.skipped, linesSkipped := bump s.trig.linesSkipped } }

/-- A line trigger is a swap point while ARMED and the tracker is CONTINUOUS, SEEK or LOST (R167). -/
def State.triggerSwaps (s : State) : Bool :=
  s.swapWaits && s.rcp.run == .armed && (s.trk.mode == .continuous || s.trk.mode == .seek || s.trk.mode == .lost)

/-- A trigger at the present W, in the order of R8. -/
def takeTrigger (s : State) : State :=
  let s1 := if s.triggerSwaps then takeSwap s else s
  let s2 := forceSlots s1
  let s3 := match s2.freeSlotNo with
    | some i => openLine i s2
    | none => skipLine s2
  { s3 with trig := { s3.trig with t := s3.pos.w + s3.rcp.active.p, lastTrigger := s3.pos.w } }

/-- A trigger is due (R7): the run state is ARMED and W has reached T. -/
def State.triggerDue (s : State) : Bool := s.rcp.run == .armed && decide (s.trig.t ≤ s.pos.w)

/-- The trigger, if it is due. -/
def triggerWork (s : State) : State := if s.triggerDue then takeTrigger s else s

/-! ### Counts -/

/-- The tracker has work at this count (R28). -/
def State.trackerDue (s : State) : Bool := s.coatToGapDue || s.missDue || s.popDue

/-- A free choice (assumption 7). -/
def drawChoice (s : State) : Bool × State := (Config.orderChoice s.freeCount, { s with freeCount := s.freeCount + 1 })

/-- Runs `work` now or leaves it for later: later only when it is due, something else at this count is still due, and
the free choice says so. -/
def nowOrLater (due others : Bool) (work : State → State) (s : State) : State :=
  if due && others then
    match drawChoice s with
    | (true, s1) => work s1
    | (false, s1) => s1
  else if due then work s else s

/-- A place at which the trigger and the position limit may act, before or between the tracker's works. `limit` says
whether the position limit is still to act; the answer says so too. -/
def freePlace (p : State × Bool) : State × Bool :=
  let s1 := nowOrLater p.1.triggerDue (p.1.trackerDue || p.2) triggerWork p.1
  if p.2 && (s1.trackerDue || s1.triggerDue) then
    match drawChoice s1 with
    | (true, s2) => (positionLimit s2, false)
    | (false, s2) => (s2, true)
  else if p.2 then (positionLimit s1, false)
  else (s1, p.2)

/-- The tracker's works at a forward count keep their order (R28); the trigger (R7, R26) and the position limit (R6,
R12) act at free places before, between and after them, and at the latest after them. -/
def countWork (limit : Bool) (s : State) : State :=
  let p1 := freePlace (s, limit)
  let p2 := freePlace (coatToGapWork p1.1, p1.2)
  let p3 := freePlace (missWork p2.1, p2.2)
  let p4 := freePlace (popWork p3.1, p3.2)
  let s5 := if p4.2 then positionLimit p4.1 else p4.1
  triggerWork s5

/-- W has risen to a new value (R2): the marker scheduler, the tracker, the trigger generator and, at the limit, the
position counter act on it. -/
def positionRose (s : State) : State := countWork (decide (s.pos.w = maxPos)) (settleMarks s)

/-- A forward count (R3). -/
def forwardCount (s : State) : State :=
  let p := { s.pos with e := s.pos.e + 1 }
  if 0 < s.pos.l then
    { s with pos := { p with l := s.pos.l - 1, overrun := if s.pos.l = 1 then false else s.pos.overrun } }
  else if s.pos.w < maxPos then positionRose { s with pos := { p with w := s.pos.w + 1 } }
  else { s with pos := { p with limitDiscards := bump s.pos.limitDiscards } }

/-- A backward count (R4, R5). -/
def backwardCount (s : State) : State :=
  let p := { s.pos with e := s.pos.e - 1 }
  if s.pos.l < maxCount then { s with pos := { p with l := s.pos.l + 1 } }
  else
    let s1 := { s with pos := { p with reverseDiscards := bump s.pos.reverseDiscards, overrun := true } }
    if s.pos.overrun then s1 else appendEvent .reverseOverrun 0 s1

/-- The next input state in the forward sense (R1): A leads B. -/
def nextInputs : Bool × Bool → Bool × Bool
  | (false, false) => (true, false)
  | (true, false) => (true, true)
  | (true, true) => (false, true)
  | (false, true) => (false, false)

/-- The new inputs become the reference (R1). -/
def setReference (a b : Bool) (s : State) : State := { s with pos := { s.pos with refA := a, refB := b } }

/-- ENCODER_TRANSITION (R1): compared with the reference, a forward count, a backward count or an illegal
transition. Inputs equal to the reference are no change. -/
def execEncoderTransition (a b : Bool) (s : State) : Host.Outcome State Fault Refusal :=
  .next <|
    if (a, b) = (s.pos.refA, s.pos.refB) then s
    else if (a, b) = nextInputs (s.pos.refA, s.pos.refB) then forwardCount (setReference a b s)
    else if nextInputs (a, b) = (s.pos.refA, s.pos.refB) then backwardCount (setReference a b s)
    else setReference a b { s with pos := { s.pos with illegal := bump s.pos.illegal } }

/-- POWER_ON_RESET (R1, R2, R41): every block at its power-on state, the reference at the sampled inputs, and a gain of
carrier at once on every link that has it. The commands still waiting, and the count of free choices drawn, are the
model's own and stay. -/
def execPowerOnReset (a b : Bool) (carriers : Quad Bool) (s : State) : Host.Outcome State Fault Refusal :=
  .next { setReference a b State.reset with
    links := carriers.map fun c => if c then { Link.reset with state := .hunt } else Link.reset
    freeCount := s.freeCount
    pending := s.pending }

end Sys2Proof.Machine
end

