-- ==== Sys2Proof/Machine/RunControl.lean ====
section
/-! DEFINITION. The recipe store and run control (chapter 11) and RESET_POSITION (R13): what each command does at the
block that owns it, and the meaning of EDIT_EXPIRY. -/

namespace Sys2Proof.Machine

/-! ### The edit right (R162) -/

/-- The silence timer's length in ms (R162). -/
def silenceLimit : Nat := 2000

/-- The port holds the edit right. -/
def State.holds (s : State) (p : PortNo) : Bool := s.rcp.holder == some p

/-- An edit-class command from the holder restarts the silence timer (R162), which the model does not count down (DESIGN
CHOICE, assumption 8). -/
def restartSilence (p : PortNo) (s : State) : State :=
  if s.holds p then { s with rcp := { s.rcp with silenceMs := silenceLimit } } else s

/-- The edit right becomes free and the staging copy is discarded (R162). -/
def freeEdit (s : State) : State :=
  { s with rcp := { s.rcp with holder := none, staging := none, silenceMs := 0 } }

/-- CLAIM_EDIT (R162). -/
def cmdClaimEdit (p : PortNo) (s : State) : State × Reply :=
  match s.rcp.holder with
  | none =>
    ({ s with
        rcp := { s.rcp with holder := some p, staging := some s.rcp.active, silenceMs := silenceLimit } },
      .ok [])
  | some q => if q = p then (restartSilence p s, .ok []) else (s, ⟨.held, be 1 q.val⟩)

/-- RELEASE_EDIT (R162). -/
def cmdReleaseEdit (p : PortNo) (s : State) : State × Reply :=
  if s.holds p then (freeEdit s, .ok []) else (s, .plain .notHolder)

/-- EDIT_EXPIRY (R162): the holder's silence timer runs out. While the right is free the timer is stopped, and the
event does not arise (assumption 5). -/
def execEditExpiry (s : State) : Host.Outcome State Fault Refusal :=
  .next (match s.rcp.holder with
    | some q => appendEvent .editExpired q.val (freeEdit s)
    | none => s)

/-! ### Reading and writing entries (R163) -/

/-- The section and entry that a command names, if both exist (R163, check 2). -/
def entryNamed (sec entry : Byte) : Option (Section × Nat) :=
  match sectionOf sec with
  | some x => if entry.toNat < x.entries then some (x, entry.toNat) else none
  | none => none

/-- STAGE_WRITE (R163). -/
def cmdStageWrite (p : PortNo) (sec entry : Byte) (data : List Byte) (s : State) : State × Reply :=
  let s1 := restartSilence p s
  match (if s.holds p then s.rcp.staging else none) with
  | none => (s1, .plain .notHolder)
  | some staging =>
    match entryNamed sec entry with
    | none => (s1, .plain .range)
    | some (x, i) =>
      if data.length = x.entrySize then
        ({ s1 with rcp := { s1.rcp with staging := some (staging.withEntry x i data) } }, .ok [])
      else (s1, .plain .length)

/-- STAGE_READ (R163). -/
def cmdStageRead (p : PortNo) (sec entry : Byte) (s : State) : State × Reply :=
  let s1 := restartSilence p s
  match (if s.holds p then s.rcp.staging else none) with
  | none => (s1, .plain .notHolder)
  | some staging =>
    match entryNamed sec entry with
    | none => (s1, .plain .range)
    | some (x, i) => (s1, .ok (staging.entryBytes x i))

/-- ACTIVE_READ (R163). -/
def cmdActiveRead (sec entry : Byte) (s : State) : State × Reply :=
  match entryNamed sec entry with
  | none => (s, .plain .range)
  | some (x, i) => (s, .ok (s.rcp.active.entryBytes x i))

/-! ### COMMIT and CANCEL_PENDING (R164 to R166) -/

/-- COMMIT (R164): in IDLE an accepted commit is itself a swap point. INVALID carries the detail code in one byte,
before the entry (DEDUCED, assumption 28). -/
def cmdCommit (p : PortNo) (s : State) : State × Reply :=
  let s1 := restartSilence p s
  match (if s.holds p then s.rcp.staging else none) with
  | none => (s1, .plain .notHolder)
  | some staging =>
    if s.rcp.pending.isSome then (s1, .plain .pending)
    else
      match staging.firstFault with
      | some (d, entry) => (s1, ⟨.invalid, be 1 d.num ++ be 1 entry⟩)
      | none =>
        let s2 := { s1 with rcp := { s1.rcp with pending := some ⟨staging, p⟩ } }
        let s3 := if s2.rcp.run = .idle then swapPoint s2 else s2
        (s3, .ok (be 1 (if s3.rcp.pending.isSome then 1 else 0)))

/-- CANCEL_PENDING (R166). -/
def cmdCancelPending (p : PortNo) (s : State) : State × Reply :=
  let s1 := restartSilence p s
  if s.holds p then
    if s.rcp.pending.isSome then ({ s1 with rcp := { s1.rcp with pending := none } }, .ok [])
    else (s1, .plain .nonePending)
  else (s1, .plain .notHolder)

/-! ### ARM, DISARM and RESET_POSITION (R13, R170, R171) -/

/-- The active copy has an enabled lane (R170). -/
def Recipe.armable (r : Recipe) : Bool := r.lanes.any fun l => l.enabled == 1

/-- The engine's part of an ARM (R77, R95, R170): a full reset replaces every waiting request, the tables are emptied
without records, no tally is open, the kept sections are cleared. -/
def Engine.armed (e : Engine) : Engine :=
  { e with
    work := { e.work with
      streaks := e.work.streaks.map fun _ => none
      streakLatch := false
      cands := e.work.cands.map fun _ => none
      candLatch := false
      tally := none }
    kept := none
    resets := [.full] }

/-- The tracker's part of an ARM (R17). -/
def Tracker.armed (c : Nat) (k : Tracker) : Tracker :=
  { k with mode := if c = 0 then .continuous else .seek, misses := 0, patch := none, prevShort := false }

/-- An accepted ARM as one step (R170), and the position limit if W already stands at it (R6). -/
def armRun (p : PortNo) (s : State) : State :=
  let s1 := appendEvent .armed p.val { s with rcp := { s.rcp with run := .armed } }
  let s2 := { s1 with
    eng := s1.eng.armed
    trk := s1.trk.armed s1.rcp.active.patch.c
    trig := { s1.trig with n := 0, skipped := 0 } }
  let s3 := takeTrigger s2
  if s3.pos.w = maxPos then positionLimit s3 else s3

/-- ARM (R170). -/
def cmdArm (p : PortNo) (s : State) : State × Reply :=
  if s.rcp.run ≠ .idle then (s, .plain .state)
  else if !s.rcp.active.armable then (s, .plain .notReady)
  else (armRun p s, .ok [])

/-- DISARM (R171). -/
def cmdDisarm (p : PortNo) (s : State) : State × Reply :=
  if s.rcp.run = .armed then (beginStop p.val s, .ok []) else (s, .plain .state)

/-- The mark queue discarded by RESET_POSITION (R158). -/
def Scheduler.discardAll (k : Scheduler) : Scheduler :=
  { k with
    queue := [], latch := false, mk0 := false, mk1 := false, discarded := bumpBy k.discarded k.queue.length }

/-- RESET_POSITION (R13). -/
def cmdResetPosition (s : State) : State × Reply :=
  if s.rcp.run = .idle then
    ({ s with
        pos := { s.pos with w := 0, l := 0, overrun := false }
        trig := { s.trig with t := 0, lastTrigger := 0 }
        mark := s.mark.discardAll },
      .ok [])
  else (s, .plain .state)

end Sys2Proof.Machine
end

