-- ==== Sys2Proof/Machine/Ports.lean ====
section
/-! DEFINITION. The station ports (chapter 12): judging station frames, taking, holding and dropping commands, the
port's own checks, and the meanings of STATION_FRAME, STATION_FRAME_ABORT, FRAME_TIMEOUT and RESPONSE_SENT. -/

namespace Sys2Proof.Machine

/-- A command at the block that owns it (R177), with the payload the port has checked (R178). -/
def runCommand (p : PortNo) (c : Command) (payload : List Byte) (s : State) : State × Reply :=
  match c with
  | .ident => cmdIdent p s
  | .status => cmdStatus p s
  | .ackAttn => cmdAckAttn p s
  | .endService => cmdEndService p s
  | .arm => cmdArm p s
  | .disarm => cmdDisarm p s
  | .resetPosition => cmdResetPosition s
  | .claimEdit => cmdClaimEdit p s
  | .releaseEdit => cmdReleaseEdit p s
  | .stageWrite => cmdStageWrite p (byteAt payload 0) (byteAt payload 1) (payload.drop 2) s
  | .stageRead => cmdStageRead p (byteAt payload 0) (byteAt payload 1) s
  | .activeRead => cmdActiveRead (byteAt payload 0) (byteAt payload 1) s
  | .commit => cmdCommit p s
  | .cancelPending => cmdCancelPending p s
  | .fetch => cmdFetch p (byteAt payload 0) s
  | .seek => cmdSeek p (byteAt payload 0) (longAt payload 1) s
  | .subscribe => cmdSubscribe p (byteAt payload 0) (wordAt payload 1) (byteAt payload 3) s
  | .readCells => cmdReadCells (wordAt payload 0) (byteAt payload 2) s
  | .readCandidates => cmdReadCandidates s
  | .readStreaks => cmdReadStreaks s
  | .resyncHead => cmdResyncHead (byteAt payload 0) s
  | .forceMark => cmdForceMark (byteAt payload 0) (wordAt payload 1) s

/-- A response begins (R175): its content is fixed here, and the port has it in progress. -/
def answer (p : PortNo) (code tag : Byte) (x : State × Reply) : State :=
  x.1.withPort p { x.1.ports.get p with response := some (responseBody code tag x.2) }

/-- The body of a good frame is taken (R175, R176): the port's checks, then the block that owns the command. -/
def takeBody (p : PortNo) (body : List Byte) (s : State) : State :=
  let code := byteAt body 0
  let tag := byteAt body 1
  let payload := body.drop 4
  answer p code tag <|
    match commandOf code with
    | none => (s, .plain .unknown)
    | some c =>
      if ofBe ((body.drop 2).take 2) ≠ payload.length then (s, .plain .length)
      else if !c.lengthFits payload.length then (s, .plain .length)
      else runCommand p c payload s

/-- A good frame while a response is in progress (R175): held, or discarded as an overrun. -/
def holdBody (p : PortNo) (body : List Byte) (s : State) : State :=
  let x := s.ports.get p
  if x.held.isNone then s.withPort p { x with held := some body }
  else s.withPort p { x with overruns := bump x.overruns }

/-- A good frame at a port (R175): taken at once, held or discarded. -/
def acceptBody (p : PortNo) (body : List Byte) (s : State) : State :=
  if (s.ports.get p).response.isNone then takeBody p body s else holdBody p body s

/-- A command row (assumption 3): a good frame of the command, with the payload the row's operands spell, is dealt with
by R175. `run` is the command at its block. The row carries no delimiters, so the port's reception stays as it stands
(DEDUCED, assumption 26). -/
def submit (p : PortNo) (c : Command) (tag : Byte) (payload : List Byte) (run : State → State × Reply) (s : State) :
    State :=
  if (s.ports.get p).response.isNone then answer p c.code tag (run s)
  else holdBody p (commandBody c.code tag payload) s

/-- A bad frame at a port (R173). -/
def countBadFrame (p : PortNo) (s : State) : State :=
  let x := s.ports.get p
  s.withPort p { x with badFrames := bump x.badFrames }

/-- A frame ended at a port (R173): judged when closed, counted when aborted. -/
def stationFrameEnd (p : PortNo) (s : State) : FrameEnd → State
  | .aborted =>
    let x := s.ports.get p
    s.withPort p { x with aborted := bump x.aborted }
  | .closed stored malformed =>
    match intactBody stored malformed with
    | none => countBadFrame p s
    | some body => if body.length < 4 then countBadFrame p s else acceptBody p body s

/-- Bytes at a station port (R36, R173). -/
def stationBytes (p : PortNo) (bytes : List Byte) (s : State) : State :=
  let x := s.ports.get p
  match x.rx.feedAll stationLimit bytes with
  | (rx, ends) => ends.foldl (stationFrameEnd p) (s.withPort p { x with rx := rx })

/-- The 50 ms limit runs (R174): a frame is open and has a byte stored. -/
def Reception.timed (r : Reception) : Bool := r.isOpen && !r.stored.isEmpty

/-- The 50 ms limit runs out (R174); with no limit running nothing happens. Time itself does not pass (DESIGN CHOICE,
assumption 8). -/
def expireFrame (p : PortNo) (s : State) : State :=
  let x := s.ports.get p
  if x.rx.timed then s.withPort p { x with rx := Reception.shut, inactivity := bump x.inactivity } else s

/-- The closing delimiter of a response is sent (R175): the held frame, if any, is taken at once. -/
def sendResponse (p : PortNo) (s : State) : State :=
  let x := s.ports.get p
  match x.response with
  | none => s
  | some body =>
    let s1 := s.withPort p { x with response := none, held := none, sent := frameOf body }
    match x.held with
    | none => s1
    | some held => takeBody p held s1

/-- STATION_FRAME (R173): the given bytes, then a delimiter. A command taken runs within the step (DEDUCED, assumption
4). -/
def execStationFrame (p : PortNo) (bytes : List Byte) (s : State) : Host.Outcome State Fault Refusal :=
  .next (stationBytes p (bytes ++ delimiter) s)

/-- STATION_FRAME_ABORT (R36, R173): the given bytes, then the abort sequence. -/
def execStationFrameAbort (p : PortNo) (bytes : List Byte) (s : State) : Host.Outcome State Fault Refusal :=
  .next (stationBytes p (bytes ++ abortSequence) s)

/-- FRAME_TIMEOUT (R174): the given bytes, then the limit runs out. -/
def execFrameTimeout (p : PortNo) (bytes : List Byte) (s : State) : Host.Outcome State Fault Refusal :=
  .next (expireFrame p (stationBytes p bytes s))

/-- RESPONSE_SENT (R175). With no response in progress the event does not arise (assumption 5). -/
def execResponseSent (p : PortNo) (s : State) : Host.Outcome State Fault Refusal := .next (sendResponse p s)

end Sys2Proof.Machine
end

