-- ==== Sys2Proof/Machine/Commands.lean ====
section
/-! DEFINITION. The meanings of the 22 station commands (R177): each is a good frame of the command at its port (R175,
assumption 3) and calls the command at the block that owns it. -/

namespace Sys2Proof.Machine

/-- IDENT (R179). -/
def execIdent (p : PortNo) (tag : Byte) (s : State) : Host.Outcome State Fault Refusal :=
  .next (submit p .ident tag [] (cmdIdent p) s)

/-- STATUS (R180). -/
def execStatus (p : PortNo) (tag : Byte) (s : State) : Host.Outcome State Fault Refusal :=
  .next (submit p .status tag [] (cmdStatus p) s)

/-- ACK_ATTN (R183). -/
def execAckAttn (p : PortNo) (tag : Byte) (s : State) : Host.Outcome State Fault Refusal :=
  .next (submit p .ackAttn tag [] (cmdAckAttn p) s)

/-- END_SERVICE (R183). -/
def execEndService (p : PortNo) (tag : Byte) (s : State) : Host.Outcome State Fault Refusal :=
  .next (submit p .endService tag [] (cmdEndService p) s)

/-- ARM (R170). -/
def execArm (p : PortNo) (tag : Byte) (s : State) : Host.Outcome State Fault Refusal :=
  .next (submit p .arm tag [] (cmdArm p) s)

/-- DISARM (R171). -/
def execDisarm (p : PortNo) (tag : Byte) (s : State) : Host.Outcome State Fault Refusal :=
  .next (submit p .disarm tag [] (cmdDisarm p) s)

/-- RESET_POSITION (R13). -/
def execResetPosition (p : PortNo) (tag : Byte) (s : State) : Host.Outcome State Fault Refusal :=
  .next (submit p .resetPosition tag [] cmdResetPosition s)

/-- CLAIM_EDIT (R162). -/
def execClaimEdit (p : PortNo) (tag : Byte) (s : State) : Host.Outcome State Fault Refusal :=
  .next (submit p .claimEdit tag [] (cmdClaimEdit p) s)

/-- RELEASE_EDIT (R162). -/
def execReleaseEdit (p : PortNo) (tag : Byte) (s : State) : Host.Outcome State Fault Refusal :=
  .next (submit p .releaseEdit tag [] (cmdReleaseEdit p) s)

/-- STAGE_WRITE (R163). -/
def execStageWrite (p : PortNo) (tag : Byte) (sec entry : Byte) (data : List Byte) (s : State) :
    Host.Outcome State Fault Refusal :=
  .next (submit p .stageWrite tag (sec :: entry :: data) (cmdStageWrite p sec entry data) s)

/-- STAGE_READ (R163). -/
def execStageRead (p : PortNo) (tag : Byte) (sec entry : Byte) (s : State) : Host.Outcome State Fault Refusal :=
  .next (submit p .stageRead tag [sec, entry] (cmdStageRead p sec entry) s)

/-- ACTIVE_READ (R163). -/
def execActiveRead (p : PortNo) (tag : Byte) (sec entry : Byte) (s : State) : Host.Outcome State Fault Refusal :=
  .next (submit p .activeRead tag [sec, entry] (cmdActiveRead sec entry) s)

/-- COMMIT (R164). -/
def execCommit (p : PortNo) (tag : Byte) (s : State) : Host.Outcome State Fault Refusal :=
  .next (submit p .commit tag [] (cmdCommit p) s)

/-- CANCEL_PENDING (R166). -/
def execCancelPending (p : PortNo) (tag : Byte) (s : State) : Host.Outcome State Fault Refusal :=
  .next (submit p .cancelPending tag [] (cmdCancelPending p) s)

/-- FETCH (R145). -/
def execFetch (p : PortNo) (tag : Byte) (count : Byte) (s : State) : Host.Outcome State Fault Refusal :=
  .next (submit p .fetch tag [count] (cmdFetch p count) s)

/-- SEEK (R147). -/
def execSeek (p : PortNo) (tag : Byte) (target : Byte) (seq : BitVec 32) (s : State) :
    Host.Outcome State Fault Refusal :=
  .next (submit p .seek tag (target :: be 4 seq.toNat) (cmdSeek p target seq) s)

/-- SUBSCRIBE (R148). -/
def execSubscribe (p : PortNo) (tag : Byte) (classes : Byte) (watermark : BitVec 16) (enable : Byte) (s : State) :
    Host.Outcome State Fault Refusal :=
  .next (submit p .subscribe tag (classes :: (be 2 watermark.toNat ++ [enable]))
    (cmdSubscribe p classes watermark enable) s)

/-- READ_CELLS (R97). -/
def execReadCells (p : PortNo) (tag : Byte) (first : BitVec 16) (count : Byte) (s : State) :
    Host.Outcome State Fault Refusal :=
  .next (submit p .readCells tag (be 2 first.toNat ++ [count]) (cmdReadCells first count) s)

/-- READ_CANDIDATES (R114). -/
def execReadCandidates (p : PortNo) (tag : Byte) (s : State) : Host.Outcome State Fault Refusal :=
  .next (submit p .readCandidates tag [] cmdReadCandidates s)

/-- READ_STREAKS (R135). -/
def execReadStreaks (p : PortNo) (tag : Byte) (s : State) : Host.Outcome State Fault Refusal :=
  .next (submit p .readStreaks tag [] cmdReadStreaks s)

/-- RESYNC_HEAD (R47). -/
def execResyncHead (p : PortNo) (tag : Byte) (head : Byte) (s : State) : Host.Outcome State Fault Refusal :=
  .next (submit p .resyncHead tag [head] (cmdResyncHead head) s)

/-- FORCE_MARK (R157). -/
def execForceMark (p : PortNo) (tag : Byte) (marker : Byte) (distance : BitVec 16) (s : State) :
    Host.Outcome State Fault Refusal :=
  .next (submit p .forceMark tag (marker :: be 2 distance.toNat) (cmdForceMark marker distance) s)

end Sys2Proof.Machine
end

