-- ==== Sys2Proof/Machine/Dispatch.lean ====
section
/-! DEFINITION. The dispatch of commands to their meanings: one arm for each row of spec/opcode_table.json. -/

namespace Sys2Proof.Machine

def exec (i : Instr) (s : State) : Host.Outcome State Fault Refusal :=
  match i with
  | .powerOnReset a b carriers => Sys2Proof.Machine.execPowerOnReset a b carriers s
  | .encoderTransition a b => Sys2Proof.Machine.execEncoderTransition a b s
  | .markEdge edge => Sys2Proof.Machine.execMarkEdge edge s
  | .carrierGained h => Sys2Proof.Machine.execCarrierGained h s
  | .carrierLost h bytes => Sys2Proof.Machine.execCarrierLost h bytes s
  | .headFrame h bytes => Sys2Proof.Machine.execHeadFrame h bytes s
  | .headFrameAbort h bytes => Sys2Proof.Machine.execHeadFrameAbort h bytes s
  | .engineTakeLine => Sys2Proof.Machine.execEngineTakeLine s
  | .linePublish => Sys2Proof.Machine.execLinePublish s
  | .stopComplete => Sys2Proof.Machine.execStopComplete s
  | .editExpiry => Sys2Proof.Machine.execEditExpiry s
  | .stationFrame p bytes => Sys2Proof.Machine.execStationFrame p bytes s
  | .stationFrameAbort p bytes => Sys2Proof.Machine.execStationFrameAbort p bytes s
  | .frameTimeout p bytes => Sys2Proof.Machine.execFrameTimeout p bytes s
  | .responseSent p => Sys2Proof.Machine.execResponseSent p s
  | .ident p tag => Sys2Proof.Machine.execIdent p tag s
  | .status p tag => Sys2Proof.Machine.execStatus p tag s
  | .ackAttn p tag => Sys2Proof.Machine.execAckAttn p tag s
  | .endService p tag => Sys2Proof.Machine.execEndService p tag s
  | .arm p tag => Sys2Proof.Machine.execArm p tag s
  | .disarm p tag => Sys2Proof.Machine.execDisarm p tag s
  | .resetPosition p tag => Sys2Proof.Machine.execResetPosition p tag s
  | .claimEdit p tag => Sys2Proof.Machine.execClaimEdit p tag s
  | .releaseEdit p tag => Sys2Proof.Machine.execReleaseEdit p tag s
  | .stageWrite p tag sec entry data => Sys2Proof.Machine.execStageWrite p tag sec entry data s
  | .stageRead p tag sec entry => Sys2Proof.Machine.execStageRead p tag sec entry s
  | .activeRead p tag sec entry => Sys2Proof.Machine.execActiveRead p tag sec entry s
  | .commit p tag => Sys2Proof.Machine.execCommit p tag s
  | .cancelPending p tag => Sys2Proof.Machine.execCancelPending p tag s
  | .fetch p tag count => Sys2Proof.Machine.execFetch p tag count s
  | .seek p tag target seq => Sys2Proof.Machine.execSeek p tag target seq s
  | .subscribe p tag classes watermark enable => Sys2Proof.Machine.execSubscribe p tag classes watermark enable s
  | .readCells p tag first count => Sys2Proof.Machine.execReadCells p tag first count s
  | .readCandidates p tag => Sys2Proof.Machine.execReadCandidates p tag s
  | .readStreaks p tag => Sys2Proof.Machine.execReadStreaks p tag s
  | .resyncHead p tag head => Sys2Proof.Machine.execResyncHead p tag head s
  | .forceMark p tag marker distance => Sys2Proof.Machine.execForceMark p tag marker distance s

end Sys2Proof.Machine
end

