-- ==== Sys2Proof/Safety.lean ====
section
/-! DEFINITION. The terms the claims are stated in: what the wire and the hosts send, how a command is answered, and
the conditions that every step keeps. -/

namespace Sys2Proof.Machine

/-! ### Encoder inputs (R1) -/

/-- The inputs go from `(a, b)` to `(a', b')` in the forward sense, in which A leads B (R1). -/
abbrev forwardInputs (a b a' b' : Bool) : Prop :=
  (a, b, a', b') ∈ [(false, false, true, false), (true, false, true, true), (true, true, false, true),
    (false, true, false, false)]

/-- The inputs go from `(a, b)` to `(a', b')` in the backward sense (R1). -/
abbrev backwardInputs (a b a' b' : Bool) : Prop := forwardInputs a' b' a b

/-! ### What is sent to the module -/

/-- A frame as a sender puts it on a wire, up to its closing delimiter (R35). -/
def sentBytes (body : List Byte) : List Byte := 0xB2#8 :: escapeBytes (withCrc body)

/-- The body of an IDLE frame of a head (R38). -/
def idleBody (id : Nat) : List Byte := 0x02#8 :: be 2 id

/-- Cell values packed two to three bytes, an odd last value with a padding of 0 (R38). -/
def packCells : List Nat → List Byte
  | [] => []
  | [a] => [BitVec.ofNat 8 (a / 16), BitVec.ofNat 8 (a % 16 * 16)]
  | a :: b :: rest =>
    BitVec.ofNat 8 (a / 16) :: BitVec.ofNat 8 (a % 16 * 16 + b / 256) :: BitVec.ofNat 8 (b % 256) :: packCells rest

/-- The body of a LINE frame of a head (R38). -/
def lineBody (id : Nat) (tag : BitVec 16) (status : Byte) (values : List Nat) : List Byte :=
  0x01#8 :: (be 2 id ++ be 2 tag.toNat ++ [status] ++ be 2 values.length ++ packCells values)

/-- Bytes on a wire, from an opening delimiter on, that close as a bad frame whatever their body says (R36, R37, R173):
a CRC that differs, a single stored byte or two, more stored bytes than the length limit, or an escape byte before a
byte it may not stand before. -/
inductive BadOnWire (limit : Nat) : List Byte → Prop
  | crc (body : List Byte) (hi lo : Byte) (h1 : 1 ≤ body.length) (h2 : body.length + 2 ≤ limit)
      (h3 : 256 * hi.toNat + lo.toNat ≠ (crc body).toNat) :
      BadOnWire limit (0xB2#8 :: escapeBytes (body ++ [hi, lo]))
  | short (stored : List Byte) (h1 : 1 ≤ stored.length) (h2 : stored.length < 3) :
      BadOnWire limit (0xB2#8 :: escapeBytes stored)
  | long (stored : List Byte) (h : limit < stored.length) : BadOnWire limit (0xB2#8 :: escapeBytes stored)
  | escape (before after : List Byte) (b : Byte) (h1 : b ≠ 0xB2) (h2 : b ≠ 0x82) (h3 : b ≠ 0x85) :
      BadOnWire limit (0xB2#8 :: (escapeBytes before ++ [0xB5#8, b] ++ escapeBytes after))

/-- The body is no head frame (R38, R39): head id 0, an unknown type, an IDLE body of more than its three bytes, or a
LINE body whose cell count is 0, above 512 or not that of its length. -/
def headBodyMalformed (body : List Byte) : Prop :=
  ofBe ((body.drop 1).take 2) = 0 ∨ (body.head? ≠ some 1 ∧ body.head? ≠ some 2) ∨
    (body.head? = some 2 ∧ body.length ≠ 3) ∨
    (body.head? = some 1 ∧ (ofBe ((body.drop 6).take 2) = 0 ∨ 512 < ofBe ((body.drop 6).take 2) ∨
      body.length ≠ 8 + (3 * ofBe ((body.drop 6).take 2) + 1) / 2))

/-- The body of a head frame of head `id` (R38). -/
def headBodyOf (id : Nat) (body : List Byte) : Prop :=
  1 ≤ id ∧ id ≤ 65535 ∧
    (body = idleBody id ∨ ∃ tag status values, 1 ≤ values.length ∧ values.length ≤ 512 ∧ (∀ v ∈ values, v ≤ 4095) ∧
      body = lineBody id tag status values)

/-- A link's entry or its learned head asks for another head id (R40, test 4). -/
def State.otherHead (s : State) (h : HeadNo) (id : Nat) : Prop :=
  ((s.rcp.active.heads.get h).expectedId ≠ 0 ∧ (s.rcp.active.heads.get h).expectedId ≠ id) ∨
    ((s.links.get h).state = .locked ∧ (s.links.get h).learned ≠ id)

/-- The bytes are a bad frame at a link (R40), by its identity test or by another: wrong bytes on the wire, a malformed
body, another head's id, or a LINE frame with too few cells for the link's enabled entry. -/
def State.badHeadFrame (s : State) (h : HeadNo) (bytes : List Byte) (mismatch : Bool) : Prop :=
  (mismatch = false ∧ BadOnWire 778 bytes) ∨
  (mismatch = false ∧ ∃ body, 1 ≤ body.length ∧ body.length ≤ 776 ∧ headBodyMalformed body ∧ bytes = sentBytes body) ∨
  (mismatch = true ∧ ∃ id body, headBodyOf id body ∧ s.otherHead h id ∧ bytes = sentBytes body) ∨
  (mismatch = false ∧ ∃ id tag status values, 1 ≤ id ∧ id ≤ 65535 ∧ 1 ≤ values.length ∧ values.length ≤ 512 ∧
    (∀ v ∈ values, v ≤ 4095) ∧ ¬ s.otherHead h id ∧ (s.rcp.active.heads.get h).enabled = 1 ∧
    values.length < (s.rcp.active.heads.get h).l0 + (s.rcp.active.heads.get h).n ∧
    bytes = sentBytes (lineBody id tag status values))

/-- A host command as its frame carries it (R172): port, code, tag and payload. -/
structure HostFrame where
  port : PortNo
  code : Byte
  tag : Byte
  payload : List Byte
  deriving DecidableEq, Repr

/-- The body of the frame (R172): code, tag, length high byte, length low byte, payload. -/
def HostFrame.body (f : HostFrame) : List Byte := [f.code, f.tag] ++ be 2 f.payload.length ++ f.payload

/-- The frame of a host command by the command index (R177) and the payload table (R178). -/
def hostFrame : Instr → Option HostFrame
  | .powerOnReset _ _ _ | .encoderTransition _ _ | .markEdge _ | .carrierGained _ | .carrierLost _ _
  | .headFrame _ _ | .headFrameAbort _ _ | .engineTakeLine | .linePublish | .stopComplete | .editExpiry
  | .stationFrame _ _ | .stationFrameAbort _ _ | .frameTimeout _ _ | .responseSent _ => none
  | .ident p tag => some ⟨p, 0x01, tag, []⟩
  | .status p tag => some ⟨p, 0x02, tag, []⟩
  | .ackAttn p tag => some ⟨p, 0x03, tag, []⟩
  | .endService p tag => some ⟨p, 0x04, tag, []⟩
  | .arm p tag => some ⟨p, 0x10, tag, []⟩
  | .disarm p tag => some ⟨p, 0x11, tag, []⟩
  | .resetPosition p tag => some ⟨p, 0x12, tag, []⟩
  | .claimEdit p tag => some ⟨p, 0x20, tag, []⟩
  | .releaseEdit p tag => some ⟨p, 0x21, tag, []⟩
  | .stageWrite p tag sec entry data => some ⟨p, 0x22, tag, sec :: entry :: data⟩
  | .stageRead p tag sec entry => some ⟨p, 0x23, tag, [sec, entry]⟩
  | .activeRead p tag sec entry => some ⟨p, 0x24, tag, [sec, entry]⟩
  | .commit p tag => some ⟨p, 0x25, tag, []⟩
  | .cancelPending p tag => some ⟨p, 0x26, tag, []⟩
  | .fetch p tag count => some ⟨p, 0x30, tag, [count]⟩
  | .seek p tag target seq => some ⟨p, 0x31, tag, target :: be 4 seq.toNat⟩
  | .subscribe p tag classes watermark enable => some ⟨p, 0x32, tag, classes :: be 2 watermark.toNat ++ [enable]⟩
  | .readCells p tag first count => some ⟨p, 0x40, tag, be 2 first.toNat ++ [count]⟩
  | .readCandidates p tag => some ⟨p, 0x41, tag, []⟩
  | .readStreaks p tag => some ⟨p, 0x42, tag, []⟩
  | .resyncHead p tag head => some ⟨p, 0x50, tag, [head]⟩
  | .forceMark p tag marker distance => some ⟨p, 0x51, tag, marker :: be 2 distance.toNat⟩

/-! ### The forward count -/

/-- When W becomes `w` the tracker has no work of its own (R28): no coat-to-gap transition, no miss, no pop. -/
def State.trackerRests (s : State) (w : Nat) : Prop :=
  (∀ e ∈ s.trk.queue, w < e.pos) ∧
    (s.trk.mode = .track → w ≤ s.trk.pred + s.rcp.active.patch.wm ∧ ∀ q, s.trk.patch = some q → q.endW ≠ w)

/-- What a swap taken at W `w` in a run leaves of the recipe store, the slots, the list and the tracker (R29, R168): the
old copy retires when a slot refers to it, RECIPE_SWAP is appended, the tracker takes up the new patch fields. -/
def State.swapsTo (s : State) (w : Nat) (c : PendingCopy) (rcp : RecipeStore) (slots : Quad Slot) (list : DefectList)
    (trk : Tracker) : Prop :=
  rcp = { s.rcp with
    active := c.copy, pending := none
    retiring := if ∃ i, (s.asm.slots.get i).copy = .active then some s.rcp.active else none } ∧
  (∀ i, slots.get i = if (s.asm.slots.get i).copy = .active then { s.asm.slots.get i with copy := .retiring }
    else s.asm.slots.get i) ∧
  list = s.list.push w (.event .recipeSwap
    (c.port.val + if c.copy.heads = s.rcp.active.heads ∧ c.copy.lanes = s.rcp.active.lanes then 0 else 256)) ∧
  trk = (if c.copy.patch.c = 0 then
      if s.trk.mode = .continuous then s.trk
      else { s.trk with
        mode := .continuous, queue := [], patch := none
        startsDropped := min (s.trk.startsDropped + s.trk.queue.length) 65535 }
    else if s.trk.mode = .continuous then { s.trk with mode := .seek, misses := 0 }
    else if s.trk.mode = .track then { s.trk with pred := s.trk.prev + (c.copy.patch.c + c.copy.patch.g) }
    else s.trk)

/-- What a trigger at W `w` finds of the recipe store, the slots, the list and the tracker (R8, R167): a swap has been
taken first when a copy is pending, none is retiring and the tracker is CONTINUOUS, SEEK or LOST. -/
def State.atTrigger (s : State) (w : Nat) (rcp : RecipeStore) (slots : Quad Slot) (list : DefectList) (trk : Tracker) :
    Prop :=
  ((s.rcp.pending = none ∨ s.rcp.retiring ≠ none ∨ s.trk.mode = .track) ∧
      rcp = s.rcp ∧ slots = s.asm.slots ∧ list = s.list ∧ trk = s.trk) ∨
    ∃ c, s.rcp.pending = some c ∧ s.rcp.retiring = none ∧ s.trk.mode ≠ .track ∧ s.swapsTo w c rcp slots list trk

/-- What the forcing of a trigger with next line number `n` leaves of a slot (R60). -/
def Slot.afterForcing (n : BitVec 16) (x : Slot) : Slot :=
  if x.state = .opened ∧ 3 ≤ (n - x.line).toNat then
    { x with
      state := .ready
      absent := ⟨x.absent.get 0 || (x.expected.get 0 && !x.received.get 0),
        x.absent.get 1 || (x.expected.get 1 && !x.received.get 1),
        x.absent.get 2 || (x.expected.get 2 && !x.received.get 2),
        x.absent.get 3 || (x.expected.get 3 && !x.received.get 3)⟩ }
  else x

/-- The forced counter after that forcing (R60, R66). -/
def State.forcedAfter (s : State) : Nat :=
  min (s.asm.forced + s.asm.slots.toList.countP
    (fun x => decide (x.state = .opened ∧ 3 ≤ (s.trig.n - x.line).toNat))) 65535

/-- The tracker after a start at `pos` has popped at W `w` (R24): the next patch number, the new patch with its end by
the coat length `c`, and prev_short set when the patch before was still coated. -/
def Tracker.begins (k : Tracker) (w pos c : Nat) (err : Int) (kind : StartKind) : Tracker :=
  { k with
    lastPatch := if k.lastPatch = 4294967295 then 1 else k.lastPatch + 1
    patch := some ⟨if k.lastPatch = 4294967295 then 1 else k.lastPatch + 1, pos, pos + c, err, kind⟩
    prevShort := k.prevShort || (match k.patch with
      | none => false
      | some p => decide (w < p.endW)) }

/-! ### The line in work -/

/-- The line in work is the one in slot `i`, with that slot's contents and copy, and none of its stages has begun (R61,
R77). -/
def State.lineInWork (s : State) (i : Fin 4) (ln : Line) : Prop :=
  (s.asm.slots.get i).state = .inWork ∧ (∀ j, j ≠ i → (s.asm.slots.get j).state ≠ .inWork) ∧
    s.eng.progress = .begun ∧ ln.slot = s.asm.slots.get i ∧
    (ln.slot.copy = .active ∧ ln.copy = s.rcp.active ∨ ln.slot.copy = .retiring ∧ s.rcp.retiring = some ln.copy)

/-- The cell is ABSENT on the line (R63, R70): an enabled lane holds it, and no enabled head in the received set feeds
it. -/
def Line.unseen (ln : Line) (c : Nat) : Prop :=
  (∃ l, l < 16 ∧ (ln.copy.lane l).enabled = 1 ∧ (ln.copy.lane l).first ≤ c ∧ c ≤ (ln.copy.lane l).last) ∧
    ∀ h, ln.slot.received.get h = true → (ln.copy.heads.get h).enabled = 1 →
      c < (ln.copy.heads.get h).g0 ∨ (ln.copy.heads.get h).g0 + (ln.copy.heads.get h).n ≤ c

/-- The run matches the streak (R122): one lane and polarity, and a cell in common with the extent widened by one. -/
def Streak.met (st : Streak) (r : Run (Nat × Polarity)) : Prop :=
  r.key = (st.lane, st.pol) ∧ r.left ≤ st.extR + 1 ∧ st.extL ≤ r.right + 1

/-- The run matches the candidate (R102): one lane, and a cell in common with the extent widened by one. -/
def Candidate.met (k : Candidate) (r : Run Nat) : Prop :=
  r.key = k.lane ∧ r.left ≤ k.extR + 1 ∧ k.extL ≤ r.right + 1

/-- The STREAK_CLOSE record of a streak (R133). -/
def Streak.closeRecord (st : Streak) (reason : CloseReason) (into : Nat) : RecordBody :=
  .streakClose
    { lane := st.lane, profile := st.profile, pol := st.pol, held := st.held, openSeq := st.openSeq, mergedInto := into
      reason := reason, lines := st.lines, patches := st.patches, wideL := st.wideL, wideR := st.wideR
      peak := st.peak }

/-- The PINHOLE record of a candidate (R112) with the flags LONG, SPLIT and CUT. -/
def Candidate.record (k : Candidate) (long split cut : Bool) : RecordBody :=
  .pinhole
    { flags := ⟨k.sat, k.edge, k.lead, k.trail, k.held, long, split, cut⟩
      lane := k.lane, profile := k.profile, lastW := k.lastW, lines := k.lines, left := k.hullL, right := k.hullR
      area := k.area, peak := k.peak, patch := k.patch }

/-- A list after appends in order (R141, R142), each of a W and a record's contents. -/
def DefectList.pushAll (l : DefectList) (xs : List (Nat × RecordBody)) : DefectList :=
  xs.foldl (fun l x => l.push x.1 x.2) l

/-- Of a slot that a streak has left on the line: it is empty, or a streak opened on this line has it (R128). -/
def State.leftByStreak (t : State) (ln : Line) (j : Nat) : Prop :=
  ∃ o, t.eng.pub.streaks[j]? = some o ∧
    ∀ v, o = some v → v.openW = ln.slot.w ∧ v.openPatch = ln.slot.patchNum ∧ v.lines = 1

/-- Of a slot that a candidate has left on the line: it is empty, or a candidate opened on this line has it (R109). -/
def State.leftByCandidate (t : State) (ln : Line) (j : Nat) : Prop :=
  ∃ o, t.eng.pub.cands[j]? = some o ∧
    ∀ v, o = some v → v.firstW = ln.slot.w ∧ v.lastW = ln.slot.w ∧ v.patch = ln.slot.patchNum ∧ v.lines = 1

/-- The mark target of a defect of a lane under a profile of the line's copy (R107, R134). -/
def Line.aim (ln : Line) (lane profile : Nat) : Option Marker :=
  if (ln.copy.profile profile).markEnable ≠ 1 then none
  else if (ln.copy.lane lane).marker = 1 then some .mk0
  else if (ln.copy.lane lane).marker = 2 then some .mk1
  else none

/-- The candidate that a lone run opens (R107). -/
def Candidate.ofRun (ln : Line) (r : Run Nat) : Candidate where
  lane := r.key
  patch := ln.slot.patchNum
  firstW := ln.slot.w
  lastW := ln.slot.w
  lines := 1
  hullL := r.left
  hullR := r.right
  extL := r.left
  extR := r.right
  area := min (r.right + 1 - r.left) 65535
  peak := r.peak
  profile := r.profile
  target := ln.aim r.key r.profile
  sat := r.sat
  edge := r.edge
  lead := ln.slot.zone.hasLead
  trail := ln.slot.zone.hasTrail
  held := false

/-- `m` is the mark target of one of the line's records (R113, R134), `cands` being the candidates open before it: a
STREAK_OPEN record's is that of its lane and profile, and so is a new candidate's; an older candidate keeps its own; the
other records have none. -/
def Line.aims (ln : Line) (cands : List (Option Candidate)) (x : Nat × RecordBody) (m : Option Marker) : Prop :=
  match x.2 with
  | .streakOpen b => m = ln.aim b.lane b.profile
  | .pinhole b =>
    (∃ k, some k ∈ cands ∧ k.firstW = x.1 ∧ k.patch = b.patch ∧ k.lane = b.lane ∧ k.profile = b.profile ∧
        k.target = m) ∨
      (x.1 = ln.slot.w ∧ b.patch = ln.slot.patchNum ∧ m = ln.aim b.lane b.profile)
  | .streakClose _ => m = none
  | .patch _ => m = none
  | .event _ _ => m = none

/-- The patch of a record's mark action (R151); 0 of a record that hands none on. -/
def RecordBody.actionPatch : RecordBody → Nat
  | .pinhole b => b.patch
  | .streakOpen b => b.patch
  | .streakClose _ => 0
  | .patch _ => 0
  | .event _ _ => 0

/-- The patch whose late mark a record's action is when it is entered with W at `w` (R151, R153): the record has a mark
target, its W plus the marker's offset does not lie ahead of W, and its patch is not 0. -/
def Line.latePatch (ln : Line) (w : Nat) (x : (Nat × RecordBody) × Option Marker) : Option Nat :=
  match x.2 with
  | none => none
  | some m =>
    if x.1.1 + (if m = .mk0 then ln.copy.mk0 else ln.copy.mk1).offset ≤ w ∧ x.1.2.actionPatch ≠ 0 then
      some x.1.2.actionPatch
    else none

/-- Entry `e` of a copy is at fault in the numbered check of COMMIT, 255 where the check concerns no single entry
(R165, with the ranges of R15, R50, R67, R75, R150 and R161). -/
def Recipe.atFault (r : Recipe) (check e : Nat) : Prop :=
  (check = 1 ∧ ∃ h : HeadNo, e = h.val ∧ ¬ ((r.heads.get h).enabled ≤ 1 ∧ (r.heads.get h).expectedId ≤ 65535 ∧
    (r.heads.get h).l0 ≤ 511 ∧ 1 ≤ (r.heads.get h).n ∧ (r.heads.get h).l0 + (r.heads.get h).n ≤ 512 ∧
    (r.heads.get h).g0 ≤ 2047 ∧ (r.heads.get h).g0 + (r.heads.get h).n ≤ 2048)) ∨
  (check = 2 ∧ ∃ h k : HeadNo, e = h.val ∧ h < k ∧ (r.heads.get h).enabled = 1 ∧ (r.heads.get k).enabled = 1 ∧
    ∃ c, (r.heads.get h).g0 ≤ c ∧ c < (r.heads.get h).g0 + (r.heads.get h).n ∧ (r.heads.get k).g0 ≤ c ∧
      c < (r.heads.get k).g0 + (r.heads.get k).n) ∨
  (check = 3 ∧ e < 16 ∧ ¬ ((r.lane e).enabled ≤ 1 ∧ (r.lane e).first ≤ (r.lane e).last ∧ (r.lane e).last ≤ 2047 ∧
    (r.lane e).guard ≤ 15 ∧ (r.lane e).base ≤ 15 ∧ (r.lane e).marker ≤ 2)) ∨
  (check = 4 ∧ ∃ f, e < f ∧ f < 16 ∧ (r.lane e).enabled = 1 ∧ (r.lane f).enabled = 1 ∧
    ∃ c, (r.lane e).first ≤ c ∧ c ≤ (r.lane e).last ∧ (r.lane f).first ≤ c ∧ c ≤ (r.lane f).last) ∨
  (check = 5 ∧ e < 16 ∧ (r.lane e).enabled = 1 ∧ ∃ c, (r.lane e).first ≤ c ∧ c ≤ (r.lane e).last ∧
    ∀ h, (r.heads.get h).enabled = 1 → c < (r.heads.get h).g0 ∨ (r.heads.get h).g0 + (r.heads.get h).n ≤ c) ∨
  (check = 6 ∧ e < 16 ∧ ∃ p : Profile, p = r.profile e ∧
    ¬ (p.pinEnable ≤ 1 ∧ p.streakEnable ≤ 1 ∧ p.markEnable ≤ 1 ∧ 1 ≤ p.tp ∧ p.tp ≤ 4095 ∧ 1 ≤ p.ts ∧ p.ts ≤ 4095 ∧
      1 ≤ p.k ∧ p.k ≤ 10 ∧ 2 ≤ p.lOpen ∧ p.lOpen ≤ 4095 ∧ 1 ≤ p.lClose ∧ p.lClose < p.lOpen ∧ p.warm ≤ 255)) ∨
  (check = 7 ∧ e = 255 ∧ ¬ ((r.patch.c = 0 ∨ 16 ≤ r.patch.c ∧ r.patch.c ≤ 16777215) ∧ 1 ≤ r.patch.g ∧
    r.patch.g ≤ 16777215 ∧ r.patch.m ≤ 16777215 ∧ r.patch.leadLen ≤ 65535 ∧ r.patch.trailLen ≤ 65535 ∧
    r.patch.wm ≤ 65535 ∧ r.patch.f ≤ 7 ∧ r.patch.polarity ≤ 1)) ∨
  (check = 8 ∧ e = 255 ∧ 0 < r.patch.c ∧ 4 * (r.patch.c + r.patch.g) ≤ r.patch.m) ∨
  (check = 9 ∧ ∃ f : MarkerFields, (e = 0 ∧ f = r.mk0 ∨ e = 1 ∧ f = r.mk1) ∧
    ¬ (f.offset ≤ 16777215 ∧ 1 ≤ f.width ∧ f.width ≤ 65535 ∧ f.spacing ≤ 65535)) ∨
  (check = 10 ∧ ∃ f : MarkerFields, (e = 0 ∧ f = r.mk0 ∨ e = 1 ∧ f = r.mk1) ∧ f.offset < (r.pmax + 5) * r.p ∧
    ∃ l, l < 16 ∧ (r.lane l).enabled = 1 ∧ (r.lane l).marker = e + 1) ∨
  (check = 11 ∧ e = 255 ∧ ¬ (1 ≤ r.p ∧ r.p ≤ 4095 ∧ 1 ≤ r.pmax ∧ r.pmax ≤ 255))

/-! ### What the module sends -/

/-- No response is in progress at the port, so that a good frame is taken at once (R175). -/
abbrev State.ready (s : State) (p : PortNo) : Prop := (s.ports.get p).response = none

/-- The machine with a response in progress at a port (R175): the command's code and tag echoed, a status, and the
payload behind its length (R172). -/
def State.answering (s : State) (p : PortNo) (code tag : Byte) (status : Nat) (payload : List Byte) : State :=
  { s with
    ports := s.ports.set p { s.ports.get p with
      response := some ([code, tag, BitVec.ofNat 8 status] ++ be 2 payload.length ++ payload) } }

/-- The machine with the edit right's silence timer restarted, if the port holds the right (R162). -/
def State.heard (s : State) (p : PortNo) : State :=
  if s.rcp.holder = some p then { s with rcp := { s.rcp with silenceMs := 2000 } } else s

/-! ### Conditions that every step keeps -/

/-- W and L lie in their ranges (R2). -/
def State.positionOk (s : State) : Prop := s.pos.w ≤ 4294967295 ∧ s.pos.l ≤ 65535

/-- The sequence number of the first record, or `next` when there is none. -/
def firstSeq (rs : List Record) (next : Nat) : Nat :=
  match rs with
  | [] => next
  | r :: _ => r.seq

/-- Records whose sequence numbers run consecutively up to the next sequence number, 0 never given (R141). -/
def inSequence : List Record → Nat → Prop
  | [], next => 1 ≤ next ∧ next ≤ 4294967295
  | r :: rs, next =>
    1 ≤ r.seq ∧ r.seq ≤ 4294967295 ∧ firstSeq rs next = (if r.seq = 4294967295 then 1 else r.seq + 1) ∧
      inSequence rs next

/-- The defect list holds at most 512 records in sequence, and each port's cursor is the number of a retained record
or the next sequence number (R141, R143). -/
def State.listOk (s : State) : Prop :=
  s.list.records.length ≤ 512 ∧ inSequence s.list.records s.list.next ∧
    ∀ p, (s.ports.get p).cursor = s.list.next ∨ ∃ r ∈ s.list.records, r.seq = (s.ports.get p).cursor

/-- The port's attention line is asserted exactly while some pending cause ranks above every cause in service, and
only enabled causes are pending (R181, R182). -/
def Port.attentionOk (x : Port) : Prop :=
  (x.atn = true ↔ ∃ c, x.causes.has c = true ∧ ∀ d, x.service.has d = true → c.rank < d.rank) ∧
    ∀ c, x.causes.has c = true → x.enable.has c = true

/-- The attention of every port is as R181 and R182 say. -/
def State.attentionOk (s : State) : Prop := ∀ p, (s.ports.get p).attentionOk

/-- The entry's interval holds the position (R151). -/
abbrev MarkEntry.covers (e : MarkEntry) (w : Nat) : Prop := e.start ≤ w ∧ w < e.stop

/-- Mark entries stand in order of start, those of equal start in order of arrival rank (R152). -/
abbrev MarkEntry.before (e f : MarkEntry) : Prop := e.start < f.start ∨ (e.start = f.start ∧ e.rank ≤ f.rank)

/-- The mark queue holds at most 32 entries in order, none of them ended, and each output is active exactly while an
entry of its marker holds W (R152, R156). -/
def State.marksOk (s : State) : Prop :=
  s.mark.queue.length ≤ 32 ∧ s.mark.queue.Pairwise MarkEntry.before ∧ (∀ e ∈ s.mark.queue, s.pos.w < e.stop) ∧
    (s.mark.mk0 = true ↔ ∃ e ∈ s.mark.queue, e.marker = .mk0 ∧ e.covers s.pos.w) ∧
    (s.mark.mk1 = true ↔ ∃ e ∈ s.mark.queue, e.marker = .mk1 ∧ e.covers s.pos.w)

/-- The slot's received and absent sets are disjoint and contained in its expected set (R52). -/
def Slot.setsOk (x : Slot) : Prop :=
  ∀ h, (x.received.get h = true → x.expected.get h = true ∧ x.absent.get h = false) ∧
    (x.absent.get h = true → x.expected.get h = true)

/-- Every slot's sets are as R52 says, a FREE slot's are empty, and at most one slot is IN_WORK (R53). -/
def State.slotsOk (s : State) : Prop :=
  (∀ i, (s.asm.slots.get i).setsOk) ∧
    (∀ i, (s.asm.slots.get i).state = .free → ∀ h, (s.asm.slots.get i).expected.get h = false) ∧
    ∀ i j, (s.asm.slots.get i).state = .inWork → (s.asm.slots.get j).state = .inWork → i = j

/-- The slots' references (R161, R169): the occupied slots are those that refer to a copy, and a retiring copy exists
exactly while a slot refers to it. -/
def State.referencesOk (s : State) : Prop :=
  (∀ i, (s.asm.slots.get i).state = .free ↔ (s.asm.slots.get i).copy = .none) ∧
    (s.rcp.retiring.isSome = true ↔ ∃ i, (s.asm.slots.get i).copy = .retiring)

/-- The run state (R16, R17, R64, R167, R171): in IDLE every slot is FREE, the tracker is OFF and no copy is pending;
in STOPPING no slot is OPEN or READY; the tracker is frozen exactly in STOPPING, and OFF only in IDLE. -/
def State.runOk (s : State) : Prop :=
  (s.rcp.run = .idle → (∀ i, (s.asm.slots.get i).state = .free) ∧ s.rcp.pending = none) ∧
    (s.rcp.run = .stopping → ∀ i, (s.asm.slots.get i).state = .free ∨ (s.asm.slots.get i).state = .inWork) ∧
    (s.trk.frozen = true ↔ s.rcp.run = .stopping) ∧ (s.trk.mode = .off ↔ s.rcp.run = .idle)

/-- Slots' references and run state together. -/
def State.controlOk (s : State) : Prop := s.referencesOk ∧ s.runOk

/-- The pending start queue holds at most four entries in increasing order of position, and none while the tracker is
OFF (R16, R17, R23). -/
def State.startsOk (s : State) : Prop :=
  s.trk.queue.length ≤ 4 ∧ s.trk.queue.Pairwise (fun e f => e.pos < f.pos) ∧ (s.trk.mode = .off → s.trk.queue = [])

/-- The record's baseline and streak counter lie in their ranges (R81, R89, R91). -/
def CellRec.inRange (r : CellRec) : Prop := r.b16 ≤ 65520 ∧ -4095 ≤ r.s ∧ r.s ≤ 4095

/-- Both sets of tables have their 2048 cell records, 32 streak slots and 24 candidate slots, and every slot its 2048
cell values (R52, R81, R100, R118); every record lies in its ranges, and every cell value is at most 4095 (R81, R89,
R91). -/
def State.cellsOk (s : State) : Prop :=
  (s.eng.work.cells.length = 2048 ∧ s.eng.work.streaks.length = 32 ∧ s.eng.work.cands.length = 24) ∧
    (s.eng.pub.cells.length = 2048 ∧ s.eng.pub.streaks.length = 32 ∧ s.eng.pub.cands.length = 24) ∧
    (∀ i, (s.asm.slots.get i).cells.length = 2048) ∧
    (∀ r ∈ s.eng.work.cells, r.inRange) ∧ (∀ r ∈ s.eng.pub.cells, r.inRange) ∧
    ∀ i, ∀ x ∈ (s.asm.slots.get i).cells, x ≤ 4095

/-- A copy has its 16 lanes and 16 profiles (R160). -/
def Recipe.shapeOk (r : Recipe) : Prop := r.lanes.length = 16 ∧ r.profiles.length = 16

/-- Every copy has its entries, and the active, pending and retiring copies pass every check of R165 (R15, R50, R68,
R75). -/
def State.recipesOk (s : State) : Prop :=
  (s.rcp.active.shapeOk ∧ s.rcp.active.valid = true) ∧
    (∀ c, s.rcp.pending = some c → c.copy.shapeOk ∧ c.copy.valid = true) ∧
    (∀ r, s.rcp.retiring = some r → r.shapeOk ∧ r.valid = true) ∧ ∀ r, s.rcp.staging = some r → r.shapeOk

/-- A staging copy exists exactly while the edit right is held, and the silence timer runs exactly then (R162). -/
def State.editOk (s : State) : Prop :=
  (s.rcp.staging.isSome = true ↔ s.rcp.holder.isSome = true) ∧
    s.rcp.silenceMs = if s.rcp.holder.isSome then 2000 else 0

/-- The diagnostic counters (R14, R30, R49, R66, R115, R136, R159, R175), in one order. -/
def State.counters (s : State) : List Nat :=
  [s.pos.illegal, s.pos.limitDiscards, s.pos.reverseDiscards, s.trig.linesSkipped] ++
    [s.trk.spurious, s.trk.backlogEdges, s.trk.marksMissed, s.trk.startsDropped] ++
    s.links.toList.flatMap (fun k => [k.aborted, k.badFrames, k.idMismatches]) ++
    s.asm.late.toList ++ s.asm.duplicate.toList ++ s.asm.short.toList ++ s.asm.illum.toList ++ [s.asm.forced] ++
    [s.eng.work.splits, s.eng.work.refusals] ++
    [s.mark.merges, s.mark.late, s.mark.dropped, s.mark.discarded] ++
    s.ports.toList.flatMap (fun x => [x.badFrames, x.aborted, x.inactivity, x.overruns])

/-- Every diagnostic counter is 16 bits wide (00_scope.md 1.7). -/
def State.countersOk (s : State) : Prop := ∀ n ∈ s.counters, n ≤ 65535

end Sys2Proof.Machine
end

