-- ==== Sys2Proof/Certificates/Slice0/Obligations.lean ====
section
/-! DEFINITION. The statements for the provers. Each docstring names the rules of spec/ the statement rests on; where a
clause is the model's choice it names the row of the assumption log. -/

section

open Sys2Proof Sys2Proof.Machine

/-! ### The queue, power-on reset -/

/-- A step runs the command at the front of the queue on the machine with the queue's rest (95_what_each_step_holds.md:
each step whole). On an empty queue with no line in work the machine idles, which is the model's choice (assumption 2);
what it does there with a line in work says EngineAdvances. -/
def Obligations.StepRunsFront : Prop :=
  ∀ s : State,
    (∀ c rest, s.pending = c :: rest → step s = exec c { s with pending := rest }) ∧
      (s.pending = [] → (∀ i, (s.asm.slots.get i).state ≠ .inWork) → step s = .next s)

/-- POWER_ON_RESET puts every block into its stated power-on state (R1, R2, R7, R16, R41, R53, R81, R141, R143, R152,
R161, R181) from any state. -/
def Obligations.PowerOnResetState : Prop :=
  ∀ (a b : Bool) (carriers : Quad Bool) (s : State), ∃ t : State, exec (.powerOnReset a b carriers) s = .next t ∧
    t.pos.refA = a ∧ t.pos.refB = b ∧ t.pos.e = 0 ∧ t.pos.w = 0 ∧ t.pos.l = 0 ∧ t.pos.overrun = false ∧
    t.trig.t = 0 ∧ t.trig.lastTrigger = 0 ∧ t.trig.n = 0 ∧ t.trig.skipped = 0 ∧
    t.trk.mode = .off ∧ t.trk.pred = 0 ∧ t.trk.prev = 0 ∧ t.trk.misses = 0 ∧ t.trk.queue = [] ∧
    t.trk.patch = none ∧ t.trk.prevShort = false ∧ t.trk.lastPatch = 0 ∧ t.trk.frozen = false ∧
    (∀ h, (t.links.get h).state = (if carriers.get h then LinkState.hunt else .down) ∧
      (t.links.get h).rx.isOpen = false ∧ (t.links.get h).good = 0 ∧ (t.links.get h).bad = 0 ∧
      (t.links.get h).learned = 0 ∧ (t.links.get h).mismatchReported = false) ∧
    (∀ i, (t.asm.slots.get i).state = .free ∧ (t.asm.slots.get i).copy = .none ∧
      (t.asm.slots.get i).expected = Quad.fill false ∧ (t.asm.slots.get i).received = Quad.fill false ∧
      (t.asm.slots.get i).absent = Quad.fill false) ∧
    t.eng.work = t.eng.pub ∧ t.eng.pub.cells = List.replicate 2048 ⟨false, 0, 0, 0, none⟩ ∧
    t.eng.pub.streaks = List.replicate 32 none ∧ t.eng.pub.streakLatch = false ∧
    t.eng.pub.cands = List.replicate 24 none ∧ t.eng.pub.candLatch = false ∧ t.eng.pub.tally = none ∧
    t.eng.lastLine = none ∧ t.eng.resets = [] ∧ t.eng.progress = .begun ∧
    t.list.records = [] ∧ t.list.next = 1 ∧
    t.mark.queue = [] ∧ t.mark.latch = false ∧ t.mark.nextRank = 1 ∧ t.mark.mk0 = false ∧ t.mark.mk1 = false ∧
    t.rcp.run = .idle ∧ t.rcp.active = defaultRecipe ∧ t.rcp.staging = none ∧ t.rcp.pending = none ∧
    t.rcp.retiring = none ∧ t.rcp.holder = none ∧
    (∀ p, (t.ports.get p).rx.isOpen = false ∧ (t.ports.get p).response = none ∧ (t.ports.get p).held = none ∧
      (t.ports.get p).cursor = 1 ∧ (t.ports.get p).sub = ⟨true, true, true, true⟩ ∧ (t.ports.get p).watermark = 1 ∧
      (t.ports.get p).skipped = 0 ∧ (t.ports.get p).enable = ⟨true, true, true, true⟩ ∧
      (t.ports.get p).causes = ⟨false, false, false, false⟩ ∧
      (t.ports.get p).service = ⟨false, false, false, false⟩ ∧ (t.ports.get p).atn = false) ∧
    ∀ n ∈ t.counters, n = 0

/-! ### The position counter (chapter 1) -/

/-- The counts that do not move W (R1, R3, R4, R5). Backward: E falls; L rises, or at full backlog the count is
discarded and counted, and the first one of an episode appends REVERSE_OVERRUN. Forward: it makes up backlog, ending an
episode with the last of it, or it is discarded at the position limit. Both channels together: an illegal transition,
counted, the new state the reference. Nothing else changes. -/
def Obligations.CountsThatHoldW : Prop :=
  ∀ (a b : Bool) (s : State),
    (backwardInputs s.pos.refA s.pos.refB a b →
      (s.pos.l < 65535 →
        exec (.encoderTransition a b) s =
          .next { s with pos := { s.pos with refA := a, refB := b, e := s.pos.e - 1, l := s.pos.l + 1 } }) ∧
      (s.pos.l = 65535 → s.pos.overrun = true →
        exec (.encoderTransition a b) s =
          .next { s with pos := { s.pos with
            refA := a, refB := b, e := s.pos.e - 1
            reverseDiscards := min (s.pos.reverseDiscards + 1) 65535 } }) ∧
      (s.pos.l = 65535 → s.pos.overrun = false →
        exec (.encoderTransition a b) s =
          .next (append s.pos.w (.event .reverseOverrun 0) { s with pos := { s.pos with
            refA := a, refB := b, e := s.pos.e - 1, overrun := true
            reverseDiscards := min (s.pos.reverseDiscards + 1) 65535 } }))) ∧
    (forwardInputs s.pos.refA s.pos.refB a b →
      (0 < s.pos.l →
        exec (.encoderTransition a b) s =
          .next { s with pos := { s.pos with
            refA := a, refB := b, e := s.pos.e + 1, l := s.pos.l - 1
            overrun := s.pos.overrun && decide (s.pos.l ≠ 1) } }) ∧
      (s.pos.l = 0 → s.pos.w = 4294967295 →
        exec (.encoderTransition a b) s =
          .next { s with pos := { s.pos with
            refA := a, refB := b, e := s.pos.e + 1
            limitDiscards := min (s.pos.limitDiscards + 1) 65535 } })) ∧
    exec (.encoderTransition (!s.pos.refA) (!s.pos.refB)) s =
      .next { s with pos := { s.pos with
        refA := !s.pos.refA, refB := !s.pos.refB, illegal := min (s.pos.illegal + 1) 65535 } }

/-- A forward count with no backlog and below the limit moves E and W on by one and nothing else of the position
(R3), in every run state; whatever it causes at the other blocks, it reaches neither the links nor the engine, the
copies' edit right nor what the ports have received, hold and answer. -/
def Obligations.ForwardCountMovesW : Prop :=
  ∀ (a b : Bool) (s : State), forwardInputs s.pos.refA s.pos.refB a b → s.pos.l = 0 → s.pos.w < 4294967295 →
    ∃ t : State, exec (.encoderTransition a b) s = .next t ∧
      t.pos = { s.pos with refA := a, refB := b, e := s.pos.e + 1, w := s.pos.w + 1 } ∧
      t.links = s.links ∧ t.eng = s.eng ∧ t.pending = s.pending ∧
      t.rcp.holder = s.rcp.holder ∧ t.rcp.staging = s.rcp.staging ∧ t.rcp.silenceMs = s.rcp.silenceMs ∧
      ∀ p, (t.ports.get p).rx = (s.ports.get p).rx ∧ (t.ports.get p).response = (s.ports.get p).response ∧
        (t.ports.get p).held = (s.ports.get p).held

/-- A forward count that moves W and finds no trigger due. In IDLE, with the tracker OFF, it reaches only the marker
scheduler: the entries whose end W has reached leave the queue, clearing the latch, and each output follows the entries
that hold the new W (R2, R155, R156); at the limit it appends POSITION_LIMIT with argument 0 besides (R6). In ARMED at
the limit POSITION_LIMIT has argument 1 and the stop begins with cause 3, whatever else is due (R6, R12, R171); with
nothing else due only LINES_SKIPPED may follow it. In ARMED and TRACK the coat-to-gap transition takes a waiting swap: T
becomes the last trigger position plus the new P, and a T at or below W is triggered at once (R10, R28, R29, R168). -/
def Obligations.ForwardCountNoTrigger : Prop :=
  ∀ (a b : Bool) (s : State), forwardInputs s.pos.refA s.pos.refB a b → s.pos.l = 0 → s.pos.w < 4294967295 →
    (s.rcp.run = .idle → s.trk.mode = .off → ∃ u : State,
      u = { s with
        pos := { s.pos with refA := a, refB := b, e := s.pos.e + 1, w := s.pos.w + 1 }
        mark := { s.mark with
          queue := s.mark.queue.filter (fun e => decide (s.pos.w + 1 < e.stop))
          latch := s.mark.latch && s.mark.queue.all (fun e => decide (s.pos.w + 1 < e.stop))
          mk0 := s.mark.queue.any (fun e => decide (e.marker = .mk0 ∧ e.covers (s.pos.w + 1)))
          mk1 := s.mark.queue.any (fun e => decide (e.marker = .mk1 ∧ e.covers (s.pos.w + 1))) } } ∧
      (s.pos.w + 1 < 4294967295 → exec (.encoderTransition a b) s = .next u) ∧
      (s.pos.w + 1 = 4294967295 →
        exec (.encoderTransition a b) s = .next (append 4294967295 (.event .positionLimit 0) u))) ∧
    (s.rcp.run = .armed → s.pos.w + 1 = 4294967295 → ∃ t : State, exec (.encoderTransition a b) s = .next t ∧
      t.rcp.run = .stopping ∧ t.rcp.stopBy = 3 ∧ t.trk.frozen = true ∧ t.trig.skipped = 0 ∧
      (∀ i, (t.asm.slots.get i).state ≠ .opened ∧ (t.asm.slots.get i).state ≠ .ready) ∧
      (∃ q ∈ t.list.records, q.w = 4294967295 ∧ q.body = .event .positionLimit 1) ∧
      (s.trackerRests 4294967295 → 4294967295 < s.trig.t →
        t.trk = { s.trk with frozen := true } ∧ t.trig = { s.trig with skipped := 0 } ∧
        t.list = (if s.trig.skipped = 0 then s.list.push 4294967295 (.event .positionLimit 1)
          else (s.list.push 4294967295 (.event .positionLimit 1)).push 4294967295
            (.event .linesSkipped s.trig.skipped)))) ∧
    ∀ (p : Patch) (c : PendingCopy) (rcp : RecipeStore) (slots : Quad Slot) (list : DefectList) (trk : Tracker),
      s.rcp.run = .armed → s.pos.w + 1 < 4294967295 → s.pos.w + 1 < s.trig.t → s.trk.mode = .track →
      s.trk.frozen = false → s.trk.patch = some p → p.endW = s.pos.w + 1 → s.rcp.pending = some c →
      s.rcp.retiring = none → s.swapsTo (s.pos.w + 1) c rcp slots list trk →
      (∀ e ∈ trk.queue, s.pos.w + 1 < e.pos) →
      (trk.mode = .track → s.pos.w + 1 ≤ trk.pred + c.copy.patch.wm) →
      (s.pos.w + 1 < s.trig.lastTrigger + c.copy.p → ∃ t : State, exec (.encoderTransition a b) s = .next t ∧
        t.rcp = rcp ∧ t.asm = { s.asm with slots := slots } ∧ t.list = list ∧ t.trk = trk ∧
        t.trig = { s.trig with t := s.trig.lastTrigger + c.copy.p }) ∧
      (s.trig.lastTrigger + c.copy.p ≤ s.pos.w + 1 → 1 ≤ c.copy.p →
        ∃ t : State, exec (.encoderTransition a b) s = .next t ∧
          t.rcp = rcp ∧ t.trig.t = s.pos.w + 1 + c.copy.p ∧ t.trig.lastTrigger = s.pos.w + 1 ∧
          (t.trig.n = s.trig.n + 1 ∨ t.trig.n = s.trig.n ∧ t.trig.skipped = min (s.trig.skipped + 1) 65535))

/-- W never decreases, except that power-on reset and an accepted RESET_POSITION set it to 0, and W and L keep their
ranges (R2): whatever the command and the state. RESET_POSITION is accepted in IDLE (R13). It is its own row, or the
command taken within a STATION_FRAME, STATION_FRAME_ABORT, FRAME_TIMEOUT or RESPONSE_SENT row (assumption 4). -/
def Obligations.WNeverFalls : Prop :=
  ∀ (c : Instr) (s t : State), exec c s = .next t →
    (s.pos.w ≤ t.pos.w ∨
      (t.pos.w = 0 ∧
        ((∃ a b k, c = .powerOnReset a b k) ∨
          (s.rcp.run = .idle ∧ ((∃ p tag, c = .resetPosition p tag) ∨ (∃ p bytes, c = .stationFrame p bytes) ∨
            (∃ p bytes, c = .stationFrameAbort p bytes) ∨ (∃ p bytes, c = .frameTimeout p bytes) ∨
            ∃ p, c = .responseSent p))))) ∧
      (s.positionOk → t.positionOk)

/-! ### Line triggers (chapter 1) and zones (chapter 2) -/

/-- A trigger that finds a FREE slot opens line n in the lowest-numbered one (R8, R9, R10, R11, R25, R26, R27, R52,
R54), in ARMED with W brought to T below the limit, in every tracker state that has no work of its own at this count,
with starts queued or not. A swap that waits for a trigger is taken first (R8, R29, R167, R168), and the line opens
under the new copy with the tracker adopted before its zone is decided (assumption 16); the stale OPEN slots are forced
and counted (R60). A gap past its tolerance is UNKNOWN only with no start queued (R27). -/
def Obligations.TriggerOpensLine : Prop :=
  ∀ (a b : Bool) (i : Fin 4) (s : State) (rcp : RecipeStore) (slots : Quad Slot) (list : DefectList) (trk : Tracker),
    forwardInputs s.pos.refA s.pos.refB a b → s.pos.l = 0 →
    s.pos.w + 1 < 4294967295 → s.rcp.run = .armed → s.trk.mode ≠ .off → s.trackerRests (s.pos.w + 1) →
    s.trig.t = s.pos.w + 1 → s.atTrigger (s.pos.w + 1) rcp slots list trk → 1 ≤ rcp.active.p →
    (s.asm.slots.get i).state = .free → (∀ j, j < i → (s.asm.slots.get j).state ≠ .free) →
    ∃ t : State, exec (.encoderTransition a b) s = .next t ∧
      t.trig = { s.trig with
        t := s.pos.w + 1 + rcp.active.p, lastTrigger := s.pos.w + 1, n := s.trig.n + 1, skipped := 0
        out := frameOf (be 2 s.trig.n.toNat) } ∧
      (t.asm.slots.get i).line = s.trig.n ∧ (t.asm.slots.get i).w = s.pos.w + 1 ∧
      (t.asm.slots.get i).rank = s.asm.lastRank + 1 ∧ t.asm.lastRank = s.asm.lastRank + 1 ∧
      (t.asm.slots.get i).skippedBefore = s.trig.skipped ∧ (t.asm.slots.get i).copy = .active ∧
      (t.asm.slots.get i).prevShort = trk.prevShort ∧ t.trk = { trk with prevShort := false } ∧
      (∀ h, (t.asm.slots.get i).expected.get h = true ↔
        (rcp.active.heads.get h).enabled = 1 ∧ (s.links.get h).state = .locked) ∧
      (∀ h, (t.asm.slots.get i).received.get h = false ∧ (t.asm.slots.get i).absent.get h = false) ∧
      (t.asm.slots.get i).state =
        (if ∃ h, (rcp.active.heads.get h).enabled = 1 ∧ (s.links.get h).state = .locked
          then SlotState.opened else .ready) ∧
      (trk.mode = .continuous → (t.asm.slots.get i).zone = .body ∧ (t.asm.slots.get i).patchNum = 0) ∧
      (trk.mode ≠ .continuous → trk.patch = none →
        (t.asm.slots.get i).zone = .unknown ∧ (t.asm.slots.get i).patchNum = 0) ∧
      (trk.mode ≠ .continuous → ∀ q, trk.patch = some q → q.s ≤ s.pos.w + 1 →
        (s.pos.w + 1 < q.endW →
          (t.asm.slots.get i).zone.coated = true ∧
          ((t.asm.slots.get i).zone.hasLead = true ↔ s.pos.w + 1 < q.s + rcp.active.patch.leadLen) ∧
          ((t.asm.slots.get i).zone.hasTrail = true ↔ q.endW ≤ s.pos.w + 1 + rcp.active.patch.trailLen) ∧
          (t.asm.slots.get i).patchNum = q.num ∧ (t.asm.slots.get i).patchS = q.s ∧
          (t.asm.slots.get i).patchErr = q.err ∧ (t.asm.slots.get i).patchKind = q.kind) ∧
        (q.endW ≤ s.pos.w + 1 →
          (t.asm.slots.get i).patchNum = 0 ∧
          (t.asm.slots.get i).zone =
            if q.endW + rcp.active.patch.g + rcp.active.patch.wm < s.pos.w + 1 ∧ trk.queue = [] then .unknown
            else .gap)) ∧
      (∀ j, j ≠ i → t.asm.slots.get j = (slots.get j).afterForcing s.trig.n) ∧ t.asm.forced = s.forcedAfter ∧
      t.list = (if s.trig.skipped = 0 then list
        else list.push (s.pos.w + 1) (.event .linesSkipped s.trig.skipped)) ∧
      t.rcp = rcp ∧ t.links = s.links ∧ t.eng = s.eng

/-- A trigger that finds no FREE slot skips its line (R9), in every tracker state that has no work of its own at this
count: no word is sent, n does not advance, both skip counts rise, T is set by R10; a swap that waits for a trigger is
taken first (R8, R29, R167, R168), and the stale OPEN slots are forced and counted all the same (R8, R60). -/
def Obligations.TriggerSkipsLine : Prop :=
  ∀ (a b : Bool) (s : State) (rcp : RecipeStore) (slots : Quad Slot) (list : DefectList) (trk : Tracker),
    forwardInputs s.pos.refA s.pos.refB a b → s.pos.l = 0 →
    s.pos.w + 1 < 4294967295 → s.rcp.run = .armed → s.trk.mode ≠ .off → s.trackerRests (s.pos.w + 1) →
    s.trig.t = s.pos.w + 1 → s.atTrigger (s.pos.w + 1) rcp slots list trk → 1 ≤ rcp.active.p →
    (∀ i, (s.asm.slots.get i).state ≠ .free) →
    ∃ t : State, exec (.encoderTransition a b) s = .next t ∧
      t.trig = { s.trig with
        t := s.pos.w + 1 + rcp.active.p, lastTrigger := s.pos.w + 1
        skipped := min (s.trig.skipped + 1) 65535, linesSkipped := min (s.trig.linesSkipped + 1) 65535 } ∧
      (∀ i, t.asm.slots.get i = (slots.get i).afterForcing s.trig.n) ∧ t.asm.forced = s.forcedAfter ∧
      t.trk = trk ∧ t.list = list ∧ (list = s.list → t.ports = s.ports) ∧ t.rcp = rcp ∧ t.links = s.links ∧
      t.eng = s.eng

/-! ### The registration tracker (chapter 2) -/

/-- A mark edge outside TRACK. Where it goes (R18): an edge of the other polarity reaches no rule; in OFF, in CONTINUOUS
and while frozen it is ignored; with backlog it is discarded and counted. In SEEK or LOST (R19, R23, R24): with four
starts queued it is discarded and counted; otherwise it acquires registration, and its start waits in position order, is
discarded and counted when one with its position waits already, or, with M = 0, pops at once and begins a patch. -/
def Obligations.MarkEdgeOutsideTrack : Prop :=
  (∀ (edge : EdgeSense) (s : State), s.rcp.active.patch.polarity ≤ 1 →
    ((edge = .rising ∧ s.rcp.active.patch.polarity = 1) ∨ (edge = .falling ∧ s.rcp.active.patch.polarity = 0) →
      exec (.markEdge edge) s = .next s) ∧
    (s.trk.mode = .off ∨ s.trk.mode = .continuous ∨ s.trk.frozen = true → exec (.markEdge edge) s = .next s) ∧
    ((edge = .rising ∧ s.rcp.active.patch.polarity = 0) ∨ (edge = .falling ∧ s.rcp.active.patch.polarity = 1) →
      s.trk.mode ≠ .off → s.trk.mode ≠ .continuous → s.trk.frozen = false → 0 < s.pos.l →
      exec (.markEdge edge) s =
        .next { s with trk := { s.trk with backlogEdges := min (s.trk.backlogEdges + 1) 65535 } })) ∧
  ∀ (edge : EdgeSense) (s : State), (edge = .rising ∧ s.rcp.active.patch.polarity = 0) ∨
      (edge = .falling ∧ s.rcp.active.patch.polarity = 1) →
    (s.trk.mode = .seek ∨ s.trk.mode = .lost) → s.trk.frozen = false → s.pos.l = 0 →
    (s.trk.queue.length = 4 →
      exec (.markEdge edge) s =
        .next { s with trk := { s.trk with startsDropped := min (s.trk.startsDropped + 1) 65535 } }) ∧
    (s.trk.queue.length < 4 → s.trk.queue.Pairwise (fun e f => e.pos < f.pos) →
      (∀ e ∈ s.trk.queue, s.pos.w < e.pos) → ∃ x : Tracker,
      exec (.markEdge edge) s = .next (append s.pos.w (.event .regAcquired 0) { s with trk := { x with
        mode := .track, misses := 0, prev := s.pos.w
        pred := s.pos.w + s.rcp.active.patch.c + s.rcp.active.patch.g } }) ∧
      ((∀ e ∈ s.trk.queue, e.pos ≠ s.pos.w + s.rcp.active.patch.m) → 0 < s.rcp.active.patch.m → ∃ q,
        x = { s.trk with queue := q } ∧ q.Pairwise (fun e f => e.pos < f.pos) ∧
        q.Perm (⟨s.pos.w + s.rcp.active.patch.m, 0, .acq⟩ :: s.trk.queue)) ∧
      ((∃ e ∈ s.trk.queue, e.pos = s.pos.w + s.rcp.active.patch.m) →
        x = { s.trk with startsDropped := min (s.trk.startsDropped + 1) 65535 }) ∧
      (s.rcp.active.patch.m = 0 → x = s.trk.begins s.pos.w s.pos.w s.rcp.active.patch.c 0 .acq))

/-- A mark edge in TRACK (R20, R23, R24): spurious outside its window or at or below the previous edge; otherwise
accepted with its registration error. Its start then waits in position order, is discarded and counted when one with its
position waits already, pops at once with M = 0, or is dropped from a full queue, which loses registration with
REG_LOST, argument 2. -/
def Obligations.MarkEdgeInTrack : Prop :=
  ∀ (edge : EdgeSense) (s : State), (edge = .rising ∧ s.rcp.active.patch.polarity = 0) ∨
      (edge = .falling ∧ s.rcp.active.patch.polarity = 1) →
    s.trk.mode = .track → s.trk.frozen = false → s.pos.l = 0 →
    (s.pos.w + s.rcp.active.patch.wm < s.trk.pred ∨ s.pos.w ≤ s.trk.prev →
      exec (.markEdge edge) s = .next { s with trk := { s.trk with spurious := min (s.trk.spurious + 1) 65535 } }) ∧
    (s.trk.pred ≤ s.pos.w + s.rcp.active.patch.wm → s.trk.prev < s.pos.w →
      (∀ e ∈ s.trk.queue, s.pos.w < e.pos) → ∃ x : Tracker,
      x = { s.trk with
        misses := 0, prev := s.pos.w, pred := s.pos.w + s.rcp.active.patch.c + s.rcp.active.patch.g } ∧
      ((∀ e ∈ s.trk.queue, e.pos ≠ s.pos.w + s.rcp.active.patch.m) → s.trk.queue.length < 4 →
        0 < s.rcp.active.patch.m → s.trk.queue.Pairwise (fun e f => e.pos < f.pos) →
        ∃ q, exec (.markEdge edge) s = .next { s with trk := { x with queue := q } } ∧
          q.Pairwise (fun e f => e.pos < f.pos) ∧
          q.Perm (⟨s.pos.w + s.rcp.active.patch.m, (s.pos.w : Int) - s.trk.pred, .plain⟩ :: s.trk.queue)) ∧
      ((∃ e ∈ s.trk.queue, e.pos = s.pos.w + s.rcp.active.patch.m) →
        exec (.markEdge edge) s =
          .next { s with trk := { x with startsDropped := min (s.trk.startsDropped + 1) 65535 } }) ∧
      ((∀ e ∈ s.trk.queue, e.pos ≠ s.pos.w + s.rcp.active.patch.m) → s.trk.queue.length = 4 →
        exec (.markEdge edge) s =
          .next (append s.pos.w (.event .regLost 2) { s with trk := { x with
            mode := .lost, startsDropped := min (s.trk.startsDropped + 1) 65535 } })) ∧
      (s.rcp.active.patch.m = 0 → s.trk.queue.length < 4 →
        exec (.markEdge edge) s =
          .next { s with trk := x.begins s.pos.w s.pos.w s.rcp.active.patch.c ((s.pos.w : Int) - s.trk.pred) .plain }))

/-- The tracker at a forward count with no trigger due. W passes pred + Wm in TRACK (R21, R22, R23): the miss is counted
and reported; above F registration is lost; within F the flywheel moves pred on and its start at pred + M waits in
position order, pops at once when W has reached it, is discarded and counted when one with its position waits already,
or is dropped from a full queue with REG_LOST, argument 2. W reaches the first start in the queue (R24): it pops and
begins the next patch, with prev_short when the patch before was still coated. -/
def Obligations.TrackerOnForwardCount : Prop :=
  ∀ (a b : Bool) (s : State), forwardInputs s.pos.refA s.pos.refB a b → s.pos.l = 0 →
    s.pos.w + 1 < 4294967295 → s.trk.frozen = false → (s.rcp.run = .armed → s.pos.w + 1 < s.trig.t) →
    (s.trk.mode = .track → ∀ q, s.trk.patch = some q → q.endW ≠ s.pos.w + 1) →
    ∃ t : State, exec (.encoderTransition a b) s = .next t ∧
      (s.trk.mode = .track → s.trk.pred + s.rcp.active.patch.wm = s.pos.w →
        0 < s.rcp.active.patch.c + s.rcp.active.patch.g → (∀ e ∈ s.trk.queue, s.pos.w + 1 < e.pos) →
        ∃ (x : Tracker) (l : DefectList),
          x = { s.trk with
            misses := s.trk.misses + 1, marksMissed := min (s.trk.marksMissed + 1) 65535
            prev := s.trk.pred, pred := s.trk.pred + s.rcp.active.patch.c + s.rcp.active.patch.g } ∧
          l = s.list.push (s.pos.w + 1) (.event .markMissed (s.trk.misses + 1)) ∧
          (s.trk.misses < s.rcp.active.patch.f →
            ((∀ e ∈ s.trk.queue, e.pos ≠ s.trk.pred + s.rcp.active.patch.m) → s.trk.queue.length < 4 →
              s.pos.w + 1 < s.trk.pred + s.rcp.active.patch.m →
              s.trk.queue.Pairwise (fun e f => e.pos < f.pos) → ∃ q, t.trk = { x with queue := q } ∧
                q.Pairwise (fun e f => e.pos < f.pos) ∧
                q.Perm (⟨s.trk.pred + s.rcp.active.patch.m, 0, .flywheel⟩ :: s.trk.queue) ∧ t.list = l) ∧
            (s.trk.queue.length < 4 → s.trk.pred + s.rcp.active.patch.m ≤ s.pos.w + 1 →
              t.trk = x.begins (s.pos.w + 1) (s.trk.pred + s.rcp.active.patch.m) s.rcp.active.patch.c 0 .flywheel ∧
              t.list = l) ∧
            ((∃ e ∈ s.trk.queue, e.pos = s.trk.pred + s.rcp.active.patch.m) →
              t.trk = { x with startsDropped := min (s.trk.startsDropped + 1) 65535 } ∧ t.list = l) ∧
            ((∀ e ∈ s.trk.queue, e.pos ≠ s.trk.pred + s.rcp.active.patch.m) → s.trk.queue.length = 4 →
              t.trk = { x with mode := .lost, startsDropped := min (s.trk.startsDropped + 1) 65535 } ∧
              t.list = l.push (s.pos.w + 1) (.event .regLost 2))) ∧
          (s.rcp.active.patch.f ≤ s.trk.misses →
            t.trk = { s.trk with
              misses := s.trk.misses + 1, marksMissed := min (s.trk.marksMissed + 1) 65535, mode := .lost } ∧
            t.list = l.push (s.pos.w + 1) (.event .regLost 1))) ∧
      (s.trk.mode ≠ .off → (s.trk.mode = .track → s.pos.w + 1 ≤ s.trk.pred + s.rcp.active.patch.wm) →
        ∀ e rest, s.trk.queue = e :: rest → e.pos ≤ s.pos.w + 1 → (∀ f ∈ rest, s.pos.w + 1 < f.pos) →
        t.trk = { s.trk.begins (s.pos.w + 1) e.pos s.rcp.active.patch.c e.err e.kind with queue := rest } ∧
        t.list = s.list) ∧
      t.trig = s.trig ∧ t.rcp = s.rcp ∧ t.asm = s.asm

/-! ### The head links (chapter 3) -/

/-- CARRIER_GAINED in DOWN: HUNT, the good run at 0, a new episode, no frame open (R41, R45). CARRIER_LOST in HUNT and
in LOCKED, with no byte since the last step (R41, R46, R59): DOWN with the runs cleared, a frame cut short counted as
aborted, which the model reads as a frame that has received a byte (assumption 11); from LOCKED, HEAD_LOST with cause 1,
and the head leaves every OPEN slot, whose completion test is made, while the other slots stay as they are. That the
mismatch flag stands as it is in DOWN, and the id of an emptied run goes to 0, is the model's choice (assumption 27). -/
def Obligations.CarrierMovesLink : Prop :=
  ∀ (h : HeadNo) (s : State),
    ((s.links.get h).state = .down →
      exec (.carrierGained h) s =
        .next { s with links := s.links.set h { s.links.get h with
          state := .hunt, rx := ⟨false, false, [], false, false⟩, good := 0, mismatchReported := false } }) ∧
    ((s.links.get h).state = .hunt →
      exec (.carrierLost h []) s =
        .next { s with links := s.links.set h { s.links.get h with
          state := .down, rx := ⟨false, false, [], false, false⟩, good := 0, runId := 0, bad := 0
          aborted := if (s.links.get h).rx.isOpen = true ∧ (s.links.get h).rx.begun = true
            then min ((s.links.get h).aborted + 1) 65535 else (s.links.get h).aborted } }) ∧
    ((s.links.get h).state = .locked → ∃ t : State, exec (.carrierLost h []) s = .next t ∧
      t.links = s.links.set h { s.links.get h with
        state := .down, rx := ⟨false, false, [], false, false⟩, good := 0, runId := 0, bad := 0
        aborted := if (s.links.get h).rx.isOpen = true ∧ (s.links.get h).rx.begun = true
          then min ((s.links.get h).aborted + 1) 65535 else (s.links.get h).aborted } ∧
      t.list = s.list.push s.pos.w (.event .headLost (h.val + 256)) ∧
      (∀ i, (s.asm.slots.get i).state ≠ .opened → t.asm.slots.get i = s.asm.slots.get i) ∧
      (∀ i, (s.asm.slots.get i).state = .opened → ∃ x : Slot,
        t.asm.slots.get i = { s.asm.slots.get i with
          state := x.state, expected := x.expected, received := x.received, absent := x.absent } ∧
        x.expected = (s.asm.slots.get i).expected.set h false ∧
        x.received = (s.asm.slots.get i).received.set h false ∧
        x.absent = (s.asm.slots.get i).absent.set h false ∧
        (x.state = .opened ∨ x.state = .ready) ∧
        (x.state = .ready ↔ ∀ k, (x.received.get k || x.absent.get k) = x.expected.get k)) ∧
      t.pos = s.pos ∧ t.trig = s.trig ∧ t.trk = s.trk ∧ t.eng = s.eng ∧ t.mark = s.mark ∧ t.rcp = s.rcp)

/-- A good frame, IDLE or LINE, at a link in HUNT (R38, R40, R42, R44, R95): it raises or starts the good run and is not
delivered; the fourth in a row with one head id locks the link, learns the id and, when another id was learned before,
reports HEAD_CHANGED and requests the reset of the head's cells: the request is covered by a full reset, joins the
head's entry, or is entered last. A good IDLE frame at a LOCKED link clears the bad run (R43). That the run stays at 4
with its id in LOCKED is the model's reading (assumption 21); that the mismatch flag stands as it is in LOCKED, and the
bad run in HUNT, is its choice (assumption 27). -/
def Obligations.GoodFrameAtLink : Prop :=
  ∀ (h : HeadNo) (id : Nat) (body : List Byte) (s : State), 1 ≤ id → id ≤ 65535 →
    ((s.links.get h).rx = Reception.shut ∨ (s.links.get h).rx = Reception.fresh) →
    ((s.rcp.active.heads.get h).expectedId = 0 ∨ (s.rcp.active.heads.get h).expectedId = id) →
    (body = idleBody id ∨ ∃ (tag : BitVec 16) (status : Byte) (values : List Nat), 1 ≤ values.length ∧
      values.length ≤ 512 ∧ (∀ v ∈ values, v ≤ 4095) ∧ ((s.rcp.active.heads.get h).enabled = 1 →
        (s.rcp.active.heads.get h).l0 + (s.rcp.active.heads.get h).n ≤ values.length) ∧
      body = lineBody id tag status values) →
    ((s.links.get h).state = .hunt → (s.links.get h).good = 3 → (s.links.get h).runId = id →
      ((s.links.get h).learned = 0 ∨ (s.links.get h).learned = id →
        exec (.headFrame h (sentBytes body)) s =
          .next (append s.pos.w (.event .headLocked h.val) { s with links := s.links.set h { s.links.get h with
            state := .locked, rx := Reception.fresh, good := 4, bad := 0, learned := id } })) ∧
      ((s.links.get h).learned ≠ 0 → (s.links.get h).learned ≠ id → ∃ resets : List ResetRequest,
        exec (.headFrame h (sentBytes body)) s =
          .next (append s.pos.w (.event .headChanged h.val) (append s.pos.w (.event .headLocked h.val) { s with
            links := s.links.set h { s.links.get h with
              state := .locked, rx := Reception.fresh, good := 4, bad := 0, learned := id }
            eng := { s.eng with resets := resets } })) ∧
        ((s.rcp.active.heads.get h).enabled ≠ 1 ∨ s.eng.resets = [.full] → resets = s.eng.resets) ∧
        ((s.rcp.active.heads.get h).enabled = 1 → .full ∉ s.eng.resets →
          ((∀ cells, .head h cells ∉ s.eng.resets) → resets = s.eng.resets ++
            [.head h [((s.rcp.active.heads.get h).g0, (s.rcp.active.heads.get h).n)]]) ∧
          ∀ (before after : List ResetRequest) (cells : List (Nat × Nat)), (∀ x, .head h x ∉ before) →
            s.eng.resets = before ++ .head h cells :: after → resets = before ++
              .head h (cells ++ [((s.rcp.active.heads.get h).g0, (s.rcp.active.heads.get h).n)]) :: after))) ∧
    ((s.links.get h).state = .hunt → (s.links.get h).good < 3 ∨ (s.links.get h).runId ≠ id →
      exec (.headFrame h (sentBytes body)) s =
        .next { s with links := s.links.set h { s.links.get h with
          rx := Reception.fresh, runId := id
          good := if (s.links.get h).good ≠ 0 ∧ (s.links.get h).runId = id then (s.links.get h).good + 1 else 1 } }) ∧
    ((s.links.get h).state = .locked → (s.links.get h).learned = id → body = idleBody id →
      exec (.headFrame h (sentBytes body)) s =
        .next { s with links := s.links.set h { s.links.get h with rx := Reception.fresh, bad := 0 } })

/-- A bad frame (R36, R37, R38, R39, R40, R42, R43, R45, R46), by its CRC, its length limit, a bad escape, a malformed
body, the cell count or the identity test: it is counted, an ID mismatch besides; in HUNT it clears the good run, and
the first ID mismatch of an episode appends HEAD_MISMATCH; in LOCKED it raises the bad run, and the third in a row takes
the link to HUNT, in a new episode, with HEAD_LOST, cause 2. HEAD_FRAME_ABORT ends the frame in reception as aborted:
counted, the runs and all else unchanged. That a frame of a bad escape alone is a bad frame is the model's reading of
R36 (assumption 11); that the bad run, and the id of an emptied good run, stand as they are in HUNT is its choice
(assumption 27). -/
def Obligations.BadAndAbortedFrames : Prop :=
  ∀ (h : HeadNo) (s : State),
    ((s.links.get h).state ≠ .down → (s.links.get h).rx.isOpen = true → (s.links.get h).rx.escape = false →
      exec (.headFrameAbort h []) s =
        .next { s with links := s.links.set h { s.links.get h with
          rx := Reception.fresh, aborted := min ((s.links.get h).aborted + 1) 65535 } }) ∧
    ((s.links.get h).rx = Reception.shut ∨ (s.links.get h).rx = Reception.fresh →
      ∀ bytes mismatch, s.badHeadFrame h bytes mismatch → ∃ k : Link,
      k = { s.links.get h with
        rx := Reception.fresh, badFrames := min ((s.links.get h).badFrames + 1) 65535
        idMismatches := if mismatch then min ((s.links.get h).idMismatches + 1) 65535
          else (s.links.get h).idMismatches } ∧
      ((s.links.get h).state = .hunt → mismatch = false ∨ (s.links.get h).mismatchReported = true →
        exec (.headFrame h bytes) s = .next { s with links := s.links.set h { k with good := 0 } }) ∧
      ((s.links.get h).state = .hunt → mismatch = true → (s.links.get h).mismatchReported = false →
        exec (.headFrame h bytes) s = .next (append s.pos.w (.event .headMismatch h.val)
          { s with links := s.links.set h { k with good := 0, mismatchReported := true } })) ∧
      ((s.links.get h).state = .locked → (s.links.get h).bad < 2 →
        exec (.headFrame h bytes) s =
          .next { s with links := s.links.set h { k with bad := (s.links.get h).bad + 1 } }) ∧
      ((s.links.get h).state = .locked → (s.links.get h).bad = 2 → ∃ t,
        exec (.headFrame h bytes) s = .next t ∧ (t.links.get h).state = .hunt ∧ (t.links.get h).good = 0 ∧
          (t.links.get h).mismatchReported = false ∧ (t.links.get h).learned = (s.links.get h).learned ∧
          (t.links.get h).badFrames = k.badFrames ∧ (t.links.get h).idMismatches = k.idMismatches ∧
          (∀ j, j ≠ h → t.links.get j = s.links.get j) ∧
          t.list = s.list.push s.pos.w (.event .headLost (h.val + 512)) ∧
          (∀ i, (t.asm.slots.get i).state = .opened → (t.asm.slots.get i).expected.get h = false)))

/-- The event of one link does not change the state of another (chapter 3). -/
def Obligations.LinksIndependent : Prop :=
  ∀ (h k : HeadNo) (bytes : List Byte) (c : Instr) (s t : State),
    c ∈ [.carrierGained h, .carrierLost h bytes, .headFrame h bytes, .headFrameAbort h bytes] →
    exec c s = .next t → k ≠ h → t.links.get k = s.links.get k

/-- A good LINE frame at a LOCKED link (R40, R48, R55, R56, R57, R58). With no OPEN slot of its tag, or one that does
not expect its head, it is late. At the one OPEN slot that has its tag and expects its head it is a duplicate when the
head is received or absent already; with ILLUM_FAULT, or with fewer cells than the slot's copy needs, it puts the head
in the absent set and is counted; otherwise cells l0 onwards go to global cells g0 onwards by the slot's copy and the
head is received. The slot's completion test follows. -/
def Obligations.LineFrameDelivered : Prop :=
  ∀ (h : HeadNo) (id : Nat) (tag : BitVec 16) (status : Byte) (values : List Nat) (s : State),
    1 ≤ id → id ≤ 65535 → 1 ≤ values.length → values.length ≤ 512 → (∀ v ∈ values, v ≤ 4095) →
    (s.links.get h).state = .locked → (s.links.get h).learned = id →
    ((s.links.get h).rx = Reception.shut ∨ (s.links.get h).rx = Reception.fresh) →
    ((s.rcp.active.heads.get h).expectedId = 0 ∨ (s.rcp.active.heads.get h).expectedId = id) →
    ((s.rcp.active.heads.get h).enabled = 1 →
      (s.rcp.active.heads.get h).l0 + (s.rcp.active.heads.get h).n ≤ values.length) →
    ∃ taken : Assembler → State,
    (∀ asm, taken asm = { s with
      links := s.links.set h { s.links.get h with rx := Reception.fresh, bad := 0 }, asm := asm }) ∧
    ((∀ i, (s.asm.slots.get i).state = .opened → (s.asm.slots.get i).line ≠ tag) →
      exec (.headFrame h (sentBytes (lineBody id tag status values))) s =
        .next (taken { s.asm with late := s.asm.late.set h (min (s.asm.late.get h + 1) 65535) })) ∧
    (∀ i, (s.asm.slots.get i).state = .opened → (s.asm.slots.get i).line = tag →
      (∀ j, (s.asm.slots.get j).state = .opened → (s.asm.slots.get j).line = tag → j = i) →
      ((s.asm.slots.get i).expected.get h = false →
        exec (.headFrame h (sentBytes (lineBody id tag status values))) s =
          .next (taken { s.asm with late := s.asm.late.set h (min (s.asm.late.get h + 1) 65535) })) ∧
      ((s.asm.slots.get i).expected.get h = true →
        (s.asm.slots.get i).received.get h = true ∨ (s.asm.slots.get i).absent.get h = true →
        exec (.headFrame h (sentBytes (lineBody id tag status values))) s =
          .next (taken { s.asm with
            duplicate := s.asm.duplicate.set h (min (s.asm.duplicate.get h + 1) 65535) })) ∧
      ∀ e : HeadEntry, (s.asm.slots.get i).expected.get h = true → (s.asm.slots.get i).received.get h = false →
        (s.asm.slots.get i).absent.get h = false → (s.asm.slots.get i).cells.length = 2048 →
        ((s.asm.slots.get i).copy = .active ∧ e = s.rcp.active.heads.get h ∨
          (s.asm.slots.get i).copy = .retiring ∧ ∃ r, s.rcp.retiring = some r ∧ e = r.heads.get h) →
        e.g0 + e.n ≤ 2048 →
        ∃ (x : Slot) (asm : Assembler),
          exec (.headFrame h (sentBytes (lineBody id tag status values))) s =
            .next (taken { asm with slots := s.asm.slots.set i x }) ∧
          (x.state = .opened ∨ x.state = .ready) ∧
          (x.state = .ready ↔ ∀ k, (x.received.get k || x.absent.get k) = x.expected.get k) ∧
          (status.getLsbD 0 = true ∨ values.length < e.l0 + e.n →
            x = { s.asm.slots.get i with state := x.state, absent := (s.asm.slots.get i).absent.set h true } ∧
            asm = (if status.getLsbD 0 then
                { s.asm with illum := s.asm.illum.set h (min (s.asm.illum.get h + 1) 65535) }
              else { s.asm with short := s.asm.short.set h (min (s.asm.short.get h + 1) 65535) })) ∧
          (status.getLsbD 0 = false → e.l0 + e.n ≤ values.length →
            x = { s.asm.slots.get i with
              state := x.state, cells := x.cells, received := (s.asm.slots.get i).received.set h true } ∧
            asm = s.asm ∧ x.cells.length = 2048 ∧
            ∀ c, c < 2048 → x.cells.getD c 0 =
              if e.g0 ≤ c ∧ c < e.g0 + e.n then values.getD (e.l0 + (c - e.g0)) 0
              else (s.asm.slots.get i).cells.getD c 0))

/-! ### Encodings (R35 to R38) -/

/-- What a sender puts on a wire is what a receiver stores (R35, R36, R37): for every body of at least one byte within
the length limit, the receiver that takes the frame's bytes and a closing delimiter ends exactly one frame, intact and
with that body. The reader of head bodies gives back every IDLE and LINE frame (R38, R39): id, tag, the ILLUM_FAULT bit,
the cell count and every cell value. -/
def Obligations.FramesReadBack : Prop :=
  (∀ (limit : Nat) (body : List Byte), 1 ≤ body.length → body.length + 2 ≤ limit →
    Reception.feedAll limit Reception.shut (sentBytes body ++ [0xB2]) =
        (Reception.fresh, [.closed (withCrc body) false]) ∧
      Reception.feedAll limit Reception.fresh (sentBytes body ++ [0xB2]) =
        (Reception.fresh, [.closed (withCrc body) false]) ∧
      intactBody (withCrc body) false = some body) ∧
  ∀ (id : Nat), 1 ≤ id → id ≤ 65535 →
    readHeadBody (idleBody id) = some (.idle id) ∧
    ∀ (tag : BitVec 16) (status : Byte) (values : List Nat), 1 ≤ values.length → values.length ≤ 512 →
      (∀ v ∈ values, v ≤ 4095) →
      readHeadBody (lineBody id tag status values) =
        some (.line id tag (status.getLsbD 0) values.length values)

/-- A defect record is 32 bytes (R138, R139, R140): for each kind, every field of the header and the body reads back at
its offset and size, most significant byte first, and the flag bits stand in their order in byte 1. A W distance of a
PATCH record is given for S not above W and W not above the last W. -/
def Obligations.RecordLayout : Prop :=
  ∀ r : Record, r.bytes.length = 32 ∧ ∃ (flags : List Bool) (fields : List (Nat × Nat × Nat)),
    (∀ i x, flags[i]? = some x → (r.bytes.getD 1 0).getLsbD i = x) ∧
    (∀ offset size v, (offset, size, v) ∈ fields → v < 256 ^ size →
      ofBe ((r.bytes.drop offset).take size) = v) ∧
    (flags, fields) = match r.body with
      | .pinhole b =>
        ([b.flags.sat, b.flags.edge, b.flags.lead, b.flags.trail, b.flags.held, b.flags.long, b.flags.split,
            b.flags.cut],
          [(0, 1, 1), (2, 1, b.lane), (3, 1, b.profile), (4, 4, r.seq), (8, 4, r.w), (12, 4, b.lastW), (16, 1, b.lines),
            (17, 1, 0), (18, 2, b.left), (20, 2, b.right), (22, 2, b.area), (24, 2, b.peak), (26, 4, b.patch),
            (30, 2, 0)])
      | .streakOpen b =>
        ([false, false, false, false, false, false, false, false],
          [(0, 1, 2), (2, 1, b.lane), (3, 1, b.profile), (4, 4, r.seq), (8, 4, r.w),
            (12, 1, match b.pol with | .light => 0 | .dark => 1), (13, 1, 0), (14, 2, b.left), (16, 2, b.right),
            (18, 2, b.cellsAtOpen), (20, 4, b.patch), (24, 8, 0)])
      | .streakClose b =>
        ([b.pol == .dark, false, false, false, b.held, false, false, false],
          [(0, 1, 3), (2, 1, b.lane), (3, 1, b.profile), (4, 4, r.seq), (8, 4, r.w), (12, 4, b.openSeq),
            (16, 4, b.mergedInto),
            (20, 1, match b.reason with | .decay => 1 | .merged => 2 | .reset => 3 | .recipe => 4 | .disarm => 5),
            (21, 1, 0), (22, 2, b.lines), (24, 2, b.patches), (26, 2, b.wideL), (28, 2, b.wideR), (30, 2, b.peak)])
      | .patch b =>
        ([b.kind == .acq, b.kind == .flywheel, b.short, b.cut, false, false, false, decide (b.err < 0)],
          [(0, 1, 4), (2, 1, 255), (3, 1, 255), (4, 4, r.seq), (8, 4, r.w), (12, 4, b.num), (16, 3, b.lastW - r.w),
            (19, 3, r.w - b.s), (22, 2, b.err.natAbs), (24, 2, b.pinholes), (26, 2, b.streakOpens),
            (28, 2, b.lateMarks), (30, 2, b.skipped)])
      | .event code arg =>
        ([false, false, false, false, false, false, false, false],
          [(0, 1, 5), (2, 1, 255), (3, 1, 255), (4, 4, r.seq), (8, 4, r.w),
            (12, 1, 1 + [EventCode.armed, .disarmed, .recipeSwap, .headLocked, .headLost, .headChanged, .headMismatch,
              .regAcquired, .regLost, .markMissed, .streakTableFull, .candidateTableFull, .markQueueFull, .linesSkipped,
              .reverseOverrun, .positionLimit, .editExpired].idxOf code),
            (13, 1, 0), (14, 2, arg), (16, 16, 0)])

/-! ### The detection engine (chapters 2, 5 to 8) -/

/-- ENGINE_TAKE_LINE (R61, R77, R94, R95, R110, R130): the engine takes the oldest occupied slot when it is READY and no
line is in work, and keeps the sections of the line's copy. With no reset pending the tables stay; the full reset of an
ARM, on empty tables, resets every cell record. The one requested reset, of an ARM or of a HEAD_CHANGED head's cells,
resets the records of its set, closes with RESET the streaks that have a member in it, whose other cells lose their
member, and with CUT the candidates whose hull reaches into it; when HEADS or LANES differ from those kept, every record
is reset besides, every other streak closes with RECIPE and every other candidate with CUT. That the command changes
nothing while a line is in work or the oldest slot is not READY is the model's choice (assumption 5). -/
def Obligations.EngineTakesLine : Prop :=
  ∀ s : State,
    (∀ (i : Fin 4) (r : Recipe), (s.asm.slots.get i).state = .ready → (∀ j, (s.asm.slots.get j).state ≠ .inWork) →
      (∀ j, j ≠ i → (s.asm.slots.get j).state ≠ .free → (s.asm.slots.get i).rank < (s.asm.slots.get j).rank) →
      ((s.asm.slots.get i).copy = .active ∧ r = s.rcp.active ∨
        (s.asm.slots.get i).copy = .retiring ∧ s.rcp.retiring = some r) →
      (∀ k, s.eng.kept = some k → k.heads = r.heads ∧ k.lanes = r.lanes) →
      (s.eng.resets = [] →
        exec .engineTakeLine s = .next { s with
          asm := { s.asm with slots := s.asm.slots.set i { s.asm.slots.get i with state := .inWork } }
          eng := { s.eng with
            contribs := [], kept := some ⟨r.heads, r.lanes, r.mk0, r.mk1⟩, progress := .begun } }) ∧
      (s.eng.resets = [.full] → (∀ o ∈ s.eng.work.streaks, o = none) → (∀ o ∈ s.eng.work.cands, o = none) →
        exec .engineTakeLine s = .next { s with
          asm := { s.asm with slots := s.asm.slots.set i { s.asm.slots.get i with state := .inWork } }
          eng := { s.eng with
            work := { s.eng.work with cells := s.eng.work.cells.map fun _ => ⟨false, 0, 0, 0, none⟩ }
            contribs := [], resets := [], progress := .begun
            kept := some ⟨r.heads, r.lanes, r.mk0, r.mk1⟩ } })) ∧
    (∀ (i : Fin 4) (r : Recipe) (covered touched : Nat → Prop), (s.asm.slots.get i).state = .ready →
      (∀ j, (s.asm.slots.get j).state ≠ .inWork) →
      (∀ j, j ≠ i → (s.asm.slots.get j).state ≠ .free → (s.asm.slots.get i).rank < (s.asm.slots.get j).rank) →
      ((s.asm.slots.get i).copy = .active ∧ r = s.rcp.active ∨
        (s.asm.slots.get i).copy = .retiring ∧ s.rcp.retiring = some r) →
      (s.eng.resets = [] ∧ (∀ c, ¬ covered c) ∨ s.eng.resets = [.full] ∧ (∀ c, covered c) ∨
        ∃ h cells, s.eng.resets = [.head h cells] ∧ ∀ c, covered c ↔ ∃ x ∈ cells, x.1 ≤ c ∧ c < x.1 + x.2) →
      (∀ j, touched j ↔ (∃ st, s.eng.work.streaks[j]? = some (some st)) ∧
        ∃ c q, covered c ∧ s.eng.work.cells[c]? = some q ∧ q.member = some j) →
      ∃ (t : State) (xs : List (Nat × RecordBody)) (moved : Prop), exec .engineTakeLine s = .next t ∧
        (moved ↔ ∃ k, s.eng.kept = some k ∧ (k.heads ≠ r.heads ∨ k.lanes ≠ r.lanes)) ∧
        t.asm = { s.asm with slots := s.asm.slots.set i { s.asm.slots.get i with state := .inWork } } ∧
        t.eng.resets = [] ∧ t.eng.kept = some ⟨r.heads, r.lanes, r.mk0, r.mk1⟩ ∧ t.eng.progress = .begun ∧
        t.eng.pub = s.eng.pub ∧
        t.list = s.list.pushAll xs ∧
        (∀ c old, s.eng.work.cells[c]? = some old → ∃ new, t.eng.work.cells[c]? = some new ∧
          (covered c ∨ moved → new = ⟨false, 0, 0, 0, none⟩) ∧
          (¬ covered c → ¬ moved →
            ((∃ j, touched j ∧ old.member = some j) → new = { old with member := none }) ∧
            ((∀ j, touched j → old.member ≠ some j) → new = old))) ∧
        (∀ (j : Nat) (st : Streak), s.eng.work.streaks[j]? = some (some st) →
          (touched j → ((s.asm.slots.get i).w, st.closeRecord .reset 0) ∈ xs ∧ t.eng.work.streaks[j]? = some none) ∧
          (¬ touched j → moved →
            ((s.asm.slots.get i).w, st.closeRecord .recipe 0) ∈ xs ∧ t.eng.work.streaks[j]? = some none) ∧
          (¬ touched j → ¬ moved → t.eng.work.streaks[j]? = some (some st))) ∧
        ∀ (j : Nat) (k : Candidate), s.eng.work.cands[j]? = some (some k) →
          ((∃ c, covered c ∧ k.hullL ≤ c ∧ c ≤ k.hullR) ∨ moved →
            (k.firstW, k.record false false true) ∈ xs ∧ t.eng.work.cands[j]? = some none) ∧
          ((∀ c, covered c → c < k.hullL ∨ k.hullR < c) → ¬ moved → t.eng.work.cands[j]? = some (some k))) ∧
    ((∃ i, (s.asm.slots.get i).state = .inWork) ∨
      (∃ i, ((s.asm.slots.get i).state = .opened ∨ (s.asm.slots.get i).state = .inWork) ∧
        ∀ j, j ≠ i → (s.asm.slots.get j).state ≠ .free → (s.asm.slots.get i).rank < (s.asm.slots.get j).rank) →
      exec .engineTakeLine s = .next s)

/-- While no command waits, the engine goes on with the line in work (R77, R78): each step appends one of the line's
records at most, a MARK_QUEUE_FULL of its mark action behind it, and touches nothing but the engine's own tables, the
list with the ports' attention, and the mark queue, so that any command taken then finds the line between two of its
records. LINE_PUBLISH afterwards does what it would have done before, and after finitely many such steps only the
publishing is left for it. That the engine goes on just then, a piece at a time, is the model's choice (assumptions 2
and 14). -/
def Obligations.EngineAdvances : Prop :=
  ∀ (i : Fin 4) (s : State), s.pending = [] → (s.asm.slots.get i).state = .inWork →
    (∀ j, j ≠ i → (s.asm.slots.get j).state ≠ .inWork) →
    (∃ (t : State) (xs ys : List (Nat × RecordBody)), step s = .next t ∧
      exec .linePublish t = exec .linePublish s ∧
      t.list = s.list.pushAll (xs ++ ys) ∧ xs.length ≤ 1 ∧ ys.length ≤ xs.length ∧
      (∀ y ∈ ys, ∃ m, y = (s.pos.w, .event .markQueueFull m)) ∧ (xs = [] → t.mark = s.mark ∧ t.ports = s.ports) ∧
      (∀ p, t.ports.get p = { s.ports.get p with
        cursor := (t.ports.get p).cursor, skipped := (t.ports.get p).skipped, causes := (t.ports.get p).causes
        atn := (t.ports.get p).atn }) ∧
      t = { s with
        list := t.list, mark := t.mark, ports := t.ports
        eng := { s.eng with work := t.eng.work, contribs := t.eng.contribs, progress := t.eng.progress } }) ∧
    ∃ (n : Nat) (run : Nat → State), run 0 = s ∧ (∀ k, step (run k) = .next (run (k + 1))) ∧
      ∀ v, exec .linePublish (run n) = .next v → v.list = (run n).list ∧ v.mark = (run n).mark ∧
        v.eng.pub = (run n).eng.work

/-- LINE_PUBLISH of a GAP or UNKNOWN line with no candidate open (R33, R62, R79, R82, R120, R169): records, streaks and
latches stay; an open tally closes with its PATCH record; the tables are published with the line's number and W; the
slot is freed, and a retiring copy that no other slot refers to is discarded. That the freed slot's other parts stand as
they are, and that the engine's progress stands at begun, is the model's choice (assumptions 29 and 31). -/
def Obligations.PublishUncoated : Prop :=
  ∀ (i : Fin 4) (s : State), (s.asm.slots.get i).state = .inWork →
    (∀ j, j ≠ i → (s.asm.slots.get j).state ≠ .inWork) →
    s.eng.progress = .begun → ((s.asm.slots.get i).zone = .gap ∨ (s.asm.slots.get i).zone = .unknown) →
    (∀ o ∈ s.eng.work.cands, o = none) → s.eng.contribs = [] → ∃ u : State,
      u = { s with
        asm := { s.asm with slots := s.asm.slots.set i { s.asm.slots.get i with
          state := .free, copy := .none
          expected := Quad.fill false, received := Quad.fill false, absent := Quad.fill false } }
        eng := { s.eng with
          work := { s.eng.work with tally := none }
          pub := { s.eng.work with tally := none }
          lastLine := some ((s.asm.slots.get i).line, (s.asm.slots.get i).w) }
        rcp := { s.rcp with
          retiring := if ∃ j, j ≠ i ∧ (s.asm.slots.get j).copy = .retiring then s.rcp.retiring else none } } ∧
      (s.eng.work.tally = none → exec .linePublish s = .next u) ∧
      ∀ q, s.eng.work.tally = some q →
        exec .linePublish s = .next (append q.firstW (.patch
          { num := q.num, lastW := q.lastW, s := q.s, err := q.err, pinholes := q.pinholes
            streakOpens := q.streakOpens, lateMarks := q.lateMarks, skipped := q.skipped, kind := q.kind
            short := q.short || (s.asm.slots.get i).prevShort, cut := q.cut }) u)

/-- Stages 1 and 2 at one cell of a coated line (R67, R69 to R74, R82 to R91, R93): its record as published, and what is
handed on for it. A cell outside every enabled lane, or not delivered, keeps its baseline, counter and warm-up and is
not judged; a delivered lane cell is seeded, warmed up or judged by the profile of its index, and it is flagged for a
pinhole when it is judged, its profile has pin_enable, and d is at or above TP or x is 4095. -/
def Obligations.PublishedCells : Prop :=
  ∀ (i : Fin 4) (ln : Line) (s : State) (c : Nat), s.lineInWork i ln → ln.slot.zone.coated = true →
    ln.copy.shapeOk → c < s.eng.work.cells.length → c < ln.slot.cells.length →
    (s.eng.work.cells.getD c CellRec.blank).b16 ≤ 65520 → ln.slot.cells.getD c 0 ≤ 4095 →
    ∃ (t : State) (old new stage : CellRec) (o : CellResult) (x : Nat) (delivered : Bool),
      exec .linePublish s = .next t ∧
      s.eng.work.cells[c]? = some old ∧ t.eng.pub.cells[c]? = some new ∧ x = ln.slot.cells.getD c 0 ∧
      (ln.workCells 0 s.eng.work.cells ln.slot.cells)[c]? = some (stage, o) ∧ o.x = x ∧
      new = { stage with member := new.member } ∧
      (delivered = true ↔ ∃ h, ln.slot.received.get h = true ∧ (ln.copy.heads.get h).enabled = 1 ∧
        (ln.copy.heads.get h).g0 ≤ c ∧ c < (ln.copy.heads.get h).g0 + (ln.copy.heads.get h).n) ∧
      ((∀ l, l < 16 → (ln.copy.lane l).enabled = 1 → c < (ln.copy.lane l).first ∨ (ln.copy.lane l).last < c) →
        stage = old ∧ o.cls = .margin ∧ o.judged = false ∧ o.pin = false) ∧
      ∀ l, l < 16 → (ln.copy.lane l).enabled = 1 → (ln.copy.lane l).first ≤ c → c ≤ (ln.copy.lane l).last →
        (∀ k, k < l → (ln.copy.lane k).enabled = 1 → c < (ln.copy.lane k).first ∨ (ln.copy.lane k).last < c) →
        o.lane = l ∧
        (delivered = false → stage = old ∧ o.cls = .absent ∧ o.judged = false ∧ o.pin = false) ∧
        (delivered = true → ∃ (edge : Bool) (p : Profile),
          (edge = true ↔ c - (ln.copy.lane l).first < (ln.copy.lane l).guard ∨
            (ln.copy.lane l).last - c < (ln.copy.lane l).guard) ∧
          o.cls = (if edge then CellClass.edge else .inner) ∧
          o.profile = ((ln.copy.lane l).base ||| (if edge then 1 else 0) |||
            (if ln.slot.zone.hasLead then 2 else 0) ||| (if ln.slot.zone.hasTrail then 4 else 0)) ∧
          p = ln.copy.profile o.profile ∧
          (o.judged = true ↔ old.seeded = true ∧ old.warm = 0) ∧
          (old.seeded = true → o.d = (x : Int) - (old.b16 : Int) / 16) ∧
          (o.pin = true ↔ o.judged = true ∧ p.pinEnable = 1 ∧ ((p.tp : Int) ≤ o.d ∨ x = 4095)) ∧
          (old.seeded = false → stage = { old with seeded := true, b16 := 16 * x, warm := p.warm }) ∧
          (old.seeded = true → 0 < old.warm →
            (stage.b16 : Int) = old.b16 + (16 * (x : Int) - old.b16) / 2 ^ p.k ∧
              stage = { old with b16 := stage.b16, warm := old.warm - 1 }) ∧
          (o.judged = true →
            (stage.b16 : Int) = (if (p.tp : Int) ≤ o.d ∨ x = 4095 then (old.b16 : Int)
              else if (p.ts : Int) ≤ o.d ∨ o.d ≤ -(p.ts : Int) then
                old.b16 + (16 * (x : Int) - old.b16) / 2 ^ min (p.k + 4) 14
              else old.b16 + (16 * (x : Int) - old.b16) / 2 ^ p.k) ∧
            stage.s = (if p.streakEnable ≠ 1 then 0
              else if (p.ts : Int) ≤ o.d then (if 0 ≤ old.s then min (old.s + 1) 4095 else 1)
              else if o.d ≤ -(p.ts : Int) then (if old.s ≤ 0 then max (old.s - 1) (-4095) else -1)
              else if 0 < old.s then old.s - 1 else if old.s < 0 then old.s + 1 else 0) ∧
            stage = { old with
              b16 := stage.b16, s := stage.s, member := if p.streakEnable ≠ 1 then none else old.member }))

/-- A GAP or UNKNOWN line closes the one candidate open (R32, R33, R101, R112, R113, R153), with room in the mark queue:
its PINHOLE record is appended with its fields and flags, the slot empties, the latch clears, and with a mark target
free of that marker's entries one mark action is queued: at the first-line W plus the marker's offset while that lies
ahead, else at W as a late mark, counted unless the patch is 0. An open tally then closes with its PATCH record, the
pinhole and the late mark counted when they are of its patch. -/
def Obligations.PublishClosesCandidate : Prop :=
  ∀ (i : Fin 4) (j : Nat) (k : Candidate) (ln : Line) (s : State), s.lineInWork i ln →
    (ln.slot.zone = .gap ∨ ln.slot.zone = .unknown) → s.eng.contribs = [] →
    s.eng.work.cands[j]? = some (some k) → (∀ j', j' ≠ j → s.eng.work.cands.getD j' none = none) →
    s.mark.queue.length < 32 →
    ∃ (t : State) (late : Bool) (l : DefectList), exec .linePublish s = .next t ∧
      l = s.list.push k.firstW (k.record false false false) ∧
      (s.eng.work.tally = none → t.list = l) ∧
      (∀ q, s.eng.work.tally = some q → t.list = l.push q.firstW (.patch
        { num := q.num, lastW := q.lastW, s := q.s, err := q.err, streakOpens := q.streakOpens, skipped := q.skipped
          pinholes := if k.patch = q.num then min (q.pinholes + 1) 65535 else q.pinholes
          lateMarks := if late = true ∧ k.patch = q.num then min (q.lateMarks + 1) 65535 else q.lateMarks
          kind := q.kind, short := q.short || ln.slot.prevShort, cut := q.cut })) ∧
      (∀ o ∈ t.eng.pub.cands, o = none) ∧ t.eng.pub.candLatch = false ∧ t.eng.pub.streaks = s.eng.work.streaks ∧
      t.eng.pub.cells = s.eng.work.cells ∧ t.eng.pub.tally = none ∧ (t.asm.slots.get i).state = .free ∧
      (k.target = none → t.mark = s.mark ∧ late = false) ∧
      ∀ m, k.target = some m → ∀ f : MarkerFields, f = (if m = .mk0 then ln.copy.mk0 else ln.copy.mk1) →
        (∀ e ∈ s.mark.queue, e.marker ≠ m ∧ s.pos.w < e.stop) → 1 ≤ f.width →
        s.mark.queue.Pairwise MarkEntry.before →
        ∃ start, (s.pos.w < k.firstW + f.offset → start = k.firstW + f.offset ∧ late = false) ∧
          (k.firstW + f.offset ≤ s.pos.w → start = s.pos.w ∧ (late = true ↔ k.patch ≠ 0)) ∧
          t.mark.queue.Perm (⟨m, start, start + f.width, s.mark.nextRank⟩ :: s.mark.queue) ∧
          t.mark.queue.Pairwise (fun e g => e.start ≤ g.start) ∧ t.mark.nextRank = s.mark.nextRank + 1 ∧
          t.mark.late = (if late then min (s.mark.late + 1) 65535 else s.mark.late) ∧ t.mark.merges = s.mark.merges

/-- Runs are maximal (R99, R117): each cell with a key lies in a run of that key, a run holds only such cells, runs
stand in increasing order without overlap, and two runs of one key never adjoin. A run's peak is the largest |d| of its
cells, it is SAT when one of them has x = 4095 and EDGE when one is of class EDGE, and its profile index is that of its
left cell. A streak run's key is the lane and the polarity for which a judged cell is hot (R116): its counter at L_open,
or at L_close with its member naming an open streak of that polarity; that a cell with member none is not holding-hot is
the model's reading (assumption 23). A pinhole run's cells are flagged and no members of an open LIGHT streak (R98). -/
def Obligations.RunsMaximal : Prop :=
  (∀ (κ : Type) [DecidableEq κ] (key : CellRec → CellResult → Option κ) (cells : List (CellRec × CellResult)),
    (∀ i x, cells[i]? = some x → ∀ k, key x.1 x.2 = some k ↔
      ∃ r ∈ runsFrom key 0 none cells, r.key = k ∧ r.left ≤ i ∧ i ≤ r.right) ∧
    (∀ r ∈ runsFrom key 0 none cells, r.left ≤ r.right ∧ r.right < cells.length ∧
      (∀ i x, r.left ≤ i → i ≤ r.right → cells[i]? = some x → x.2.d.natAbs ≤ r.peak) ∧
      (∃ i x, r.left ≤ i ∧ i ≤ r.right ∧ cells[i]? = some x ∧ x.2.d.natAbs = r.peak) ∧
      (r.sat = true ↔ ∃ i x, r.left ≤ i ∧ i ≤ r.right ∧ cells[i]? = some x ∧ x.2.x = 4095) ∧
      (r.edge = true ↔ ∃ i x, r.left ≤ i ∧ i ≤ r.right ∧ cells[i]? = some x ∧ x.2.cls = .edge) ∧
      ∃ x, cells[r.left]? = some x ∧ r.profile = x.2.profile) ∧
    (runsFrom key 0 none cells).Pairwise fun r q => r.right < q.left ∧ (r.key = q.key → r.right + 1 < q.left)) ∧
  ∀ (copy : Recipe) (t : List (Option Streak)) (cells : List (CellRec × CellResult)),
    (∃ key, streakRuns copy t cells = runsFrom key 0 none cells ∧
      ∀ r o, ∀ p : Profile, p = copy.profile o.profile → 1 ≤ p.lOpen → 1 ≤ p.lClose →
        (key r o = some (o.lane, .light) ↔ o.judged = true ∧ p.streakEnable = 1 ∧
          ((p.lOpen : Int) ≤ r.s ∨
            (p.lClose : Int) ≤ r.s ∧ ∃ j st, r.member = some j ∧ t[j]? = some (some st) ∧ st.pol = .light)) ∧
        (key r o = some (o.lane, .dark) ↔ o.judged = true ∧ p.streakEnable = 1 ∧
          (r.s ≤ -(p.lOpen : Int) ∨
            r.s ≤ -(p.lClose : Int) ∧ ∃ j st, r.member = some j ∧ t[j]? = some (some st) ∧ st.pol = .dark)) ∧
        ∀ k, key r o = some k → k.1 = o.lane) ∧
    ∃ key, pinholeRuns t cells = runsFrom key 0 none cells ∧
      ∀ r o k, key r o = some k ↔ k = o.lane ∧ o.pin = true ∧
        ∀ j st, r.member = some j → t[j]? = some (some st) → st.pol ≠ .light

/-- A lone run (R126, R127, R132, R134, R136): it opens a streak in the lowest empty slot, under the sequence number of
the STREAK_OPEN record it appends, and its cells become members; a mark target then takes the action at the line's W
plus the marker's offset, as an action of the record's patch; with no empty slot the run is refused and counted, and
STREAK_TABLE_FULL is appended when the latch was clear. Nothing else changes. -/
def Obligations.LoneRunOpensStreak : Prop :=
  ∀ (ln : Line) (r : Run (Nat × Polarity)) (s : State),
    (∀ i, s.eng.work.streaks[i]? = some none → (∀ j, j < i → s.eng.work.streaks.getD j none ≠ none) →
      ∃ (cells : List CellRec) (u : State), cells.length = s.eng.work.cells.length ∧
        (∀ c old, s.eng.work.cells[c]? = some old →
          cells[c]? = some (if r.left ≤ c ∧ c ≤ r.right then { old with member := some i } else old)) ∧
        u = append ln.slot.w (.streakOpen
            { lane := r.key.1, profile := r.profile, pol := r.key.2, left := r.left, right := r.right
              patch := ln.slot.patchNum, cellsAtOpen := r.right + 1 - r.left })
          { s with eng := { s.eng with
            contribs := s.eng.contribs ++ [.streakOpen ln.slot.patchNum]
            work := { s.eng.work with
              cells := cells
              streaks := s.eng.work.streaks.set i (some
                { openSeq := s.list.next, pol := r.key.2, lane := r.key.1, profile := r.profile, extL := r.left
                  extR := r.right, openW := ln.slot.w, openPatch := ln.slot.patchNum, curPatch := ln.slot.patchNum
                  lines := 1, patches := 1, peak := r.peak, wideL := r.left, wideR := r.right, held := false }) } } } ∧
        ((ln.copy.profile r.profile).markEnable ≠ 1 ∨
            ((ln.copy.lane r.key.1).marker ≠ 1 ∧ (ln.copy.lane r.key.1).marker ≠ 2) → loneStreakRun ln s r = u) ∧
        ∀ (m : Marker) (f : MarkerFields), (ln.copy.profile r.profile).markEnable = 1 →
          ((ln.copy.lane r.key.1).marker = 1 ∧ m = .mk0 ∧ f = ln.copy.mk0 ∨
            (ln.copy.lane r.key.1).marker = 2 ∧ m = .mk1 ∧ f = ln.copy.mk1) →
          s.mark.queue.length < 32 → (∀ e ∈ s.mark.queue, e.marker ≠ m ∧ s.pos.w < e.stop) → 1 ≤ f.width →
          s.mark.queue.Pairwise MarkEntry.before →
          ∃ (start : Nat) (k : Scheduler) (late : Bool),
            (s.pos.w < ln.slot.w + f.offset → start = ln.slot.w + f.offset ∧ late = false) ∧
            (ln.slot.w + f.offset ≤ s.pos.w → start = s.pos.w ∧ (late = true ↔ ln.slot.patchNum ≠ 0)) ∧
            k.queue.Perm (⟨m, start, start + f.width, s.mark.nextRank⟩ :: s.mark.queue) ∧
            k.queue.Pairwise (fun e g => e.start ≤ g.start) ∧
            k = { s.mark with
              queue := k.queue, nextRank := s.mark.nextRank + 1
              late := if late then min (s.mark.late + 1) 65535 else s.mark.late
              mk0 := k.queue.any fun e => decide (e.marker = .mk0 ∧ e.covers s.pos.w)
              mk1 := k.queue.any fun e => decide (e.marker = .mk1 ∧ e.covers s.pos.w) } ∧
            loneStreakRun ln s r = { u with
              mark := k
              eng := { u.eng with
                contribs := u.eng.contribs ++ if late then [.lateMark ln.slot.patchNum] else [] } }) ∧
    ((∀ o ∈ s.eng.work.streaks, o ≠ none) → ∃ u : State,
      u = { s with eng := { s.eng with work := { s.eng.work with
        refusals := min (s.eng.work.refusals + 1) 65535, streakLatch := true } } } ∧
      loneStreakRun ln s r = if s.eng.work.streakLatch then u
        else append ln.slot.w (.event .streakTableFull r.key.1) u)

/-- What a line does to a tracked defect it extends. A candidate (R103, R104): extent the hull of the matching runs,
hull the hull of all it ever covered and of the absorbed, areas summed up to 65535, peak the largest of all, flags
gathered, its line count raised by its own line only. A streak (R123): extent the hull of the runs, widest replaced only
by a wider extent. -/
def Obligations.ExtensionHulls : Prop :=
  (∀ (k : Candidate) (w : Nat) (trail : Bool) (runs : List (Run Nat)) (absorbed : List Candidate), runs ≠ [] →
    ∃ x, x = k.extended w trail runs absorbed ∧
      x.lane = k.lane ∧ x.patch = k.patch ∧ x.firstW = k.firstW ∧ x.profile = k.profile ∧ x.target = k.target ∧
      x.lastW = w ∧ x.lines = k.lines + 1 ∧
      (∀ r ∈ runs, x.extL ≤ r.left ∧ r.right ≤ x.extR) ∧
      (∃ r ∈ runs, r.left = x.extL) ∧ (∃ r ∈ runs, r.right = x.extR) ∧
      x.hullL ≤ k.hullL ∧ k.hullR ≤ x.hullR ∧
      (∀ r ∈ runs, x.hullL ≤ r.left ∧ r.right ≤ x.hullR) ∧
      (∀ y ∈ absorbed, x.hullL ≤ y.hullL ∧ y.hullR ≤ x.hullR) ∧
      (x.hullL = k.hullL ∨ (∃ r ∈ runs, r.left = x.hullL) ∨ ∃ y ∈ absorbed, y.hullL = x.hullL) ∧
      (x.hullR = k.hullR ∨ (∃ r ∈ runs, r.right = x.hullR) ∨ ∃ y ∈ absorbed, y.hullR = x.hullR) ∧
      x.area = min (k.area + (absorbed.map Candidate.area).sum +
        (runs.map fun r => r.right + 1 - r.left).sum) 65535 ∧
      k.peak ≤ x.peak ∧ (∀ r ∈ runs, r.peak ≤ x.peak) ∧ (∀ y ∈ absorbed, y.peak ≤ x.peak) ∧
      (x.peak = k.peak ∨ (∃ r ∈ runs, r.peak = x.peak) ∨ ∃ y ∈ absorbed, y.peak = x.peak) ∧
      (x.sat = true ↔ k.sat = true ∨ (∃ y ∈ absorbed, y.sat = true) ∨ ∃ r ∈ runs, r.sat = true) ∧
      (x.edge = true ↔ k.edge = true ∨ (∃ y ∈ absorbed, y.edge = true) ∨ ∃ r ∈ runs, r.edge = true) ∧
      (x.lead = true ↔ k.lead = true ∨ ∃ y ∈ absorbed, y.lead = true) ∧
      (x.trail = true ↔ k.trail = true ∨ (∃ y ∈ absorbed, y.trail = true) ∨ trail = true) ∧
      (x.held = true ↔ k.held = true ∨ ∃ y ∈ absorbed, y.held = true)) ∧
  ∀ (st : Streak) (runs : List (Run (Nat × Polarity))), runs ≠ [] →
    ∃ x, x = st.extended runs ∧
      x.openSeq = st.openSeq ∧ x.pol = st.pol ∧ x.lane = st.lane ∧ x.profile = st.profile ∧ x.openW = st.openW ∧
      x.openPatch = st.openPatch ∧ x.curPatch = st.curPatch ∧ x.held = st.held ∧
      x.patches = st.patches ∧ x.lines = min (st.lines + 1) 65535 ∧
      (∀ r ∈ runs, x.extL ≤ r.left ∧ r.right ≤ x.extR) ∧
      (∃ r ∈ runs, r.left = x.extL) ∧ (∃ r ∈ runs, r.right = x.extR) ∧
      st.peak ≤ x.peak ∧ (∀ r ∈ runs, r.peak ≤ x.peak) ∧ (x.peak = st.peak ∨ ∃ r ∈ runs, r.peak = x.peak) ∧
      (st.wideR + 1 - st.wideL < x.extR + 1 - x.extL → x.wideL = x.extL ∧ x.wideR = x.extR) ∧
      (x.extR + 1 - x.extL ≤ st.wideR + 1 - st.wideL → x.wideL = st.wideL ∧ x.wideR = st.wideR)

/-- Stage 3 of LINE_PUBLISH on a coated line (R121 to R128, R133), over the runs of the hot cells as stage 2 left them.
A streak that no run matches is held when a cell of its extent is ABSENT, else it closes with DECAY. Of the streaks that
one run joins, when no run joins them to others, the oldest is extended by all their runs, its members exactly the runs'
cells, and the others close MERGED into it, reported as before the line (assumption 12). With an empty slot for each,
every lone run opens a streak under the sequence number of its STREAK_OPEN record; with a table that stays full, each is
refused. The closes stand before all other records of the line. -/
def Obligations.StreaksOnLine : Prop :=
  ∀ (i : Fin 4) (ln : Line) (s : State) (streaks : List (Option Streak)) (runs lone : List (Run (Nat × Polarity))),
    s.lineInWork i ln → ln.copy.shapeOk → ln.slot.zone.coated = true →
    streaks = s.eng.work.streaks.map (fun o => o.map fun st =>
      if st.curPatch = ln.slot.patchNum then st
      else { st with curPatch := ln.slot.patchNum, patches := min (st.patches + 1) 65535 }) →
    runs = streakRuns ln.copy streaks (ln.workCells 0 s.eng.work.cells ln.slot.cells) →
    lone.Sublist runs → (∀ r, r ∈ lone ↔ r ∈ runs ∧ ∀ st, some st ∈ streaks → ¬ st.met r) →
    ∃ (t : State) (closes rest : List (Nat × RecordBody)), exec .linePublish s = .next t ∧
      t.list = s.list.pushAll (closes ++ rest) ∧ (∀ x ∈ closes, ∃ b, x.2 = .streakClose b) ∧
      (∀ x ∈ rest, ∀ b, x.2 ≠ .streakClose b) ∧
      (∀ j st, streaks[j]? = some (some st) → (∀ r ∈ runs, ¬ st.met r) →
        ((∃ c, st.extL ≤ c ∧ c ≤ st.extR ∧ c < s.eng.work.cells.length ∧ ln.unseen c) →
          t.eng.pub.streaks[j]? = some (some { st with held := true })) ∧
        ((∀ c, st.extL ≤ c → c ≤ st.extR → c < s.eng.work.cells.length → ¬ ln.unseen c) →
          (ln.slot.w, st.closeRecord .decay 0) ∈ closes ∧ t.leftByStreak ln j)) ∧
      (∀ j st r₀, streaks[j]? = some (some st) → r₀ ∈ runs → st.met r₀ →
        (∀ r ∈ runs, ∀ a b, some a ∈ streaks → some b ∈ streaks → a.met r → b.met r → a.met r₀ → b.met r₀) →
        (∀ k a, k ≠ j → streaks[k]? = some (some a) → a.met r₀ →
          streakDistance s.list.next a.openSeq < streakDistance s.list.next st.openSeq) →
        (∃ m, (∀ r, r ∈ m ↔ r ∈ runs ∧ ∃ a, some a ∈ streaks ∧ a.met r₀ ∧ a.met r) ∧
          t.eng.pub.streaks[j]? = some (some (st.extended m)) ∧
          ∀ c q, t.eng.pub.cells[c]? = some q → (q.member = some j ↔ ∃ r ∈ m, r.left ≤ c ∧ c ≤ r.right)) ∧
        ∀ k a, k ≠ j → s.eng.work.streaks[k]? = some (some a) → a.met r₀ →
          (ln.slot.w, a.closeRecord .merged st.openSeq) ∈ closes ∧ t.leftByStreak ln k) ∧
      (lone.length ≤ s.eng.work.streaks.count none →
        t.eng.pub.refusals = s.eng.work.refusals ∧
        ∀ r ∈ lone, ∃ j before after, rest = before ++ (ln.slot.w, .streakOpen
            { lane := r.key.1, profile := r.profile, pol := r.key.2, left := r.left, right := r.right
              patch := ln.slot.patchNum, cellsAtOpen := r.right + 1 - r.left }) :: after ∧
          t.eng.pub.streaks[j]? = some (some
            { openSeq := (s.list.pushAll (closes ++ before)).next, pol := r.key.2, lane := r.key.1
              profile := r.profile, extL := r.left, extR := r.right, openW := ln.slot.w
              openPatch := ln.slot.patchNum, curPatch := ln.slot.patchNum, lines := 1, patches := 1, peak := r.peak
              wideL := r.left, wideR := r.right, held := false }) ∧
          ∀ c q, r.left ≤ c → c ≤ r.right → t.eng.pub.cells[c]? = some q → q.member = some j) ∧
      ((∀ o ∈ streaks, o ≠ none) →
        (∀ st, some st ∈ streaks → (∀ r ∈ runs, ¬ st.met r) →
          ∃ c, st.extL ≤ c ∧ c ≤ st.extR ∧ c < s.eng.work.cells.length ∧ ln.unseen c) →
        (∀ r ∈ runs, ∀ (j k : Nat) (a b : Streak), streaks[j]? = some (some a) → streaks[k]? = some (some b) →
          a.met r → b.met r → j = k) →
        closes = [] ∧ (lone ≠ [] → t.eng.pub.refusals = min (s.eng.work.refusals + lone.length) 65535) ∧
        (t.eng.pub.streakLatch = true ↔ s.eng.work.streakLatch = true ∨ lone ≠ []) ∧
        ∀ r more, lone = r :: more → s.eng.work.streakLatch = false →
          (ln.slot.w, .event .streakTableFull r.key.1) ∈ rest)

/-- Stage 4 of LINE_PUBLISH on a coated line (R101 to R109), over the runs of the pinhole cells as stage 3 left them.
When the open candidates carry another patch, all close, and every run is a lone run. A candidate of the line's patch
that no run matches is held when a cell of its extent is ABSENT, else it closes. Of the candidates that one run joins,
when no run joins them to others, the oldest is extended by all their runs and absorbs the others; at PMAX lines it
closes LONG. With an empty slot for each, every lone run opens a candidate, LONG at once with PMAX 1; with a table that
stays full, each is reported SPLIT and counted. The line has no other PINHOLE record, so that the absorbed, of which an
older one shares a run, leave without one. -/
def Obligations.CandidatesOnLine : Prop :=
  ∀ (i : Fin 4) (ln : Line) (s : State), s.lineInWork i ln → ln.copy.shapeOk → ln.slot.zone.coated = true →
    ∃ (t : State) (xs : List (Nat × RecordBody)) (runs : List (Run Nat)), exec .linePublish s = .next t ∧
      t.list = s.list.pushAll xs ∧
      runs = pinholeRuns t.eng.pub.streaks
        (t.eng.pub.cells.zip ((ln.workCells 0 s.eng.work.cells ln.slot.cells).map Prod.snd)) ∧
      ((∃ k, some k ∈ s.eng.work.cands ∧ k.patch ≠ ln.slot.patchNum) →
        (∀ j k, s.eng.work.cands[j]? = some (some k) →
          (k.firstW, k.record false false false) ∈ xs ∧ t.leftByCandidate ln j) ∧
        (∀ x ∈ xs, ∀ b, x.2 = .pinhole b →
          (∃ k, some k ∈ s.eng.work.cands ∧ x = (k.firstW, k.record false false false)) ∨
          ∃ r ∈ runs, ln.copy.pmax ≤ 1 ∧ x = (ln.slot.w, (Candidate.ofRun ln r).record true false false) ∨
            s.eng.work.cands.length < runs.length ∧ x = (ln.slot.w, (Candidate.ofRun ln r).record false true false)) ∧
        (runs.length ≤ s.eng.work.cands.length → t.eng.pub.splits = s.eng.work.splits ∧ ∀ r ∈ runs,
          (1 < ln.copy.pmax → ∃ j : Nat, t.eng.pub.cands[j]? = some (some (Candidate.ofRun ln r))) ∧
          (ln.copy.pmax ≤ 1 → (ln.slot.w, (Candidate.ofRun ln r).record true false false) ∈ xs))) ∧
      ((∀ k, some k ∈ s.eng.work.cands → k.patch = ln.slot.patchNum) →
        (∀ j k, s.eng.work.cands[j]? = some (some k) → (∀ r ∈ runs, ¬ k.met r) →
          ((∃ c, k.extL ≤ c ∧ c ≤ k.extR ∧ c < s.eng.work.cells.length ∧ ln.unseen c) →
            t.eng.pub.cands[j]? = some (some { k with held := true })) ∧
          ((∀ c, k.extL ≤ c → c ≤ k.extR → c < s.eng.work.cells.length → ¬ ln.unseen c) →
            (k.firstW, k.record false false false) ∈ xs ∧ t.leftByCandidate ln j)) ∧
        (∀ j k r₀, s.eng.work.cands[j]? = some (some k) → r₀ ∈ runs → k.met r₀ →
          (∀ r ∈ runs, ∀ a b, some a ∈ s.eng.work.cands → some b ∈ s.eng.work.cands → a.met r → b.met r → a.met r₀ →
            b.met r₀) →
          (∀ l a, l ≠ j → s.eng.work.cands[l]? = some (some a) → a.met r₀ →
            k.firstW < a.firstW ∨ k.firstW = a.firstW ∧ j < l) →
          ∃ (m : List (Run Nat)) (others : List Nat) (x : Candidate), m.Nodup ∧
            (∀ r, r ∈ m ↔ r ∈ runs ∧ ∃ a, some a ∈ s.eng.work.cands ∧ a.met r₀ ∧ a.met r) ∧ others.Nodup ∧
            (∀ l, l ∈ others ↔ l ≠ j ∧ ∃ a, s.eng.work.cands[l]? = some (some a) ∧ a.met r₀) ∧
            x = k.extended ln.slot.w ln.slot.zone.hasTrail m
              (others.filterMap fun l => s.eng.work.cands.getD l none) ∧
            (x.lines < ln.copy.pmax → t.eng.pub.cands[j]? = some (some x)) ∧
            (ln.copy.pmax ≤ x.lines → (x.firstW, x.record true false false) ∈ xs ∧ t.leftByCandidate ln j) ∧
            ∀ l ∈ others, t.leftByCandidate ln l) ∧
        ∀ lone : List (Run Nat), lone.Sublist runs →
          (∀ r, r ∈ lone ↔ r ∈ runs ∧ ∀ k, some k ∈ s.eng.work.cands → ¬ k.met r) →
          (∀ x ∈ xs, ∀ b, x.2 = .pinhole b →
            (∃ k, some k ∈ s.eng.work.cands ∧ (∀ r ∈ runs, ¬ k.met r) ∧
              x = (k.firstW, k.record false false false)) ∨
            (∃ (j : Nat) (k : Candidate) (m : List (Run Nat)) (absorbed : List Candidate) (y : Candidate),
              s.eng.work.cands[j]? = some (some k) ∧ (∃ r ∈ runs, k.met r) ∧ ln.copy.pmax ≤ k.lines + 1 ∧
              (∀ (l : Nat) (a : Candidate), l ≠ j → s.eng.work.cands[l]? = some (some a) →
                (∃ r ∈ runs, k.met r ∧ a.met r) → k.firstW < a.firstW ∨ k.firstW = a.firstW ∧ j < l) ∧
              y = k.extended ln.slot.w ln.slot.zone.hasTrail m absorbed ∧
              x = (k.firstW, y.record true false false)) ∨
            ∃ r ∈ lone, ln.copy.pmax ≤ 1 ∧ x = (ln.slot.w, (Candidate.ofRun ln r).record true false false) ∨
              s.eng.work.cands.count none < lone.length ∧
                x = (ln.slot.w, (Candidate.ofRun ln r).record false true false)) ∧
          (lone.length ≤ s.eng.work.cands.count none →
            t.eng.pub.splits = s.eng.work.splits ∧
            ∀ r ∈ lone,
              (1 < ln.copy.pmax → ∃ j : Nat, t.eng.pub.cands[j]? = some (some (Candidate.ofRun ln r))) ∧
              (ln.copy.pmax ≤ 1 → (ln.slot.w, (Candidate.ofRun ln r).record true false false) ∈ xs)) ∧
          ((∀ o ∈ s.eng.work.cands, o ≠ none) →
            (∀ k, some k ∈ s.eng.work.cands →
              ((∀ r ∈ runs, ¬ k.met r) →
                ∃ c, k.extL ≤ c ∧ c ≤ k.extR ∧ c < s.eng.work.cells.length ∧ ln.unseen c) ∧
              k.lines + 1 < ln.copy.pmax) →
            (∀ r ∈ runs, ∀ (j k : Nat) (a b : Candidate), s.eng.work.cands[j]? = some (some a) →
                s.eng.work.cands[k]? = some (some b) →
              a.met r → b.met r → j = k) →
            (lone ≠ [] → t.eng.pub.splits = min (s.eng.work.splits + lone.length) 65535) ∧
            (t.eng.pub.candLatch = true ↔ s.eng.work.candLatch = true ∨ lone ≠ []) ∧
            (∀ r ∈ lone, (ln.slot.w, (Candidate.ofRun ln r).record false true false) ∈ xs) ∧
            ∀ r more, lone = r :: more → s.eng.work.candLatch = false →
              (ln.slot.w, .event .candidateTableFull r.key) ∈ xs))

/-- The patch tally over a coated line (R31, R32, R33). The line counts as coated in the tally of its patch, with the
lines skipped before it, and its W becomes that tally's last W; each PINHOLE record, STREAK_OPEN record and late mark of
the line, or of the resets before it, counts in the tally of the patch it carries. The line's late marks are the actions
of its records with a mark target whose place does not lie ahead of W, in the records' order, but for patch 0 and for
actions dropped over a full queue (R151, R153, R155). Without a tally, a line with a patch number opens one with its
slot's patch fields; a line of another patch number, or of none, closes the tally that is open with a PATCH record,
SHORT by the line's prev_short, behind the line's other records, before it opens its own. -/
def Obligations.TallyOnLine : Prop :=
  ∀ (i : Fin 4) (ln : Line) (s : State), s.lineInWork i ln → ln.slot.zone.coated = true → s.mark.late ≤ 65535 →
    ∃ (t : State) (xs : List (Nat × RecordBody)) (targets : List (Option Marker)) (due late : List Nat)
        (counted : Tally → Tally) (opened : Tally),
      exec .linePublish s = .next t ∧ (∀ x ∈ xs, ∀ b, x.2 ≠ .patch b) ∧
      List.Forall₂ (ln.aims s.eng.work.cands) xs targets ∧ due = (xs.zip targets).filterMap (ln.latePatch s.pos.w) ∧
      late.Sublist due ∧ (s.mark.dropped < 65535 → t.mark.dropped = s.mark.dropped → late = due) ∧
      t.mark.late = min (s.mark.late + late.length) 65535 ∧
      (∀ q, q.pinholes ≤ 65535 → q.streakOpens ≤ 65535 → q.lateMarks ≤ 65535 → counted q = { q with
        pinholes := min (q.pinholes + s.eng.contribs.count (.pinhole q.num) +
          xs.countP fun x => match x.2 with | .pinhole b => b.patch == q.num | _ => false) 65535
        streakOpens := min (q.streakOpens + s.eng.contribs.count (.streakOpen q.num) +
          xs.countP fun x => match x.2 with | .streakOpen b => b.patch == q.num | _ => false) 65535
        lateMarks := min (q.lateMarks + s.eng.contribs.count (.lateMark q.num) + late.count q.num) 65535 }) ∧
      opened = counted
        { num := ln.slot.patchNum, firstW := ln.slot.w, lastW := ln.slot.w, s := ln.slot.patchS
          err := ln.slot.patchErr, kind := ln.slot.patchKind, coated := 1, pinholes := 0, streakOpens := 0
          lateMarks := 0, skipped := min ln.slot.skippedBefore 65535, short := false, cut := false } ∧
      (s.eng.work.tally = none → t.list = s.list.pushAll xs ∧
        t.eng.pub.tally = if ln.slot.patchNum = 0 then none else some opened) ∧
      ∀ q, s.eng.work.tally = some q →
        (q.num = ln.slot.patchNum → ln.slot.patchNum ≠ 0 → t.list = s.list.pushAll xs ∧
          t.eng.pub.tally = some { counted q with
            lastW := ln.slot.w, coated := min (q.coated + 1) 65535
            skipped := min (q.skipped + ln.slot.skippedBefore) 65535 }) ∧
        (q.num ≠ ln.slot.patchNum ∨ ln.slot.patchNum = 0 → ∃ y : Tally, y = counted q ∧
          t.list = s.list.pushAll (xs ++ [(q.firstW, .patch
            { num := q.num, lastW := q.lastW, s := q.s, err := q.err, pinholes := y.pinholes
              streakOpens := y.streakOpens, lateMarks := y.lateMarks, skipped := q.skipped, kind := q.kind
              short := q.short || ln.slot.prevShort, cut := q.cut })]) ∧
          t.eng.pub.tally = if ln.slot.patchNum = 0 then none else some opened)

/-- Adaptation (R89): it adds the floor of D / 2^s to B16, which ends between its old value and sixteen times the cell
value. Under a steady value the baseline settles (R90): from above exactly at 16x, from below within 2^s − 1 sixteenths
under it. -/
def Obligations.AdaptationSettles : Prop :=
  ∀ b16 x k : Nat,
    (adapt b16 x k : Int) = b16 + (16 * (x : Int) - b16) / 2 ^ k ∧
    min b16 (16 * x) ≤ adapt b16 x k ∧ adapt b16 x k ≤ max b16 (16 * x) ∧
    (16 * x ≤ b16 → ∃ n, ∀ m, n ≤ m → (fun y => adapt y x k)^[m] b16 = 16 * x) ∧
    (b16 ≤ 16 * x → ∃ n c, (∀ m, n ≤ m → (fun y => adapt y x k)^[m] b16 = c) ∧ c ≤ 16 * x ∧ 16 * x < c + 2 ^ k)

/-- STOP_COMPLETE in STOPPING with no line in work (R17, R34, R111, R131, R133, R140, R167, R171): both tables, their
latches and the tally end empty and published; in the list stand a STREAK_CLOSE with reason DISARM for every streak that
was open, a PINHOLE with CUT for every candidate, and a PATCH with CUT for an open tally, the candidates of its patch
counted in it; the tracker is OFF, the run state is IDLE, DISARMED names who stopped the run, and a pending copy becomes
active. -/
def Obligations.StopCompletes : Prop :=
  ∀ s : State, s.rcp.run = .stopping → (∀ i, (s.asm.slots.get i).state ≠ .inWork) →
    s.eng.work.streaks.length = 32 → s.eng.work.cands.length = 24 → s.list.records.length ≤ 512 →
    ∃ t : State, exec .stopComplete s = .next t ∧
      t.rcp.run = .idle ∧ (∀ o ∈ t.eng.work.streaks, o = none) ∧ (∀ o ∈ t.eng.work.cands, o = none) ∧
      t.eng.work.streakLatch = false ∧ t.eng.work.candLatch = false ∧ t.eng.work.tally = none ∧
      t.eng.pub = t.eng.work ∧
      (∀ st, some st ∈ s.eng.work.streaks → ∃ q ∈ t.list.records, q.body = st.closeRecord .disarm 0 ∧
        (s.eng.kept = none → q.w = s.pos.w) ∧
        ∀ k x, s.eng.kept = some k → s.eng.lastLine = some x → q.w = x.2) ∧
      (∀ k, some k ∈ s.eng.work.cands →
        ∃ q ∈ t.list.records, q.w = k.firstW ∧ q.body = k.record false false true) ∧
      (∀ y, s.eng.work.tally = some y → y.pinholes ≤ 65535 → ∃ q ∈ t.list.records, ∃ lateMarks, q.w = y.firstW ∧
        q.body = .patch
          { num := y.num, lastW := y.lastW, s := y.s, err := y.err, streakOpens := y.streakOpens, skipped := y.skipped
            pinholes := min (y.pinholes + s.eng.work.cands.countP fun o => o.any fun k => k.patch == y.num) 65535
            lateMarks := lateMarks, kind := y.kind, short := y.short, cut := true } ∧
        ((∀ k, some k ∈ s.eng.work.cands → k.target = none) → lateMarks = y.lateMarks)) ∧
      t.trk = { s.trk with
        mode := .off, queue := [], patch := none, prevShort := false, misses := 0, frozen := false } ∧
      t.pos = s.pos ∧ t.links = s.links ∧
      (s.rcp.pending = none →
        (∃ q, t.list.records.getLast? = some ⟨q, s.pos.w, .event .disarmed s.rcp.stopBy⟩) ∧
        t.rcp.active = s.rcp.active ∧ t.trig = s.trig) ∧
      ∀ pc, s.rcp.pending = some pc → s.rcp.retiring = none →
        t.rcp.active = pc.copy ∧ t.rcp.pending = none ∧
        t.trig = { s.trig with t := s.trig.lastTrigger + pc.copy.p } ∧
        ∃ q, t.list.records.getLast? = some ⟨q, s.pos.w, .event .recipeSwap
          (pc.port.val + if pc.copy.heads = s.rcp.active.heads ∧ pc.copy.lanes = s.rcp.active.lanes then 0 else 256)⟩

/-! ### The defect list (chapter 9) -/

/-- FETCH (R145): RANGE outside 1..16; otherwise it delivers the first n subscribed records from the cursor on, moves
the cursor behind the last of them, or to the next sequence number when there were fewer, answers with the skipped
count, the new cursor, the unread count and the records, and clears the skipped count. -/
def Obligations.FetchDelivers : Prop :=
  ∀ (p : PortNo) (tag count : Byte) (s : State), s.ready p →
    (count.toNat = 0 ∨ 16 < count.toNat → exec (.fetch p tag count) s = .next (s.answering p 0x30 tag 8 [])) ∧
    (1 ≤ count.toNat → count.toNat ≤ 16 → ∃ (x : Port) (out : List Record) (c : Nat), x = s.ports.get p ∧
      out = ((s.list.records.dropWhile fun r : Record => decide (r.seq ≠ x.cursor)).filter
        fun r : Record => x.sub.takes r.body).take count.toNat ∧
      (out.length = count.toNat → ∀ r, out.getLast? = some r →
        c = if r.seq = 4294967295 then 1 else r.seq + 1) ∧
      (out.length < count.toNat → c = s.list.next) ∧
      exec (.fetch p tag count) s =
        .next ({ s with ports := s.ports.set p { x with cursor := c, skipped := 0 } }.answering p 0x30 tag 0
          (be 2 x.skipped ++ be 4 c ++
            be 2 ((s.list.records.dropWhile fun r : Record => decide (r.seq ≠ c)).countP
              fun r : Record => x.sub.takes r.body) ++
            be 1 out.length ++ out.flatMap Record.bytes)))

/-- SEEK (R147): to a retained number or the next one, to the oldest record or to the next number; anything else is
refused with RANGE and leaves the cursor. It answers the new cursor and the unread count and changes nothing else. -/
def Obligations.SeekMovesCursor : Prop :=
  ∀ (p : PortNo) (tag target : Byte) (seq : BitVec 32) (s : State), s.ready p →
    ∃ reply : Nat → State, (∀ c, reply c =
        { s with ports := s.ports.set p { s.ports.get p with cursor := c } }.answering p 0x31 tag 0
          (be 4 c ++ be 2 ((s.list.records.dropWhile fun r : Record => decide (r.seq ≠ c)).countP
            fun r : Record => (s.ports.get p).sub.takes r.body))) ∧
      (target = 0 → ((∃ r ∈ s.list.records, r.seq = seq.toNat) ∨ seq.toNat = s.list.next) →
        exec (.seek p tag target seq) s = .next (reply seq.toNat)) ∧
      (target = 0 → (∀ r ∈ s.list.records, r.seq ≠ seq.toNat) → seq.toNat ≠ s.list.next →
        exec (.seek p tag target seq) s = .next (s.answering p 0x31 tag 8 [])) ∧
      (target = 1 → exec (.seek p tag target seq) s = .next (reply (match s.list.records with
        | [] => s.list.next
        | r :: _ => r.seq))) ∧
      (target = 2 → exec (.seek p tag target seq) s = .next (reply s.list.next)) ∧
      (2 < target.toNat → exec (.seek p tag target seq) s = .next (s.answering p 0x31 tag 8 []))

/-- SUBSCRIBE (R144, R148, R181): RANGE for a watermark outside 1..512; otherwise the subscription, watermark and enable
mask are replaced, causes taken out of the mask are no longer pending, and DATA is raised, if enabled, by a crossing
from under the old watermark under the old subscription to the new watermark under the new one. -/
def Obligations.SubscribeReplaces : Prop :=
  ∀ (p : PortNo) (tag classes enable : Byte) (watermark : BitVec 16) (s : State), s.ready p →
    (watermark.toNat = 0 ∨ 512 < watermark.toNat →
      exec (.subscribe p tag classes watermark enable) s = .next (s.answering p 0x32 tag 8 [])) ∧
    (1 ≤ watermark.toNat → watermark.toNat ≤ 512 →
      ∃ (x y : Port) (unread : ClassSet → Nat) (data : Bool), x = s.ports.get p ∧
        (∀ k, unread k = (s.list.records.dropWhile fun r : Record => decide (r.seq ≠ x.cursor)).countP
          fun r : Record => k.takes r.body) ∧
        (data = true ↔ unread x.sub < x.watermark ∧ watermark.toNat ≤ unread y.sub ∧ enable.getLsbD 3 = true) ∧
        y = { x with
          sub := ⟨classes.getLsbD 0, classes.getLsbD 1, classes.getLsbD 2, classes.getLsbD 3⟩
          watermark := watermark.toNat
          enable := ⟨enable.getLsbD 0, enable.getLsbD 1, enable.getLsbD 2, enable.getLsbD 3⟩
          causes := ⟨x.causes.alert && enable.getLsbD 0, x.causes.streak && enable.getLsbD 1,
            x.causes.pinhole && enable.getLsbD 2, (x.causes.data && enable.getLsbD 3) || data⟩
          atn := y.atn } ∧
        exec (.subscribe p tag classes watermark enable) s =
          .next ({ s with ports := s.ports.set p y }.answering p 0x32 tag 0 (be 4 x.cursor ++ be 2 (unread y.sub))))

/-! ### The marker scheduler (chapter 10) -/

/-- FORCE_MARK (R153 to R157): RANGE for a marker above 1; otherwise an interval from W plus the distance, over the
active copy's width. It is entered in order with the next arrival rank when it collides with no entry of its marker;
merged with those it collides with otherwise, round by round: the survivor is the colliding entry of lowest rank and
spans the least interval that holds every entry colliding with it, those entries leave, clearing the latch, and each is
counted besides the action; dropped when it collides with none and the queue is full, with MARK_QUEUE_FULL when the
latch was clear. The outputs follow the queue at once. That the survivor of the first round survives the later ones is
the model's reading (assumption 13). -/
def Obligations.ForceMarkEnters : Prop :=
  ∀ (p : PortNo) (tag marker : Byte) (distance : BitVec 16) (s : State), s.ready p →
    (1 < marker.toNat → exec (.forceMark p tag marker distance) s = .next (s.answering p 0x51 tag 8 [])) ∧
    ∀ (m : Marker) (f : MarkerFields), (marker = 0 ∧ m = .mk0 ∧ f = s.rcp.active.mk0 ∨
        marker = 1 ∧ m = .mk1 ∧ f = s.rcp.active.mk1) →
      1 ≤ f.width → (∀ e ∈ s.mark.queue, s.pos.w < e.stop) → s.mark.queue.Pairwise MarkEntry.before →
      ∃ (lo hi : Nat) (driven : List MarkEntry → Scheduler → Scheduler), lo = s.pos.w + distance.toNat ∧
        hi = lo + f.width ∧
        (∀ q k, driven q k = { k with
          queue := q
          mk0 := q.any fun e => decide (e.marker = .mk0 ∧ e.covers s.pos.w)
          mk1 := q.any fun e => decide (e.marker = .mk1 ∧ e.covers s.pos.w) }) ∧
        ((∀ e ∈ s.mark.queue, e.marker = m → hi + f.spacing ≤ e.start ∨ e.stop + f.spacing ≤ lo ∧ e.start < lo) →
          (s.mark.queue.length < 32 → ∃ q, q.Perm (⟨m, lo, hi, s.mark.nextRank⟩ :: s.mark.queue) ∧
            q.Pairwise (fun e g => e.start ≤ g.start) ∧
            exec (.forceMark p tag marker distance) s =
              .next ({ s with mark := driven q { s.mark with nextRank := s.mark.nextRank + 1 } }.answering p 0x51 tag 0
                ([0] ++ be 5 lo ++ be 5 hi))) ∧
          (s.mark.queue.length = 32 → ∃ u : State,
            u = { s with mark := driven s.mark.queue { s.mark with
              latch := true, dropped := min (s.mark.dropped + 1) 65535 } } ∧
            exec (.forceMark p tag marker distance) s =
              .next ((if s.mark.latch then u
                else append s.pos.w (.event .markQueueFull (if m = .mk0 then 0 else 1)) u).answering p 0x51 tag 0
                ([2] ++ be 5 lo ++ be 5 hi)))) ∧
        ∀ met : Nat → Nat → MarkEntry → Prop, (∀ a b e, met a b e ↔ e.marker = m ∧
            (a ≤ e.start ∧ e.start < b + f.spacing ∨ e.start < a ∧ a < e.stop + f.spacing)) →
          (∃ e ∈ s.mark.queue, met lo hi e) →
          ∃ (survivor : MarkEntry) (gone rest q : List MarkEntry) (a b : Nat),
            s.mark.queue.Perm (survivor :: gone ++ rest) ∧
            met lo hi survivor ∧ (∀ e ∈ s.mark.queue, met lo hi e → survivor.rank ≤ e.rank) ∧
            (∀ e ∈ survivor :: gone, e.marker = m ∧ a ≤ e.start ∧ e.stop ≤ b) ∧ (∀ e ∈ rest, ¬ met a b e) ∧
            a ≤ lo ∧ hi ≤ b ∧ (a = lo ∨ ∃ e ∈ survivor :: gone, e.start = a) ∧
            (b = hi ∨ ∃ e ∈ survivor :: gone, e.stop = b) ∧
            (∀ c d, c ≤ lo → hi ≤ d → (∀ e ∈ s.mark.queue, met c d e → c ≤ e.start ∧ e.stop ≤ d) → c ≤ a ∧ b ≤ d) ∧
            q.Perm ({ survivor with start := a, stop := b } :: rest) ∧ q.Pairwise MarkEntry.before ∧
            exec (.forceMark p tag marker distance) s =
              .next ({ s with mark := driven q { s.mark with
                latch := if gone = [] then s.mark.latch else false
                merges := min (s.mark.merges + 1 + gone.length) 65535 } }.answering p 0x51 tag 0
                ([1] ++ be 5 lo ++ be 5 hi))

/-! ### Recipes and run control (chapter 11) -/

/-- CLAIM_EDIT, RELEASE_EDIT and EDIT_EXPIRY (R140, R162): a free right is granted with a fresh copy of the active copy;
the holder keeps its staging copy; another port learns the holder. Release by the holder and expiry free the right and
discard the staging copy, expiry with EDIT_EXPIRED. -/
def Obligations.EditRightHeldByOne : Prop :=
  ∀ (p : PortNo) (tag : Byte) (s : State),
    (s.ready p →
      exec (.claimEdit p tag) s = .next (match s.rcp.holder with
        | none => { s with rcp := { s.rcp with
            holder := some p, staging := some s.rcp.active, silenceMs := 2000 } }.answering p 0x20 tag 0 []
        | some q => if q = p then { s with rcp := { s.rcp with silenceMs := 2000 } }.answering p 0x20 tag 0 []
          else s.answering p 0x20 tag 1 (be 1 q.val))) ∧
    (s.ready p →
      exec (.releaseEdit p tag) s = .next (if s.rcp.holder = some p then
          { s with rcp := { s.rcp with holder := none, staging := none, silenceMs := 0 } }.answering p 0x21 tag 0 []
        else s.answering p 0x21 tag 2 [])) ∧
    ∀ q, s.rcp.holder = some q →
      exec .editExpiry s = .next (append s.pos.w (.event .editExpired q.val)
        { s with rcp := { s.rcp with holder := none, staging := none, silenceMs := 0 } })

/-- STAGE_WRITE, STAGE_READ and ACTIVE_READ (R163, R178). From the holder, a write of the right length replaces one
entry of the staging copy: that entry then reads as the bytes written, every value as given, and every other entry as
before. The refusals come in the order of R163; each edit-class command from the holder restarts the timer (R162). -/
def Obligations.EntriesReadBack : Prop :=
  ∀ (p : PortNo) (tag sec entry : Byte) (data : List Byte) (s : State), s.ready p →
    (s.rcp.holder ≠ some p →
      exec (.stageWrite p tag sec entry data) s = .next (s.answering p 0x22 tag 2 []) ∧
      exec (.stageRead p tag sec entry) s = .next (s.answering p 0x23 tag 2 [])) ∧
    ((∀ x, sectionOf sec = some x → x.entries ≤ entry.toNat) →
      exec (.activeRead p tag sec entry) s = .next (s.answering p 0x24 tag 8 []) ∧
      (s.rcp.holder = some p → s.rcp.staging ≠ none →
        exec (.stageWrite p tag sec entry data) s = .next ((s.heard p).answering p 0x22 tag 8 []) ∧
        exec (.stageRead p tag sec entry) s = .next ((s.heard p).answering p 0x23 tag 8 []))) ∧
    ∀ x, sectionOf sec = some x → entry.toNat < x.entries →
      exec (.activeRead p tag sec entry) s =
        .next (s.answering p 0x24 tag 0 (s.rcp.active.entryBytes x entry.toNat)) ∧
      ∀ r, s.rcp.holder = some p → s.rcp.staging = some r →
        exec (.stageRead p tag sec entry) s =
          .next ((s.heard p).answering p 0x23 tag 0 (r.entryBytes x entry.toNat)) ∧
        (data.length ≠ x.sizes.sum →
          exec (.stageWrite p tag sec entry data) s = .next ((s.heard p).answering p 0x22 tag 9 [])) ∧
        (data.length = x.sizes.sum → r.shapeOk →
          ∃ r', exec (.stageWrite p tag sec entry data) s =
              .next ({ s with rcp := { s.rcp with staging := some r', silenceMs := 2000 } }.answering p 0x22 tag 0 []) ∧
            r'.shapeOk ∧ r'.entryBytes x entry.toNat = data ∧
            ∀ y f, f < y.entries → (y ≠ x ∨ f ≠ entry.toNat) → r'.entryBytes y f = r.entryBytes y f)

/-- The checks that COMMIT makes (R165): the detail reported is that of the first check in order that the copy fails,
with the lowest entry at fault, 255 where the check concerns no single entry, and a copy is accepted exactly when no
entry is at fault in any check. -/
def Obligations.CommitChecks : Prop :=
  ∀ r : Recipe, r.shapeOk →
    (∀ d e, r.firstFault = some (d, e) ↔ r.atFault d.num e ∧ (∀ f, f < e → ¬ r.atFault d.num f) ∧
      ∀ c, c < d.num → ∀ f, ¬ r.atFault c f) ∧
    (r.valid = true ↔ ∀ c f, ¬ r.atFault c f)

/-- COMMIT (R164, R165, R167, R168): NOT_HOLDER, PENDING and INVALID in that order; in ARMED and STOPPING the accepted
copy waits; in IDLE, with no line in a slot, it becomes active at once, with RECIPE_SWAP and T set by the new pitch.
CANCEL_PENDING (R166): NOT_HOLDER from a port without the edit right; from the holder, whoever committed it, a pending
copy is discarded, and NONE_PENDING answers when there is none. That INVALID's detail code takes one byte is the model's
reading (assumption 28). -/
def Obligations.CommitAndCancel : Prop :=
  ∀ (p : PortNo) (tag : Byte) (s : State), s.ready p →
    exec (.cancelPending p tag) s = .next (
      if s.rcp.holder = some p then
        match s.rcp.pending with
        | none => (s.heard p).answering p 0x26 tag 5 []
        | some _ => { s with rcp := { s.rcp with pending := none, silenceMs := 2000 } }.answering p 0x26 tag 0 []
      else s.answering p 0x26 tag 2 []) ∧
    (s.rcp.holder ≠ some p → exec (.commit p tag) s = .next (s.answering p 0x25 tag 2 [])) ∧
    ∀ r, s.rcp.holder = some p → s.rcp.staging = some r →
      (s.rcp.pending ≠ none → exec (.commit p tag) s = .next ((s.heard p).answering p 0x25 tag 4 [])) ∧
      (s.rcp.pending = none →
        (∀ d e, r.firstFault = some (d, e) →
          exec (.commit p tag) s = .next ((s.heard p).answering p 0x25 tag 3 (be 1 d.num ++ be 1 e))) ∧
        (r.valid = true → s.rcp.run ≠ .idle →
          exec (.commit p tag) s =
            .next ({ s with rcp := { s.rcp with pending := some ⟨r, p⟩, silenceMs := 2000 } }.answering p 0x25 tag 0
              [1])) ∧
        (r.valid = true → s.rcp.run = .idle → s.rcp.retiring = none →
          (∀ i, (s.asm.slots.get i).copy = .none) →
          exec (.commit p tag) s =
            .next ((append s.pos.w (.event .recipeSwap
                (p.val + if r.heads = s.rcp.active.heads ∧ r.lanes = s.rcp.active.lanes then 0 else 256))
              { s with
                rcp := { s.rcp with active := r, silenceMs := 2000 }
                trig := { s.trig with t := s.trig.lastTrigger + r.p } }).answering p 0x25 tag 0 [0])))

/-- ARM (R6, R7, R17, R170): STATE outside IDLE, NOT_READY without an enabled lane; otherwise the run begins as one
step: ARMED appended, a full cell reset requested, the tables empty, the tracker in CONTINUOUS or SEEK, and line 0
opened at the present W with its trigger word, under the active copy. At the position limit the ARM completes all the
same, and the stop begins at once with POSITION_LIMIT, argument 1, and cause 3. -/
def Obligations.ArmBeginsRun : Prop :=
  ∀ (p : PortNo) (tag : Byte) (s : State), s.ready p →
    (s.rcp.run ≠ .idle → exec (.arm p tag) s = .next (s.answering p 0x10 tag 6 [])) ∧
    (s.rcp.run = .idle → (∀ l ∈ s.rcp.active.lanes, l.enabled ≠ 1) →
      exec (.arm p tag) s = .next (s.answering p 0x10 tag 7 [])) ∧
    (s.rcp.run = .idle → (∃ l ∈ s.rcp.active.lanes, l.enabled = 1) → s.rcp.pending = none →
      (∀ i, (s.asm.slots.get i).state = .free) →
      (s.pos.w < 4294967295 → ∃ t : State, exec (.arm p tag) s = .next (t.answering p 0x10 tag 0 []) ∧
        t.rcp = { s.rcp with run := .armed } ∧ t.list = s.list.push s.pos.w (.event .armed p.val) ∧
        t.trig = { s.trig with
          t := s.pos.w + s.rcp.active.p, lastTrigger := s.pos.w, n := 1, skipped := 0, out := frameOf [0, 0] } ∧
        t.trk = { s.trk with
          mode := if s.rcp.active.patch.c = 0 then .continuous else .seek
          misses := 0, patch := none, prevShort := false } ∧
        t.eng.resets = [.full] ∧ t.eng.kept = none ∧ t.eng.pub = s.eng.pub ∧ t.eng.work.cells = s.eng.work.cells ∧
        (∀ o ∈ t.eng.work.streaks, o = none) ∧ (∀ o ∈ t.eng.work.cands, o = none) ∧ t.eng.work.tally = none ∧
        (t.asm.slots.get 0).line = 0 ∧ (t.asm.slots.get 0).w = s.pos.w ∧ (t.asm.slots.get 0).copy = .active ∧
        (t.asm.slots.get 0).zone = (if s.rcp.active.patch.c = 0 then Zone.body else .unknown) ∧
        (t.asm.slots.get 0).patchNum = 0 ∧
        (∀ h, (t.asm.slots.get 0).expected.get h = true ↔
          (s.rcp.active.heads.get h).enabled = 1 ∧ (s.links.get h).state = .locked) ∧
        (∀ i, i ≠ 0 → t.asm.slots.get i = s.asm.slots.get i) ∧
        t.pos = s.pos ∧ t.mark = s.mark ∧ t.links = s.links) ∧
      (s.pos.w = 4294967295 → ∃ t : State, exec (.arm p tag) s = .next (t.answering p 0x10 tag 0 []) ∧
        t.rcp.run = .stopping ∧ t.rcp.stopBy = 3 ∧ t.rcp.active = s.rcp.active ∧
        t.list = (s.list.push 4294967295 (.event .armed p.val)).push 4294967295 (.event .positionLimit 1) ∧
        t.trig = { s.trig with
          t := s.pos.w + s.rcp.active.p, lastTrigger := s.pos.w, n := 1, skipped := 0, out := frameOf [0, 0] } ∧
        t.trk = { s.trk with
          mode := if s.rcp.active.patch.c = 0 then .continuous else .seek
          misses := 0, patch := none, prevShort := false, frozen := true } ∧
        (∀ i, (t.asm.slots.get i).state = .free) ∧ t.pos = s.pos))

/-- DISARM (R9, R12, R17, R64, R169, R171): STATE outside ARMED; otherwise the stop begins: STOPPING, the skipped count
reported and cleared, the tracker frozen, OPEN and READY slots freed and the others kept, a retiring copy that no slot
refers to any more discarded. That a freed slot's other parts stand as they are is the model's choice (assumption
29). -/
def Obligations.DisarmBeginsStop : Prop :=
  ∀ (p : PortNo) (tag : Byte) (s : State), s.ready p →
    (s.rcp.run ≠ .armed → exec (.disarm p tag) s = .next (s.answering p 0x11 tag 6 [])) ∧
    (s.rcp.run = .armed → ∃ t : State, exec (.disarm p tag) s = .next (t.answering p 0x11 tag 0 []) ∧
      t.trig = { s.trig with skipped := 0 } ∧ t.trk = { s.trk with frozen := true } ∧
      t.list = (if s.trig.skipped = 0 then s.list
        else s.list.push s.pos.w (.event .linesSkipped s.trig.skipped)) ∧
      (∀ i, (s.asm.slots.get i).state = .opened ∨ (s.asm.slots.get i).state = .ready →
        t.asm.slots.get i = { s.asm.slots.get i with
          state := .free, copy := .none
          expected := Quad.fill false, received := Quad.fill false, absent := Quad.fill false }) ∧
      (∀ i, (s.asm.slots.get i).state ≠ .opened → (s.asm.slots.get i).state ≠ .ready →
        t.asm.slots.get i = s.asm.slots.get i) ∧
      t.rcp = { s.rcp with
        run := .stopping, stopBy := p.val
        retiring := if ∃ i, (s.asm.slots.get i).copy = .retiring ∧ (s.asm.slots.get i).state ≠ .opened ∧
            (s.asm.slots.get i).state ≠ .ready then s.rcp.retiring else none } ∧
      t.pos = s.pos ∧ t.eng = s.eng ∧ t.mark = s.mark ∧ t.links = s.links)

/-- RESET_POSITION (R5, R13, R158): STATE outside IDLE; in IDLE W, L, T and the last trigger position become 0, an open
episode ends, and the mark queue is discarded, counted, with its latch clear and both outputs inactive. Nothing else
changes. -/
def Obligations.ResetPositionZeroes : Prop :=
  ∀ (p : PortNo) (tag : Byte) (s : State), s.ready p →
    (s.rcp.run ≠ .idle → exec (.resetPosition p tag) s = .next (s.answering p 0x12 tag 6 [])) ∧
    (s.rcp.run = .idle → exec (.resetPosition p tag) s =
      .next ({ s with
        pos := { s.pos with w := 0, l := 0, overrun := false }
        trig := { s.trig with t := 0, lastTrigger := 0 }
        mark := { s.mark with
          queue := [], latch := false, mk0 := false, mk1 := false
          discarded := min (s.mark.discarded + s.mark.queue.length) 65535 } }.answering p 0x12 tag 0 []))

/-! ### The station ports (chapter 12) -/

/-- A host's frame is its command (R35, R36, R37, R172, R173, R175 to R178): for every command and every value of its
fields, the step that receives the bytes a host sends for it is the command's own step, whether the port takes it,
holds it or loses it. That a command row stands for a good frame of that command, and that a command taken runs within
the STATION_FRAME step, are the model's readings (assumptions 3 and 4). -/
def Obligations.StationFrameIsCommand : Prop :=
  ∀ (c : Instr) (f : HostFrame) (s : State), hostFrame c = some f → f.payload.length ≤ 1196 →
    ((s.ports.get f.port).rx = Reception.shut ∨ (s.ports.get f.port).rx = Reception.fresh) →
    exec (.stationFrame f.port (sentBytes f.body)) s =
      exec c { s with ports := s.ports.set f.port { s.ports.get f.port with rx := Reception.fresh } }

/-- What a port does with frames it cannot take as a command (R36, R37, R173, R174, R176). A frame that is bad by its
CRC, its length limit or a bad escape, and too short a body, are bad frames, counted and not answered. An unknown code
is answered UNKNOWN; a wrong length field, and a right one over a payload whose length is not the command's, LENGTH. An
aborted frame and one that outlasts its 50 ms are discarded and counted. That a frame of a bad escape alone is a bad
frame is the model's reading of R36 (assumption 11). -/
def Obligations.StationFrameJudged : Prop :=
  ∀ (p : PortNo) (s : State),
    ((s.ports.get p).rx = Reception.shut ∨ (s.ports.get p).rx = Reception.fresh → ∃ u : State,
      u = { s with ports := s.ports.set p { s.ports.get p with rx := Reception.fresh } } ∧
      (∀ bytes, BadOnWire 1202 bytes ∨ (∃ body, 1 ≤ body.length ∧ body.length < 4 ∧ bytes = sentBytes body) →
        exec (.stationFrame p bytes) s =
          .next { s with ports := s.ports.set p { s.ports.get p with
            rx := Reception.fresh, badFrames := min ((s.ports.get p).badFrames + 1) 65535 } }) ∧
      ∀ (code tag hi lo : Byte) (payload : List Byte) (lengths : List (Byte × Nat)), s.ready p →
        payload.length ≤ 1196 →
        lengths = [(0x01, 0), (0x02, 0), (0x03, 0), (0x04, 0), (0x10, 0), (0x11, 0), (0x12, 0), (0x20, 0), (0x21, 0),
          (0x23, 2), (0x24, 2), (0x25, 0), (0x26, 0), (0x30, 1), (0x31, 5), (0x32, 4), (0x40, 3), (0x41, 0), (0x42, 0),
          (0x50, 1), (0x51, 3)] →
        (code ≠ 0x22 → (∀ n, (code, n) ∉ lengths) →
          exec (.stationFrame p (sentBytes (code :: tag :: hi :: lo :: payload))) s =
            .next (u.answering p code tag 10 [])) ∧
        (code = 0x22 ∨ (∃ n, (code, n) ∈ lengths) → 256 * hi.toNat + lo.toNat ≠ payload.length →
          exec (.stationFrame p (sentBytes (code :: tag :: hi :: lo :: payload))) s =
            .next (u.answering p code tag 9 [])) ∧
        (256 * hi.toNat + lo.toNat = payload.length →
          (code = 0x22 ∧ payload.length < 2) ∨ (∃ n, (code, n) ∈ lengths ∧ payload.length ≠ n) →
          exec (.stationFrame p (sentBytes (code :: tag :: hi :: lo :: payload))) s =
            .next (u.answering p code tag 9 []))) ∧
    ((s.ports.get p).rx.isOpen = true → (s.ports.get p).rx.escape = false →
      exec (.stationFrameAbort p []) s =
        .next { s with ports := s.ports.set p { s.ports.get p with
          rx := Reception.fresh, aborted := min ((s.ports.get p).aborted + 1) 65535 } }) ∧
    ((s.ports.get p).rx.isOpen = true → (s.ports.get p).rx.stored ≠ [] →
      exec (.frameTimeout p []) s =
        .next { s with ports := s.ports.set p { s.ports.get p with
          rx := Reception.shut, inactivity := min ((s.ports.get p).inactivity + 1) 65535 } })

/-- While a response is in progress a command waits, or is lost and counted when another waits already; when the
response has been sent, the port is free and the held command is taken at once (R172, R175). That a command row with a
response in progress is such a frame, and that the held command runs within the RESPONSE_SENT step, are the model's
readings (assumptions 3 and 4). -/
def Obligations.CommandsWait : Prop :=
  ∀ (c : Instr) (f : HostFrame) (s : State) (response : List Byte), hostFrame c = some f →
    f.payload.length ≤ 1196 → (s.ports.get f.port).response = some response →
    ((s.ports.get f.port).held = none →
      exec c s = .next { s with ports := s.ports.set f.port { s.ports.get f.port with held := some f.body } }) ∧
    ((s.ports.get f.port).held ≠ none →
      exec c s = .next { s with ports := s.ports.set f.port { s.ports.get f.port with
        overruns := min ((s.ports.get f.port).overruns + 1) 65535 } }) ∧
    ∃ u : State,
      u = { s with ports := s.ports.set f.port { s.ports.get f.port with
        response := none, held := none, sent := frameOf response } } ∧
      ((s.ports.get f.port).held = none → exec (.responseSent f.port) s = .next u) ∧
      ((s.ports.get f.port).held = some f.body → exec (.responseSent f.port) s = exec c u)

/-- No response body exceeds 1,200 bytes; the largest is 1,134 bytes (R176): whatever the command and the state, given
the tables' 32 and 24 slots. -/
def Obligations.ResponsesBounded : Prop :=
  ∀ (c : Instr) (f : HostFrame) (s t : State), hostFrame c = some f → s.ready f.port →
    s.eng.pub.streaks.length = 32 → s.eng.pub.cands.length = 24 → exec c s = .next t →
    ∃ body, (t.ports.get f.port).response = some body ∧ body.length ≤ 1134

/-- IDENT and STATUS change no state but the response (R178, R179, R180). IDENT names the vendor, the part, 4 heads, 16
lanes, 16 profiles and the port; its firmware level is open (assumption 9). STATUS answers its nine groups in 236 bytes,
every field at its place: run, position, tracker with the open tally as published, links, assembler, engine as of the
last published line, list, markers and ports with the sending port's attention. That they are all of one moment is the
model's choice (assumption 15), and so is pred as it is held in every tracker state (assumption 18). -/
def Obligations.IdentAndStatusAnswer : Prop :=
  ∀ (p : PortNo) (tag : Byte) (s : State), s.ready p →
    (∃ major minor, exec (.ident p tag) s = .next (s.answering p 0x01 tag 0
      ([6, 0x4D, 0x61, 0x62, 0x65, 0x6B, 0x61, 5, 0x46, 0x53, 0x2D, 0x32, 0x34, major, minor, 4, 16, 16] ++
        be 1 p.val))) ∧
    ∃ (bit : Bool → Nat) (run position tracker links assembler engine list markers ports : List Byte),
      (∀ b, bit b = if b then 1 else 0) ∧
      exec (.status p tag) s = .next (s.answering p 0x02 tag 0
        (run ++ position ++ tracker ++ links ++ assembler ++ engine ++ list ++ markers ++ ports)) ∧
      (run ++ position ++ tracker ++ links ++ assembler ++ engine ++ list ++ markers ++ ports).length = 236 ∧
      run = be 1 (match s.rcp.run with | .idle => 0 | .armed => 1 | .stopping => 2) ++
        (match s.rcp.pending with | none => [0, 0xFF] | some c => [1] ++ be 1 c.port.val) ++
        be 1 (bit s.rcp.retiring.isSome) ++ be 1 (match s.rcp.holder with | none => 255 | some q => q.val) ∧
      position = be 4 s.pos.e.toNat ++ be 4 s.pos.w ++ be 2 s.pos.l ++ be 5 s.trig.t ++ be 4 s.trig.lastTrigger ++
        be 2 s.trig.n.toNat ++ be 2 s.pos.illegal ++ be 2 s.pos.limitDiscards ++ be 2 s.pos.reverseDiscards ++
        be 2 s.trig.linesSkipped ∧
      tracker = be 1 (match s.trk.mode with
          | .off => 0 | .seek => 1 | .track => 2 | .lost => 3 | .continuous => 4) ++
        be 1 (bit s.trk.frozen) ++ be 5 s.trk.pred ++ be 1 s.trk.misses ++ be 1 s.trk.queue.length ++
        (match s.trk.patch with
          | none => be 13 0
          | some x => be 4 x.num ++ be 4 x.s ++ be 5 x.endW) ++ be 4 s.trk.lastPatch ++
        (match s.eng.pub.tally with
          | none => be 6 0
          | some x => be 4 x.num ++ be 2 x.coated) ++
        be 2 s.trk.spurious ++ be 2 s.trk.backlogEdges ++ be 2 s.trk.marksMissed ++ be 2 s.trk.startsDropped ∧
      links = [(0 : HeadNo), 1, 2, 3].flatMap (fun h =>
        be 1 (match (s.links.get h).state with | .down => 0 | .hunt => 1 | .locked => 2) ++
          be 2 (s.links.get h).learned ++ be 2 (s.links.get h).aborted ++ be 2 (s.links.get h).badFrames ++
          be 2 (s.links.get h).idMismatches) ∧
      assembler = [(0 : Fin 4), 1, 2, 3].flatMap (fun i =>
          if (s.asm.slots.get i).state = .free then be 6 0
          else be 1 (match (s.asm.slots.get i).state with | .free => 0 | .opened => 1 | .ready => 2 | .inWork => 3) ++
            be 2 (s.asm.slots.get i).line.toNat ++
            [(s.asm.slots.get i).expected, (s.asm.slots.get i).received, (s.asm.slots.get i).absent].flatMap
              (fun q => be 1 (bit (q.get 0) + 2 * bit (q.get 1) + 4 * bit (q.get 2) + 8 * bit (q.get 3)))) ++
        [(0 : HeadNo), 1, 2, 3].flatMap (fun h => be 2 (s.asm.late.get h) ++ be 2 (s.asm.duplicate.get h) ++
          be 2 (s.asm.short.get h) ++ be 2 (s.asm.illum.get h)) ++ be 2 s.asm.forced ∧
      engine = (match s.eng.lastLine with
          | none => be 7 0
          | some x => [1] ++ be 2 x.1.toNat ++ be 4 x.2) ++
        be 1 (s.eng.pub.cands.countP Option.isSome) ++ be 1 (s.eng.pub.streaks.countP Option.isSome) ++
        be 1 (bit s.eng.pub.candLatch) ++ be 1 (bit s.eng.pub.streakLatch) ++ be 2 s.eng.pub.splits ++
        be 2 s.eng.pub.refusals ∧
      list = be 4 (match s.list.records with | [] => 0 | r :: _ => r.seq) ++
        be 4 (match s.list.records.getLast? with | none => 0 | some r => r.seq) ++ be 4 s.list.next ++
        be 2 s.list.records.length ∧
      markers = be 1 s.mark.queue.length ++ be 1 (bit s.mark.latch) ++ be 1 (bit s.mark.mk0) ++
        be 1 (bit s.mark.mk1) ++ be 2 s.mark.merges ++ be 2 s.mark.late ++ be 2 s.mark.dropped ++
        be 2 s.mark.discarded ∧
      ports = [(0 : PortNo), 1, 2].flatMap (fun q => be 2 (s.ports.get q).badFrames ++ be 2 (s.ports.get q).aborted ++
          be 2 (s.ports.get q).inactivity ++ be 2 (s.ports.get q).overruns) ++
        [(s.ports.get p).causes, (s.ports.get p).service, (s.ports.get p).enable].flatMap (fun x =>
          be 1 (bit x.alert + 2 * bit x.streak + 4 * bit x.pinhole + 8 * bit x.data))

/-- READ_CELLS, READ_CANDIDATES and READ_STREAKS answer from the published tables and change no state but the response
(R79, R97, R114, R135, R178): a cell range out of 1..64 or past cell 2047 is refused with RANGE; otherwise the last
published line, then 9 bytes for each cell, 30 for each candidate, 35 for each streak, in increasing order of cell and
of slot, each with its fields in their order. -/
def Obligations.TablesReadPublished : Prop :=
  ∀ (p : PortNo) (tag count : Byte) (first : BitVec 16) (s : State), s.ready p → ∃ line : List Byte,
    line = (match s.eng.lastLine with
      | none => [0, 0, 0, 0, 0, 0, 0]
      | some x => [1] ++ be 2 x.1.toNat ++ be 4 x.2) ∧ line.length = 7 ∧
    (count.toNat = 0 ∨ 64 < count.toNat ∨ 2048 < first.toNat + count.toNat →
      exec (.readCells p tag first count) s = .next (s.answering p 0x40 tag 8 [])) ∧
    (1 ≤ count.toNat → count.toNat ≤ 64 → first.toNat + count.toNat ≤ 2048 → s.eng.pub.cells.length = 2048 →
      ∃ cells, exec (.readCells p tag first count) s = .next (s.answering p 0x40 tag 0 (line ++ cells)) ∧
        cells.length = 9 * count.toNat ∧
        ∀ i r, i < count.toNat → s.eng.pub.cells[first.toNat + i]? = some r →
          (cells.drop (9 * i)).take 9 = be 2 (first.toNat + i) ++ be 1 (if r.seeded then 1 else 0) ++ be 2 r.b16 ++
            be 2 (r.s % 65536).toNat ++ be 1 r.warm ++ be 1 (match r.member with | none => 255 | some k => k)) ∧
    (∃ rows, exec (.readCandidates p tag) s = .next (s.answering p 0x41 tag 0
        (line ++ [if s.eng.pub.candLatch then 1 else 0] ++ be 1 (s.eng.pub.cands.countP Option.isSome) ++ rows)) ∧
      rows.length = 30 * s.eng.pub.cands.countP Option.isSome ∧
      ∀ j k, s.eng.pub.cands[j]? = some (some k) →
        (rows.drop (30 * (s.eng.pub.cands.take j).countP Option.isSome)).take 30 =
          be 1 j ++ be 1 k.lane ++ be 4 k.patch ++ be 4 k.firstW ++ be 4 k.lastW ++ be 1 k.lines ++ be 2 k.hullL ++
            be 2 k.hullR ++ be 2 k.extL ++ be 2 k.extR ++ be 2 k.area ++ be 2 k.peak ++ be 1 k.profile ++
            be 1 (match k.target with | none => 0 | some .mk0 => 1 | some .mk1 => 2) ++
            be 1 ((if k.sat then 1 else 0) + (if k.edge then 2 else 0) + (if k.lead then 4 else 0) +
              (if k.trail then 8 else 0) + (if k.held then 16 else 0))) ∧
    ∃ rows, exec (.readStreaks p tag) s = .next (s.answering p 0x42 tag 0
        (line ++ [if s.eng.pub.streakLatch then 1 else 0] ++ be 1 (s.eng.pub.streaks.countP Option.isSome) ++ rows)) ∧
      rows.length = 35 * s.eng.pub.streaks.countP Option.isSome ∧
      ∀ j st, s.eng.pub.streaks[j]? = some (some st) →
        (rows.drop (35 * (s.eng.pub.streaks.take j).countP Option.isSome)).take 35 =
          be 1 j ++ be 4 st.openSeq ++ be 1 (match st.pol with | .light => 0 | .dark => 1) ++ be 1 st.lane ++
            be 1 st.profile ++ be 2 st.extL ++ be 2 st.extR ++ be 4 st.openW ++ be 4 st.openPatch ++ be 4 st.curPatch ++
            be 2 st.lines ++ be 2 st.patches ++ be 2 st.peak ++ be 2 st.wideL ++ be 2 st.wideR ++
            be 1 (if st.held then 1 else 0)

/-- RESYNC_HEAD (R45, R46, R47): RANGE above 3; in DOWN no effect; in HUNT the good run is cleared and a new episode
begins; from LOCKED the link goes to HUNT with HEAD_LOST, cause 3, and the head leaves the sets of every OPEN slot,
which becomes READY when the others are all in. The learned id, the counters and the frame in reception are kept. That
the bad run and the id of the emptied good run stand as they are is the model's choice (assumption 27). -/
def Obligations.ResyncHeadUnlocks : Prop :=
  ∀ (p : PortNo) (tag head : Byte) (s : State), s.ready p →
    (3 < head.toNat → exec (.resyncHead p tag head) s = .next (s.answering p 0x50 tag 8 [])) ∧
    ∀ h : HeadNo, h.val = head.toNat →
      ((s.links.get h).state = .down → exec (.resyncHead p tag head) s = .next (s.answering p 0x50 tag 0 [])) ∧
      ((s.links.get h).state = .hunt → exec (.resyncHead p tag head) s =
        .next ({ s with links := s.links.set h { s.links.get h with
          good := 0, mismatchReported := false } }.answering p 0x50 tag 0 [])) ∧
      ((s.links.get h).state = .locked → ∃ t : State,
        exec (.resyncHead p tag head) s = .next (t.answering p 0x50 tag 0 []) ∧
        t.links = s.links.set h { s.links.get h with state := .hunt, good := 0, mismatchReported := false } ∧
        t.list = s.list.push s.pos.w (.event .headLost (h.val + 768)) ∧
        (∀ i, (s.asm.slots.get i).state ≠ .opened → t.asm.slots.get i = s.asm.slots.get i) ∧
        (∀ i, (s.asm.slots.get i).state = .opened → ∃ x y : Slot, x = s.asm.slots.get i ∧
          y = { x with
            expected := x.expected.set h false, received := x.received.set h false
            absent := x.absent.set h false } ∧
          (t.asm.slots.get i = y ∨ t.asm.slots.get i = { y with state := .ready }) ∧
          ((t.asm.slots.get i).state = .ready ↔
            ∀ k, k ≠ h → (x.received.get k || x.absent.get k) = x.expected.get k)) ∧
        t.asm = { s.asm with slots := t.asm.slots } ∧ t.pos = s.pos ∧ t.trig = s.trig ∧ t.trk = s.trk ∧
        t.eng = s.eng ∧ t.mark = s.mark ∧ t.rcp = s.rcp)

/-- ACK_ATTN and END_SERVICE (R183): the highest-ranked pending cause goes into service; the highest-ranked cause in
service leaves it; with none, nothing changes and NONE is answered. The response holds the cause and both sets after the
command, and ATNn follows R182. -/
def Obligations.AttentionServiceInRank : Prop :=
  ∀ (p : PortNo) (tag : Byte) (s : State), s.ready p → (s.ports.get p).attentionOk →
    ∃ (x : Port) (reply : Byte → Nat → Port → State), x = s.ports.get p ∧
      (∀ code c y, reply code c y = { s with ports := s.ports.set p y }.answering p code tag 0
        (be 1 c ++ y.causes.toByte ++ y.service.toByte)) ∧
      ((∀ c, x.causes.has c = false) → exec (.ackAttn p tag) s = .next (reply 0x03 0 x)) ∧
      (∀ c, x.causes.has c = true → (∀ d, x.causes.has d = true → c.rank ≤ d.rank) → ∃ y : Port,
        exec (.ackAttn p tag) s = .next (reply 0x03 c.rank y) ∧ y.attentionOk ∧
        y = { x with causes := y.causes, service := y.service, atn := y.atn } ∧
        (∀ d, y.causes.has d = true ↔ x.causes.has d = true ∧ d ≠ c) ∧
        ∀ d, y.service.has d = true ↔ x.service.has d = true ∨ d = c) ∧
      ((∀ c, x.service.has c = false) → exec (.endService p tag) s = .next (reply 0x04 0 x)) ∧
      ∀ c, x.service.has c = true → (∀ d, x.service.has d = true → c.rank ≤ d.rank) → ∃ y : Port,
        exec (.endService p tag) s = .next (reply 0x04 c.rank y) ∧ y.attentionOk ∧
        y = { x with service := y.service, atn := y.atn } ∧
        ∀ d, y.service.has d = true ↔ x.service.has d = true ∧ d ≠ c

/-! ### What every step keeps -/

/-- Every condition of Safety.lean holds after a power-on reset (00_scope.md 1.7; R2, R16, R52, R53, R81, R100, R118,
R141, R143, R152, R161, R162, R165, R170, R181, R182). -/
def Obligations.ConditionsAtReset : Prop :=
  State.reset.positionOk ∧ State.reset.listOk ∧ State.reset.attentionOk ∧ State.reset.marksOk ∧
    State.reset.slotsOk ∧ State.reset.controlOk ∧ State.reset.startsOk ∧ State.reset.cellsOk ∧
    State.reset.recipesOk ∧ State.reset.editOk ∧ State.reset.countersOk

/-- The defect list stays within 512 records in consecutive sequence, and every port's cursor stays on a retained record
or the next sequence number (R141, R142, R143), whatever the step. An append (R141 to R144, R181) puts the record behind
the others under the next sequence number, and the oldest leaves a list of 512. At each port a cursor on the record that
leaves moves on, and the skipped count rises when that record's class is subscribed. Of the enabled causes the new
record raises, where its class is subscribed, ALERT for an EVENT, STREAK for a STREAK_OPEN and PINHOLE for a PINHOLE,
and the append raises DATA when the unread count crosses the watermark; no cause is taken away, ATNn follows, and
nothing else changes. -/
def Obligations.ListKept : Prop :=
  (∀ s t : State, s.listOk → step s = .next t → t.listOk) ∧
  ∀ (w : Nat) (body : RecordBody) (s : State) (p : PortNo),
    ∃ (t : State) (x y : Port) (wanted : RecordBody → Bool) (unread : DefectList → Nat → Nat),
      t = append w body s ∧ x = s.ports.get p ∧ y = t.ports.get p ∧
      (∀ b, wanted b = match b with
        | .pinhole _ => x.sub.pin
        | .streakOpen _ | .streakClose _ => x.sub.streak
        | .patch _ => x.sub.patch
        | .event _ _ => x.sub.event) ∧
      (∀ l cursor, unread l cursor = (l.records.dropWhile fun r : Record => decide (r.seq ≠ cursor)).countP
        fun r : Record => wanted r.body) ∧
      t.list =
        { records := (if s.list.records.length < 512 then s.list.records else s.list.records.tail) ++
            [⟨s.list.next, w, body⟩]
          next := if s.list.next = 4294967295 then 1 else s.list.next + 1 } ∧
      t = { s with list := t.list, ports := t.ports } ∧
      y = { x with cursor := y.cursor, skipped := y.skipped, causes := y.causes, atn := y.atn } ∧
      (s.list.records.length < 512 ∨ s.list.records.head?.map Record.seq ≠ some x.cursor →
        y.cursor = x.cursor ∧ y.skipped = x.skipped) ∧
      (∀ r, 512 ≤ s.list.records.length → s.list.records.head? = some r → r.seq = x.cursor →
        y.cursor = (if r.seq = 4294967295 then 1 else r.seq + 1) ∧
          y.skipped = if wanted r.body then min (x.skipped + 1) 65535 else x.skipped) ∧
      (∀ c, y.causes.has c = true ↔ x.causes.has c = true ∨
        (x.enable.has c = true ∧ match c with
          | .alert => wanted body = true ∧ ∃ code arg, body = .event code arg
          | .streak => wanted body = true ∧ ∃ b, body = .streakOpen b
          | .pinhole => wanted body = true ∧ ∃ b, body = .pinhole b
          | .data => unread s.list x.cursor < x.watermark ∧ x.watermark ≤ unread t.list y.cursor)) ∧
      (x.attentionOk → y.attentionOk)

/-- ATNn is asserted exactly while some pending cause ranks above every cause in service, after a power-on reset and
after every step (R182), and only enabled causes are pending (R181). -/
def Obligations.AttentionKept : Prop :=
  State.reset.attentionOk ∧ ∀ s t : State, s.attentionOk → step s = .next t → t.attentionOk

/-- The mark queue stays in order within 32 entries, none of them ended, and each marker output stays active exactly
while an entry of its marker holds W (R152, R156), whatever the step. -/
def Obligations.MarksKept : Prop := ∀ s t : State, s.marksOk → step s = .next t → t.marksOk

/-- The received and absent sets of every slot stay disjoint and within its expected set, FREE slots expect nothing, and
at most one slot is IN_WORK (R52, R53), whatever the step. -/
def Obligations.SlotsKept : Prop := ∀ s t : State, s.slotsOk → step s = .next t → t.slotsOk

/-- Occupied slots refer to a copy and a retiring copy exists exactly while a slot refers to it; IDLE has no occupied
slot and no pending copy, STOPPING no OPEN or READY slot; the tracker is frozen exactly in STOPPING and OFF exactly in
IDLE (R16, R17, R64, R161, R167, R169), whatever the step. -/
def Obligations.ControlKept : Prop := ∀ s t : State, s.controlOk → step s = .next t → t.controlOk

/-- The pending start queue stays within four entries in strictly increasing order, and empty while the tracker is OFF
(R16, R17, R23), whatever the step. -/
def Obligations.StartsKept : Prop := ∀ s t : State, s.startsOk → step s = .next t → t.startsOk

/-- The tables keep their 2048 cell records, 32 streak slots and 24 candidate slots and the line slots their 2048 cells,
while the copies pass their checks (R52, R81, R100, R118); every B16 stays within 0..65520, every streak counter within
−4095..+4095 and every cell value within 0..4095 (R52, R81, R89, R91), whatever the step. -/
def Obligations.CellsKept : Prop := ∀ s t : State, s.cellsOk → s.recipesOk → step s = .next t → t.cellsOk

/-- The active, pending and retiring copies always pass the checks of R165 (R15, R50, R68, R75), and a staging copy
exists, with the silence timer running, exactly while the edit right is held (R162), whatever the step. That the timer
stands at 2000 while it runs is the model's choice: no command lets time pass (assumption 8). -/
def Obligations.RecipesKept : Prop :=
  ∀ s t : State, s.recipesOk → s.editOk → step s = .next t → t.recipesOk ∧ t.editOk

/-- Every diagnostic counter stops at 65535 and falls only at a power-on reset (00_scope.md 1.7; R14, R30, R49, R66,
R115, R136, R159, R175), whatever the command, and on an empty queue too. -/
def Obligations.CountersKept : Prop :=
  ∀ s t : State, s.countersOk → step s = .next t →
    t.countersOk ∧
      ((∀ a b k rest, s.pending ≠ .powerOnReset a b k :: rest) → List.Forall₂ (· ≤ ·) s.counters t.counters)

end
end

