-- ==== Sys2Proof/Laws/Bytes.lean ====
section
/-! SUPPORT. Counts, byte order, fields, escaping and the receiver: what each shared operation of Machine/Bytes.lean
does, once. -/

namespace Sys2Proof.Machine

/-! ### Counts (00_scope.md 1.7) -/

theorem bump_eq (n : Nat) : bump n = min (n + 1) 65535 := rfl

theorem bumpBy_eq (n k : Nat) : bumpBy n k = min (n + k) 65535 := rfl

theorem bump_le (n : Nat) : bump n ≤ 65535 := Nat.min_le_right _ _

theorem bumpBy_le (n k : Nat) : bumpBy n k ≤ 65535 := Nat.min_le_right _ _

theorem le_bump {n : Nat} (h : n ≤ 65535) : n ≤ bump n := by
  simp only [bump_eq]; omega

theorem le_bumpBy {n : Nat} (k : Nat) (h : n ≤ 65535) : n ≤ bumpBy n k := by
  simp only [bumpBy_eq]; omega

theorem following_eq (q : Nat) : following q = if q = 4294967295 then 1 else q + 1 := rfl

theorem following_range {q : Nat} (h : q ≤ 4294967295) : 1 ≤ following q ∧ following q ≤ 4294967295 := by
  rw [following_eq]; split <;> omega

/-! ### Byte order (R178) -/

@[simp] theorem be_length (n v : Nat) : (be n v).length = n := by
  induction n with
  | zero => rfl
  | succ n ih => simp [be, ih]

theorem ofBe_foldl (acc : Nat) (bs : List Byte) :
    bs.foldl (fun acc b => acc * 256 + b.toNat) acc = acc * 256 ^ bs.length + ofBe bs := by
  induction bs generalizing acc with
  | nil => simp [ofBe]
  | cons b bs ih =>
    simp only [ofBe, List.foldl_cons, List.length_cons, ih (acc * 256 + b.toNat), ih (0 * 256 + b.toNat)]
    ring

@[simp] theorem ofBe_nil : ofBe [] = 0 := rfl

theorem ofBe_cons (b : Byte) (bs : List Byte) : ofBe (b :: bs) = b.toNat * 256 ^ bs.length + ofBe bs := by
  rw [ofBe, List.foldl_cons, ofBe_foldl]; simp

theorem ofBe_append (as bs : List Byte) : ofBe (as ++ bs) = ofBe as * 256 ^ bs.length + ofBe bs := by
  rw [ofBe, List.foldl_append, ofBe_foldl]; rfl

theorem ofBe_lt (bs : List Byte) : ofBe bs < 256 ^ bs.length := by
  induction bs with
  | nil => simp
  | cons b bs ih =>
    rw [ofBe_cons, List.length_cons, pow_succ]
    have hb : b.toNat < 256 := b.isLt
    nlinarith [Nat.mul_le_mul_right (256 ^ bs.length) (Nat.le_of_lt_succ hb)]

theorem ofBe_be_mod (n v : Nat) : ofBe (be n v) = v % 256 ^ n := by
  induction n with
  | zero => simp [be, Nat.mod_one]
  | succ n ih =>
    rw [be, ofBe_cons, ih, be_length, BitVec.toNat_ofNat, show (2 : Nat) ^ 8 = 256 from rfl, pow_succ,
      Nat.mod_mul, Nat.mul_comm]
    ring

/-- A number within `n` bytes is read back from them. -/
theorem ofBe_be {n v : Nat} (h : v < 256 ^ n) : ofBe (be n v) = v := by
  rw [ofBe_be_mod, Nat.mod_eq_of_lt h]

/-- The bytes of a number are read back from it. -/
theorem be_ofBe (bs : List Byte) : be bs.length (ofBe bs) = bs := by
  induction bs with
  | nil => rfl
  | cons b bs ih =>
    have hlt := ofBe_lt bs
    have hpos : 0 < 256 ^ bs.length := Nat.pow_pos (by decide)
    have hmod : ∀ n v k, be n (v + k * 256 ^ n) = be n v := by
      intro n
      induction n with
      | zero => intros; rfl
      | succ n ihn =>
        intro v k
        have h1 : (v + k * 256 ^ (n + 1)) / 256 ^ n = v / 256 ^ n + k * 256 := by
          rw [pow_succ, ← Nat.add_mul_div_right _ _ (Nat.pow_pos (n := n) (by decide : 0 < 256))]
          congr 1; ring
        have h2 : v + k * 256 ^ (n + 1) = v + (k * 256) * 256 ^ n := by rw [pow_succ]; ring
        simp only [be]
        rw [h1]
        congr 1
        · apply BitVec.eq_of_toNat_eq; simp
        · rw [h2, ihn]
    rw [List.length_cons, be, ofBe_cons]
    congr 1
    · rw [Nat.mul_comm, Nat.mul_add_div hpos, Nat.div_eq_of_lt hlt]
      simp
    · rw [Nat.add_comm, hmod, ih]

/-! ### Fields of an entry (R163, R178) -/

theorem joinFields_length : ∀ (ns vs : List Nat), vs.length = ns.length → (joinFields ns vs).length = ns.sum
  | [], vs, _ => by cases vs <;> simp_all [joinFields]
  | n :: ns, [], h => by simp at h
  | n :: ns, v :: vs, h => by
    simp only [joinFields, List.length_append, be_length, List.sum_cons]
    rw [joinFields_length ns vs (by simpa using h)]

theorem splitFields_length : ∀ (ns : List Nat) (bs : List Byte), (splitFields ns bs).length = ns.length
  | [], _ => rfl
  | n :: ns, bs => by simp [splitFields, splitFields_length ns]

/-- Field data of the right length is read back from its fields. -/
theorem joinFields_splitFields : ∀ (ns : List Nat) (bs : List Byte), bs.length = ns.sum →
    joinFields ns (splitFields ns bs) = bs
  | [], bs, h => by
    have : bs = [] := List.length_eq_zero_iff.mp (by simpa using h)
    simp [this, joinFields]
  | n :: ns, bs, h => by
    have hn : n ≤ bs.length := by simp at h; omega
    have ht : (bs.take n).length = n := by simp [hn]
    have hd : (bs.drop n).length = ns.sum := by simp at h ⊢; omega
    simp only [splitFields, joinFields]
    rw [joinFields_splitFields ns _ hd]
    have hb := be_ofBe (bs.take n)
    rw [ht] at hb
    rw [hb]
    exact List.take_append_drop n bs

/-! ### The receiver (R36) -/

theorem feedAll_cons_none {limit : Nat} {r r' : Reception} {b : Byte} (h : r.feed limit b = (r', none))
    (bs : List Byte) : r.feedAll limit (b :: bs) = r'.feedAll limit bs := by
  simp [Reception.feedAll, h]

theorem feedAll_cons_some {limit : Nat} {r r' : Reception} {b : Byte} {e : FrameEnd}
    (h : r.feed limit b = (r', some e)) (bs : List Byte) :
    r.feedAll limit (b :: bs) = ((r'.feedAll limit bs).1, e :: (r'.feedAll limit bs).2) := by
  simp [Reception.feedAll, h]

/-- Bytes in two pieces are received piece by piece. -/
theorem feedAll_append (limit : Nat) (r : Reception) (as bs : List Byte) :
    r.feedAll limit (as ++ bs) =
      (((r.feedAll limit as).1.feedAll limit bs).1,
        (r.feedAll limit as).2 ++ ((r.feedAll limit as).1.feedAll limit bs).2) := by
  induction as generalizing r with
  | nil => simp [Reception.feedAll]
  | cons b as ih =>
    rcases h : r.feed limit b with ⟨r', _ | e⟩
    · rw [List.cons_append, feedAll_cons_none h, feedAll_cons_none h, ih]
    · rw [List.cons_append, feedAll_cons_some h, feedAll_cons_some h, ih]; simp

/-- An open receiver with no escape byte held stores one escaped byte. -/
theorem feedAll_escapeByte (limit : Nat) (begun mal : Bool) (stored : List Byte) (b : Byte)
    (h : stored.length < limit) :
    Reception.feedAll limit ⟨true, begun, stored, false, mal⟩ (escapeByte b) =
      (⟨true, true, stored ++ [b], false, mal⟩, []) := by
  by_cases h1 : b = 0xB2#8
  · subst h1; simp [escapeByte, Reception.feedAll, Reception.feed, Reception.store, h]
  · by_cases h2 : b = 0xB5#8
    · subst h2; simp [escapeByte, Reception.feedAll, Reception.feed, Reception.store, h]
    · simp [escapeByte, Reception.feedAll, Reception.feed, Reception.store, h, h1, h2]

/-- An open receiver with no escape byte held stores escaped bytes within its limit. -/
theorem feedAll_escapeBytes (limit : Nat) (mal : Bool) (bs : List Byte) : ∀ (begun : Bool) (stored : List Byte),
    stored.length + bs.length ≤ limit →
    Reception.feedAll limit ⟨true, begun, stored, false, mal⟩ (escapeBytes bs) =
      (⟨true, begun || !bs.isEmpty, stored ++ bs, false, mal⟩, []) := by
  induction bs with
  | nil => intro begun stored _; simp [escapeBytes, Reception.feedAll]
  | cons b bs ih =>
    intro begun stored h
    have h1 : stored.length < limit := by simp at h; omega
    rw [show escapeBytes (b :: bs) = escapeByte b ++ escapeBytes bs from rfl, feedAll_append,
      feedAll_escapeByte _ _ _ _ _ h1]
    simp only
    rw [ih true (stored ++ [b]) (by simp at h ⊢; omega)]
    simp

@[simp] theorem withCrc_length (body : List Byte) : (withCrc body).length = body.length + 2 := by
  simp [withCrc]

/-- A body with its own CRC is intact (R37). -/
theorem intactBody_withCrc {body : List Byte} (h : 1 ≤ body.length) : intactBody (withCrc body) false = some body := by
  have hc : (crc body).toNat < 256 ^ 2 := (crc body).isLt
  have h3 : ¬ body.length + 2 < 3 := by omega
  simp [intactBody, withCrc, h3, ofBe_be hc]

end Sys2Proof.Machine
end

