-- ==== Sys2Proof/Laws/Word.lean ====
section
/-! SUPPORT. The laws of the small fixed arrays: reading after replacing, and equality entry by entry. -/

namespace Sys2Proof

variable {α β : Type}

@[simp] theorem Quad.get_fill (x : α) (i : Fin 4) : (Quad.fill x).get i = x := by
  fin_cases i <;> rfl

theorem Quad.get_set (v : Quad α) (i j : Fin 4) (x : α) : (v.set i x).get j = if j = i then x else v.get j := by
  fin_cases i <;> fin_cases j <;> rfl

@[simp] theorem Quad.get_set_self (v : Quad α) (i : Fin 4) (x : α) : (v.set i x).get i = x := by
  simp [Quad.get_set]

theorem Quad.get_set_of_ne (v : Quad α) {i j : Fin 4} (x : α) (h : j ≠ i) : (v.set i x).get j = v.get j := by
  simp [Quad.get_set, h]

theorem Quad.get_modify (v : Quad α) (i j : Fin 4) (f : α → α) :
    (v.modify i f).get j = if j = i then f (v.get i) else v.get j := by
  simp [Quad.modify, Quad.get_set]

@[simp] theorem Quad.get_map (f : α → β) (v : Quad α) (i : Fin 4) : (v.map f).get i = f (v.get i) := by
  fin_cases i <;> rfl

theorem Quad.ext_get {v w : Quad α} (h : ∀ i, v.get i = w.get i) : v = w := by
  cases v; cases w
  have h0 := h 0; have h1 := h 1; have h2 := h 2; have h3 := h 3
  simp_all [Quad.get]

@[simp] theorem Quad.set_get (v : Quad α) (i : Fin 4) : v.set i (v.get i) = v := by
  fin_cases i <;> rfl

@[simp] theorem Quad.set_set (v : Quad α) (i : Fin 4) (x y : α) : (v.set i x).set i y = v.set i y := by
  fin_cases i <;> rfl

theorem Quad.mem_toList (v : Quad α) (x : α) : x ∈ v.toList ↔ ∃ i, v.get i = x := by
  constructor
  · intro h
    simp only [Quad.toList, List.mem_cons, List.not_mem_nil, or_false] at h
    rcases h with h | h | h | h
    exacts [⟨0, h.symm⟩, ⟨1, h.symm⟩, ⟨2, h.symm⟩, ⟨3, h.symm⟩]
  · rintro ⟨i, rfl⟩
    fin_cases i <;> simp [Quad.toList, Quad.get]

@[simp] theorem Triple.get_fill (x : α) (i : Fin 3) : (Triple.fill x).get i = x := by
  fin_cases i <;> rfl

theorem Triple.get_set (v : Triple α) (i j : Fin 3) (x : α) : (v.set i x).get j = if j = i then x else v.get j := by
  fin_cases i <;> fin_cases j <;> rfl

@[simp] theorem Triple.get_set_self (v : Triple α) (i : Fin 3) (x : α) : (v.set i x).get i = x := by
  simp [Triple.get_set]

theorem Triple.get_set_of_ne (v : Triple α) {i j : Fin 3} (x : α) (h : j ≠ i) : (v.set i x).get j = v.get j := by
  simp [Triple.get_set, h]

@[simp] theorem Triple.get_map (f : α → β) (v : Triple α) (i : Fin 3) : (v.map f).get i = f (v.get i) := by
  fin_cases i <;> rfl

theorem Triple.ext_get {v w : Triple α} (h : ∀ i, v.get i = w.get i) : v = w := by
  cases v; cases w
  have h0 := h 0; have h1 := h 1; have h2 := h 2
  simp_all [Triple.get]

@[simp] theorem Triple.set_get (v : Triple α) (i : Fin 3) : v.set i (v.get i) = v := by
  fin_cases i <;> rfl

@[simp] theorem Triple.set_set (v : Triple α) (i : Fin 3) (x y : α) : (v.set i x).set i y = v.set i y := by
  fin_cases i <;> rfl

end Sys2Proof
end

