-- ==== Sys2Proof/Laws/State.lean ====
section
/-! SUPPORT. Every named update of the machine's state, field by field, so that no proof unfolds a record update. -/

namespace Sys2Proof.Machine

variable (s : State)

/-! ### `State.withSlot` -/

@[simp] theorem State.withSlot_pos (i : Fin 4) (x : Slot) : (s.withSlot i x).pos = s.pos := rfl
@[simp] theorem State.withSlot_trig (i : Fin 4) (x : Slot) : (s.withSlot i x).trig = s.trig := rfl
@[simp] theorem State.withSlot_trk (i : Fin 4) (x : Slot) : (s.withSlot i x).trk = s.trk := rfl
@[simp] theorem State.withSlot_links (i : Fin 4) (x : Slot) : (s.withSlot i x).links = s.links := rfl
@[simp] theorem State.withSlot_asm (i : Fin 4) (x : Slot) : (s.withSlot i x).asm =
    { s.asm with slots := s.asm.slots.set i x } := rfl
@[simp] theorem State.withSlot_eng (i : Fin 4) (x : Slot) : (s.withSlot i x).eng = s.eng := rfl
@[simp] theorem State.withSlot_list (i : Fin 4) (x : Slot) : (s.withSlot i x).list = s.list := rfl
@[simp] theorem State.withSlot_mark (i : Fin 4) (x : Slot) : (s.withSlot i x).mark = s.mark := rfl
@[simp] theorem State.withSlot_rcp (i : Fin 4) (x : Slot) : (s.withSlot i x).rcp = s.rcp := rfl
@[simp] theorem State.withSlot_ports (i : Fin 4) (x : Slot) : (s.withSlot i x).ports = s.ports := rfl
@[simp] theorem State.withSlot_freeCount (i : Fin 4) (x : Slot) : (s.withSlot i x).freeCount = s.freeCount := rfl
@[simp] theorem State.withSlot_pending (i : Fin 4) (x : Slot) : (s.withSlot i x).pending = s.pending := rfl

/-! ### `State.withLink` -/

@[simp] theorem State.withLink_pos (h : HeadNo) (k : Link) : (s.withLink h k).pos = s.pos := rfl
@[simp] theorem State.withLink_trig (h : HeadNo) (k : Link) : (s.withLink h k).trig = s.trig := rfl
@[simp] theorem State.withLink_trk (h : HeadNo) (k : Link) : (s.withLink h k).trk = s.trk := rfl
@[simp] theorem State.withLink_links (h : HeadNo) (k : Link) : (s.withLink h k).links =
    s.links.set h k := rfl
@[simp] theorem State.withLink_asm (h : HeadNo) (k : Link) : (s.withLink h k).asm = s.asm := rfl
@[simp] theorem State.withLink_eng (h : HeadNo) (k : Link) : (s.withLink h k).eng = s.eng := rfl
@[simp] theorem State.withLink_list (h : HeadNo) (k : Link) : (s.withLink h k).list = s.list := rfl
@[simp] theorem State.withLink_mark (h : HeadNo) (k : Link) : (s.withLink h k).mark = s.mark := rfl
@[simp] theorem State.withLink_rcp (h : HeadNo) (k : Link) : (s.withLink h k).rcp = s.rcp := rfl
@[simp] theorem State.withLink_ports (h : HeadNo) (k : Link) : (s.withLink h k).ports = s.ports := rfl
@[simp] theorem State.withLink_freeCount (h : HeadNo) (k : Link) : (s.withLink h k).freeCount = s.freeCount := rfl
@[simp] theorem State.withLink_pending (h : HeadNo) (k : Link) : (s.withLink h k).pending = s.pending := rfl

/-! ### `State.withPort` -/

@[simp] theorem State.withPort_pos (p : PortNo) (x : Port) : (s.withPort p x).pos = s.pos := rfl
@[simp] theorem State.withPort_trig (p : PortNo) (x : Port) : (s.withPort p x).trig = s.trig := rfl
@[simp] theorem State.withPort_trk (p : PortNo) (x : Port) : (s.withPort p x).trk = s.trk := rfl
@[simp] theorem State.withPort_links (p : PortNo) (x : Port) : (s.withPort p x).links = s.links := rfl
@[simp] theorem State.withPort_asm (p : PortNo) (x : Port) : (s.withPort p x).asm = s.asm := rfl
@[simp] theorem State.withPort_eng (p : PortNo) (x : Port) : (s.withPort p x).eng = s.eng := rfl
@[simp] theorem State.withPort_list (p : PortNo) (x : Port) : (s.withPort p x).list = s.list := rfl
@[simp] theorem State.withPort_mark (p : PortNo) (x : Port) : (s.withPort p x).mark = s.mark := rfl
@[simp] theorem State.withPort_rcp (p : PortNo) (x : Port) : (s.withPort p x).rcp = s.rcp := rfl
@[simp] theorem State.withPort_ports (p : PortNo) (x : Port) : (s.withPort p x).ports =
    s.ports.set p x := rfl
@[simp] theorem State.withPort_freeCount (p : PortNo) (x : Port) : (s.withPort p x).freeCount = s.freeCount := rfl
@[simp] theorem State.withPort_pending (p : PortNo) (x : Port) : (s.withPort p x).pending = s.pending := rfl

/-! ### `State.withWork` -/

@[simp] theorem State.withWork_pos (t : EngineTables) : (s.withWork t).pos = s.pos := rfl
@[simp] theorem State.withWork_trig (t : EngineTables) : (s.withWork t).trig = s.trig := rfl
@[simp] theorem State.withWork_trk (t : EngineTables) : (s.withWork t).trk = s.trk := rfl
@[simp] theorem State.withWork_links (t : EngineTables) : (s.withWork t).links = s.links := rfl
@[simp] theorem State.withWork_asm (t : EngineTables) : (s.withWork t).asm = s.asm := rfl
@[simp] theorem State.withWork_eng (t : EngineTables) : (s.withWork t).eng =
    { s.eng with work := t } := rfl
@[simp] theorem State.withWork_list (t : EngineTables) : (s.withWork t).list = s.list := rfl
@[simp] theorem State.withWork_mark (t : EngineTables) : (s.withWork t).mark = s.mark := rfl
@[simp] theorem State.withWork_rcp (t : EngineTables) : (s.withWork t).rcp = s.rcp := rfl
@[simp] theorem State.withWork_ports (t : EngineTables) : (s.withWork t).ports = s.ports := rfl
@[simp] theorem State.withWork_freeCount (t : EngineTables) : (s.withWork t).freeCount = s.freeCount := rfl
@[simp] theorem State.withWork_pending (t : EngineTables) : (s.withWork t).pending = s.pending := rfl

/-! ### `State.withTally` -/

@[simp] theorem State.withTally_pos (t : Option Tally) : (s.withTally t).pos = s.pos := rfl
@[simp] theorem State.withTally_trig (t : Option Tally) : (s.withTally t).trig = s.trig := rfl
@[simp] theorem State.withTally_trk (t : Option Tally) : (s.withTally t).trk = s.trk := rfl
@[simp] theorem State.withTally_links (t : Option Tally) : (s.withTally t).links = s.links := rfl
@[simp] theorem State.withTally_asm (t : Option Tally) : (s.withTally t).asm = s.asm := rfl
@[simp] theorem State.withTally_eng (t : Option Tally) : (s.withTally t).eng =
    { s.eng with work := { s.eng.work with tally := t } } := rfl
@[simp] theorem State.withTally_list (t : Option Tally) : (s.withTally t).list = s.list := rfl
@[simp] theorem State.withTally_mark (t : Option Tally) : (s.withTally t).mark = s.mark := rfl
@[simp] theorem State.withTally_rcp (t : Option Tally) : (s.withTally t).rcp = s.rcp := rfl
@[simp] theorem State.withTally_ports (t : Option Tally) : (s.withTally t).ports = s.ports := rfl
@[simp] theorem State.withTally_freeCount (t : Option Tally) : (s.withTally t).freeCount = s.freeCount := rfl
@[simp] theorem State.withTally_pending (t : Option Tally) : (s.withTally t).pending = s.pending := rfl

/-! ### `contribute` -/

@[simp] theorem contribute_pos (c : Contribution) : (contribute c s).pos = s.pos := rfl
@[simp] theorem contribute_trig (c : Contribution) : (contribute c s).trig = s.trig := rfl
@[simp] theorem contribute_trk (c : Contribution) : (contribute c s).trk = s.trk := rfl
@[simp] theorem contribute_links (c : Contribution) : (contribute c s).links = s.links := rfl
@[simp] theorem contribute_asm (c : Contribution) : (contribute c s).asm = s.asm := rfl
@[simp] theorem contribute_eng (c : Contribution) : (contribute c s).eng =
    { s.eng with contribs := s.eng.contribs ++ [c] } := rfl
@[simp] theorem contribute_list (c : Contribution) : (contribute c s).list = s.list := rfl
@[simp] theorem contribute_mark (c : Contribution) : (contribute c s).mark = s.mark := rfl
@[simp] theorem contribute_rcp (c : Contribution) : (contribute c s).rcp = s.rcp := rfl
@[simp] theorem contribute_ports (c : Contribution) : (contribute c s).ports = s.ports := rfl
@[simp] theorem contribute_freeCount (c : Contribution) : (contribute c s).freeCount = s.freeCount := rfl
@[simp] theorem contribute_pending (c : Contribution) : (contribute c s).pending = s.pending := rfl

/-! ### `append` -/

@[simp] theorem append_pos (w : Nat) (b : RecordBody) : (append w b s).pos = s.pos := rfl
@[simp] theorem append_trig (w : Nat) (b : RecordBody) : (append w b s).trig = s.trig := rfl
@[simp] theorem append_trk (w : Nat) (b : RecordBody) : (append w b s).trk = s.trk := rfl
@[simp] theorem append_links (w : Nat) (b : RecordBody) : (append w b s).links = s.links := rfl
@[simp] theorem append_asm (w : Nat) (b : RecordBody) : (append w b s).asm = s.asm := rfl
@[simp] theorem append_eng (w : Nat) (b : RecordBody) : (append w b s).eng = s.eng := rfl
@[simp] theorem append_list (w : Nat) (b : RecordBody) : (append w b s).list =
    s.list.push w b := rfl
@[simp] theorem append_mark (w : Nat) (b : RecordBody) : (append w b s).mark = s.mark := rfl
@[simp] theorem append_rcp (w : Nat) (b : RecordBody) : (append w b s).rcp = s.rcp := rfl
@[simp] theorem append_ports (w : Nat) (b : RecordBody) : (append w b s).ports =
    s.ports.map (Port.onAppend s.list (s.list.push w b) b) := rfl
@[simp] theorem append_freeCount (w : Nat) (b : RecordBody) : (append w b s).freeCount = s.freeCount := rfl
@[simp] theorem append_pending (w : Nat) (b : RecordBody) : (append w b s).pending = s.pending := rfl

/-! ### `appendEvent` -/

@[simp] theorem appendEvent_pos (c : EventCode) (n : Nat) : (appendEvent c n s).pos = s.pos := rfl
@[simp] theorem appendEvent_trig (c : EventCode) (n : Nat) : (appendEvent c n s).trig = s.trig := rfl
@[simp] theorem appendEvent_trk (c : EventCode) (n : Nat) : (appendEvent c n s).trk = s.trk := rfl
@[simp] theorem appendEvent_links (c : EventCode) (n : Nat) : (appendEvent c n s).links = s.links := rfl
@[simp] theorem appendEvent_asm (c : EventCode) (n : Nat) : (appendEvent c n s).asm = s.asm := rfl
@[simp] theorem appendEvent_eng (c : EventCode) (n : Nat) : (appendEvent c n s).eng = s.eng := rfl
@[simp] theorem appendEvent_list (c : EventCode) (n : Nat) : (appendEvent c n s).list =
    s.list.push s.pos.w (.event c n) := rfl
@[simp] theorem appendEvent_mark (c : EventCode) (n : Nat) : (appendEvent c n s).mark = s.mark := rfl
@[simp] theorem appendEvent_rcp (c : EventCode) (n : Nat) : (appendEvent c n s).rcp = s.rcp := rfl
@[simp] theorem appendEvent_ports (c : EventCode) (n : Nat) : (appendEvent c n s).ports =
    s.ports.map (Port.onAppend s.list (s.list.push s.pos.w (.event c n)) (.event c n)) := rfl
@[simp] theorem appendEvent_freeCount (c : EventCode) (n : Nat) : (appendEvent c n s).freeCount = s.freeCount := rfl
@[simp] theorem appendEvent_pending (c : EventCode) (n : Nat) : (appendEvent c n s).pending = s.pending := rfl

/-! ### `setReference` -/

@[simp] theorem setReference_pos (a b : Bool) : (setReference a b s).pos =
    { s.pos with refA := a, refB := b } := rfl
@[simp] theorem setReference_trig (a b : Bool) : (setReference a b s).trig = s.trig := rfl
@[simp] theorem setReference_trk (a b : Bool) : (setReference a b s).trk = s.trk := rfl
@[simp] theorem setReference_links (a b : Bool) : (setReference a b s).links = s.links := rfl
@[simp] theorem setReference_asm (a b : Bool) : (setReference a b s).asm = s.asm := rfl
@[simp] theorem setReference_eng (a b : Bool) : (setReference a b s).eng = s.eng := rfl
@[simp] theorem setReference_list (a b : Bool) : (setReference a b s).list = s.list := rfl
@[simp] theorem setReference_mark (a b : Bool) : (setReference a b s).mark = s.mark := rfl
@[simp] theorem setReference_rcp (a b : Bool) : (setReference a b s).rcp = s.rcp := rfl
@[simp] theorem setReference_ports (a b : Bool) : (setReference a b s).ports = s.ports := rfl
@[simp] theorem setReference_freeCount (a b : Bool) : (setReference a b s).freeCount = s.freeCount := rfl
@[simp] theorem setReference_pending (a b : Bool) : (setReference a b s).pending = s.pending := rfl

/-! ### `settleMarks` -/

@[simp] theorem settleMarks_pos : (settleMarks s).pos = s.pos := rfl
@[simp] theorem settleMarks_trig : (settleMarks s).trig = s.trig := rfl
@[simp] theorem settleMarks_trk : (settleMarks s).trk = s.trk := rfl
@[simp] theorem settleMarks_links : (settleMarks s).links = s.links := rfl
@[simp] theorem settleMarks_asm : (settleMarks s).asm = s.asm := rfl
@[simp] theorem settleMarks_eng : (settleMarks s).eng = s.eng := rfl
@[simp] theorem settleMarks_list : (settleMarks s).list = s.list := rfl
@[simp] theorem settleMarks_mark : (settleMarks s).mark =
    s.mark.settle s.pos.w := rfl
@[simp] theorem settleMarks_rcp : (settleMarks s).rcp = s.rcp := rfl
@[simp] theorem settleMarks_ports : (settleMarks s).ports = s.ports := rfl
@[simp] theorem settleMarks_freeCount : (settleMarks s).freeCount = s.freeCount := rfl
@[simp] theorem settleMarks_pending : (settleMarks s).pending = s.pending := rfl

/-! ### `adoptPitch` -/

@[simp] theorem adoptPitch_pos : (adoptPitch s).pos = s.pos := rfl
@[simp] theorem adoptPitch_trig : (adoptPitch s).trig =
    { s.trig with t := s.trig.lastTrigger + s.rcp.active.p } := rfl
@[simp] theorem adoptPitch_trk : (adoptPitch s).trk = s.trk := rfl
@[simp] theorem adoptPitch_links : (adoptPitch s).links = s.links := rfl
@[simp] theorem adoptPitch_asm : (adoptPitch s).asm = s.asm := rfl
@[simp] theorem adoptPitch_eng : (adoptPitch s).eng = s.eng := rfl
@[simp] theorem adoptPitch_list : (adoptPitch s).list = s.list := rfl
@[simp] theorem adoptPitch_mark : (adoptPitch s).mark = s.mark := rfl
@[simp] theorem adoptPitch_rcp : (adoptPitch s).rcp = s.rcp := rfl
@[simp] theorem adoptPitch_ports : (adoptPitch s).ports = s.ports := rfl
@[simp] theorem adoptPitch_freeCount : (adoptPitch s).freeCount = s.freeCount := rfl
@[simp] theorem adoptPitch_pending : (adoptPitch s).pending = s.pending := rfl

/-! ### `publishTables` -/

@[simp] theorem publishTables_pos : (publishTables s).pos = s.pos := rfl
@[simp] theorem publishTables_trig : (publishTables s).trig = s.trig := rfl
@[simp] theorem publishTables_trk : (publishTables s).trk = s.trk := rfl
@[simp] theorem publishTables_links : (publishTables s).links = s.links := rfl
@[simp] theorem publishTables_asm : (publishTables s).asm = s.asm := rfl
@[simp] theorem publishTables_eng : (publishTables s).eng =
    { s.eng with pub := s.eng.work } := rfl
@[simp] theorem publishTables_list : (publishTables s).list = s.list := rfl
@[simp] theorem publishTables_mark : (publishTables s).mark = s.mark := rfl
@[simp] theorem publishTables_rcp : (publishTables s).rcp = s.rcp := rfl
@[simp] theorem publishTables_ports : (publishTables s).ports = s.ports := rfl
@[simp] theorem publishTables_freeCount : (publishTables s).freeCount = s.freeCount := rfl
@[simp] theorem publishTables_pending : (publishTables s).pending = s.pending := rfl

/-! ### `forceSlots` -/

@[simp] theorem forceSlots_pos : (forceSlots s).pos = s.pos := rfl
@[simp] theorem forceSlots_trig : (forceSlots s).trig = s.trig := rfl
@[simp] theorem forceSlots_trk : (forceSlots s).trk = s.trk := rfl
@[simp] theorem forceSlots_links : (forceSlots s).links = s.links := rfl
@[simp] theorem forceSlots_eng : (forceSlots s).eng = s.eng := rfl
@[simp] theorem forceSlots_list : (forceSlots s).list = s.list := rfl
@[simp] theorem forceSlots_mark : (forceSlots s).mark = s.mark := rfl
@[simp] theorem forceSlots_rcp : (forceSlots s).rcp = s.rcp := rfl
@[simp] theorem forceSlots_ports : (forceSlots s).ports = s.ports := rfl
@[simp] theorem forceSlots_freeCount : (forceSlots s).freeCount = s.freeCount := rfl
@[simp] theorem forceSlots_pending : (forceSlots s).pending = s.pending := rfl

/-! ### `headLostAtSlots` -/

@[simp] theorem headLostAtSlots_pos (h : HeadNo) : (headLostAtSlots h s).pos = s.pos := rfl
@[simp] theorem headLostAtSlots_trig (h : HeadNo) : (headLostAtSlots h s).trig = s.trig := rfl
@[simp] theorem headLostAtSlots_trk (h : HeadNo) : (headLostAtSlots h s).trk = s.trk := rfl
@[simp] theorem headLostAtSlots_links (h : HeadNo) : (headLostAtSlots h s).links = s.links := rfl
@[simp] theorem headLostAtSlots_eng (h : HeadNo) : (headLostAtSlots h s).eng = s.eng := rfl
@[simp] theorem headLostAtSlots_list (h : HeadNo) : (headLostAtSlots h s).list = s.list := rfl
@[simp] theorem headLostAtSlots_mark (h : HeadNo) : (headLostAtSlots h s).mark = s.mark := rfl
@[simp] theorem headLostAtSlots_rcp (h : HeadNo) : (headLostAtSlots h s).rcp = s.rcp := rfl
@[simp] theorem headLostAtSlots_ports (h : HeadNo) : (headLostAtSlots h s).ports = s.ports := rfl
@[simp] theorem headLostAtSlots_freeCount (h : HeadNo) : (headLostAtSlots h s).freeCount = s.freeCount := rfl
@[simp] theorem headLostAtSlots_pending (h : HeadNo) : (headLostAtSlots h s).pending = s.pending := rfl

/-! ### `skipLine` -/

@[simp] theorem skipLine_pos : (skipLine s).pos = s.pos := rfl
@[simp] theorem skipLine_trk : (skipLine s).trk = s.trk := rfl
@[simp] theorem skipLine_links : (skipLine s).links = s.links := rfl
@[simp] theorem skipLine_asm : (skipLine s).asm = s.asm := rfl
@[simp] theorem skipLine_eng : (skipLine s).eng = s.eng := rfl
@[simp] theorem skipLine_list : (skipLine s).list = s.list := rfl
@[simp] theorem skipLine_mark : (skipLine s).mark = s.mark := rfl
@[simp] theorem skipLine_rcp : (skipLine s).rcp = s.rcp := rfl
@[simp] theorem skipLine_ports : (skipLine s).ports = s.ports := rfl
@[simp] theorem skipLine_freeCount : (skipLine s).freeCount = s.freeCount := rfl
@[simp] theorem skipLine_pending : (skipLine s).pending = s.pending := rfl

/-! ### `freeEdit` -/

@[simp] theorem freeEdit_pos : (freeEdit s).pos = s.pos := rfl
@[simp] theorem freeEdit_trig : (freeEdit s).trig = s.trig := rfl
@[simp] theorem freeEdit_trk : (freeEdit s).trk = s.trk := rfl
@[simp] theorem freeEdit_links : (freeEdit s).links = s.links := rfl
@[simp] theorem freeEdit_asm : (freeEdit s).asm = s.asm := rfl
@[simp] theorem freeEdit_eng : (freeEdit s).eng = s.eng := rfl
@[simp] theorem freeEdit_list : (freeEdit s).list = s.list := rfl
@[simp] theorem freeEdit_mark : (freeEdit s).mark = s.mark := rfl
@[simp] theorem freeEdit_rcp : (freeEdit s).rcp =
    { s.rcp with holder := none, staging := none, silenceMs := 0 } := rfl
@[simp] theorem freeEdit_ports : (freeEdit s).ports = s.ports := rfl
@[simp] theorem freeEdit_freeCount : (freeEdit s).freeCount = s.freeCount := rfl
@[simp] theorem freeEdit_pending : (freeEdit s).pending = s.pending := rfl

/-! ### `State.answering` -/

@[simp] theorem State.answering_pos (p : PortNo) (c t : Byte) (n : Nat) (l : List Byte) :
    (s.answering p c t n l).pos = s.pos := rfl
@[simp] theorem State.answering_trig (p : PortNo) (c t : Byte) (n : Nat) (l : List Byte) :
    (s.answering p c t n l).trig = s.trig := rfl
@[simp] theorem State.answering_trk (p : PortNo) (c t : Byte) (n : Nat) (l : List Byte) :
    (s.answering p c t n l).trk = s.trk := rfl
@[simp] theorem State.answering_links (p : PortNo) (c t : Byte) (n : Nat) (l : List Byte) :
    (s.answering p c t n l).links = s.links := rfl
@[simp] theorem State.answering_asm (p : PortNo) (c t : Byte) (n : Nat) (l : List Byte) :
    (s.answering p c t n l).asm = s.asm := rfl
@[simp] theorem State.answering_eng (p : PortNo) (c t : Byte) (n : Nat) (l : List Byte) :
    (s.answering p c t n l).eng = s.eng := rfl
@[simp] theorem State.answering_list (p : PortNo) (c t : Byte) (n : Nat) (l : List Byte) :
    (s.answering p c t n l).list = s.list := rfl
@[simp] theorem State.answering_mark (p : PortNo) (c t : Byte) (n : Nat) (l : List Byte) :
    (s.answering p c t n l).mark = s.mark := rfl
@[simp] theorem State.answering_rcp (p : PortNo) (c t : Byte) (n : Nat) (l : List Byte) :
    (s.answering p c t n l).rcp = s.rcp := rfl
@[simp] theorem State.answering_freeCount (p : PortNo) (c t : Byte) (n : Nat) (l : List Byte) :
    (s.answering p c t n l).freeCount = s.freeCount := rfl
@[simp] theorem State.answering_pending (p : PortNo) (c t : Byte) (n : Nat) (l : List Byte) :
    (s.answering p c t n l).pending = s.pending := rfl

end Sys2Proof.Machine
end

