-- ==== Sys2Proof/Laws/DefectList.lean ====
section
/-! SUPPORT. The defect list: what an append does to the list and to a port, and what any number of appends keeps. -/

namespace Sys2Proof.Machine

/-! ### The list -/

theorem push_eq (l : DefectList) (w : Nat) (b : RecordBody) :
    l.push w b =
      { records := (if 512 ≤ l.records.length then l.records.drop 1 else l.records) ++ [⟨l.next, w, b⟩]
        next := if l.next = 4294967295 then 1 else l.next + 1 } := rfl

theorem push_getLast (l : DefectList) (w : Nat) (b : RecordBody) :
    (l.push w b).records.getLast? = some ⟨l.next, w, b⟩ := by
  simp [push_eq]

theorem push_length (l : DefectList) (w : Nat) (b : RecordBody) (h : l.records.length ≤ 512) :
    (l.push w b).records.length ≤ 512 ∧ l.records.length ≤ (l.push w b).records.length := by
  rw [push_eq]; split <;> simp <;> omega

/-- A record that is not the oldest of a full list stays. -/
theorem mem_push (l : DefectList) (w : Nat) (b : RecordBody) (r : Record) :
    r ∈ (l.push w b).records ↔
      r ∈ (if 512 ≤ l.records.length then l.records.drop 1 else l.records) ∨ r = ⟨l.next, w, b⟩ := by
  simp [push_eq]

theorem firstSeq_append (rs : List Record) (x : Record) (next : Nat) :
    firstSeq (rs ++ [x]) next = firstSeq rs x.seq := by
  cases rs <;> rfl

theorem inSequence_next {rs : List Record} {next : Nat} (h : inSequence rs next) : 1 ≤ next ∧ next ≤ 4294967295 := by
  induction rs with
  | nil => exact h
  | cons r rs ih => exact ih h.2.2.2

/-- A record with the next sequence number continues a sequence. -/
theorem inSequence_append {rs : List Record} {next : Nat} (h : inSequence rs next) (w : Nat) (b : RecordBody) :
    inSequence (rs ++ [⟨next, w, b⟩]) (following next) := by
  induction rs with
  | nil =>
    obtain ⟨h1, h2⟩ := h
    exact ⟨h1, h2, by simp [firstSeq, following_eq], following_range h2⟩
  | cons r rs ih =>
    obtain ⟨h1, h2, h3, h4⟩ := h
    refine ⟨h1, h2, ?_, ih h4⟩
    show firstSeq (rs ++ [⟨next, w, b⟩]) _ = _
    rw [firstSeq_append]; exact h3

theorem inSequence_drop {rs : List Record} {next : Nat} (h : inSequence rs next) : inSequence (rs.drop 1) next := by
  cases rs with
  | nil => exact h
  | cons r rs => exact h.2.2.2

theorem inSequence_push {l : DefectList} (h : inSequence l.records l.next) (w : Nat) (b : RecordBody) :
    inSequence (l.push w b).records (l.push w b).next := by
  rw [push_eq]; split
  · exact inSequence_append (inSequence_drop h) w b
  · exact inSequence_append h w b

/-! ### Attention (R181, R182) -/

theorem CauseSet.has_put (s : CauseSet) (c d : Cause) (x : Bool) :
    (s.put c x).has d = if d = c then x else s.has d := by
  cases c <;> cases d <;> rfl

theorem CauseSet.has_inter (s t : CauseSet) (c : Cause) : (s.inter t).has c = (s.has c && t.has c) := by
  cases c <;> rfl

theorem CauseSet.highest_none {s : CauseSet} : s.highest = none ↔ ∀ c, s.has c = false := by
  refine ⟨fun h c => ?_, fun h => ?_⟩
  · obtain ⟨a, b, c', d⟩ := s
    cases a <;> cases b <;> cases c' <;> cases d <;> cases c <;> simp_all [CauseSet.highest, CauseSet.has]
  · have h1 := h .alert; have h2 := h .streak; have h3 := h .pinhole; have h4 := h .data
    simp_all [CauseSet.highest, CauseSet.has]

theorem CauseSet.highest_some {s : CauseSet} {c : Cause} :
    s.highest = some c ↔ s.has c = true ∧ ∀ d, s.has d = true → c.rank ≤ d.rank := by
  refine ⟨fun h => ?_, fun ⟨h, hd⟩ => ?_⟩
  · obtain ⟨a, b, c', d⟩ := s
    cases a <;> cases b <;> cases c' <;> cases d <;> simp_all [CauseSet.highest] <;> subst h <;>
      exact ⟨rfl, fun x => by cases x <;> decide⟩
  · have h1 := hd .alert; have h2 := hd .streak; have h3 := hd .pinhole; have h4 := hd .data
    obtain ⟨a, b, c', d⟩ := s
    cases a <;> cases b <;> cases c' <;> cases d <;> cases c <;>
      simp_all [CauseSet.highest, CauseSet.has, Cause.rank]

/-- ATNn's level: some pending cause ranks above every cause in service. -/
theorem attentionLevel_iff (causes service : CauseSet) :
    attentionLevel causes service = true ↔
      ∃ c, causes.has c = true ∧ ∀ d, service.has d = true → c.rank < d.rank := by
  unfold attentionLevel
  rcases hc : causes.highest with _ | c
  · have := CauseSet.highest_none.mp hc
    simp [this]
  · obtain ⟨hc1, hc2⟩ := CauseSet.highest_some.mp hc
    rcases hs : service.highest with _ | d
    · have := CauseSet.highest_none.mp hs
      simp only [true_iff]
      exact ⟨c, hc1, by simp [this]⟩
    · obtain ⟨hd1, hd2⟩ := CauseSet.highest_some.mp hs
      simp only [decide_eq_true_eq]
      refine ⟨fun h => ⟨c, hc1, fun x hx => lt_of_lt_of_le h (hd2 x hx)⟩, fun ⟨x, hx, h⟩ => ?_⟩
      exact lt_of_le_of_lt (hc2 x hx) (h d hd1)

/-! ### A port -/

/-- A raise touches the pending set and ATNn alone. -/
theorem raise_frame (x : Port) (c : Cause) :
    x.raise c = { x with causes := (x.raise c).causes, atn := (x.raise c).atn } :=
  rfl

theorem raise_causes (x : Port) (c d : Cause) :
    (x.raise c).causes.has d = (x.causes.has d || (decide (d = c) && x.enable.has c)) := by
  simp only [Port.raise]
  split
  · rename_i h; rw [CauseSet.has_put]; split <;> simp_all
  · rename_i h; simp_all

theorem raise_attentionOk {x : Port} (h : x.attentionOk) (c : Cause) : (x.raise c).attentionOk := by
  refine ⟨attentionLevel_iff _ _, fun d hd => ?_⟩
  rw [raise_causes] at hd
  show x.enable.has d = true
  rcases Bool.or_eq_true _ _ ▸ hd with hd | hd
  · exact h.2 d hd
  · simp only [Bool.and_eq_true, decide_eq_true_eq] at hd; rw [hd.1]; exact hd.2

/-- Nothing of a port but its cursor, skipped count, pending set and ATNn follows an append. -/
theorem onAppend_frame (old new : DefectList) (b : RecordBody) (x : Port) :
    Port.onAppend old new b x =
      { x with
        cursor := (Port.onAppend old new b x).cursor, skipped := (Port.onAppend old new b x).skipped
        causes := (Port.onAppend old new b x).causes, atn := (Port.onAppend old new b x).atn } := by
  obtain ⟨⟩ := x
  simp only [Port.onAppend, Port.reportKind, Port.onDrop, Port.raise]
  rcases old.dropped with _ | r <;> rcases b.cause with _ | c <;> simp only <;> split_ifs <;> rfl

@[simp] theorem onAppend_rx (old new : DefectList) (b : RecordBody) (x : Port) :
    (Port.onAppend old new b x).rx = x.rx := by rw [onAppend_frame]

@[simp] theorem onAppend_response (old new : DefectList) (b : RecordBody) (x : Port) :
    (Port.onAppend old new b x).response = x.response := by rw [onAppend_frame]

@[simp] theorem onAppend_held (old new : DefectList) (b : RecordBody) (x : Port) :
    (Port.onAppend old new b x).held = x.held := by rw [onAppend_frame]

theorem onDrop_attentionOk {x : Port} (h : x.attentionOk) (o : Option Record) : (x.onDrop o).attentionOk := by
  cases o with
  | none => exact h
  | some r =>
    simp only [Port.onDrop]
    split
    · exact h
    · exact h

theorem onAppend_attentionOk {x : Port} (h : x.attentionOk) (old new : DefectList) (b : RecordBody) :
    (Port.onAppend old new b x).attentionOk := by
  have h1 : ((x.onDrop old.dropped).reportKind b).attentionOk := by
    simp only [Port.reportKind]
    split
    · split
      · exact raise_attentionOk (onDrop_attentionOk h _) _
      · exact onDrop_attentionOk h _
    · exact onDrop_attentionOk h _
  simp only [Port.onAppend]
  split
  · exact raise_attentionOk h1 _
  · exact h1

theorem raise_cursor (x : Port) (c : Cause) : (x.raise c).cursor = x.cursor := rfl

theorem reportKind_cursor (x : Port) (b : RecordBody) : (x.reportKind b).cursor = x.cursor := by
  simp only [Port.reportKind]; split
  · split <;> rfl
  · rfl

/-- The cursor moves on only from the record that is dropped (R142). -/
theorem onAppend_cursor (old new : DefectList) (b : RecordBody) (x : Port) :
    (Port.onAppend old new b x).cursor =
      match old.dropped with
      | none => x.cursor
      | some r => if x.cursor = r.seq then following r.seq else x.cursor := by
  have h : (Port.onAppend old new b x).cursor = (x.onDrop old.dropped).cursor := by
    simp only [Port.onAppend]
    split
    · rw [raise_cursor, reportKind_cursor]
    · rw [reportKind_cursor]
  rw [h]
  rcases old.dropped with _ | r
  · rfl
  · simp only [Port.onDrop]; split <;> rfl

/-! ### The condition of the list (R141, R143) -/

/-- The cursor stands on a retained record or on the next sequence number. -/
def cursorOk (l : DefectList) (c : Nat) : Prop := c = l.next ∨ ∃ r ∈ l.records, r.seq = c

theorem cursorOk_push {l : DefectList} (h : inSequence l.records l.next) (w : Nat) (b : RecordBody) {c : Nat}
    (hc : cursorOk l c) :
    cursorOk (l.push w b)
      (match l.dropped with
        | none => c
        | some r => if c = r.seq then following r.seq else c) := by
  obtain ⟨records, next⟩ := l
  simp only [DefectList.dropped, listCapacity, push_eq, cursorOk] at *
  by_cases hf : 512 ≤ records.length
  · simp only [hf, if_true]
    cases records with
    | nil => simp at hf
    | cons r rs =>
      obtain ⟨-, -, h3, -⟩ := h
      simp only [List.head?_cons, List.drop_one, List.tail_cons]
      by_cases hr : c = r.seq
      · rw [if_pos hr, following_eq, ← h3]
        right
        cases rs with
        | nil => exact ⟨⟨next, w, b⟩, by simp, rfl⟩
        | cons q qs => exact ⟨q, by simp, rfl⟩
      · rw [if_neg hr]
        right
        rcases hc with hc | ⟨q, hq, hqc⟩
        · exact ⟨⟨next, w, b⟩, by simp, hc.symm⟩
        · rcases List.mem_cons.mp hq with rfl | hq
          · exact absurd hqc.symm hr
          · exact ⟨q, by simp [hq], hqc⟩
  · simp only [hf, if_false]
    right
    rcases hc with hc | ⟨q, hq, hqc⟩
    · exact ⟨⟨next, w, b⟩, by simp, hc.symm⟩
    · exact ⟨q, by simp [hq], hqc⟩

theorem append_listOk {s : State} (h : s.listOk) (w : Nat) (b : RecordBody) : (append w b s).listOk := by
  obtain ⟨h1, h2, h3⟩ := h
  refine ⟨(push_length _ w b h1).1, inSequence_push h2 w b, fun p => ?_⟩
  rw [append_ports, Triple.get_map, onAppend_cursor]
  exact cursorOk_push h2 w b (h3 p)

theorem append_attentionOk {s : State} (h : s.attentionOk) (w : Nat) (b : RecordBody) :
    (append w b s).attentionOk := by
  intro p
  rw [append_ports, Triple.get_map]
  exact onAppend_attentionOk (h p) _ _ _

/-! ### Any number of appends -/

/-- The list and the ports of `t` come from those of `s` by appends alone. -/
inductive Appends : State → State → Prop
  | same {s t : State} (hl : t.list = s.list) (hp : t.ports = s.ports) : Appends s t
  | more {s u t : State} (w : Nat) (b : RecordBody) (h : Appends s u) (hl : t.list = (append w b u).list)
      (hp : t.ports = (append w b u).ports) : Appends s t

theorem Appends.trans {s t u : State} (h : Appends s t) (k : Appends t u) : Appends s u := by
  induction k with
  | same hl hp =>
    cases h with
    | same hl' hp' => exact .same (hl.trans hl') (hp.trans hp')
    | more w b h' hl' hp' => exact .more w b h' (hl.trans hl') (hp.trans hp')
  | more w b _ hl hp ih => exact .more w b ih hl hp

theorem Appends.rfl' (s : State) : Appends s s := .same rfl rfl

theorem Appends.one (w : Nat) (b : RecordBody) (s : State) : Appends s (append w b s) :=
  .more w b (.rfl' s) rfl rfl

theorem Appends.event (c : EventCode) (n : Nat) (s : State) : Appends s (appendEvent c n s) := .one _ _ _

/-- A fold of appending works only appends. -/
theorem Appends.foldl {α : Type} {f : State → α → State} (h : ∀ s a, Appends s (f s a)) (as : List α) :
    ∀ s, Appends s (as.foldl f s) := by
  induction as with
  | nil => exact fun s => .rfl' s
  | cons a as ih => exact fun s => (h s a).trans (ih _)

/-- The list's condition reads the list and the ports alone. -/
theorem listOk_congr {s t : State} (hl : t.list = s.list) (hp : t.ports = s.ports) (h : s.listOk) : t.listOk := by
  rw [State.listOk, hl, hp]; exact h

theorem attentionOk_congr {s t : State} (hp : t.ports = s.ports) (h : s.attentionOk) : t.attentionOk := by
  rw [State.attentionOk, hp]; exact h

theorem Appends.listOk {s t : State} (h : Appends s t) (hs : s.listOk) : t.listOk := by
  induction h with
  | same hl hp => exact listOk_congr hl hp hs
  | more w b _ hl hp ih => exact listOk_congr hl hp (append_listOk ih w b)

theorem Appends.attentionOk {s t : State} (h : Appends s t) (hs : s.attentionOk) : t.attentionOk := by
  induction h with
  | same _ hp => exact attentionOk_congr hp hs
  | more w b _ _ hp ih => exact attentionOk_congr hp (append_attentionOk ih w b)

/-- Appends leave what a port has received, holds, answers and counts. -/
theorem Appends.port {s t : State} (h : Appends s t) (p : PortNo) :
    t.ports.get p = { s.ports.get p with
      cursor := (t.ports.get p).cursor, skipped := (t.ports.get p).skipped
      causes := (t.ports.get p).causes, atn := (t.ports.get p).atn } := by
  induction h with
  | same _ hp => rw [hp]
  | more w b _ _ hp ih => rw [hp, append_ports, Triple.get_map, onAppend_frame, ih]

end Sys2Proof.Machine
end

