-- ==== Sys2Proof/Laws/Marks.lean ====
section
/-! SUPPORT. The marker scheduler: what inserting, settling, folding and entering an action do. -/

namespace Sys2Proof.Machine

/-- The condition of the mark queue and the outputs at a position (R152, R156). -/
def Scheduler.holdsAt (k : Scheduler) (w : Nat) : Prop :=
  k.queue.length ≤ 32 ∧ k.queue.Pairwise MarkEntry.before ∧ (∀ e ∈ k.queue, w < e.stop) ∧
    (k.mk0 = true ↔ ∃ e ∈ k.queue, e.marker = .mk0 ∧ e.covers w) ∧
    (k.mk1 = true ↔ ∃ e ∈ k.queue, e.marker = .mk1 ∧ e.covers w)

theorem marksOk_iff (s : State) : s.marksOk ↔ s.mark.holdsAt s.pos.w := Iff.rfl

/-! ### The queue's order (R152) -/

theorem before_trans {a b c : MarkEntry} (h : a.before b) (k : b.before c) : a.before c := by
  rcases h with h | ⟨h1, h2⟩ <;> rcases k with k | ⟨k1, k2⟩
  · exact .inl (by omega)
  · exact .inl (by omega)
  · exact .inl (by omega)
  · exact .inr ⟨by omega, by omega⟩

theorem insertMark_perm (x : MarkEntry) (q : List MarkEntry) : (insertMark x q).Perm (x :: q) := by
  induction q with
  | nil => exact .refl _
  | cons e es ih =>
    simp only [insertMark]; split
    · exact .refl _
    · exact (ih.cons e).trans (.swap x e es)

theorem insertMark_length (x : MarkEntry) (q : List MarkEntry) : (insertMark x q).length = q.length + 1 :=
  (insertMark_perm x q).length_eq

theorem insertMark_sorted (x : MarkEntry) {q : List MarkEntry} (h : q.Pairwise MarkEntry.before) :
    (insertMark x q).Pairwise MarkEntry.before := by
  induction q with
  | nil => exact List.pairwise_singleton _ _
  | cons e es ih =>
    have ⟨he, hes⟩ := List.pairwise_cons.mp h
    simp only [insertMark]; split
    · rename_i hx
      have hxe : x.before e := by rcases hx with hx | ⟨hx1, hx2⟩; exacts [.inl hx, .inr ⟨hx1, by omega⟩]
      refine List.pairwise_cons.mpr ⟨fun f hf => ?_, h⟩
      rcases List.mem_cons.mp hf with rfl | hf
      exacts [hxe, before_trans hxe (he f hf)]
    · rename_i hx
      have hex : e.before x := by
        unfold MarkEntry.before; omega
      refine List.pairwise_cons.mpr ⟨fun f hf => ?_, ih hes⟩
      rcases List.mem_cons.mp ((insertMark_perm x es).mem_iff.mp hf) with rfl | hf
      exacts [hex, he f hf]

/-! ### Settling (R155, R156) -/

theorem markActive_iff (m : Marker) (w : Nat) (q : List MarkEntry) :
    markActive m w q = true ↔ ∃ e ∈ q, e.marker = m ∧ e.covers w := by
  simp [markActive, MarkEntry.covers, and_assoc]

theorem markActive_eq (m : Marker) (w : Nat) (q : List MarkEntry) :
    markActive m w q = q.any fun e => decide (e.marker = m ∧ e.covers w) := by
  rw [Bool.eq_iff_iff, markActive_iff]; simp

/-- Settling touches the queue, the latch and the outputs alone. -/
theorem settle_frame (k : Scheduler) (w : Nat) :
    k.settle w = { k with
      queue := k.queue.filter (fun e => decide (w < e.stop)), latch := (k.settle w).latch
      mk0 := (k.settle w).mk0, mk1 := (k.settle w).mk1 } := rfl

theorem settle_latch (k : Scheduler) (w : Nat) :
    (k.settle w).latch = (k.latch && k.queue.all fun e => decide (w < e.stop)) := by
  simp only [Scheduler.settle]
  by_cases h : k.queue.all (fun e => decide (w < e.stop)) = true
  · rw [List.filter_eq_self.mpr (fun a ha => List.all_eq_true.mp h a ha)]; simp [h]
  · have hlt : (k.queue.filter fun e => decide (w < e.stop)).length < k.queue.length := by
      refine lt_of_le_of_ne (List.length_filter_le _ _) fun he => h ?_
      rw [List.length_filter_eq_length_iff] at he
      exact List.all_eq_true.mpr he
    simp [hlt, h]

/-- Among the entries that have not ended, those that hold W are those of the whole queue that hold it. -/
theorem markActive_filter (m : Marker) (w : Nat) (q : List MarkEntry) :
    markActive m w (q.filter fun e => decide (w < e.stop)) = markActive m w q := by
  rw [Bool.eq_iff_iff, markActive_iff, markActive_iff]
  refine ⟨fun ⟨e, he, h⟩ => ⟨e, (List.mem_filter.mp he).1, h⟩, fun ⟨e, he, h1, h2⟩ => ⟨e, ?_, h1, h2⟩⟩
  exact List.mem_filter.mpr ⟨he, by simpa using h2.2⟩

/-- Settling: the entries that have ended leave, one that leaves clears the latch, and the outputs follow. -/
theorem settle_eq (k : Scheduler) (w : Nat) :
    k.settle w = { k with
      queue := k.queue.filter fun e => decide (w < e.stop)
      latch := k.latch && k.queue.all fun e => decide (w < e.stop)
      mk0 := k.queue.any fun e => decide (e.marker = .mk0 ∧ e.covers w)
      mk1 := k.queue.any fun e => decide (e.marker = .mk1 ∧ e.covers w) } := by
  rw [settle_frame, settle_latch, ← markActive_eq, ← markActive_eq, ← markActive_filter, ← markActive_filter .mk1]
  rfl

/-- When no entry has ended, settling only sets the outputs. -/
theorem settle_of_live {k : Scheduler} {w : Nat} (h : ∀ e ∈ k.queue, w < e.stop) :
    k.settle w = { k with mk0 := markActive .mk0 w k.queue, mk1 := markActive .mk1 w k.queue } := by
  have hf : k.queue.filter (fun e => decide (w < e.stop)) = k.queue :=
    List.filter_eq_self.mpr fun e he => by simpa using h e he
  simp [Scheduler.settle, hf]

theorem settle_holdsAt {k : Scheduler} (w : Nat) (hl : k.queue.length ≤ 32) (hq : k.queue.Pairwise MarkEntry.before) :
    (k.settle w).holdsAt w := by
  refine ⟨(List.length_filter_le _ _).trans hl, hq.filter _, fun e he => ?_, markActive_iff _ _ _,
    markActive_iff _ _ _⟩
  have := (List.mem_filter.mp he).2
  simpa using this

/-! ### Merging (R154) -/

theorem lowestRank_none {q : List MarkEntry} : lowestRank q = none ↔ q = [] := by
  cases q with
  | nil => simp [lowestRank]
  | cons e es =>
    simp only [lowestRank]
    split
    · simp
    · split <;> simp

theorem lowestRank_some {q : List MarkEntry} {e : MarkEntry} (h : lowestRank q = some e) :
    e ∈ q ∧ ∀ f ∈ q, e.rank ≤ f.rank := by
  induction q generalizing e with
  | nil => simp [lowestRank] at h
  | cons x xs ih =>
    simp only [lowestRank] at h
    split at h
    · rename_i hn
      rw [lowestRank_none.mp hn]
      simp at h; subst h; simp
    · rename_i f hf
      obtain ⟨hm, hr⟩ := ih hf
      split at h
      · rename_i hlt
        simp at h; subst h
        refine ⟨List.mem_cons_of_mem _ hm, fun g hg => ?_⟩
        rcases List.mem_cons.mp hg with rfl | hg
        exacts [by omega, hr g hg]
      · rename_i hlt
        simp at h; subst h
        refine ⟨List.mem_cons_self .., fun g hg => ?_⟩
        rcases List.mem_cons.mp hg with rfl | hg
        exacts [le_rfl, le_trans (by omega) (hr g hg)]

/-- The lowest start is a bound that is attained. -/
theorem lowestStart_spec (lo : Nat) (es : List MarkEntry) :
    lowestStart lo es ≤ lo ∧ (∀ e ∈ es, lowestStart lo es ≤ e.start) ∧
      (lowestStart lo es = lo ∨ ∃ e ∈ es, e.start = lowestStart lo es) := by
  induction es generalizing lo with
  | nil => exact ⟨le_rfl, by simp, .inl rfl⟩
  | cons x xs ih =>
    obtain ⟨h1, h2, h3⟩ := ih (min lo x.start)
    have e : lowestStart lo (x :: xs) = lowestStart (min lo x.start) xs := rfl
    rw [e]
    refine ⟨h1.trans (min_le_left _ _), List.forall_mem_cons.mpr ⟨h1.trans (min_le_right _ _), h2⟩, ?_⟩
    rcases h3 with h3 | ⟨y, hy, h3⟩
    · rcases min_choice lo x.start with h | h
      · exact .inl (h3.trans h)
      · exact .inr ⟨x, List.mem_cons_self .., (h3.trans h).symm⟩
    · exact .inr ⟨y, List.mem_cons_of_mem _ hy, h3⟩

/-- The highest end is a bound that is attained. -/
theorem highestStop_spec (hi : Nat) (es : List MarkEntry) :
    hi ≤ highestStop hi es ∧ (∀ e ∈ es, e.stop ≤ highestStop hi es) ∧
      (highestStop hi es = hi ∨ ∃ e ∈ es, e.stop = highestStop hi es) := by
  induction es generalizing hi with
  | nil => exact ⟨le_rfl, by simp, .inl rfl⟩
  | cons x xs ih =>
    obtain ⟨h1, h2, h3⟩ := ih (max hi x.stop)
    have e : highestStop hi (x :: xs) = highestStop (max hi x.stop) xs := rfl
    rw [e]
    refine ⟨(le_max_left _ _).trans h1, List.forall_mem_cons.mpr ⟨(le_max_right _ _).trans h1, h2⟩, ?_⟩
    rcases h3 with h3 | ⟨y, hy, h3⟩
    · rcases max_choice hi x.stop with h | h
      · exact .inl (h3.trans h)
      · exact .inr ⟨x, List.mem_cons_self .., (h3.trans h).symm⟩
    · exact .inr ⟨y, List.mem_cons_of_mem _ hy, h3⟩

/-- When an entry collides with an interval (R154). -/
theorem MarkEntry.hit_iff (e : MarkEntry) (m : Marker) (spacing lo hi : Nat) :
    e.hit m spacing lo hi = true ↔
      e.marker = m ∧ (lo ≤ e.start ∧ e.start < hi + spacing ∨ e.start < lo ∧ lo < e.stop + spacing) := by
  simp only [MarkEntry.hit, intervalsCollide, Bool.and_eq_true, beq_iff_eq]
  refine and_congr Iff.rfl ?_
  split <;> simp only [decide_eq_true_eq] <;> omega

/-- What collides with an interval collides with every larger one. -/
theorem MarkEntry.hit_mono {e : MarkEntry} {m : Marker} {spacing lo hi c d : Nat} (hl : lo ≤ hi) (hc : c ≤ lo)
    (hd : hi ≤ d) (h : e.hit m spacing lo hi = true) : e.hit m spacing c d = true := by
  rw [MarkEntry.hit_iff] at h ⊢
  exact ⟨h.1, by omega⟩

/-- Folding (R154): the entries that leave and those that are left make up the queue; those that leave are of the
marker, lie in the interval it ends with and hold all that it began by hitting; those that are left are not hit by that
interval, which is the least that holds its own start and whatever of the queue it hits. -/
theorem foldColliding_spec (m : Marker) (spacing : Nat) : ∀ (fuel lo hi : Nat) (q : List MarkEntry),
    lo ≤ hi → q.length ≤ fuel → ∃ lo' hi' gone rest, foldColliding m spacing fuel lo hi q = (lo', hi', rest) ∧
      q.Perm (gone ++ rest) ∧ rest.Sublist q ∧ (∀ e ∈ gone, e.marker = m ∧ lo' ≤ e.start ∧ e.stop ≤ hi') ∧
      (∀ e ∈ rest, e.hit m spacing lo' hi' = false) ∧ (∀ e ∈ q, e.hit m spacing lo hi = true → e ∈ gone) ∧
      lo' ≤ lo ∧ hi ≤ hi' ∧ (lo' = lo ∨ ∃ e ∈ gone, e.start = lo') ∧ (hi' = hi ∨ ∃ e ∈ gone, e.stop = hi') ∧
      ∀ c d, c ≤ lo → hi ≤ d → (∀ e ∈ q, e.hit m spacing c d = true → c ≤ e.start ∧ e.stop ≤ d) → c ≤ lo' ∧ hi' ≤ d
  | 0, lo, hi, q, _, h => by
    have hq : q = [] := List.length_eq_zero_iff.mp (by omega)
    subst hq
    exact ⟨lo, hi, [], [], rfl, .refl _, .refl _, by simp, by simp, by simp, le_rfl, le_rfl, .inl rfl, .inl rfl,
      fun c d h1 h2 _ => ⟨h1, h2⟩⟩
  | fuel + 1, lo, hi, q, hl, h => by
    simp only [foldColliding]
    split
    · rename_i hn
      rw [List.isEmpty_iff, List.filter_eq_nil_iff] at hn
      exact ⟨lo, hi, [], q, rfl, .refl _, .refl _, by simp, fun e he => by simpa using hn e he,
        fun e he hh => absurd hh (by simpa using hn e he), le_rfl, le_rfl, .inl rfl, .inl rfl,
        fun c d h1 h2 _ => ⟨h1, h2⟩⟩
    · rename_i hn
      have hlt : (q.filter fun e => !e.hit m spacing lo hi).length < q.length := by
        refine lt_of_le_of_ne (List.length_filter_le _ _) fun he => hn ?_
        rw [List.length_filter_eq_length_iff] at he
        rw [List.isEmpty_iff, List.filter_eq_nil_iff]
        intro a ha; simpa using he a ha
      obtain ⟨s1, s2, s3⟩ := lowestStart_spec lo (q.filter fun e => e.hit m spacing lo hi)
      obtain ⟨t1, t2, t3⟩ := highestStop_spec hi (q.filter fun e => e.hit m spacing lo hi)
      obtain ⟨lo', hi', gone, rest, h1, h2, h3, h4, h5, h6, h7, h8, h9, h10, h11⟩ := foldColliding_spec m spacing fuel
        (lowestStart lo (q.filter fun e => e.hit m spacing lo hi))
        (highestStop hi (q.filter fun e => e.hit m spacing lo hi)) (q.filter fun e => !e.hit m spacing lo hi)
        (by omega) (by omega)
      refine ⟨lo', hi', (q.filter fun e => e.hit m spacing lo hi) ++ gone, rest, h1, ?_,
        h3.trans List.filter_sublist, ?_, h5, fun e he hh => List.mem_append_left _ (List.mem_filter.mpr ⟨he, hh⟩),
        h7.trans s1, t1.trans h8, ?_, ?_, fun c d hc hd hq => ?_⟩
      · rw [List.append_assoc]
        exact (List.filter_append_perm (fun e => e.hit m spacing lo hi) q).symm.trans (h2.append_left _)
      · intro e he
        rcases List.mem_append.mp he with he | he
        · exact ⟨((e.hit_iff m spacing lo hi).mp (List.mem_filter.mp he).2).1, h7.trans (s2 e he),
            (t2 e he).trans h8⟩
        · exact h4 e he
      · rcases h9 with h9 | ⟨e, he, h9⟩
        · rw [h9]
          exact s3.imp_right fun ⟨e, he, hs⟩ => ⟨e, List.mem_append_left _ he, hs⟩
        · exact .inr ⟨e, List.mem_append_right _ he, h9⟩
      · rcases h10 with h10 | ⟨e, he, h10⟩
        · rw [h10]
          exact t3.imp_right fun ⟨e, he, hs⟩ => ⟨e, List.mem_append_left _ he, hs⟩
        · exact .inr ⟨e, List.mem_append_right _ he, h10⟩
      · have hin : ∀ e ∈ q.filter fun e => e.hit m spacing lo hi, c ≤ e.start ∧ e.stop ≤ d := fun e he =>
          hq e (List.mem_filter.mp he).1 (MarkEntry.hit_mono hl hc hd (List.mem_filter.mp he).2)
        refine h11 c d ?_ ?_ fun e he => hq e (List.mem_filter.mp he).1
        · rcases s3 with s3 | ⟨e, he, s3⟩
          · exact s3.symm ▸ hc
          · exact s3 ▸ (hin e he).1
        · rcases t3 with t3 | ⟨e, he, t3⟩
          · exact t3.symm ▸ hd
          · exact t3 ▸ (hin e he).2

/-! ### Entering an action (R153 to R156) -/

/-- What entering an action leaves of the scheduler: the queue in order within its capacity, the outputs on the
queue, the late and discard counts as they were. -/
theorem enter_holdsAt {k : Scheduler} (w : Nat) (m : Marker) (start width spacing : Nat)
    (hl : k.queue.length ≤ 32) (hq : k.queue.Pairwise MarkEntry.before) :
    (k.enter w m start width spacing).1.holdsAt w := by
  simp only [Scheduler.enter]
  split
  · rename_i e he
    obtain ⟨hm, -⟩ := lowestRank_some he
    obtain ⟨hm1, hm2⟩ := List.mem_filter.mp hm
    obtain ⟨lo', hi', gone, rest, h1, h3, h2, -, -, h4, -⟩ := foldColliding_spec m spacing k.queue.length
      (dueStart w start) (dueStart w start + width) k.queue (Nat.le_add_right _ _) le_rfl
    rw [h1]
    have := List.length_pos_of_mem (h4 e hm1 hm2)
    have := h3.length_eq
    rw [List.length_append] at this
    refine settle_holdsAt w ?_ ?_
    · simp only [insertMark_length]; omega
    · exact insertMark_sorted _ (hq.sublist h2)
  · split
    · rename_i hcap
      simp only [markCapacity] at hcap
      exact settle_holdsAt w (by simp only [insertMark_length]; omega) (insertMark_sorted _ hq)
    · exact settle_holdsAt w hl hq

/-- The scheduler's counters move up alone, and the discard and late counts stay, when an action is entered. -/
theorem enter_counts (k : Scheduler) (w : Nat) (m : Marker) (start width spacing : Nat) :
    (k.enter w m start width spacing).1.late = k.late ∧
      (k.enter w m start width spacing).1.discarded = k.discarded ∧
      ((k.enter w m start width spacing).1.merges = k.merges ∨
        ∃ n, (k.enter w m start width spacing).1.merges = bumpBy k.merges n) ∧
      ((k.enter w m start width spacing).1.dropped = k.dropped ∨
        (k.enter w m start width spacing).1.dropped = bump k.dropped) := by
  simp only [Scheduler.enter]
  split
  · refine ⟨rfl, rfl, .inr ⟨_, rfl⟩, .inl rfl⟩
  · split
    · exact ⟨rfl, rfl, .inl rfl, .inl rfl⟩
    · exact ⟨rfl, rfl, .inl rfl, .inr rfl⟩

/-- When an action is due (R153), and when it is counted as dropped (R155). -/
theorem enter_due (k : Scheduler) (w : Nat) (m : Marker) (start width spacing : Nat) :
    (k.enter w m start width spacing).2.due = decide (start ≤ w) ∧
      ((k.enter w m start width spacing).2.outcome ≠ .dropped ∧
          (k.enter w m start width spacing).1.dropped = k.dropped ∨
        (k.enter w m start width spacing).2.outcome = .dropped ∧
          (k.enter w m start width spacing).1.dropped = bump k.dropped) := by
  simp only [Scheduler.enter]
  split
  · exact ⟨rfl, .inl ⟨nofun, rfl⟩⟩
  · split
    · exact ⟨rfl, .inl ⟨nofun, rfl⟩⟩
    · exact ⟨rfl, .inr ⟨rfl, rfl⟩⟩

/-- The late count after an action. -/
def lateAfter (r : MarkResult) (patch late : Nat) : Nat := if r.isLate patch then bump late else late

/-- Entering an action in the machine: the scheduler's own work, the late count, and MARK_QUEUE_FULL when it is
dropped with the latch clear. -/
theorem enterAction_eq (m : Marker) (start width spacing patch : Nat) (s : State) :
    enterAction m start width spacing patch s =
      (let r := s.mark.enter s.pos.w m start width spacing
       let u : State := { s with mark := { r.1 with late := lateAfter r.2 patch r.1.late } }
       (if r.2.outcome = .dropped ∧ s.mark.latch = false then appendEvent .markQueueFull m.num u else u, r.2)) :=
  rfl

/-- Entering an action reaches the scheduler, the list and the ports alone. -/
theorem enterAction_frame (m : Marker) (start width spacing patch : Nat) (s : State) :
    (enterAction m start width spacing patch s).1 =
      { s with
        mark := (enterAction m start width spacing patch s).1.mark
        list := (enterAction m start width spacing patch s).1.list
        ports := (enterAction m start width spacing patch s).1.ports } := by
  rw [enterAction_eq]; dsimp only; split <;> rfl

theorem enterAction_mark (m : Marker) (start width spacing patch : Nat) (s : State) :
    (enterAction m start width spacing patch s).1.mark =
      { (s.mark.enter s.pos.w m start width spacing).1 with
        late := lateAfter (s.mark.enter s.pos.w m start width spacing).2 patch
          (s.mark.enter s.pos.w m start width spacing).1.late } := by
  rw [enterAction_eq]; dsimp only; split <;> rfl

theorem enterAction_appends (m : Marker) (start width spacing patch : Nat) (s : State) :
    Appends s (enterAction m start width spacing patch s).1 := by
  rw [enterAction_eq]; dsimp only; split
  · exact .more _ _ (.same rfl rfl) rfl rfl
  · exact .same rfl rfl

theorem enterAction_marksOk {s : State} (h : s.marksOk) (m : Marker) (start width spacing patch : Nat) :
    (enterAction m start width spacing patch s).1.marksOk := by
  have hw : (enterAction m start width spacing patch s).1.pos = s.pos := by rw [enterAction_frame]
  rw [marksOk_iff, enterAction_mark, hw]
  exact enter_holdsAt s.pos.w m start width spacing h.1 h.2.1

/-- An action of the engine reaches the scheduler, the engine's contributions, the list and the ports alone. -/
theorem handAction_frame (m : Marker) (f : MarkerFields) (r patch : Nat) (s : State) :
    handAction m f r patch s =
      { s with
        mark := (enterAction m (r + f.offset) f.width f.spacing patch s).1.mark
        list := (enterAction m (r + f.offset) f.width f.spacing patch s).1.list
        ports := (enterAction m (r + f.offset) f.width f.spacing patch s).1.ports
        eng := { s.eng with contribs := (handAction m f r patch s).eng.contribs } } := by
  simp only [handAction]
  rw [enterAction_eq]; dsimp only; split <;> split <;> rfl

theorem handAction_appends (m : Marker) (f : MarkerFields) (r patch : Nat) (s : State) :
    Appends s (handAction m f r patch s) := by
  refine (enterAction_appends m (r + f.offset) f.width f.spacing patch s).trans ?_
  rw [handAction_frame]; exact .same rfl rfl

theorem handAction_marksOk {s : State} (h : s.marksOk) (m : Marker) (f : MarkerFields) (r patch : Nat) :
    (handAction m f r patch s).marksOk := by
  have := enterAction_marksOk h m (r + f.offset) f.width f.spacing patch
  rw [marksOk_iff] at this ⊢
  rw [handAction_frame]
  rwa [enterAction_frame] at this

end Sys2Proof.Machine
end

