-- ==== Sys2Proof/Laws/Ops.lean ====
section
/-! SUPPORT. The shared operations on slots, copies, stops, the tracker and the line trigger: what each can reach. -/

namespace Sys2Proof.Machine

/-! ### What the work at a count or a mark edge can reach -/

/-- `t` comes from `s` by work of the trigger generator, the tracker, the assembler's openings and frees, the swap of
copies and the start of a stop: the list and the ports change by appends; the position, the links, the engine, the
marker scheduler, the waiting commands and the edit right stay. -/
structure WebWork (s t : State) : Prop where
  appends : Appends s t
  pos : t.pos = s.pos
  links : t.links = s.links
  eng : t.eng = s.eng
  mark : t.mark = s.mark
  pending : t.pending = s.pending
  holder : t.rcp.holder = s.rcp.holder
  staging : t.rcp.staging = s.rcp.staging
  silence : t.rcp.silenceMs = s.rcp.silenceMs

theorem WebWork.same (s : State) : WebWork s s := ⟨.rfl' s, rfl, rfl, rfl, rfl, rfl, rfl, rfl, rfl⟩

theorem WebWork.trans {s t u : State} (h : WebWork s t) (k : WebWork t u) : WebWork s u :=
  ⟨h.appends.trans k.appends, k.pos.trans h.pos, k.links.trans h.links, k.eng.trans h.eng, k.mark.trans h.mark,
    k.pending.trans h.pending, k.holder.trans h.holder, k.staging.trans h.staging, k.silence.trans h.silence⟩

theorem WebWork.append (w : Nat) (b : RecordBody) (s : State) : WebWork s (append w b s) :=
  ⟨.one w b s, rfl, rfl, rfl, rfl, rfl, rfl, rfl, rfl⟩

theorem WebWork.event (c : EventCode) (n : Nat) (s : State) : WebWork s (appendEvent c n s) := .append _ _ s

/-- A change of the trigger generator, the tracker, the assembler and the copies alone. -/
theorem WebWork.plain (s : State) (g : TriggerGenerator) (k : Tracker) (a : Assembler) (run : RunState)
    (active : Recipe) (pending : Option PendingCopy) (retiring : Option Recipe) (stopBy n : Nat) :
    WebWork s { s with
      trig := g, trk := k, asm := a, freeCount := n
      rcp := { s.rcp with
        run := run, active := active, pending := pending, retiring := retiring, stopBy := stopBy } } :=
  ⟨.same rfl rfl, rfl, rfl, rfl, rfl, rfl, rfl, rfl, rfl⟩

theorem discardRetiring_eq (s : State) :
    discardRetiring s = { s with
      rcp := { s.rcp with retiring := if s.references .retiring = 0 then none else s.rcp.retiring } } := by
  unfold discardRetiring; split <;> rfl

theorem discardRetiring_web (s : State) : WebWork s (discardRetiring s) := by
  rw [discardRetiring_eq]; exact .plain s _ _ _ _ _ _ _ _ _

/-- A slot made FREE (R62, R169): the slot, and the retiring copy when no slot refers to it any more. -/
theorem freeSlot_eq (i : Fin 4) (s : State) :
    freeSlot i s = { s with
      asm := { s.asm with slots := s.asm.slots.set i (s.asm.slots.get i).freed }
      rcp := { s.rcp with
        retiring := if (s.asm.slots.set i (s.asm.slots.get i).freed).toList.countP (fun x => x.copy == .retiring) = 0
          then none else s.rcp.retiring } } := by
  rw [freeSlot, discardRetiring_eq]; rfl

theorem forceSlots_web (s : State) : WebWork s (forceSlots s) := .plain s _ _ _ _ _ _ _ _ _

theorem reportSkipped_web (w : Nat) (s : State) : WebWork s (reportSkipped w s) := by
  unfold reportSkipped; split
  · exact (WebWork.append w _ s).trans (.plain _ _ _ _ _ _ _ _ _ _)
  · exact .same s

/-- The report of skipped lines: the count is cleared, and a count above 0 is appended. -/
theorem reportSkipped_eq (w : Nat) (s : State) :
    reportSkipped w s =
      { (if s.trig.skipped = 0 then s else append w (.event .linesSkipped s.trig.skipped) s) with
        trig := { s.trig with skipped := 0 } } := by
  obtain ⟨pos, ⟨a, b, c, skipped, d, e⟩, _⟩ := s
  unfold reportSkipped
  rcases Nat.eq_zero_or_pos skipped with h | h
  · subst h; rfl
  · simp only [h, if_true, Nat.pos_iff_ne_zero.mp h, if_false]; rfl

theorem beginStop_web (n : Nat) (s : State) : WebWork s (beginStop n s) := by
  unfold beginStop
  refine WebWork.trans ?_ (discardRetiring_web _)
  refine WebWork.trans (WebWork.plain s s.trig s.trk s.asm .stopping s.rcp.active s.rcp.pending s.rcp.retiring n
    s.freeCount) ?_
  exact (reportSkipped_web _ _).trans (.plain _ _ _ _ _ _ _ _ _ _)

theorem positionLimit_web (s : State) : WebWork s (positionLimit s) := by
  unfold positionLimit; split
  · exact (WebWork.event _ _ s).trans (beginStop_web _ _)
  · exact .event _ _ s

theorem takeSwap_web (s : State) : WebWork s (takeSwap s) := by
  unfold takeSwap; split
  · exact .same s
  · extract_lets old asm rcp s1 s2
    have h2 : WebWork s s2 :=
      (WebWork.plain s s.trig s.trk _ s.rcp.run _ _ _ s.rcp.stopBy s.freeCount).trans (.event _ _ _)
    split
    · exact h2.trans (.plain _ _ _ _ _ _ _ _ _ _)
    · exact h2

theorem adoptPitch_web (s : State) : WebWork s (adoptPitch s) := .plain s _ _ _ _ _ _ _ _ _

theorem swapPoint_web (s : State) : WebWork s (swapPoint s) := by
  unfold swapPoint; split
  · exact (takeSwap_web s).trans (adoptPitch_web _)
  · exact .same s

/-! ### The tracker (chapter 2) -/

theorem insertStart_perm (x : StartEntry) (q : List StartEntry) : (insertStart x q).Perm (x :: q) := by
  induction q with
  | nil => exact .refl _
  | cons e es ih =>
    simp only [insertStart]; split
    · exact .refl _
    · exact (ih.cons e).trans (.swap x e es)

/-- A start of a new position is put in its place. -/
theorem insertStart_sorted (x : StartEntry) {q : List StartEntry} (h : q.Pairwise fun e f => e.pos < f.pos)
    (hx : ∀ e ∈ q, e.pos ≠ x.pos) : (insertStart x q).Pairwise fun e f => e.pos < f.pos := by
  induction q with
  | nil => exact List.pairwise_singleton _ _
  | cons e es ih =>
    have ⟨he, hes⟩ := List.pairwise_cons.mp h
    simp only [insertStart]; split
    · rename_i hlt
      refine List.pairwise_cons.mpr ⟨fun f hf => ?_, h⟩
      rcases List.mem_cons.mp hf with rfl | hf
      exacts [hlt, hlt.trans (he f hf)]
    · rename_i hlt
      refine List.pairwise_cons.mpr ⟨fun f hf => ?_, ih hes fun f hf => hx f (List.mem_cons_of_mem _ hf)⟩
      rcases List.mem_cons.mp ((insertStart_perm x es).mem_iff.mp hf) with rfl | hf
      exacts [lt_of_le_of_ne (by omega) (hx e (List.mem_cons_self ..)), he f hf]

theorem popStart_web (e : StartEntry) (rest : List StartEntry) (s : State) : WebWork s (popStart e rest s) :=
  .plain s _ _ _ _ _ _ _ _ _

theorem popStarts_web (n : Nat) : ∀ s, WebWork s (popStarts n s) := by
  induction n with
  | zero => exact fun s => .same s
  | succ n ih =>
    intro s
    unfold popStarts
    split
    · exact .same s
    · split
      · exact (popStart_web _ _ s).trans (ih _)
      · exact .same s

theorem popWork_web (s : State) : WebWork s (popWork s) := by
  unfold popWork; split
  · exact popStarts_web _ s
  · exact .same s

theorem pushStart_web (pos : Nat) (err : Int) (kind : StartKind) (s : State) :
    WebWork s (pushStart pos err kind s) := by
  unfold pushStart; dsimp only; split
  · exact .plain s _ _ _ _ _ _ _ _ _
  · split
    · exact .plain s _ _ _ _ _ _ _ _ _
    · exact (WebWork.plain s s.trig _ s.asm s.rcp.run s.rcp.active s.rcp.pending s.rcp.retiring s.rcp.stopBy
        s.freeCount).trans (.event _ _ _)

theorem missMark_web (s : State) : WebWork s (missMark s) := by
  have h1 : WebWork s (appendEvent .markMissed (s.trk.misses + 1) { s with
      trk := { s.trk with misses := s.trk.misses + 1, marksMissed := bump s.trk.marksMissed } }) :=
    (WebWork.plain s s.trig _ s.asm s.rcp.run s.rcp.active s.rcp.pending s.rcp.retiring s.rcp.stopBy
      s.freeCount).trans (.event _ _ _)
  unfold missMark; dsimp only; split
  · exact (h1.trans (pushStart_web _ _ _ _)).trans (.plain _ _ _ _ _ _ _ _ _ _)
  · exact (h1.trans (.plain _ _ _ _ _ _ _ _ _ _)).trans (.event _ _ _)

theorem missMarks_web (n : Nat) : ∀ s, WebWork s (missMarks n s) := by
  induction n with
  | zero => exact fun s => .same s
  | succ n ih =>
    intro s; unfold missMarks; split
    · exact (missMark_web s).trans (ih _)
    · exact .same s

theorem missWork_web (s : State) : WebWork s (missWork s) := missMarks_web _ s

theorem coatToGapWork_web (s : State) : WebWork s (coatToGapWork s) := by
  unfold coatToGapWork; split
  · exact swapPoint_web s
  · exact .same s

theorem takeEdge_web (s : State) : WebWork s (takeEdge s) := by
  have ha : WebWork s (acquire s) := by
    unfold acquire; dsimp only; split
    · exact (((WebWork.plain s s.trig _ s.asm s.rcp.run s.rcp.active s.rcp.pending s.rcp.retiring s.rcp.stopBy
        s.freeCount).trans (.event _ _ _)).trans (pushStart_web _ _ _ _)).trans (popWork_web _)
    · exact .plain s _ _ _ _ _ _ _ _ _
  have he : WebWork s (edgeInTrack s) := by
    unfold edgeInTrack; dsimp only; split
    · exact .plain s _ _ _ _ _ _ _ _ _
    · exact ((WebWork.plain s s.trig _ s.asm s.rcp.run s.rcp.active s.rcp.pending s.rcp.retiring s.rcp.stopBy
        s.freeCount).trans (pushStart_web _ _ _ _)).trans (popWork_web _)
  have hb : WebWork s { s with trk := { s.trk with backlogEdges := bump s.trk.backlogEdges } } :=
    .plain s _ _ _ _ _ _ _ _ _
  unfold takeEdge; split
  · exact .same s
  · split <;> first | exact .same s | (split <;> assumption)

/-! ### Triggers and counts (chapter 1) -/

theorem openLine_web (i : Fin 4) (s : State) : WebWork s (openLine i s) := by
  unfold openLine; dsimp only
  exact (WebWork.plain s _ _ _ s.rcp.run s.rcp.active s.rcp.pending s.rcp.retiring s.rcp.stopBy s.freeCount).trans
    (reportSkipped_web _ _)

theorem skipLine_web (s : State) : WebWork s (skipLine s) := .plain s _ _ _ _ _ _ _ _ _

theorem takeTrigger_web (s : State) : WebWork s (takeTrigger s) := by
  unfold takeTrigger; dsimp only
  refine WebWork.trans (t := if s.triggerSwaps then takeSwap s else s) ?_ ?_
  · split
    · exact takeSwap_web s
    · exact .same s
  · generalize (if s.triggerSwaps then takeSwap s else s) = u
    refine (forceSlots_web u).trans ?_
    split
    · exact (openLine_web _ _).trans (.plain _ _ _ _ _ _ _ _ _ _)
    · exact (skipLine_web _).trans (.plain _ _ _ _ _ _ _ _ _ _)

theorem triggerWork_web (s : State) : WebWork s (triggerWork s) := by
  unfold triggerWork; split
  · exact takeTrigger_web s
  · exact .same s

theorem drawChoice_web (s : State) : WebWork s (drawChoice s).2 := .plain s _ _ _ _ _ _ _ _ _

theorem nowOrLater_web (due others : Bool) {work : State → State} (h : ∀ s, WebWork s (work s)) (s : State) :
    WebWork s (nowOrLater due others work s) := by
  unfold nowOrLater; split
  · unfold drawChoice; split <;> rename_i hc
    · simp only [Prod.mk.injEq] at hc; rw [← hc.2]
      exact (WebWork.plain s s.trig s.trk s.asm s.rcp.run s.rcp.active s.rcp.pending s.rcp.retiring s.rcp.stopBy
        _).trans (h _)
    · simp only [Prod.mk.injEq] at hc; rw [← hc.2]
      exact WebWork.plain s s.trig s.trk s.asm s.rcp.run s.rcp.active s.rcp.pending s.rcp.retiring s.rcp.stopBy _
  · split
    · exact h s
    · exact .same s

theorem freePlace_web (p : State × Bool) : WebWork p.1 (freePlace p).1 := by
  unfold freePlace
  extract_lets u
  have h1 : WebWork p.1 u := nowOrLater_web _ _ triggerWork_web p.1
  clear_value u
  refine h1.trans ?_
  split
  · unfold drawChoice; split <;> rename_i hc <;> simp only [Prod.mk.injEq] at hc <;> rw [← hc.2]
    · exact (WebWork.plain u u.trig u.trk u.asm u.rcp.run u.rcp.active u.rcp.pending u.rcp.retiring u.rcp.stopBy
        _).trans (positionLimit_web _)
    · exact WebWork.plain u u.trig u.trk u.asm u.rcp.run u.rcp.active u.rcp.pending u.rcp.retiring u.rcp.stopBy _
  · split
    · exact positionLimit_web u
    · exact .same u

theorem countWork_web (limit : Bool) (s : State) : WebWork s (countWork limit s) := by
  unfold countWork; dsimp only
  refine WebWork.trans ?_ (triggerWork_web _)
  have h1 := freePlace_web (s, limit)
  generalize freePlace (s, limit) = p1 at *
  have h2 := freePlace_web (coatToGapWork p1.1, p1.2)
  generalize freePlace (coatToGapWork p1.1, p1.2) = p2 at *
  have h3 := freePlace_web (missWork p2.1, p2.2)
  generalize freePlace (missWork p2.1, p2.2) = p3 at *
  have h4 := freePlace_web (popWork p3.1, p3.2)
  generalize freePlace (popWork p3.1, p3.2) = p4 at *
  have h := (((h1.trans ((coatToGapWork_web _).trans h2)).trans ((missWork_web _).trans h3)).trans
    ((popWork_web _).trans h4))
  split
  · exact h.trans (positionLimit_web _)
  · exact h

/-! ### The run state (R170, R171) -/

theorem reportSkipped_rcp (w : Nat) (s : State) : (reportSkipped w s).rcp = s.rcp := by
  unfold reportSkipped; split <;> rfl

theorem reportSkipped_asm (w : Nat) (s : State) : (reportSkipped w s).asm = s.asm := by
  unfold reportSkipped; split <;> rfl

theorem reportSkipped_trk (w : Nat) (s : State) : (reportSkipped w s).trk = s.trk := by
  unfold reportSkipped; split <;> rfl

theorem reportSkipped_pos (w : Nat) (s : State) : (reportSkipped w s).pos = s.pos := by
  unfold reportSkipped; split <;> rfl

/-- The beginning of a stop at the recipe store, the tracker and the slots (R64, R169, R171). -/
theorem beginStop_control (n : Nat) (s : State) :
    (beginStop n s).trk = { s.trk with frozen := true } ∧
      (beginStop n s).asm = { s.asm with slots := s.asm.slots.map Slot.stopped } ∧
      (beginStop n s).rcp = { s.rcp with
        run := .stopping, stopBy := n
        retiring := if (s.asm.slots.map Slot.stopped).toList.countP (fun x => x.copy == .retiring) = 0 then none
          else s.rcp.retiring } := by
  unfold beginStop
  dsimp only
  rw [discardRetiring_eq]
  simp only [reportSkipped_trk, reportSkipped_asm, reportSkipped_rcp, State.references]
  exact ⟨trivial, trivial, trivial⟩

/-- A swap (R29, R168): the pending copy becomes active, the copy the slots refer to retires or is discarded, the slots
follow it, RECIPE_SWAP is appended, and while ARMED the tracker adopts the new patch fields. -/
theorem takeSwap_some {s : State} {pc : PendingCopy} (h : s.rcp.pending = some pc) :
    takeSwap s = append s.pos.w (.event .recipeSwap (swapArgument s.rcp.active pc.copy pc.port)) { s with
      rcp := { s.rcp with
        active := pc.copy, pending := none
        retiring := if s.references .active = 0 then none else some s.rcp.active }
      asm := { s.asm with
        slots := s.asm.slots.map fun x => if x.copy = .active then { x with copy := .retiring } else x }
      trk := if s.rcp.run = .armed then s.trk.adopt pc.copy.patch else s.trk } := by
  unfold takeSwap
  rw [h]
  dsimp only [appendEvent, append]
  split <;> simp_all

theorem takeSwap_run (s : State) : (takeSwap s).rcp.run = s.rcp.run := by
  unfold takeSwap; split
  · rfl
  · extract_lets old asm rcp s1 s2
    split <;> rfl

theorem swapPoint_run (s : State) : (swapPoint s).rcp.run = s.rcp.run := by
  unfold swapPoint; split
  · exact takeSwap_run s
  · rfl

theorem takeTrigger_run (s : State) : (takeTrigger s).rcp.run = s.rcp.run := by
  unfold takeTrigger; dsimp only
  have h : (if s.triggerSwaps then takeSwap s else s).rcp.run = s.rcp.run := by
    split
    · exact takeSwap_run s
    · rfl
  generalize (if s.triggerSwaps then takeSwap s else s) = u at *
  split
  · simp only [openLine, reportSkipped_rcp]; exact h
  · exact h

/-- The position limit stops an ARMED run, and leaves any other run state. -/
theorem positionLimit_run (s : State) :
    (positionLimit s).rcp.run = if s.rcp.run = .armed then .stopping else s.rcp.run := by
  unfold positionLimit; split
  · rw [(beginStop_control 3 _).2.2]
  · rfl

end Sys2Proof.Machine
end

