-- ==== Sys2Proof/Laws/Engine.lean ====
section
/-! SUPPORT. The detection engine: what the stages, the closes and the resets can reach, and what they keep. -/

namespace Sys2Proof.Machine

/-- A 16-bit count has moved up, or stayed, within its range. -/
def Up (n m : Nat) : Prop := n ≤ 65535 → n ≤ m ∧ m ≤ 65535

theorem Up.same (n : Nat) : Up n n := fun h => ⟨le_rfl, h⟩
theorem Up.trans {a b c : Nat} (h : Up a b) (k : Up b c) : Up a c := fun ha =>
  ⟨(h ha).1.trans (k (h ha).2).1, (k (h ha).2).2⟩
theorem Up.bump (n : Nat) : Up n (bump n) := fun h => ⟨le_bump h, bump_le n⟩
theorem Up.bumpBy (n k : Nat) : Up n (bumpBy n k) := fun h => ⟨le_bumpBy k h, bumpBy_le n k⟩

/-- The scheduler's counters have moved up alone. -/
structure MarkUps (k l : Scheduler) : Prop where
  merges : Up k.merges l.merges
  late : Up k.late l.late
  dropped : Up k.dropped l.dropped
  discarded : Up k.discarded l.discarded

theorem MarkUps.same (k : Scheduler) : MarkUps k k := ⟨.same _, .same _, .same _, .same _⟩
theorem MarkUps.trans {a b c : Scheduler} (h : MarkUps a b) (k : MarkUps b c) : MarkUps a c :=
  ⟨h.merges.trans k.merges, h.late.trans k.late, h.dropped.trans k.dropped, h.discarded.trans k.discarded⟩

theorem enterAction_ups (m : Marker) (start width spacing patch : Nat) (s : State) :
    MarkUps s.mark (enterAction m start width spacing patch s).1.mark := by
  obtain ⟨h1, h2, h3, h4⟩ := enter_counts s.mark s.pos.w m start width spacing
  rw [enterAction_mark]
  refine ⟨?_, ?_, ?_, ?_⟩
  · rcases h3 with h | ⟨n, h⟩ <;> simp only [h]
    exacts [.same _, .bumpBy _ _]
  · simp only [lateAfter]; split <;> rw [h1]
    exacts [.bump _, .same _]
  · rcases h4 with h | h <;> simp only [h]
    exacts [.same _, .bump _]
  · simp only [h2]; exact .same _

/-- `t` comes from `s` by the engine's work on its tables: of the rest of the machine, the list and the ports change by
appends and the scheduler by entering actions. -/
structure EngineWork (s t : State) : Prop where
  appends : Appends s t
  pos : t.pos = s.pos
  trig : t.trig = s.trig
  trk : t.trk = s.trk
  links : t.links = s.links
  asm : t.asm = s.asm
  rcp : t.rcp = s.rcp
  freeCount : t.freeCount = s.freeCount
  pending : t.pending = s.pending
  pub : t.eng.pub = s.eng.pub
  lastLine : t.eng.lastLine = s.eng.lastLine
  kept : t.eng.kept = s.eng.kept
  resets : t.eng.resets = s.eng.resets
  progress : t.eng.progress = s.eng.progress
  marks : s.marksOk → t.marksOk
  ups : MarkUps s.mark t.mark
  splits : Up s.eng.work.splits t.eng.work.splits
  refusals : Up s.eng.work.refusals t.eng.work.refusals
  cells : (∀ r ∈ s.eng.work.cells, r.inRange) → ∀ r ∈ t.eng.work.cells, r.inRange
  streaks : t.eng.work.streaks.length = s.eng.work.streaks.length
  cands : t.eng.work.cands.length = s.eng.work.cands.length
  size : t.eng.work.cells.length = s.eng.work.cells.length

theorem EngineWork.same (s : State) : EngineWork s s :=
  ⟨.rfl' s, rfl, rfl, rfl, rfl, rfl, rfl, rfl, rfl, rfl, rfl, rfl, rfl, rfl, id, .same _, .same _, .same _, id, rfl,
    rfl, rfl⟩

theorem EngineWork.trans {s t u : State} (h : EngineWork s t) (k : EngineWork t u) : EngineWork s u :=
  ⟨h.appends.trans k.appends, k.pos.trans h.pos, k.trig.trans h.trig, k.trk.trans h.trk, k.links.trans h.links,
    k.asm.trans h.asm, k.rcp.trans h.rcp, k.freeCount.trans h.freeCount, k.pending.trans h.pending,
    k.pub.trans h.pub, k.lastLine.trans h.lastLine, k.kept.trans h.kept, k.resets.trans h.resets,
    k.progress.trans h.progress, fun x => k.marks (h.marks x), h.ups.trans k.ups, h.splits.trans k.splits,
    h.refusals.trans k.refusals, fun x => k.cells (h.cells x), k.streaks.trans h.streaks, k.cands.trans h.cands,
    k.size.trans h.size⟩

theorem EngineWork.foldl {α : Type} {f : State → α → State} (h : ∀ s a, EngineWork s (f s a)) (as : List α) :
    ∀ s, EngineWork s (as.foldl f s) := by
  induction as with
  | nil => exact fun s => .same s
  | cons a as ih => exact fun s => (h s a).trans (ih _)

theorem EngineWork.append (w : Nat) (b : RecordBody) (s : State) : EngineWork s (append w b s) :=
  ⟨.one w b s, rfl, rfl, rfl, rfl, rfl, rfl, rfl, rfl, rfl, rfl, rfl, rfl, rfl, id, .same _, .same _, .same _, id, rfl,
    rfl, rfl⟩

theorem EngineWork.withWork (s : State) (t : EngineTables) (h1 : Up s.eng.work.splits t.splits)
    (h2 : Up s.eng.work.refusals t.refusals)
    (h3 : (∀ r ∈ s.eng.work.cells, r.inRange) → ∀ r ∈ t.cells, r.inRange)
    (h4 : t.streaks.length = s.eng.work.streaks.length) (h5 : t.cands.length = s.eng.work.cands.length)
    (h6 : t.cells.length = s.eng.work.cells.length := by
      first | rfl | simp [clearMembers, setMembers, joinMembers, resetCells]) :
    EngineWork s (s.withWork t) :=
  ⟨.same rfl rfl, rfl, rfl, rfl, rfl, rfl, rfl, rfl, rfl, rfl, rfl, rfl, rfl, rfl, id, .same _, h1, h2, h3, h4, h5, h6⟩

theorem EngineWork.contribs (s : State) (cs : List Contribution) :
    EngineWork s { s with eng := { s.eng with contribs := cs } } :=
  ⟨.same rfl rfl, rfl, rfl, rfl, rfl, rfl, rfl, rfl, rfl, rfl, rfl, rfl, rfl, rfl, id, .same _, .same _, .same _, id,
    rfl, rfl, rfl⟩

theorem contribute_work (c : Contribution) (s : State) : EngineWork s (contribute c s) := .contribs s _

theorem handAction_work (m : Marker) (f : MarkerFields) (r patch : Nat) (s : State) :
    EngineWork s (handAction m f r patch s) := by
  have hm : MarkUps s.mark (handAction m f r patch s).mark := by
    rw [handAction_frame]; exact enterAction_ups _ _ _ _ _ s
  have hk : s.marksOk → (handAction m f r patch s).marksOk := fun h => handAction_marksOk h m f r patch
  have ha := handAction_appends m f r patch s
  have hf := handAction_frame m f r patch s
  generalize handAction m f r patch s = t at *
  exact ⟨ha, by rw [hf], by rw [hf], by rw [hf], by rw [hf], by rw [hf], by rw [hf], by rw [hf], by rw [hf], by rw [hf],
    by rw [hf], by rw [hf], by rw [hf], by rw [hf], hk, hm, by rw [hf]; exact .same _, by rw [hf]; exact .same _,
    by rw [hf]; exact id, by rw [hf], by rw [hf], by rw [hf]⟩

/-! ### Streaks (chapter 8) -/

theorem mem_clearMembers {i : Nat} {cells : List CellRec} {r : CellRec} (h : r ∈ clearMembers i cells) :
    ∃ q ∈ cells, r = { q with member := r.member } := by
  obtain ⟨q, hq, rfl⟩ := List.mem_map.mp h
  refine ⟨q, hq, ?_⟩
  split <;> rfl

theorem inRange_member {q : CellRec} (h : q.inRange) (m : Option Nat) : ({ q with member := m } : CellRec).inRange := h

/-- A map over the records that alters the membership alone keeps their ranges. -/
theorem inRange_zipIdx_map {cells : List CellRec} {f : CellRec × Nat → CellRec}
    (hf : ∀ x, f x = { x.1 with member := (f x).member }) (h : ∀ r ∈ cells, r.inRange) :
    ∀ r ∈ cells.zipIdx.map f, r.inRange := by
  intro r hr
  obtain ⟨x, hx, rfl⟩ := List.mem_map.mp hr
  rw [hf x]
  exact inRange_member (h _ (List.fst_mem_of_mem_zipIdx hx)) _

theorem dropStreak_work (i : Nat) (s : State) : EngineWork s (dropStreak i s) := by
  refine .withWork s _ (.same _) (.same _) (fun h r hr => ?_) (by simp) rfl
  obtain ⟨q, hq, he⟩ := mem_clearMembers hr
  rw [he]
  exact inRange_member (h q hq) _

theorem closeStreakAs_work (st : Streak) (i : Nat) (reason : CloseReason) (into w : Nat) (s : State) :
    EngineWork s (closeStreakAs st i reason into w s) := (dropStreak_work i s).trans (.append _ _ _)

theorem closeStreak_work (i : Nat) (reason : CloseReason) (w : Nat) (s : State) :
    EngineWork s (closeStreak i reason w s) := by
  unfold closeStreak; split
  · exact closeStreakAs_work _ _ _ _ _ s
  · exact .same s

theorem closeStreaks_work (slots : List Nat) (reason : CloseReason) (w : Nat) (s : State) :
    EngineWork s (closeStreaks slots reason w s) := EngineWork.foldl (fun _ _ => closeStreak_work _ _ _ _) _ s

theorem extendStreak_work (next : Nat) (s : State) (c : Component (Nat × Polarity)) :
    EngineWork s (extendStreak next s c) := by
  unfold extendStreak; dsimp only; split
  · exact .same s
  · split
    · exact .same s
    · refine .withWork s _ (.same _) (.same _) (fun h => ?_) (by simp) rfl
      refine inRange_zipIdx_map (fun x => ?_) h
      split
      · rfl
      · split
        · split <;> rfl
        · rfl

theorem settleStreak_work (w i : Nat) (was : Option Streak) (f : StreakFate) (s : State) :
    EngineWork s (settleStreak w i was f s) := by
  unfold settleStreak; split
  · split
    · exact closeStreakAs_work _ _ _ _ _ s
    · exact .same s
  · exact closeStreak_work _ _ _ s
  · split
    · exact .withWork s _ (.same _) (.same _) id (by simp) rfl
    · exact .same s
  · exact .same s

theorem loneStreakRun_work (ln : Line) (s : State) (r : Run (Nat × Polarity)) :
    EngineWork s (loneStreakRun ln s r) := by
  unfold loneStreakRun; split
  · rename_i i _
    have h1 : EngineWork s (s.withWork { s.eng.work with
        streaks := s.eng.work.streaks.set i (some (newStreak ln.slot.w ln.slot.patchNum s.list.next r))
        cells := joinMembers i r s.eng.work.cells }) := by
      refine .withWork s _ (.same _) (.same _) (fun h => ?_) (by simp) rfl
      refine inRange_zipIdx_map (fun x => ?_) h
      split <;> rfl
    have h2 := (h1.trans (.append ln.slot.w (.streakOpen ⟨r.key.1, r.profile, r.key.2, r.left, r.right,
      ln.slot.patchNum, r.cells⟩) _)).trans (contribute_work (.streakOpen ln.slot.patchNum) _)
    unfold openStreak; dsimp only; split
    · exact h2.trans (handAction_work _ _ _ _ _)
    · exact h2
  · have h1 : EngineWork s (s.withWork { s.eng.work with
        refusals := bump s.eng.work.refusals, streakLatch := true }) :=
      .withWork s _ (.same _) (.bump _) id rfl rfl
    unfold refuseStreak; dsimp only; split
    · exact h1
    · exact h1.trans (.append _ _ _)

theorem runStreakItem_work (ln : Line) (s : State) (x : StreakItem) : EngineWork s (runStreakItem ln s x) := by
  cases x
  · exact settleStreak_work _ _ _ _ s
  · exact loneStreakRun_work ln s _

theorem beginStreaks_work (ln : Line) (outs : List CellResult) (s : State) :
    EngineWork s (beginStreaks ln outs s).2 := by
  unfold beginStreaks; split
  · exact (EngineWork.withWork s { s.eng.work with
      streaks := s.eng.work.streaks.map fun o => o.map (Streak.onPatch ln.slot.patchNum) }
      (.same _) (.same _) id (by simp) rfl).trans (EngineWork.foldl (extendStreak_work _) _ _)
  · exact .same s

/-- Stage 3 on a coated line: the streaks extended, then the fates, then the lone runs (R128). -/
theorem streakStage_eq {ln : Line} (h : ln.slot.zone.coated = true) (outs : List CellResult) (s : State) :
    streakStage ln outs s =
      let next := s.list.next
      let t := s.eng.work
      let streaks := t.streaks.map fun o => o.map (Streak.onPatch ln.slot.patchNum)
      let runs := streakRuns ln.copy streaks (t.cells.zip outs)
      let slotsOf := fun r => slotsWhere (fun st => st.matchedBy r) streaks
      let comps := (componentsOf slotsOf runs).filter fun c => !c.slots.isEmpty
      (runs.filter fun r => (slotsOf r).isEmpty).foldl (loneStreakRun ln)
        ((streakAgeOrder next streaks (slotsWhere (fun _ => true) streaks)).foldl
          (fun u i => settleStreak ln.slot.w i (entryAt t.streaks i) (streakFate next streaks comps outs i) u)
          (comps.foldl (extendStreak next) (s.withWork { t with streaks := streaks }))) := by
  unfold streakStage beginStreaks
  rw [if_pos h]
  simp only [streakBegin, List.foldl_append, List.foldl_map]
  rfl

/-- Stage 3 passes over a line that is not coated (R128). -/
theorem streakStage_uncoated {ln : Line} (h : ln.slot.zone.coated = false) (outs : List CellResult) (s : State) :
    streakStage ln outs s = s := by
  unfold streakStage beginStreaks; rw [h]; rfl

theorem streakStage_work (ln : Line) (outs : List CellResult) (s : State) : EngineWork s (streakStage ln outs s) :=
  (beginStreaks_work ln outs s).trans (EngineWork.foldl (runStreakItem_work ln) _ _)

/-! ### Pinholes (chapter 7) -/

theorem reportPinhole_work (markers : Marker → MarkerFields) (k : Candidate) (how : PinEnd) (s : State) :
    EngineWork s (reportPinhole markers k how s) := by
  have h := (EngineWork.append k.firstW (k.closeBody how) s).trans (contribute_work (.pinhole k.patch) _)
  unfold reportPinhole; dsimp only; split
  · exact h.trans (handAction_work _ _ _ _ _)
  · exact h

theorem dropCand_work (i : Nat) (s : State) : EngineWork s (dropCand i s) :=
  .withWork s _ (.same _) (.same _) id rfl (by simp)

theorem closeCand_work (markers : Marker → MarkerFields) (how : PinEnd) (s : State) (i : Nat) :
    EngineWork s (closeCand markers how s i) := by
  unfold closeCand; split
  · exact (dropCand_work i s).trans (reportPinhole_work _ _ _ _)
  · exact .same s

theorem closeCands_work (markers : Marker → MarkerFields) (how : PinEnd) (slots : List Nat) (s : State) :
    EngineWork s (closeCands markers how slots s) := EngineWork.foldl (closeCand_work markers how) _ s

theorem extendCand_work (ln : Line) (t0 : List (Option Candidate)) (s : State) (c : Component Nat) :
    EngineWork s (extendCand ln t0 s c) := by
  unfold extendCand; split
  · exact .same s
  · split
    · exact .same s
    · exact (EngineWork.foldl (fun s j => dropCand_work j s) _ s).trans
        (.withWork _ _ (.same _) (.same _) id rfl (by simp))

theorem settleCand_work (markers : Marker → MarkerFields) (i : Nat) (f : CandFate) (s : State) :
    EngineWork s (settleCand markers i f s) := by
  unfold settleCand; split
  · exact closeCand_work _ _ s i
  · exact closeCand_work _ _ s i
  · split
    · exact .withWork s _ (.same _) (.same _) id rfl (by simp)
    · exact .same s
  · exact .same s

theorem splitNotice_work (ln : Line) (r : Run Nat) (s : State) : EngineWork s (splitNotice ln r s) := by
  have h1 : EngineWork s (s.withWork { s.eng.work with splits := bump s.eng.work.splits, candLatch := true }) :=
    .withWork s _ (.bump _) (.same _) id rfl rfl
  unfold splitNotice; dsimp only; split
  · exact h1
  · exact h1.trans (.append _ _ _)

theorem lonePinholeRun_work (ln : Line) (s : State) (r : Run Nat) : EngineWork s (lonePinholeRun ln s r) := by
  unfold lonePinholeRun; split
  · rename_i i _
    have h1 : EngineWork s (s.withWork { s.eng.work with
        cands := s.eng.work.cands.set i (some (newCand ln r)) }) :=
      .withWork s _ (.same _) (.same _) id rfl (by simp)
    unfold openCand; dsimp only; split
    · exact h1.trans (closeCand_work _ _ _ _)
    · exact h1
  · exact (splitNotice_work ln r s).trans (reportPinhole_work _ _ _ _)

theorem runPinItem_work (ln : Line) (s : State) (x : PinItem) : EngineWork s (runPinItem ln s x) := by
  cases x
  · exact settleCand_work _ _ _ s
  · exact lonePinholeRun_work ln s _
  · exact reportPinhole_work _ _ _ s

theorem advancePinItem_work (ln : Line) (s : State) (x : PinItem) (rest : List PinItem) :
    EngineWork s (advancePinItem ln s x rest).2 := by
  unfold advancePinItem; split
  · exact splitNotice_work ln _ s
  · exact runPinItem_work ln s _

/-- A piece of work, as far as it went and what it left, is the whole piece of work. -/
theorem advancePinItem_runs (ln : Line) (s : State) (x : PinItem) (rest : List PinItem) :
    (advancePinItem ln s x rest).1.foldl (runPinItem ln) (advancePinItem ln s x rest).2 =
      (x :: rest).foldl (runPinItem ln) s := by
  unfold advancePinItem; split
  · rename_i r h
    simp only [List.foldl_cons, runPinItem, lonePinholeRun, h, splitRun]
  · rfl

theorem beginPinholes_work (ln : Line) (outs : List CellResult) (s : State) :
    EngineWork s (beginPinholes ln outs s).2 := by
  unfold beginPinholes; split
  · exact EngineWork.foldl (extendCand_work ln _) _ s
  · exact .same s

theorem pinholeLine_work (ln : Line) (outs : List CellResult) (s : State) : EngineWork s (pinholeLine ln outs s) :=
  (beginPinholes_work ln outs s).trans (EngineWork.foldl (runPinItem_work ln) _ _)

theorem pinholeStage_work (ln : Line) (outs : List CellResult) (s : State) : EngineWork s (pinholeStage ln outs s) :=
  (EngineWork.foldl (closeCand_work _ _) _ s).trans (pinholeLine_work _ _ _)

/-- Steps 1 to 4 on a coated line: the candidates extended, then the fates, then the lone runs (R109). -/
theorem pinholeLine_eq {ln : Line} (h : ln.slot.zone.coated = true) (outs : List CellResult) (s : State) :
    pinholeLine ln outs s =
      let t := s.eng.work
      let runs := pinholeRuns t.streaks (t.cells.zip outs)
      let slotsOf := fun r => slotsWhere (fun k => k.matchedBy r) t.cands
      let comps := (componentsOf slotsOf runs).filter fun c => !c.slots.isEmpty
      let s2 := comps.foldl (extendCand ln t.cands) s
      let t2 := s2.eng.work.cands
      (runs.filter fun r => (slotsOf r).isEmpty).foldl (lonePinholeRun ln)
        ((candAgeOrder t2 (slotsWhere (fun _ => true) t2)).foldl
          (fun u i => settleCand ln.copy.markerFields i (candFate ln.copy.pmax t2 comps outs i) u) s2) := by
  unfold pinholeLine beginPinholes
  rw [if_pos h]
  simp only [pinholeBegin, List.foldl_append, List.foldl_map]
  rfl

/-- Stage 4 on a line that is not coated: every candidate closes (R109). -/
theorem pinholeStage_uncoated {ln : Line} (h : ln.slot.zone.coated = false) (outs : List CellResult) (s : State) :
    pinholeStage ln outs s = closeCands ln.copy.markerFields .ordinary s.candSlots s := by
  unfold pinholeStage pinholeLine beginPinholes patchCloses
  rw [h]; rfl

/-- Stage 4 on a coated line: candidates of another patch close first (R101). -/
theorem pinholeStage_coated {ln : Line} (h : ln.slot.zone.coated = true) (outs : List CellResult) (s : State) :
    pinholeStage ln outs s = pinholeLine ln outs
      (if s.otherPatch ln.slot.patchNum then closeCands ln.copy.markerFields .ordinary s.candSlots s else s) := by
  unfold pinholeStage patchCloses
  rw [h]; simp only [Bool.not_true, Bool.false_or]; split <;> rfl

/-! ### The tally, the cells, the resets (chapters 2 and 6) -/

theorem EngineWork.withTally (s : State) (t : Option Tally) : EngineWork s (s.withTally t) :=
  .withWork s _ (.same _) (.same _) id rfl rfl

theorem tallyStage_work (x : Slot) (s : State) : EngineWork s (tallyStage x s) := by
  have h0 : EngineWork s { s with eng := { s.eng with contribs := [] } } := .contribs s _
  unfold tallyStage; dsimp only; split
  · exact h0.trans (.withTally _ _)
  · split
    · exact h0.trans (.withTally _ _)
    · exact (h0.trans (.withTally _ _)).trans (.append _ _ _)

theorem cutTally_work (s : State) : EngineWork s (cutTally s) := by
  have h0 : EngineWork s { s with eng := { s.eng with contribs := [] } } := .contribs s _
  unfold cutTally; dsimp only; split
  · exact h0
  · exact (h0.trans (.withTally _ _)).trans (.append _ _ _)

/-- Adaptation ends between the old value and sixteen times the cell value (R89). -/
theorem adapt_bounds (b16 x k : Nat) : min b16 (16 * x) ≤ adapt b16 x k ∧ adapt b16 x k ≤ max b16 (16 * x) := by
  have hp : (0 : Int) < 2 ^ k := by positivity
  have h1 : (1 : Int) ≤ 2 ^ k := hp
  unfold adapt
  generalize hd : ((16 * x : Int) - (b16 : Int)) = d
  rcases le_total 0 d with h | h
  · have h2 : 0 ≤ d / 2 ^ k := Int.ediv_nonneg h hp.le
    have h3 : d / 2 ^ k ≤ d := Int.ediv_le_self _ h
    omega
  · have h2 : d / 2 ^ k ≤ 0 := Int.ediv_nonpos_of_nonpos_of_neg h hp
    have h3 : d ≤ d / 2 ^ k := by
      rw [Int.le_ediv_iff_mul_le hp]; nlinarith
    omega

theorem moveCounter_range {v : Int} (h : -4095 ≤ v ∧ v ≤ 4095) (i : StreakInput) :
    -4095 ≤ moveCounter v i ∧ moveCounter v i ≤ 4095 := by
  cases i <;> simp only [moveCounter] <;> split <;> (try split) <;> omega

/-- A record worked on stays in its ranges. -/
theorem worked_inRange {r : CellRec} (h : r.inRange) (p : Profile) {x : Nat} (hx : x ≤ 4095) :
    (r.worked p x).inRange := by
  obtain ⟨h1, h2⟩ := h
  have hb : ∀ k, adapt r.b16 x k ≤ 65520 := fun k => by
    have := (adapt_bounds r.b16 x k).2; omega
  have hj : judgedBaseline p r.b16 (deviation r.b16 x) x ≤ 65520 := by
    unfold judgedBaseline; split
    · exact h1
    · split <;> exact hb _
  unfold CellRec.worked; split
  · exact ⟨by show 16 * x ≤ 65520; omega, h2⟩
  · split
    · exact ⟨hb _, h2⟩
    · dsimp only; split
      · exact ⟨hj, moveCounter_range h2 _⟩
      · exact ⟨hj, by simp⟩

theorem workCell_inRange (ln : Line) (c : Nat) {r : CellRec} {x : Nat} (h : r.inRange) (hx : x ≤ 4095) :
    (ln.workCell c r x).1.inRange := by
  unfold Line.workCell; dsimp only; split
  · exact worked_inRange h _ hx
  · exact h

theorem workCells_length (ln : Line) : ∀ (c : Nat) (rs : List CellRec) (xs : List Nat),
    (ln.workCells c rs xs).length = rs.length
  | _, [], _ => rfl
  | c, _ :: rs, xs => by simp [Line.workCells, workCells_length ln (c + 1) rs]

/-- Each cell's work reads and writes its own record and value alone. -/
theorem workCells_getElem (ln : Line) : ∀ (rs : List CellRec) (c : Nat) (xs : List Nat) (i : Nat)
    (r : CellRec), rs[i]? = some r → (ln.workCells c rs xs)[i]? = some (ln.workCell (c + i) r (xs.getD i 0))
  | [], _, _, _, _, h => by simp at h
  | r' :: rs, c, xs, 0, r, h => by
    simp only [List.getElem?_cons_zero, Option.some.injEq] at h
    subst h; cases xs <;> simp [Line.workCells]
  | r' :: rs, c, xs, i + 1, r, h => by
    simp only [List.getElem?_cons_succ] at h
    simp only [Line.workCells, List.getElem?_cons_succ]
    rw [workCells_getElem ln rs (c + 1) xs.tail i r h, Nat.add_right_comm c 1 i]
    cases xs <;> simp [Nat.add_assoc]

theorem workCells_inRange (ln : Line) : ∀ (c : Nat) (rs : List CellRec) (xs : List Nat),
    (∀ r ∈ rs, r.inRange) → (∀ x ∈ xs, x ≤ 4095) → ∀ y ∈ ln.workCells c rs xs, y.1.inRange
  | _, [], _, _, _ => by simp [Line.workCells]
  | c, r :: rs, xs, hr, hx => by
    intro y hy
    rcases List.mem_cons.mp hy with rfl | hy
    · refine workCell_inRange ln c (hr r (List.mem_cons_self ..)) ?_
      cases xs with
      | nil => simp
      | cons x xs => exact hx x (List.mem_cons_self ..)
    · exact workCells_inRange ln (c + 1) rs xs.tail (fun q hq => hr q (List.mem_cons_of_mem _ hq))
        (fun x hx' => hx x (List.mem_of_mem_tail hx')) y hy

/-- Stages 1 and 2 write the records alone. -/
theorem cellStages_eq (ln : Line) (s : State) :
    (cellStages ln s).2 = s.withWork { s.eng.work with
      cells := (ln.workCells 0 s.eng.work.cells ln.slot.cells).map Prod.fst } := rfl

/-- Stages 3, 4 and 5 work on from the records that stages 1 and 2 left. -/
theorem runStages_work (ln : Line) (s : State) : EngineWork (cellStages ln s).2 (runStages ln s) :=
  ((streakStage_work _ _ _).trans (pinholeStage_work _ _ _)).trans (tallyStage_work _ _)

/-- The machine from which a line works on that has come to a point of its operation: stages 1 and 2 write the records
when it begins. -/
def workedFrom (ln : Line) (s : State) : LineProgress → State
  | .begun => (cellStages ln s).2
  | _ => s

/-- What `workedFrom` changes: the cell records alone. -/
theorem workedFrom_eq (ln : Line) (s : State) (φ : LineProgress) :
    ∃ cells, workedFrom ln s φ = s.withWork { s.eng.work with cells := cells } := by
  cases φ
  case begun => exact ⟨_, cellStages_eq ln s⟩
  all_goals exact ⟨s.eng.work.cells, rfl⟩

theorem finish_work (ln : Line) (s : State) (φ : LineProgress) :
    EngineWork (workedFrom ln s φ) (finish ln s φ) := by
  cases φ
  · exact runStages_work ln s
  · exact ((EngineWork.foldl (runStreakItem_work ln) _ _).trans (pinholeStage_work _ _ _)).trans (tallyStage_work _ _)
  · exact ((EngineWork.foldl (closeCand_work _ _) _ _).trans (pinholeLine_work _ _ _)).trans (tallyStage_work _ _)
  · exact (EngineWork.foldl (runPinItem_work ln) _ _).trans (tallyStage_work _ _)
  · exact .same s

theorem advance_work (ln : Line) (s : State) (φ : LineProgress) :
    EngineWork (workedFrom ln s φ) (advance ln s φ).2 := by
  cases φ with
  | begun => exact beginStreaks_work ln _ _
  | streaks outs items => cases items; exacts [.same s, runStreakItem_work ln s _]
  | closes outs slots => cases slots; exacts [beginPinholes_work ln _ s, closeCand_work _ _ s _]
  | pinholes items => cases items; exacts [tallyStage_work _ s, advancePinItem_work ln s _ _]
  | ended => exact .same s

/-- A piece of work, and then what is left of the line, is what was left of it before (R77). -/
theorem finish_advance (ln : Line) (s : State) (φ : LineProgress) :
    finish ln (advance ln s φ).2 (advance ln s φ).1 = finish ln s φ := by
  cases φ with
  | begun => rfl
  | streaks outs items => cases items <;> rfl
  | closes outs slots => cases slots <;> rfl
  | pinholes items =>
    cases items with
    | nil => rfl
    | cons x items =>
      show tallyStage ln.slot ((advancePinItem ln s x items).1.foldl (runPinItem ln)
        (advancePinItem ln s x items).2) = _
      rw [advancePinItem_runs]; rfl
  | ended => rfl

theorem cellStages_length (ln : Line) (s : State) :
    (cellStages ln s).2.eng.work.cells.length = s.eng.work.cells.length := by
  rw [cellStages_eq]; simp [State.withWork, workCells_length]

theorem cellStages_inRange (ln : Line) (s : State) (hx : ∀ x ∈ ln.slot.cells, x ≤ 4095)
    (hr : ∀ r ∈ s.eng.work.cells, r.inRange) : ∀ r ∈ (cellStages ln s).2.eng.work.cells, r.inRange := by
  intro r h
  obtain ⟨y, hy, rfl⟩ := List.mem_map.mp h
  exact workCells_inRange ln 0 _ _ hr hx y hy

theorem resetCells_inRange (covers : Nat → Bool) {cells : List CellRec} (h : ∀ r ∈ cells, r.inRange) :
    ∀ r ∈ resetCells covers cells, r.inRange := by
  intro r hr
  obtain ⟨x, hx, rfl⟩ := List.mem_map.mp hr
  split
  · exact ⟨by decide, by decide, by decide⟩
  · exact h _ (List.fst_mem_of_mem_zipIdx hx)

theorem applyReset_work (markers : Marker → MarkerFields) (reason : CloseReason) (w : Nat) (covers : Nat → Bool)
    (streaks cands : List Nat) (s : State) :
    EngineWork s (applyReset markers reason w covers streaks cands s) :=
  ((closeStreaks_work _ _ _ s).trans (closeCands_work _ _ _ _)).trans
    (.withWork _ _ (.same _) (.same _) (resetCells_inRange covers) rfl rfl)

theorem applyRequest_work (markers : Marker → MarkerFields) (w : Nat) (s : State) (q : ResetRequest) :
    EngineWork s (applyRequest markers w s q) := applyReset_work _ _ _ _ _ _ s

theorem applyGeometry_work (markers : Marker → MarkerFields) (w : Nat) (s : State) :
    EngineWork s (applyGeometry markers w s) := applyReset_work _ _ _ _ _ _ s

theorem stopCloses_work (s : State) : EngineWork s (stopCloses s) := by
  unfold stopCloses
  exact ((((EngineWork.contribs s []).trans (closeStreaks_work _ _ _ _)).trans (closeCands_work _ _ _ _)).trans
    (cutTally_work _)).trans (.withWork _ _ (.same _) (.same _) id rfl rfl)

/-- The machine with the slot IN_WORK and no reset request waiting, from which a line taken works on. -/
def takenFrom (i : Fin 4) (s : State) : State :=
  let u := s.withSlot i { s.asm.slots.get i with state := .inWork }
  { u with eng := { u.eng with contribs := [], resets := [], progress := .begun } }

/-- Taking a line (R61, R77): the slot IN_WORK, the resets, then the copy's sections kept. -/
theorem takeLine_work (i : Fin 4) (s : State) : ∃ v : State, EngineWork (takenFrom i s) v ∧
    takeLine i s = { v with eng := { v.eng with kept := some (keptOf (s.copyOf (s.asm.slots.get i).copy)) } } := by
  refine ⟨_, ?_, rfl⟩
  have h := EngineWork.foldl (applyRequest_work (s.copyOf (s.asm.slots.get i).copy).markerFields
    (s.asm.slots.get i).w) s.eng.resets (takenFrom i s)
  split
  · exact h.trans (applyGeometry_work _ _ _)
  · exact h

theorem workedFrom_length (ln : Line) (s : State) (φ : LineProgress) :
    (workedFrom ln s φ).eng.work.cells.length = s.eng.work.cells.length := by
  cases φ
  case begun => exact cellStages_length ln s
  all_goals rfl

theorem workedFrom_inRange (ln : Line) (s : State) (φ : LineProgress) (hx : ∀ x ∈ ln.slot.cells, x ≤ 4095)
    (hr : ∀ r ∈ s.eng.work.cells, r.inRange) : ∀ r ∈ (workedFrom ln s φ).eng.work.cells, r.inRange := by
  cases φ
  case begun => exact cellStages_inRange ln s hx hr
  all_goals exact hr

/-- A machine is at the point of the line operation where it is. -/
theorem atProgress_self {s : State} {φ : LineProgress} (h : s.eng.progress = φ) : s.atProgress φ = s := by
  subst h; rfl

/-- Publishing a line none of whose stages has begun: all five run (R77). -/
theorem publishLine_begun (i : Fin 4) {s : State} (h : s.eng.progress = .begun) :
    publishLine i s = freeSlot i { publishTables (runStages (s.lineOf i) s) with
      eng := { (publishTables (runStages (s.lineOf i) s)).eng with
        lastLine := some ((s.asm.slots.get i).line, (s.asm.slots.get i).w) } } := by
  unfold publishLine; rw [h, atProgress_self h]; rfl

/-- A piece of work on the line in slot `i` (R77, R78). -/
theorem advanceLine_work (i : Fin 4) (s : State) : ∃ v : State,
    EngineWork (workedFrom (s.lineOf i) (s.atProgress .begun) s.eng.progress) v ∧
      advanceLine i s = v.atProgress (advance (s.lineOf i) (s.atProgress .begun) s.eng.progress).1 :=
  ⟨_, advance_work _ _ _, rfl⟩

/-- Publishing a line (R62, R78): what is left of the stages, the tables published with the line, the slot freed. -/
theorem publishLine_work (i : Fin 4) (s : State) : ∃ v : State,
    EngineWork (workedFrom (s.lineOf i) (s.atProgress .begun) s.eng.progress) v ∧
      publishLine i s = freeSlot i { v with
        eng := { v.eng with
          pub := v.eng.work, lastLine := some ((s.asm.slots.get i).line, (s.asm.slots.get i).w) } } :=
  ⟨_, finish_work _ _ _, rfl⟩

/-- The completion of a stop (R171): the closes, published, the tracker OFF, DISARMED, IDLE, a swap point. -/
theorem completeStop_work (s : State) : ∃ v : State, EngineWork s v ∧
    completeStop s = swapPoint
      (let u : State := appendEvent .disarmed v.rcp.stopBy
        { v with eng := { v.eng with pub := v.eng.work }, trk := v.trk.stopped }
       { u with rcp := { u.rcp with run := .idle } }) :=
  ⟨_, stopCloses_work s, rfl⟩

end Sys2Proof.Machine
end

