-- ==== Sys2Proof/Laws/Lookups.lean ====
section
/-! SUPPORT. What the engine finds: the slot in work, the oldest slot, a slot's copy, the lane of a cell. -/

namespace Sys2Proof.Machine

/-- The one slot that meets a condition is found. -/
theorem findSlot (s : State) (p : Slot → Bool) (i : Fin 4) (h : p (s.asm.slots.get i) = true)
    (hj : ∀ j, j ≠ i → p (s.asm.slots.get j) = false) :
    ([0, 1, 2, 3] : List (Fin 4)).find? (fun i => p (s.asm.slots.get i)) = some i := by
  match i, h, hj with
  | 0, h, hj => simp [List.find?, h]
  | 1, h, hj => simp [List.find?, h, hj 0 (by decide)]
  | 2, h, hj => simp [List.find?, h, hj 0 (by decide), hj 1 (by decide)]
  | 3, h, hj => simp [List.find?, h, hj 0 (by decide), hj 1 (by decide), hj 2 (by decide)]

/-- The one slot IN_WORK is found. -/
theorem slotInWork_eq {s : State} {i : Fin 4} (h : (s.asm.slots.get i).state = .inWork)
    (hj : ∀ j, j ≠ i → (s.asm.slots.get j).state ≠ .inWork) : s.slotInWork = some i := by
  unfold State.slotInWork
  exact findSlot s (fun x => x.state == .inWork) i (by simpa using h) fun j hji => by simpa using hj j hji

/-- None is found exactly when no slot is IN_WORK. -/
theorem slotInWork_none {s : State} : s.slotInWork = none ↔ ∀ j, (s.asm.slots.get j).state ≠ .inWork := by
  unfold State.slotInWork; rw [List.find?_eq_none]
  constructor
  · intro h j; have := h j (by fin_cases j <;> simp); simpa using this
  · intro h j _; simpa using h j

/-- The occupied slot with the lowest opening rank is the oldest. -/
theorem oldestSlot_eq {s : State} {i : Fin 4} (h : (s.asm.slots.get i).state ≠ .free)
    (hj : ∀ j, j ≠ i → (s.asm.slots.get j).state ≠ .free → (s.asm.slots.get i).rank < (s.asm.slots.get j).rank) :
    s.oldestSlot = some i := by
  unfold State.oldestSlot
  -- invariant: best is none (i not seen) or rank i ≤ rank best
  have key : ∀ (l : List (Fin 4)) (b : Option (Fin 4)),
      (b = some i ∨ (i ∈ l ∧ (b = none ∨ ∃ j, b = some j ∧ j ≠ i ∧ (s.asm.slots.get j).state ≠ .free))) →
      l.foldl (olderSlot s) b = some i := by
    intro l
    induction l with
    | nil => intro b hb; rcases hb with hb | ⟨hb, _⟩; exact hb; simp at hb
    | cons a l ih =>
      intro b hb
      simp only [List.foldl_cons]
      apply ih
      unfold olderSlot
      rcases hb with rfl | ⟨hm, hb⟩
      · left
        split
        · rfl
        · rename_i ha
          by_cases hai : a = i
          · subst hai; simp
          · have := hj a hai ha; simp; omega
      · by_cases hai : a = i
        · subst hai
          left
          rw [if_neg h]
          rcases hb with rfl | ⟨j, rfl, hji, hjf⟩
          · rfl
          · simp [hj j hji hjf]
        · right
          refine ⟨by rcases List.mem_cons.mp hm with h1 | h1; exact absurd h1.symm hai; exact h1, ?_⟩
          split
          · exact hb
          · rename_i ha
            rcases hb with rfl | ⟨j, rfl, hji, hjf⟩
            · right; exact ⟨a, rfl, hai, ha⟩
            · right; simp only; split
              · exact ⟨a, rfl, hai, ha⟩
              · exact ⟨j, rfl, hji, hjf⟩
  exact key _ none (.inr ⟨by fin_cases i <;> simp, .inl rfl⟩)

/-- An empty table has no slot that meets a condition. -/
theorem slotsWhere_none {α : Type} (p : α → Bool) (t : List (Option α)) (h : ∀ o ∈ t, o = none) :
    slotsWhere p t = [] := by
  unfold slotsWhere
  rw [List.filterMap_eq_nil_iff]
  intro x hx
  have := h x.1 (List.fst_mem_of_mem_zipIdx hx)
  obtain ⟨a, b⟩ := x; simp at this; subst this; rfl

/-- The copy a slot refers to. -/
theorem copyOf_eq {s : State} {x : Slot} {r : Recipe}
    (h : x.copy = .active ∧ r = s.rcp.active ∨ x.copy = .retiring ∧ s.rcp.retiring = some r) : s.copyOf x.copy = r := by
  rcases h with ⟨h, rfl⟩ | ⟨h, h1⟩ <;> simp [h, State.copyOf]
  rw [h1]; rfl

/-- The lane of a cell is the first enabled lane that holds it, if one does. -/
theorem laneOf_spec (r : Recipe) (hr : r.lanes.length = 16) (c : Nat) :
    (r.laneOf c = none ↔ ∀ l, l < 16 → (r.lane l).holds c = false) ∧
      ∀ l, r.laneOf c = some l ↔
        l < 16 ∧ (r.lane l).holds c = true ∧ ∀ k, k < l → (r.lane k).holds c = false := by
  have hl : ∀ l (h : l < 16), r.lane l = r.lanes[l]'(by omega) := by
    intro l h; unfold Recipe.lane; rw [List.getD_eq_getElem?_getD, List.getElem?_eq_getElem (by omega)]; rfl
  refine ⟨?_, fun l => ?_⟩
  · unfold Recipe.laneOf; rw [List.findIdx?_eq_none_iff]
    constructor
    · intro h l hl'; rw [hl l hl']; exact h _ (List.getElem_mem _)
    · intro h x hx
      obtain ⟨i, hi, rfl⟩ := List.getElem_of_mem hx
      have := h i (by omega); rwa [hl i (by omega)] at this
  · unfold Recipe.laneOf; rw [List.findIdx?_eq_some_iff_getElem]
    constructor
    · rintro ⟨h, h1, h2⟩
      refine ⟨by omega, by rw [hl l (by omega)]; exact h1, fun k hk => ?_⟩
      rw [hl k (by omega)]; simpa using h2 k hk
    · rintro ⟨h, h1, h2⟩
      refine ⟨by omega, by rwa [hl l h] at h1, fun k hk => ?_⟩
      have := h2 k hk; rw [hl k (by omega)] at this; simp [this]

/-- When a lane holds a cell. -/
theorem LaneEntry.holds_iff (l : LaneEntry) (c : Nat) :
    l.holds c = true ↔ l.enabled = 1 ∧ l.first ≤ c ∧ c ≤ l.last := by
  simp [LaneEntry.holds, and_assoc]

/-- When a lane does not hold a cell. -/
theorem LaneEntry.holds_not (l : LaneEntry) (c : Nat) :
    l.holds c = false ↔ (l.enabled = 1 → c < l.first ∨ l.last < c) := by
  rw [← Bool.not_eq_true, LaneEntry.holds_iff]; constructor
  · intro h h1; by_contra hc; exact h ⟨h1, by omega, by omega⟩
  · rintro h ⟨h1, h2, h3⟩; have := h h1; omega

end Sys2Proof.Machine
end

