-- ==== Sys2Proof/Laws/Closes.lean ====
section
/-! SUPPORT. The appends of the engine's work as lists, and what the closes of streaks and candidates do (R110, R111,
R130, R131): the records they append, the slots they empty, what they leave. -/

namespace Sys2Proof.Machine

/-! ### Appends in order -/

theorem pushAll_append (l : DefectList) (xs ys : List (Nat × RecordBody)) :
    l.pushAll (xs ++ ys) = (l.pushAll xs).pushAll ys := List.foldl_append

theorem pushAll_nil (l : DefectList) : l.pushAll [] = l := rfl

theorem pushAll_one (l : DefectList) (w : Nat) (b : RecordBody) : l.pushAll [(w, b)] = l.push w b := rfl

/-- Of at most 512 appends every record is retained. -/
theorem pushAll_retained (l : DefectList) (xs : List (Nat × RecordBody)) (h : xs.length ≤ 512) :
    ∀ x ∈ xs, ∃ q ∈ (l.pushAll xs).records, q.w = x.1 ∧ q.body = x.2 := by
  suffices key : ∀ x ∈ xs, ∃ q ∈ (l.pushAll xs).records.reverse.take xs.length, q.w = x.1 ∧ q.body = x.2 by
    intro x hx
    obtain ⟨q, hq, h1⟩ := key x hx
    exact ⟨q, by simpa using List.mem_of_mem_take hq, h1⟩
  induction xs using List.reverseRecOn with
  | nil => simp
  | append_singleton xs y ih =>
    rw [List.length_append, List.length_singleton] at h
    intro x hx
    rw [pushAll_append, pushAll_one, push_eq]
    simp only [List.reverse_append, List.reverse_cons, List.reverse_nil, List.nil_append, List.singleton_append,
      List.length_append, List.length_singleton, List.take_succ_cons, List.mem_cons]
    rcases List.mem_append.mp hx with hx | hx
    · obtain ⟨q, hq, h1⟩ := ih (by omega) x hx
      refine ⟨q, .inr ?_, h1⟩
      split
      · rwa [List.reverse_drop, List.take_take, Nat.min_eq_left]
        omega
      · exact hq
    · rw [List.mem_singleton] at hx
      exact ⟨_, .inl rfl, by rw [hx]; exact ⟨rfl, rfl⟩⟩

/-- Handing a mark action appends events at most. -/
theorem handAction_pushes (m : Marker) (f : MarkerFields) (r patch : Nat) (s : State) :
    ∃ ys, (handAction m f r patch s).list = s.list.pushAll ys ∧ ys.length ≤ 1 ∧
      ∀ y ∈ ys, ∃ c n, y.2 = .event c n := by
  rw [handAction_frame, enterAction_eq]
  dsimp only
  split
  · exact ⟨[(s.pos.w, .event .markQueueFull m.num)], rfl, by simp, by simp⟩
  · exact ⟨[], rfl, by simp, by simp⟩

/-- Handing a mark action leaves the engine's tables. -/
theorem handAction_tables (m : Marker) (f : MarkerFields) (r patch : Nat) (s : State) :
    (handAction m f r patch s).eng.work = s.eng.work := by rw [handAction_frame]

/-- The contributions of a mark action: a late mark of its patch at most. -/
theorem handAction_contribs (m : Marker) (f : MarkerFields) (r patch : Nat) (s : State) :
    (handAction m f r patch s).eng.contribs = s.eng.contribs ∨
      (handAction m f r patch s).eng.contribs = s.eng.contribs ++ [.lateMark patch] := by
  simp only [handAction]
  rw [enterAction_eq]; dsimp only; split <;> split <;> first | exact .inl rfl | exact .inr rfl

/-- Reporting a pinhole leaves the engine's tables. -/
theorem reportPinhole_tables (markers : Marker → MarkerFields) (k : Candidate) (how : PinEnd) (s : State) :
    (reportPinhole markers k how s).eng.work = s.eng.work := by
  unfold reportPinhole; dsimp only; split
  · rw [handAction_tables]; rfl
  · rfl

/-- Reporting a pinhole appends its record, and events of its mark action after it. -/
theorem reportPinhole_pushes (markers : Marker → MarkerFields) (k : Candidate) (how : PinEnd) (s : State) :
    ∃ ys, (reportPinhole markers k how s).list = s.list.pushAll ((k.firstW, k.closeBody how) :: ys) ∧
      ys.length ≤ 1 ∧ ∀ y ∈ ys, ∃ c n, y.2 = .event c n := by
  unfold reportPinhole; dsimp only; split
  · rename_i m _
    exact handAction_pushes m (markers m) k.firstW k.patch
      (contribute (.pinhole k.patch) (append k.firstW (k.closeBody how) s))
  · exact ⟨[], rfl, by simp, by simp⟩

/-- Reporting a pinhole counts it for its patch, and a late mark of its mark action. -/
theorem reportPinhole_contribs (markers : Marker → MarkerFields) (k : Candidate) (how : PinEnd) (s : State) :
    (reportPinhole markers k how s).eng.contribs = s.eng.contribs ++ [.pinhole k.patch] ∨
      k.target ≠ none ∧
        (reportPinhole markers k how s).eng.contribs = s.eng.contribs ++ [.pinhole k.patch, .lateMark k.patch] := by
  unfold reportPinhole; dsimp only; split
  · rename_i m hm
    rcases handAction_contribs m (markers m) k.firstW k.patch
      (contribute (.pinhole k.patch) (append k.firstW (k.closeBody how) s)) with h | h
    · exact .inl h
    · exact .inr ⟨by rw [hm]; simp, by rw [h]; simp [contribute]⟩
  · exact .inl rfl

/-! ### Mark actions of the engine (R151, R153) -/

/-- An action due at none of its marker's entries, with room in the queue, is entered alone (R153 to R156). -/
theorem enter_alone {k : Scheduler} {w : Nat} {m : Marker} {start width spacing : Nat} (hcap : k.queue.length < 32)
    (hq : ∀ e ∈ k.queue, e.marker ≠ m ∧ w < e.stop) (hpos : 1 ≤ width) :
    k.enter w m start width spacing =
      ({ k with
          queue := insertMark ⟨m, dueStart w start, dueStart w start + width, k.nextRank⟩ k.queue
          nextRank := k.nextRank + 1
          mk0 := markActive .mk0 w (insertMark ⟨m, dueStart w start, dueStart w start + width, k.nextRank⟩ k.queue)
          mk1 := markActive .mk1 w (insertMark ⟨m, dueStart w start, dueStart w start + width, k.nextRank⟩ k.queue) },
        ⟨.entered, dueStart w start, dueStart w start + width, decide (start ≤ w)⟩) := by
  have hno : lowestRank (k.queue.filter fun e => e.hit m spacing (dueStart w start) (dueStart w start + width)) =
      none := by
    rw [lowestRank_none, List.filter_eq_nil_iff]
    intro e he
    simp [MarkEntry.hit, (hq e he).1]
  have hlive : ∀ e ∈ insertMark ⟨m, dueStart w start, dueStart w start + width, k.nextRank⟩ k.queue, w < e.stop := by
    intro e he
    rcases List.mem_cons.mp ((insertMark_perm _ _).mem_iff.mp he) with rfl | he
    · show w < dueStart w start + width
      unfold dueStart; split <;> omega
    · exact (hq e he).2
  unfold Scheduler.enter
  simp only [hno, markCapacity, hcap, if_true]
  rw [settle_of_live hlive]

/-- What an action of the engine counts: a late mark, if it is one. -/
theorem handAction_counts (m : Marker) (f : MarkerFields) (r patch : Nat) (s : State) :
    (handAction m f r patch s).eng.contribs = s.eng.contribs ++
      if (s.mark.enter s.pos.w m (r + f.offset) f.width f.spacing).2.isLate patch then [.lateMark patch] else [] := by
  simp only [handAction]
  rw [enterAction_eq]; dsimp only
  split <;> split <;> simp

/-- With room in the queue an action of the engine appends nothing. -/
theorem handAction_room {s : State} (h : s.mark.queue.length < 32) (m : Marker) (f : MarkerFields) (r patch : Nat) :
    (handAction m f r patch s).list = s.list ∧ (handAction m f r patch s).ports = s.ports := by
  have hd : (s.mark.enter s.pos.w m (r + f.offset) f.width f.spacing).2.outcome ≠ .dropped := by
    unfold Scheduler.enter; dsimp only
    split
    · simp
    · rw [if_pos (show s.mark.queue.length < markCapacity from h)]; simp
  rw [handAction_frame, enterAction_eq]
  dsimp only
  rw [if_neg (by simp [hd])]
  exact ⟨rfl, rfl⟩

/-- An action of the engine with room and none of its marker's entries in the queue: one entry more, at the record's W
plus the offset while that lies ahead, else at W as a late mark (R151, R153). -/
theorem handAction_alone (m : Marker) (f : MarkerFields) (r patch : Nat) {s : State} (hcap : s.mark.queue.length < 32)
    (hq : ∀ e ∈ s.mark.queue, e.marker ≠ m ∧ s.pos.w < e.stop) (hpos : 1 ≤ f.width)
    (hs : s.mark.queue.Pairwise MarkEntry.before) :
    ∃ (start : Nat) (k : Scheduler) (late : Bool),
      late = (s.mark.enter s.pos.w m (r + f.offset) f.width f.spacing).2.isLate patch ∧
      (s.pos.w < r + f.offset → start = r + f.offset ∧ late = false) ∧
      (r + f.offset ≤ s.pos.w → start = s.pos.w ∧ (late = true ↔ patch ≠ 0)) ∧
      k.queue.Perm (⟨m, start, start + f.width, s.mark.nextRank⟩ :: s.mark.queue) ∧
      k.queue.Pairwise (fun e g => e.start ≤ g.start) ∧
      k = { s.mark with
        queue := k.queue, nextRank := s.mark.nextRank + 1
        late := if late then min (s.mark.late + 1) 65535 else s.mark.late
        mk0 := k.queue.any fun e => decide (e.marker = .mk0 ∧ e.covers s.pos.w)
        mk1 := k.queue.any fun e => decide (e.marker = .mk1 ∧ e.covers s.pos.w) } ∧
      handAction m f r patch s = { s with
        mark := k
        eng := { s.eng with contribs := s.eng.contribs ++ if late then [.lateMark patch] else [] } } := by
  have he := enter_alone (w := s.pos.w) (start := r + f.offset) (spacing := f.spacing) hcap hq hpos
  refine ⟨dueStart s.pos.w (r + f.offset), (handAction m f r patch s).mark, _, rfl, fun h => ?_, fun h => ?_, ?_, ?_,
    ?_, ?_⟩
  · rw [he]; simp [dueStart, MarkResult.isLate, Nat.not_le.mpr h]
  · rw [he]; simp [dueStart, MarkResult.isLate, h]
  · rw [handAction_frame, enterAction_mark, he]; exact insertMark_perm _ _
  · rw [handAction_frame, enterAction_mark, he]
    refine (insertMark_sorted _ hs).imp ?_
    intro a b hab
    rcases hab with h | h <;> omega
  · rw [handAction_frame, enterAction_mark, he]
    simp only [lateAfter, bump, maxCount, markActive_eq]
  · obtain ⟨h1, h2⟩ := handAction_room hcap m f r patch
    have h3 := handAction_counts m f r patch s
    have hf := handAction_frame m f r patch s
    generalize handAction m f r patch s = t at *
    rw [hf]
    rw [h3]
    have hl : (enterAction m (r + f.offset) f.width f.spacing patch s).1.list = s.list := by
      rw [hf] at h1; exact h1
    have hp : (enterAction m (r + f.offset) f.width f.spacing patch s).1.ports = s.ports := by
      rw [hf] at h2; exact h2
    rw [hl, hp]

/-! ### Tables of slots -/

theorem mem_slotsWhere {α : Type} (p : α → Bool) (t : List (Option α)) (i : Nat) :
    i ∈ slotsWhere p t ↔ ∃ a, t[i]? = some (some a) ∧ p a = true := by
  unfold slotsWhere
  simp only [List.mem_filterMap]
  constructor
  · rintro ⟨⟨o, j⟩, hx, h⟩
    rw [List.mk_mem_zipIdx_iff_getElem?] at hx
    cases o with
    | none => simp at h
    | some a =>
      simp only [Option.ite_none_right_eq_some, Option.some.injEq] at h
      obtain ⟨h1, rfl⟩ := h
      exact ⟨a, hx, h1⟩
  · rintro ⟨a, h, h1⟩
    exact ⟨(some a, i), by rw [List.mk_mem_zipIdx_iff_getElem?]; exact h, by simp [h1]⟩

theorem slotsWhere_nodup {α : Type} (p : α → Bool) (t : List (Option α)) : (slotsWhere p t).Nodup := by
  unfold slotsWhere
  have h : (t.zipIdx).Pairwise fun x y => x.2 ≠ y.2 := by
    have h := List.nodup_range' (s := 0) (n := t.length) (step := 1)
    rw [← List.zipIdx_map_snd, List.Nodup, List.pairwise_map] at h
    exact h
  refine h.filterMap _ ?_
  rintro ⟨o, i⟩ ⟨o', i'⟩ hne b hb b' hb'
  cases o <;> cases o' <;> simp at hb hb'
  rw [← hb.2, ← hb'.2]; exact hne

theorem streakAgeOrder_perm (next : Nat) (t : List (Option Streak)) (slots : List Nat) :
    (streakAgeOrder next t slots).Perm slots := List.perm_insertionSort _ _

theorem candAgeOrder_perm (t : List (Option Candidate)) (slots : List Nat) :
    (candAgeOrder t slots).Perm slots := List.perm_insertionSort _ _

theorem entryAt_some {α : Type} {t : List (Option α)} {i : Nat} {a : α} :
    entryAt t i = some a ↔ t[i]? = some (some a) := by
  unfold entryAt
  rw [List.getD_eq_getElem?_getD]
  rcases t[i]? with _ | _ | b <;> simp

theorem entryAt_none {α : Type} {t : List (Option α)} {i : Nat} :
    entryAt t i = none ↔ ∀ a, t[i]? ≠ some (some a) := by
  constructor
  · intro h a ha; rw [entryAt_some.mpr ha] at h; simp at h
  · intro h
    cases hx : entryAt t i with
    | none => rfl
    | some a => exact absurd (entryAt_some.mp hx) (h a)

/-! ### The closes of streaks -/

theorem clearMembers_get (i : Nat) (cells : List CellRec) (c : Nat) :
    (clearMembers i cells)[c]? =
      cells[c]?.map fun q : CellRec => if q.member = some i then { q with member := none } else q := by
  simp [clearMembers]

/-- Closing streaks one after another (R92, R130, R131): each open one appends its STREAK_CLOSE record, leaves its slot
empty and loses its members; nothing else of the engine changes but the latch. -/
theorem closeStreak_fold (reason : CloseReason) (w : Nat) : ∀ (l : List Nat) (s : State), l.Nodup →
    ∃ (t : State) (xs : List (Nat × RecordBody)), l.foldl (fun s i => closeStreak i reason w s) s = t ∧
      t.list = s.list.pushAll xs ∧ (∀ x ∈ xs, ∃ b, x.2 = .streakClose b) ∧ xs.length ≤ l.length ∧
      (∀ i ∈ l, ∀ st, s.eng.work.streaks[i]? = some (some st) →
        (w, st.closeBody reason 0) ∈ xs ∧ t.eng.work.streaks[i]? = some none) ∧
      (∀ i, i ∉ l → t.eng.work.streaks[i]? = s.eng.work.streaks[i]?) ∧
      (∀ i ∈ l, s.eng.work.streaks[i]? = some none → t.eng.work.streaks[i]? = some none) ∧
      (∀ (c : Nat) (q : CellRec), s.eng.work.cells[c]? = some q → ∃ q', t.eng.work.cells[c]? = some q' ∧
        ((∃ i ∈ l, q.member = some i ∧ ∃ st, s.eng.work.streaks[i]? = some (some st)) →
          q' = { q with member := none }) ∧
        ((∀ i ∈ l, ∀ st, s.eng.work.streaks[i]? = some (some st) → q.member ≠ some i) → q' = q)) ∧
      t.eng = { s.eng with work := { s.eng.work with
        cells := t.eng.work.cells, streaks := t.eng.work.streaks, streakLatch := t.eng.work.streakLatch } } ∧
      t.mark = s.mark := by
  intro l
  induction l with
  | nil =>
    intro s _
    exact ⟨s, [], rfl, rfl, by simp, by simp, by simp, by simp, by simp, fun c q h => ⟨q, h, by simp, fun _ => rfl⟩,
      rfl, rfl⟩
  | cons a l ih =>
    intro s hn
    obtain ⟨hna, hnl⟩ := List.nodup_cons.mp hn
    obtain ⟨t, xs, h1, h2, h3, h3', h4, h5, h5', h6, h7, h8⟩ := ih (closeStreak a reason w s) hnl
    refine ⟨t, ?_⟩
    cases he : entryAt s.eng.work.streaks a with
    | none =>
      have hs : closeStreak a reason w s = s := by unfold closeStreak; rw [he]
      have hno := entryAt_none.mp he
      rw [hs] at h1 h2 h4 h5 h5' h6 h7 h8
      refine ⟨xs, by rw [List.foldl_cons, hs]; exact h1, h2, h3, by simp; omega, fun i hi st hst => ?_, fun i hi => ?_,
        fun i hi hst => ?_, fun c q hq => ?_, h7, h8⟩
      · rcases List.mem_cons.mp hi with rfl | hi
        · exact absurd hst (hno st)
        · exact h4 i hi st hst
      · exact h5 i fun h => hi (List.mem_cons_of_mem _ h)
      · rcases List.mem_cons.mp hi with rfl | hi
        · rw [h5 i hna]; exact hst
        · exact h5' i hi hst
      · obtain ⟨q', g1, g2, g3⟩ := h6 c q hq
        refine ⟨q', g1, fun ⟨i, hi, hm, hst⟩ => ?_, fun hx => g3 fun i hi => hx i (List.mem_cons_of_mem _ hi)⟩
        rcases List.mem_cons.mp hi with rfl | hi
        · obtain ⟨st, hst⟩ := hst; exact absurd hst (hno st)
        · exact g2 ⟨i, hi, hm, hst⟩
    | some st0 =>
      have hst0 := entryAt_some.mp he
      have hs : closeStreak a reason w s = closeStreakAs st0 a reason 0 w s := by unfold closeStreak; rw [he]
      rw [hs] at h1 h2 h4 h5 h5' h6 h7 h8
      have hset : ∀ i, (closeStreakAs st0 a reason 0 w s).eng.work.streaks[i]? =
          if i = a then some none else s.eng.work.streaks[i]? := by
        intro i
        show (s.eng.work.streaks.set a none)[i]? = _
        have hlt := (List.getElem?_eq_some_iff.mp hst0).1
        rw [List.getElem?_set]
        by_cases h : a = i
        · subst h; simp [hlt]
        · rw [if_neg h, if_neg (fun h' => h h'.symm)]
      refine ⟨(w, st0.closeBody reason 0) :: xs, by rw [List.foldl_cons, hs]; exact h1, ?_, ?_, by simp; omega,
        fun i hi st hst => ?_, fun i hi => ?_, fun i hi hst => ?_, fun c q hq => ?_, ?_, h8⟩
      · rw [h2]; rfl
      · intro x hx
        rcases List.mem_cons.mp hx with rfl | hx
        · exact ⟨_, rfl⟩
        · exact h3 x hx
      · rcases List.mem_cons.mp hi with rfl | hi
        · rw [hst0] at hst; cases hst
          refine ⟨List.mem_cons_self .., ?_⟩
          rw [h5 i hna, hset, if_pos rfl]
        · have hia : i ≠ a := fun h => hna (h ▸ hi)
          obtain ⟨g1, g2⟩ := h4 i hi st (by rw [hset, if_neg hia]; exact hst)
          exact ⟨List.mem_cons_of_mem _ g1, g2⟩
      · have hia : i ≠ a := fun h => hi (h ▸ List.mem_cons_self ..)
        rw [h5 i fun h => hi (List.mem_cons_of_mem _ h), hset, if_neg hia]
      · rcases List.mem_cons.mp hi with rfl | hi
        · rw [hst0] at hst; simp at hst
        · have hia : i ≠ a := fun h => hna (h ▸ hi)
          exact h5' i hi (by rw [hset, if_neg hia]; exact hst)
      · have hcl : (closeStreakAs st0 a reason 0 w s).eng.work.cells[c]? =
            some (if q.member = some a then { q with member := none } else q) := by
          show (clearMembers a s.eng.work.cells)[c]? = _
          rw [clearMembers_get, hq]; rfl
        obtain ⟨q', g1, g2, g3⟩ := h6 c _ hcl
        refine ⟨q', g1, fun ⟨i, hi, hm, st, hst⟩ => ?_, fun hx => ?_⟩
        · by_cases hqa : q.member = some a
          · rw [if_pos hqa] at g3
            exact g3 fun j _ _ _ => by simp
          · rw [if_neg hqa] at g2
            have hia : i ≠ a := fun h => hqa (h ▸ hm)
            rcases List.mem_cons.mp hi with h | hi
            · exact absurd h hia
            · exact g2 ⟨i, hi, hm, st, by rw [hset, if_neg hia]; exact hst⟩
        · have hqa : q.member ≠ some a := hx a (List.mem_cons_self ..) st0 hst0
          rw [if_neg hqa] at g3
          refine g3 fun i hi st hst => ?_
          rw [hset] at hst
          split at hst
          · simp at hst
          · exact hx i (List.mem_cons_of_mem _ hi) st hst
      · rw [h7]; rfl

/-! ### The closes of candidates -/

/-- Closing candidates one after another (R110, R111, R112): each open one appends its PINHOLE record, is counted for
its patch and leaves its slot empty; of the tables nothing else changes but the latch. -/
theorem closeCand_fold (markers : Marker → MarkerFields) (how : PinEnd) : ∀ (l : List Nat) (s : State), l.Nodup →
    ∃ (t : State) (xs : List (Nat × RecordBody)) (cs : List Contribution),
      l.foldl (closeCand markers how) s = t ∧ t.list = s.list.pushAll xs ∧
      (∀ x ∈ xs, ∀ b, x.2 ≠ .streakClose b) ∧ xs.length ≤ 2 * l.length ∧
      (∀ i ∈ l, ∀ k, s.eng.work.cands[i]? = some (some k) →
        (k.firstW, k.closeBody how) ∈ xs ∧ t.eng.work.cands[i]? = some none) ∧
      (∀ i, i ∉ l → t.eng.work.cands[i]? = s.eng.work.cands[i]?) ∧
      (∀ i ∈ l, s.eng.work.cands[i]? = some none → t.eng.work.cands[i]? = some none) ∧
      t.eng.work = { s.eng.work with cands := t.eng.work.cands, candLatch := t.eng.work.candLatch } ∧
      t.eng.contribs = s.eng.contribs ++ cs ∧
      (∀ p, cs.countP (· == .pinhole p) =
        l.countP fun i => (entryAt s.eng.work.cands i).any fun k => k.patch == p) ∧
      (∀ p, .streakOpen p ∉ cs) ∧
      ((∀ i ∈ l, ∀ k, s.eng.work.cands[i]? = some (some k) → k.target = none) → ∀ p, .lateMark p ∉ cs) := by
  intro l
  induction l with
  | nil =>
    intro s _
    exact ⟨s, [], [], rfl, rfl, by simp, by simp, by simp, by simp, by simp, rfl, by simp, by simp, by simp, by simp⟩
  | cons a l ih =>
    intro s hn
    obtain ⟨hna, hnl⟩ := List.nodup_cons.mp hn
    obtain ⟨t, xs, cs, h1, h2, h3, h3', h4, h5, h5', h6, h7, h8, h9, h10⟩ := ih (closeCand markers how s a) hnl
    cases he : entryAt s.eng.work.cands a with
    | none =>
      have hs : closeCand markers how s a = s := by unfold closeCand; rw [he]
      have hno := entryAt_none.mp he
      rw [hs] at h1 h2 h4 h5 h5' h6 h7 h8 h10
      refine ⟨t, xs, cs, by rw [List.foldl_cons, hs]; exact h1, h2, h3, by simp; omega, fun i hi k hk => ?_,
        fun i hi => ?_, fun i hi hk => ?_, h6, h7, fun p => ?_, h9,
        fun hx => h10 fun i hi => hx i (List.mem_cons_of_mem _ hi)⟩
      · rcases List.mem_cons.mp hi with rfl | hi
        · exact absurd hk (hno k)
        · exact h4 i hi k hk
      · exact h5 i fun h => hi (List.mem_cons_of_mem _ h)
      · rcases List.mem_cons.mp hi with rfl | hi
        · rw [h5 i hna]; exact hk
        · exact h5' i hi hk
      · rw [h8 p, List.countP_cons, he]; rfl
    | some k0 =>
      have hk0 := entryAt_some.mp he
      have hs : closeCand markers how s a = reportPinhole markers k0 how (dropCand a s) := by
        unfold closeCand; rw [he]
      have hlt := (List.getElem?_eq_some_iff.mp hk0).1
      have hw : (closeCand markers how s a).eng.work =
          { s.eng.work with cands := s.eng.work.cands.set a none, candLatch := false } := by
        rw [hs, reportPinhole_tables]; rfl
      have hset : ∀ i, (closeCand markers how s a).eng.work.cands[i]? =
          if i = a then some none else s.eng.work.cands[i]? := by
        intro i
        rw [hw]
        show (s.eng.work.cands.set a none)[i]? = _
        rw [List.getElem?_set]
        by_cases h : a = i
        · subst h; simp [hlt]
        · rw [if_neg h, if_neg (fun h' => h h'.symm)]
      obtain ⟨ys, p1, p3, p2⟩ := reportPinhole_pushes markers k0 how (dropCand a s)
      have hcs : ∃ ds, (closeCand markers how s a).eng.contribs = s.eng.contribs ++ ds ∧
          (∀ p, ds.countP (· == .pinhole p) = if k0.patch == p then 1 else 0) ∧ (∀ p, .streakOpen p ∉ ds) ∧
          (k0.target = none → ∀ p, .lateMark p ∉ ds) ∧ True := by
        rw [hs]
        rcases reportPinhole_contribs markers k0 how (dropCand a s) with h | ⟨ht, h⟩
        · refine ⟨[.pinhole k0.patch], h, fun p => ?_, by simp, by simp, trivial⟩
          by_cases hp : k0.patch = p <;> simp [hp]
        · refine ⟨[.pinhole k0.patch, .lateMark k0.patch], h, fun p => ?_, by simp, fun h => absurd h ht, trivial⟩
          by_cases hp : k0.patch = p <;> simp [hp]
      obtain ⟨ds, d1, d2, d3, d4, -⟩ := hcs
      have hent : ∀ i ∈ l, entryAt (closeCand markers how s a).eng.work.cands i = entryAt s.eng.work.cands i := by
        intro i hi
        have hia : i ≠ a := fun h => hna (h ▸ hi)
        unfold entryAt
        rw [List.getD_eq_getElem?_getD, List.getD_eq_getElem?_getD, hset, if_neg hia]
      refine ⟨t, (k0.firstW, k0.closeBody how) :: (ys ++ xs), ds ++ cs, by rw [List.foldl_cons]; exact h1, ?_, ?_, ?_,
        fun i hi k hk => ?_, fun i hi => ?_, fun i hi hk => ?_, ?_, ?_, fun p => ?_, fun p hp => ?_, fun hx p hp => ?_⟩
      · rw [h2, hs, p1]
        rw [← List.cons_append, pushAll_append]; rfl
      · intro x hx b
        rcases List.mem_cons.mp hx with rfl | hx
        · simp [Candidate.closeBody]
        · rcases List.mem_append.mp hx with hx | hx
          · obtain ⟨c, n, hc⟩ := p2 x hx; rw [hc]; simp
          · exact h3 x hx b
      · simp only [List.length_cons, List.length_append]; omega
      · rcases List.mem_cons.mp hi with rfl | hi
        · rw [hk0] at hk; cases hk
          refine ⟨List.mem_cons_self .., ?_⟩
          rw [h5 i hna, hset, if_pos rfl]
        · have hia : i ≠ a := fun h => hna (h ▸ hi)
          obtain ⟨g1, g2⟩ := h4 i hi k (by rw [hset, if_neg hia]; exact hk)
          exact ⟨List.mem_cons_of_mem _ (List.mem_append_right _ g1), g2⟩
      · have hia : i ≠ a := fun h => hi (h ▸ List.mem_cons_self ..)
        rw [h5 i fun h => hi (List.mem_cons_of_mem _ h), hset, if_neg hia]
      · rcases List.mem_cons.mp hi with rfl | hi
        · rw [hk0] at hk; simp at hk
        · have hia : i ≠ a := fun h => hna (h ▸ hi)
          exact h5' i hi (by rw [hset, if_neg hia]; exact hk)
      · rw [h6, hw]
      · rw [h7, d1, List.append_assoc]
      · rw [List.countP_append, d2, h8, List.countP_cons, he]
        have : (l.countP fun i => (entryAt (closeCand markers how s a).eng.work.cands i).any fun k => k.patch == p) =
            l.countP fun i => (entryAt s.eng.work.cands i).any fun k => k.patch == p :=
          List.countP_congr fun i hi => by rw [hent i hi]
        rw [this]
        simp only [Option.any_some]
        omega
      · rcases List.mem_append.mp hp with hp | hp
        · exact d3 p hp
        · exact h9 p hp
      · rcases List.mem_append.mp hp with hp | hp
        · exact d4 (hx a (List.mem_cons_self ..) k0 hk0) p hp
        · refine h10 (fun i hi k hk => ?_) p hp
          have hia : i ≠ a := fun h => hna (h ▸ hi)
          rw [hset, if_neg hia] at hk
          exact hx i (List.mem_cons_of_mem _ hi) k hk

/-! ### The tally's counts (R32) -/

/-- Contributions raise the counts of the tally of their patch, and nothing else of it. -/
theorem addAll_eq (cs : List Contribution) : ∀ t : Tally,
    t.addAll cs = { t with
      pinholes := (t.addAll cs).pinholes, streakOpens := (t.addAll cs).streakOpens
      lateMarks := (t.addAll cs).lateMarks } ∧
    (t.pinholes ≤ 65535 → (t.addAll cs).pinholes = min (t.pinholes + cs.countP (· == .pinhole t.num)) 65535) ∧
    ((∀ p, Contribution.streakOpen p ∉ cs) → (t.addAll cs).streakOpens = t.streakOpens) ∧
    ((∀ p, Contribution.lateMark p ∉ cs) → (t.addAll cs).lateMarks = t.lateMarks) := by
  induction cs with
  | nil => intro t; exact ⟨rfl, fun h => by simp [Tally.addAll, h], fun _ => rfl, fun _ => rfl⟩
  | cons c cs ih =>
    intro t
    have hadd : t.addAll (c :: cs) = (t.add c).addAll cs := rfl
    have hnum : (t.add c).num = t.num := by unfold Tally.add; split <;> (try split) <;> rfl
    obtain ⟨h1, h2, h3, h4⟩ := ih (t.add c)
    rw [hadd]
    refine ⟨?_, fun h => ?_, fun h => ?_, fun h => ?_⟩
    · rw [h1]; unfold Tally.add; split <;> (try split) <;> rfl
    · rw [hnum] at h2
      rw [List.countP_cons]
      cases c with
      | pinhole p =>
        by_cases hp : p = t.num
        · have e : (t.add (.pinhole p)).pinholes = bump t.pinholes := by simp [Tally.add, Contribution.patch, hp]
          rw [h2 (by rw [e]; exact bump_le _), e]
          simp [hp, bump, maxCount]; omega
        · have e : (t.add (.pinhole p)).pinholes = t.pinholes := by simp [Tally.add, Contribution.patch, hp]
          rw [h2 (by rw [e]; exact h), e]
          simp [hp]
      | streakOpen p =>
        have e : (t.add (.streakOpen p)).pinholes = t.pinholes := by unfold Tally.add; split <;> rfl
        rw [h2 (by rw [e]; exact h), e]; simp
      | lateMark p =>
        have e : (t.add (.lateMark p)).pinholes = t.pinholes := by unfold Tally.add; split <;> rfl
        rw [h2 (by rw [e]; exact h), e]; simp
    · rw [h3 fun p hp => h p (List.mem_cons_of_mem _ hp)]
      unfold Tally.add
      split
      · cases c with
        | streakOpen p => exact absurd (List.mem_cons_self ..) (h p)
        | pinhole p => rfl
        | lateMark p => rfl
      · rfl
    · rw [h4 fun p hp => h p (List.mem_cons_of_mem _ hp)]
      unfold Tally.add
      split
      · cases c with
        | lateMark p => exact absurd (List.mem_cons_self ..) (h p)
        | pinhole p => rfl
        | streakOpen p => rfl
      · rfl

/-! ### Resets (R94, R110, R130) -/

theorem resetCells_get (covers : Nat → Bool) (cells : List CellRec) (c : Nat) :
    (resetCells covers cells)[c]? = cells[c]?.map fun q => if covers c then CellRec.blank else q := by
  simp only [resetCells, List.getElem?_map, List.getElem?_zipIdx, Option.map_map, Nat.zero_add]
  rfl

/-- A reset with its closes: what it appends, the slots it empties, the records it resets, the members it clears. -/
theorem applyReset_spec (markers : Marker → MarkerFields) (reason : CloseReason) (w : Nat) (covers : Nat → Bool)
    {streaks cands : List Nat} (hs : streaks.Nodup) (hc : cands.Nodup) (s : State) :
    ∃ (t : State) (xs : List (Nat × RecordBody)), applyReset markers reason w covers streaks cands s = t ∧
      t.list = s.list.pushAll xs ∧
      (∀ i ∈ streaks, ∀ st, s.eng.work.streaks[i]? = some (some st) →
        (w, st.closeBody reason 0) ∈ xs ∧ t.eng.work.streaks[i]? = some none) ∧
      (∀ i, i ∉ streaks → t.eng.work.streaks[i]? = s.eng.work.streaks[i]?) ∧
      (∀ i ∈ cands, ∀ k, s.eng.work.cands[i]? = some (some k) →
        (k.firstW, k.closeBody .cut) ∈ xs ∧ t.eng.work.cands[i]? = some none) ∧
      (∀ i, i ∉ cands → t.eng.work.cands[i]? = s.eng.work.cands[i]?) ∧
      ∀ (c : Nat) (q : CellRec), s.eng.work.cells[c]? = some q → ∃ q', t.eng.work.cells[c]? = some q' ∧
        (covers c = true → q' = CellRec.blank) ∧
        (covers c = false → (∃ i ∈ streaks, q.member = some i ∧ ∃ st, s.eng.work.streaks[i]? = some (some st)) →
          q' = { q with member := none }) ∧
        (covers c = false → (∀ i ∈ streaks, ∀ st, s.eng.work.streaks[i]? = some (some st) → q.member ≠ some i) →
          q' = q) := by
  have p1 := streakAgeOrder_perm s.list.next s.eng.work.streaks streaks
  obtain ⟨u, xs, h1, h2, -, -, h4, h5, -, h6, h7, -⟩ :=
    closeStreak_fold reason w (streakAgeOrder s.list.next s.eng.work.streaks streaks) s (p1.nodup_iff.mpr hs)
  have hu : closeStreaks streaks reason w s = u := h1
  have p2 := candAgeOrder_perm u.eng.work.cands cands
  obtain ⟨v, ys, cs, g1, g2, -, -, g4, g5, -, g6, -, -, -, -⟩ :=
    closeCand_fold markers .cut (candAgeOrder u.eng.work.cands cands) u (p2.nodup_iff.mpr hc)
  have hv : closeCands markers .cut cands u = v := g1
  have huc : u.eng.work.cands = s.eng.work.cands := by rw [h7]
  have hvs : v.eng.work.streaks = u.eng.work.streaks := by rw [g6]
  have hvc : v.eng.work.cells = u.eng.work.cells := by rw [g6]
  rw [huc] at g4 g5 p2
  refine ⟨_, xs ++ ys, rfl, ?_, fun i hi st hst => ?_, fun i hi => ?_, fun i hi k hk => ?_, fun i hi => ?_,
    fun c q hq => ?_⟩
  all_goals unfold applyReset; simp only [hu, hv, State.withWork]
  · rw [g2, h2, pushAll_append]
  · rw [hvs]
    obtain ⟨a, b⟩ := h4 i (p1.mem_iff.mpr hi) st hst
    exact ⟨List.mem_append_left _ a, b⟩
  · rw [hvs]; exact h5 i fun h => hi (p1.mem_iff.mp h)
  · obtain ⟨a, b⟩ := g4 i (p2.mem_iff.mpr hi) k hk
    exact ⟨List.mem_append_right _ a, b⟩
  · exact g5 i fun h => hi (p2.mem_iff.mp h)
  · obtain ⟨q', a, b, d⟩ := h6 c q hq
    refine ⟨if covers c then CellRec.blank else q', by rw [resetCells_get, hvc, a]; rfl, fun h => by rw [if_pos h],
      fun h hx => ?_, fun h hx => ?_⟩
    · rw [if_neg (by rw [h]; decide)]
      exact b (by obtain ⟨i, hi, hm⟩ := hx; exact ⟨i, p1.mem_iff.mpr hi, hm⟩)
    · rw [if_neg (by rw [h]; decide)]
      exact d fun i hi => hx i (p1.mem_iff.mp hi)

end Sys2Proof.Machine
end

