-- ==== Sys2Proof/Laws/StreakStage.lean ====
section
/-! SUPPORT. Stage 3 of the line operation, step by step (R123 to R128): what extending the components, the fates of the
streaks and the lone runs do to the table, to the membership of the cells and to the list. -/

namespace Sys2Proof.Machine

/-! ### Ages -/

/-- Sorting depends on how the elements at hand compare alone. -/
theorem insertionSort_congr {α : Type} {r r' : α → α → Prop} [DecidableRel r] [DecidableRel r'] :
    ∀ l : List α, (∀ a ∈ l, ∀ b ∈ l, r a b ↔ r' a b) → l.insertionSort r = l.insertionSort r'
  | [], _ => rfl
  | a :: l, h => by
    have ih := insertionSort_congr l fun x hx y hy => h x (List.mem_cons_of_mem _ hx) y (List.mem_cons_of_mem _ hy)
    have key : ∀ m : List α, (∀ b ∈ m, r a b ↔ r' a b) → m.orderedInsert r a = m.orderedInsert r' a := by
      intro m
      induction m with
      | nil => exact fun _ => rfl
      | cons b m ihm =>
        intro hm
        have hb := hm b (List.mem_cons_self ..)
        simp only [List.orderedInsert]
        rw [ihm fun x hx => hm x (List.mem_cons_of_mem _ hx)]
        by_cases hr : r a b
        · rw [if_pos hr, if_pos (hb.1 hr)]
        · rw [if_neg hr, if_neg fun h' => hr (hb.2 h')]
    simp only [List.insertionSort_cons]
    rw [ih]
    refine key _ fun b hb => h a (List.mem_cons_self ..) b (List.mem_cons_of_mem _ ?_)
    exact (List.perm_insertionSort r' l).mem_iff.1 hb

/-- The oldest streak depends on the streaks at hand alone. -/
theorem survivorOf_congr {next : Nat} {t t' : List (Option Streak)} {slots : List Nat}
    (h : ∀ i ∈ slots, t[i]? = t'[i]?) : survivorOf next t slots = survivorOf next t' slots := by
  have hd : ∀ i ∈ slots, distanceAt next t i = distanceAt next t' i := by
    intro i hi
    unfold distanceAt entryAt
    rw [List.getD_eq_getElem?_getD, List.getD_eq_getElem?_getD, h i hi]
  unfold survivorOf streakAgeOrder
  rw [insertionSort_congr slots fun a ha b hb => by rw [hd a ha, hd b hb]]

/-- The oldest streak is one of those at hand, and none of them lies farther behind. -/
theorem survivorOf_spec {next : Nat} {t : List (Option Streak)} {slots : List Nat} (h : slots ≠ []) :
    ∃ j, survivorOf next t slots = some j ∧ j ∈ slots ∧ ∀ i ∈ slots, distanceAt next t i ≤ distanceAt next t j := by
  unfold survivorOf
  have hp := streakAgeOrder_perm next t slots
  have hs : (streakAgeOrder next t slots).Pairwise fun i j => distanceAt next t j ≤ distanceAt next t i := by
    have : Std.Total fun i j => distanceAt next t j ≤ distanceAt next t i := ⟨fun a b => le_total _ _⟩
    have : IsTrans Nat fun i j => distanceAt next t j ≤ distanceAt next t i := ⟨fun a b c h1 h2 => le_trans h2 h1⟩
    exact List.pairwise_insertionSort _ _
  cases hl : streakAgeOrder next t slots with
  | nil => rw [hl] at hp; exact absurd hp.symm.eq_nil h
  | cons j l =>
    rw [hl] at hp hs
    refine ⟨j, rfl, hp.mem_iff.1 (List.mem_cons_self ..), fun i hi => ?_⟩
    rcases List.mem_cons.1 (hp.mem_iff.2 hi) with rfl | hi
    · exact le_rfl
    · exact (List.pairwise_cons.1 hs).1 i hi

/-! ### Step 3: the extension of the matched streaks (R123) -/

theorem setMembers_get (i : Nat) (c : Component (Nat × Polarity)) (cells : List CellRec) (x : Nat) :
    (setMembers i c cells)[x]? = cells[x]?.map fun q =>
      if ∃ r ∈ c.runs, r.left ≤ x ∧ x ≤ r.right then { q with member := some i }
      else if ∃ k ∈ c.slots, q.member = some k then { q with member := none } else q := by
  simp only [setMembers, List.getElem?_map, List.getElem?_zipIdx, Option.map_map, Nat.zero_add]
  congr 1
  funext q
  simp only [Function.comp, List.any_eq_true, Bool.and_eq_true, decide_eq_true_eq]
  split
  · rfl
  · cases hm : q.member with
    | none => simp
    | some k =>
      by_cases hk : k ∈ c.slots
      · simp [hk]
      · simp [hk]

/-- Extending the components one after another: the oldest streak of each is extended by its runs, the cells of those
runs become its members, every other cell leaves the streaks of the components, and every other streak stays as it
was. -/
theorem extendStreaks_fold (next : Nat) : ∀ (comps : List (Component (Nat × Polarity))) (s : State),
    (comps.Pairwise fun c d => ∀ i ∈ c.slots, i ∉ d.slots) →
    (∀ c ∈ comps, c.slots ≠ [] ∧ ∀ i ∈ c.slots, ∃ st, s.eng.work.streaks[i]? = some (some st)) →
    (comps.Pairwise fun c d => ∀ r ∈ c.runs, ∀ q ∈ d.runs, ∀ x : Nat,
      r.left ≤ x → x ≤ r.right → q.left ≤ x → x ≤ q.right → False) →
    ∃ u : State, comps.foldl (extendStreak next) s = u ∧
      u = s.withWork { s.eng.work with streaks := u.eng.work.streaks, cells := u.eng.work.cells } ∧
      (∀ c ∈ comps, ∀ j st, survivorOf next s.eng.work.streaks c.slots = some j →
        s.eng.work.streaks[j]? = some (some st) → u.eng.work.streaks[j]? = some (some (st.extended c.runs))) ∧
      (∀ j, (∀ c ∈ comps, survivorOf next s.eng.work.streaks c.slots ≠ some j) →
        u.eng.work.streaks[j]? = s.eng.work.streaks[j]?) ∧
      ∀ (x : Nat) (q : CellRec), s.eng.work.cells[x]? = some q →
        (∀ c ∈ comps, ∀ r ∈ c.runs, r.left ≤ x → x ≤ r.right → ∀ j,
          survivorOf next s.eng.work.streaks c.slots = some j →
          u.eng.work.cells[x]? = some { q with member := some j }) ∧
        ((∀ c ∈ comps, ∀ r ∈ c.runs, r.left ≤ x → x ≤ r.right → False) →
          ((∃ c ∈ comps, ∃ k ∈ c.slots, q.member = some k) → u.eng.work.cells[x]? = some { q with member := none }) ∧
          ((∀ c ∈ comps, ∀ k ∈ c.slots, q.member ≠ some k) → u.eng.work.cells[x]? = some q)) := by
  intro comps
  induction comps with
  | nil =>
    intro s _ _ _
    exact ⟨s, rfl, rfl, by simp, by simp, fun x q hq => ⟨by simp, fun _ => ⟨by simp, fun _ => hq⟩⟩⟩
  | cons c comps ih =>
    intro s hap hocc hdis
    obtain ⟨hap1, hap2⟩ := List.pairwise_cons.1 hap
    obtain ⟨hd1, hd2⟩ := List.pairwise_cons.1 hdis
    obtain ⟨hcne, hcocc⟩ := hocc c (List.mem_cons_self ..)
    obtain ⟨i, hi1, hi2, -⟩ := survivorOf_spec (next := next) (t := s.eng.work.streaks) hcne
    obtain ⟨st, hst⟩ := hcocc i hi2
    have hlt := (List.getElem?_eq_some_iff.1 hst).1
    have hstep : extendStreak next s c = s.withWork { s.eng.work with
        streaks := s.eng.work.streaks.set i (some (st.extended c.runs))
        cells := setMembers i c s.eng.work.cells } := by
      unfold extendStreak
      simp only [hi1, entryAt_some.2 hst]
    set s1 : State := s.withWork { s.eng.work with
        streaks := s.eng.work.streaks.set i (some (st.extended c.runs))
        cells := setMembers i c s.eng.work.cells } with hs1
    have hget : ∀ k, k ≠ i → s1.eng.work.streaks[k]? = s.eng.work.streaks[k]? := by
      intro k hk
      show (s.eng.work.streaks.set i _)[k]? = _
      rw [List.getElem?_set_ne hk.symm]
    have hgeti : s1.eng.work.streaks[i]? = some (some (st.extended c.runs)) := by
      show (s.eng.work.streaks.set i _)[i]? = _
      rw [List.getElem?_set_self hlt]
    have hother : ∀ d ∈ comps, ∀ k ∈ d.slots, k ≠ i := fun d hd k hk hki => hap1 d hd i hi2 (hki ▸ hk)
    have hsurv : ∀ d ∈ comps, survivorOf next s1.eng.work.streaks d.slots =
        survivorOf next s.eng.work.streaks d.slots :=
      fun d hd => survivorOf_congr fun k hk => hget k (hother d hd k hk)
    have hin : ∀ d ∈ comps, ∀ j, survivorOf next s.eng.work.streaks d.slots = some j → j ∈ d.slots := by
      intro d hd j hj
      obtain ⟨k, hk1, hk2, -⟩ := survivorOf_spec (next := next) (t := s.eng.work.streaks)
        (hocc d (List.mem_cons_of_mem _ hd)).1
      rw [hk1] at hj; cases hj; exact hk2
    obtain ⟨u, u1, u2, u3, u4, u5⟩ := ih s1 hap2 (fun d hd => ⟨(hocc d (List.mem_cons_of_mem _ hd)).1, fun k hk => by
      rw [hget k (hother d hd k hk)]; exact (hocc d (List.mem_cons_of_mem _ hd)).2 k hk⟩) hd2
    have hcell : ∀ x q, s.eng.work.cells[x]? = some q → s1.eng.work.cells[x]? = some
        (if ∃ r ∈ c.runs, r.left ≤ x ∧ x ≤ r.right then { q with member := some i }
          else if ∃ k ∈ c.slots, q.member = some k then { q with member := none } else q) := by
      intro x q hq
      show (setMembers i c s.eng.work.cells)[x]? = _
      rw [setMembers_get, hq]; rfl
    refine ⟨u, by rw [List.foldl_cons, hstep]; exact u1, by rw [u2]; rfl, fun d hd j sj hj hsj => ?_, fun j hj => ?_,
      fun x q hq => ⟨fun d hd r hr hl hrr j hj => ?_, fun hno => ⟨fun hk => ?_, fun hk => ?_⟩⟩⟩
    · rcases List.mem_cons.1 hd with rfl | hd
      · rw [hi1] at hj; cases hj
        rw [hst] at hsj; cases hsj
        rw [u4 i fun e he hc => hother e he i (hin e he i (by rw [← hsurv e he]; exact hc)) rfl]
        exact hgeti
      · refine u3 d hd j sj (by rw [hsurv d hd]; exact hj) ?_
        rw [hget j (hother d hd j (hin d hd j hj))]; exact hsj
    · rw [u4 j fun d hd => by rw [hsurv d hd]; exact hj d (List.mem_cons_of_mem _ hd)]
      exact hget j fun hji => hj c (List.mem_cons_self ..) (by rw [hji]; exact hi1)
    · rcases List.mem_cons.1 hd with rfl | hd
      · rw [hi1] at hj; cases hj
        have h1 := hcell x q hq
        rw [if_pos ⟨r, hr, hl, hrr⟩] at h1
        refine ((u5 x _ h1).2 fun e he r' hr' hl' hr2 => hd1 e he r hr r' hr' x hl hrr hl' hr2).2 fun e he k hk hc => ?_
        cases hc
        exact hother e he i hk rfl
      · have h1 := hcell x q hq
        have h2 := (u5 x _ h1).1 d hd r hr hl hrr j (by rw [hsurv d hd]; exact hj)
        rw [h2]
        split
        · rfl
        · split <;> rfl
    · have h1 := hcell x q hq
      rw [if_neg (by rintro ⟨r, hr, hl, hrr⟩; exact hno c (List.mem_cons_self ..) r hr hl hrr)] at h1
      obtain ⟨h2, h3⟩ := (u5 x _ h1).2 fun e he => hno e (List.mem_cons_of_mem _ he)
      by_cases hck : ∃ k ∈ c.slots, q.member = some k
      · rw [if_pos hck] at h3
        exact h3 fun e he k hk => by simp
      · rw [if_neg hck] at h2
        obtain ⟨d, hd, hkd⟩ := hk
        rcases List.mem_cons.1 hd with rfl | hd
        · exact absurd hkd hck
        · exact h2 ⟨d, hd, hkd⟩
    · have h1 := hcell x q hq
      rw [if_neg (by rintro ⟨r, hr, hl, hrr⟩; exact hno c (List.mem_cons_self ..) r hr hl hrr),
        if_neg (by rintro ⟨k, hk1, hk2⟩; exact hk c (List.mem_cons_self ..) k hk1 hk2)] at h1
      exact ((u5 x _ h1).2 fun e he => hno e (List.mem_cons_of_mem _ he)).2
        fun e he => hk e (List.mem_cons_of_mem _ he)
/-! ### Step 4: the fates (R124, R125) -/

/-- The fate leaves the streak open. -/
def StreakFate.stays (f : StreakFate) : Prop := f = .extended ∨ f = .held

/-- What one streak's fate does. -/
theorem settleStreak_spec (before : List (Option Streak)) (w : Nat) (fate : Nat → StreakFate) (a : Nat) (s : State)
    (ha : a < s.eng.work.streaks.length) :
    ∃ (u : State) (xs : List (Nat × RecordBody)), settleStreak w a (entryAt before a) (fate a) s = u ∧
      u.list = s.list.pushAll xs ∧
      (∀ x ∈ xs, ∃ b, x.2 = .streakClose b) ∧
      u.eng = { s.eng with work := { s.eng.work with
        streaks := u.eng.work.streaks, cells := u.eng.work.cells, streakLatch := u.eng.work.streakLatch } } ∧
      (∀ into st, fate a = .merged into → before[a]? = some (some st) →
        (w, st.closeBody .merged into) ∈ xs ∧ u.eng.work.streaks[a]? = some none) ∧
      (∀ st, fate a = .decays → s.eng.work.streaks[a]? = some (some st) →
        (w, st.closeBody .decay 0) ∈ xs ∧ u.eng.work.streaks[a]? = some none) ∧
      (∀ st, fate a = .held → s.eng.work.streaks[a]? = some (some st) →
        u.eng.work.streaks[a]? = some (some { st with held := true })) ∧
      (∀ i, i ≠ a ∨ fate a = .extended → u.eng.work.streaks[i]? = s.eng.work.streaks[i]?) ∧
      (∀ (x : Nat) (q : CellRec), s.eng.work.cells[x]? = some q → ∃ q', u.eng.work.cells[x]? = some q' ∧
        ∀ j, j ≠ a ∨ (fate a).stays → (q'.member = some j ↔ q.member = some j)) ∧
      ((fate a).stays → xs = [] ∧ u.eng.work.streakLatch = s.eng.work.streakLatch) := by
  have hself : ∀ (x : Nat) (q : CellRec), s.eng.work.cells[x]? = some q → ∃ q', s.eng.work.cells[x]? = some q' ∧
      ∀ j, j ≠ a ∨ (fate a).stays → (q'.member = some j ↔ q.member = some j) := fun x q hq => ⟨q, hq, fun _ _ => .rfl⟩
  -- a close, whatever it reports
  have hclose : ∀ (st : Streak) (reason : CloseReason) (into : Nat), ¬ (fate a).stays →
      (closeStreakAs st a reason into w s).list = s.list.pushAll [(w, st.closeBody reason into)] ∧
      (closeStreakAs st a reason into w s).eng = { s.eng with work := { s.eng.work with
        streaks := (closeStreakAs st a reason into w s).eng.work.streaks
        cells := (closeStreakAs st a reason into w s).eng.work.cells
        streakLatch := (closeStreakAs st a reason into w s).eng.work.streakLatch } } ∧
      (closeStreakAs st a reason into w s).eng.work.streaks[a]? = some none ∧
      (∀ i, i ≠ a → (closeStreakAs st a reason into w s).eng.work.streaks[i]? = s.eng.work.streaks[i]?) ∧
      ∀ (x : Nat) (q : CellRec), s.eng.work.cells[x]? = some q →
        ∃ q', (closeStreakAs st a reason into w s).eng.work.cells[x]? = some q' ∧
          ∀ j, j ≠ a ∨ (fate a).stays → (q'.member = some j ↔ q.member = some j) := by
    intro st reason into hf
    refine ⟨rfl, rfl, ?_, fun i hi => ?_, fun x q hq => ?_⟩
    · show (s.eng.work.streaks.set a none)[a]? = _
      rw [List.getElem?_set_self ha]
    · show (s.eng.work.streaks.set a none)[i]? = _
      rw [List.getElem?_set_ne hi.symm]
    · refine ⟨if q.member = some a then { q with member := none } else q, ?_, fun j hj => ?_⟩
      · show (clearMembers a s.eng.work.cells)[x]? = _
        rw [clearMembers_get, hq]; rfl
      · rcases hj with hj | hj
        · split
          · rename_i hm
            simp [hm, hj.symm]
          · rfl
        · exact absurd hj hf
  unfold settleStreak
  split
  · rename_i into hfa
    have hns : ¬ (fate a).stays := by rw [hfa]; rintro (h | h) <;> cases h
    split
    · rename_i st hst
      obtain ⟨h1, h2, h3, h4, h5⟩ := hclose st .merged into hns
      refine ⟨_, _, rfl, h1, by simp [Streak.closeBody], h2, fun into' st' hf hst' => ?_, fun st' hf => ?_,
        fun st' hf => ?_, fun i hi => ?_, h5, fun hs => absurd hs hns⟩
      · rw [hfa] at hf; cases hf
        rw [entryAt_some.1 hst] at hst'; cases hst'
        exact ⟨List.mem_singleton.2 rfl, h3⟩
      · rw [hfa] at hf; cases hf
      · rw [hfa] at hf; cases hf
      · rcases hi with hi | hi
        · exact h4 i hi
        · rw [hfa] at hi; cases hi
    · rename_i hst
      refine ⟨s, [], rfl, rfl, by simp, rfl, fun into' st' _ hst' => absurd hst' (entryAt_none.1 hst st'),
        fun st' hf => ?_, fun st' hf => ?_, fun _ _ => rfl, hself, fun hs => absurd hs hns⟩
      · rw [hfa] at hf; cases hf
      · rw [hfa] at hf; cases hf
  · rename_i hfa
    have hns : ¬ (fate a).stays := by rw [hfa]; rintro (h | h) <;> cases h
    unfold closeStreak
    split
    · rename_i st hst
      obtain ⟨h1, h2, h3, h4, h5⟩ := hclose st .decay 0 hns
      refine ⟨_, _, rfl, h1, by simp [Streak.closeBody], h2, fun into' st' hf hst' => ?_, fun st' hf hst' => ?_,
        fun st' hf => ?_, fun i hi => ?_, h5, fun hs => absurd hs hns⟩
      · rw [hfa] at hf; cases hf
      · rw [entryAt_some.1 hst] at hst'; cases hst'
        exact ⟨List.mem_singleton.2 rfl, h3⟩
      · rw [hfa] at hf; cases hf
      · rcases hi with hi | hi
        · exact h4 i hi
        · rw [hfa] at hi; cases hi
    · rename_i hst
      refine ⟨s, [], rfl, rfl, by simp, rfl, fun into' st' hf => ?_,
        fun st' hf hst' => absurd hst' (entryAt_none.1 hst st'), fun st' hf => ?_, fun _ _ => rfl, hself,
        fun hs => absurd hs hns⟩
      · rw [hfa] at hf; cases hf
      · rw [hfa] at hf; cases hf
  · rename_i hfa
    split
    · rename_i st hst
      refine ⟨_, [], rfl, rfl, by simp, rfl, fun into' st' hf => ?_, fun st' hf => ?_, fun st' _ hst' => ?_,
        fun i hi => ?_, hself, fun _ => ⟨rfl, rfl⟩⟩
      · rw [hfa] at hf; cases hf
      · rw [hfa] at hf; cases hf
      · rw [entryAt_some.1 hst] at hst'; cases hst'
        show (s.eng.work.streaks.set a _)[a]? = _
        rw [List.getElem?_set_self ha]
      · rcases hi with hi | hi
        · show (s.eng.work.streaks.set a _)[i]? = _
          rw [List.getElem?_set_ne hi.symm]
        · rw [hfa] at hi; cases hi
    · rename_i hst
      refine ⟨s, [], rfl, rfl, by simp, rfl, fun into' st' hf => ?_, fun st' hf => ?_,
        fun st' _ hst' => absurd hst' (entryAt_none.1 hst st'), fun _ _ => rfl, hself, fun _ => ⟨rfl, rfl⟩⟩
      · rw [hfa] at hf; cases hf
      · rw [hfa] at hf; cases hf
  · rename_i hfa
    refine ⟨s, [], rfl, rfl, by simp, rfl, fun into' st' hf => ?_, fun st' hf => ?_, fun st' hf => ?_,
      fun _ _ => rfl, hself, fun _ => ⟨rfl, rfl⟩⟩
    · rw [hfa] at hf; cases hf
    · rw [hfa] at hf; cases hf
    · rw [hfa] at hf; cases hf

/-- The fates of several streaks, each slot once. -/
theorem settleStreaks_fold (before : List (Option Streak)) (w : Nat) (fate : Nat → StreakFate) :
    ∀ (l : List Nat) (s : State), l.Nodup → (∀ i ∈ l, i < s.eng.work.streaks.length) →
    ∃ (u : State) (xs : List (Nat × RecordBody)),
      l.foldl (fun v i => settleStreak w i (entryAt before i) (fate i) v) s = u ∧
      u.list = s.list.pushAll xs ∧ (∀ x ∈ xs, ∃ b, x.2 = .streakClose b) ∧
      u.eng = { s.eng with work := { s.eng.work with
        streaks := u.eng.work.streaks, cells := u.eng.work.cells, streakLatch := u.eng.work.streakLatch } } ∧
      (∀ i ∈ l, ∀ into st, fate i = .merged into → before[i]? = some (some st) →
        (w, st.closeBody .merged into) ∈ xs ∧ u.eng.work.streaks[i]? = some none) ∧
      (∀ i ∈ l, ∀ st, fate i = .decays → s.eng.work.streaks[i]? = some (some st) →
        (w, st.closeBody .decay 0) ∈ xs ∧ u.eng.work.streaks[i]? = some none) ∧
      (∀ i ∈ l, ∀ st, fate i = .held → s.eng.work.streaks[i]? = some (some st) →
        u.eng.work.streaks[i]? = some (some { st with held := true })) ∧
      (∀ i, i ∉ l ∨ fate i = .extended → u.eng.work.streaks[i]? = s.eng.work.streaks[i]?) ∧
      (∀ (x : Nat) (q : CellRec), s.eng.work.cells[x]? = some q → ∃ q', u.eng.work.cells[x]? = some q' ∧
        ∀ j, j ∉ l ∨ (fate j).stays → (q'.member = some j ↔ q.member = some j)) ∧
      ((∀ i ∈ l, (fate i).stays) → xs = [] ∧ u.eng.work.streakLatch = s.eng.work.streakLatch) := by
  intro l
  induction l with
  | nil =>
    intro s _ _
    exact ⟨s, [], rfl, rfl, by simp, rfl, by simp, by simp, by simp, fun _ _ => rfl,
      fun x q hq => ⟨q, hq, fun _ _ => .rfl⟩, fun _ => ⟨rfl, rfl⟩⟩
  | cons a l ih =>
    intro s hn hlt
    obtain ⟨hna, hnl⟩ := List.nodup_cons.1 hn
    obtain ⟨s1, xs1, a1, a2, a3, a4, a5, a6, a7, a8, a9, a10⟩ :=
      settleStreak_spec before w fate a s (hlt a (List.mem_cons_self ..))
    have hlen : s1.eng.work.streaks.length = s.eng.work.streaks.length := by
      rw [← a1]; exact (settleStreak_work w a _ _ s).streaks
    obtain ⟨u, xs2, b1, b2, b3, b4, b5, b6, b7, b8, b9, b10⟩ := ih s1 hnl fun i hi => by
      rw [hlen]; exact hlt i (List.mem_cons_of_mem _ hi)
    have hne : ∀ i ∈ l, i ≠ a := fun i hi h => hna (h ▸ hi)
    have hua : u.eng.work.streaks[a]? = s1.eng.work.streaks[a]? := b8 a (.inl hna)
    refine ⟨u, xs1 ++ xs2, by rw [List.foldl_cons, a1]; exact b1, by rw [b2, a2, pushAll_append],
      fun x hx => (List.mem_append.1 hx).elim (a3 x) (b3 x), by rw [b4, a4], fun i hi into st hf hst => ?_,
      fun i hi st hf hst => ?_, fun i hi st hf hst => ?_, fun i hi => ?_, fun x q hq => ?_, fun hs => ?_⟩
    · rcases List.mem_cons.1 hi with rfl | hi
      · obtain ⟨h1, h2⟩ := a5 into st hf hst
        exact ⟨List.mem_append_left _ h1, hua.trans h2⟩
      · obtain ⟨h1, h2⟩ := b5 i hi into st hf hst
        exact ⟨List.mem_append_right _ h1, h2⟩
    · rcases List.mem_cons.1 hi with rfl | hi
      · obtain ⟨h1, h2⟩ := a6 st hf hst
        exact ⟨List.mem_append_left _ h1, hua.trans h2⟩
      · obtain ⟨h1, h2⟩ := b6 i hi st hf ((a8 i (.inl (hne i hi))).trans hst)
        exact ⟨List.mem_append_right _ h1, h2⟩
    · rcases List.mem_cons.1 hi with rfl | hi
      · exact hua.trans (a7 st hf hst)
      · exact b7 i hi st hf ((a8 i (.inl (hne i hi))).trans hst)
    · by_cases hia : i = a
      · subst hia
        rw [hua]
        rcases hi with hi | hi
        · exact absurd (List.mem_cons_self ..) hi
        · exact a8 i (.inr hi)
      · rw [b8 i (hi.imp (fun h h' => h (List.mem_cons_of_mem _ h')) id)]
        exact a8 i (.inl hia)
    · obtain ⟨q1, h1, h2⟩ := a9 x q hq
      obtain ⟨q2, h3, h4⟩ := b9 x q1 h1
      refine ⟨q2, h3, fun j hj => ?_⟩
      rw [h4 j (hj.imp (fun h h' => h (List.mem_cons_of_mem _ h')) id)]
      refine h2 j ?_
      by_cases hja : j = a
      · subst hja
        rcases hj with hj | hj
        · exact absurd (List.mem_cons_self ..) hj
        · exact .inr hj
      · exact .inl hja
    · obtain ⟨h1, h2⟩ := a10 (hs a (List.mem_cons_self ..))
      obtain ⟨h3, h4⟩ := b10 fun i hi => hs i (List.mem_cons_of_mem _ hi)
      exact ⟨by rw [h1, h3]; rfl, h4.trans h2⟩
/-! ### Step 5: the lone runs (R126, R127) -/

/-- The STREAK_OPEN record of a lone run (R132). -/
def openRecord (ln : Line) (r : Run (Nat × Polarity)) : Nat × RecordBody :=
  (ln.slot.w, .streakOpen
    { lane := r.key.1, profile := r.profile, pol := r.key.2, left := r.left, right := r.right
      patch := ln.slot.patchNum, cellsAtOpen := r.right + 1 - r.left })

theorem joinMembers_get (i : Nat) (r : Run (Nat × Polarity)) (cells : List CellRec) (x : Nat) :
    (joinMembers i r cells)[x]? = cells[x]?.map fun q =>
      if r.left ≤ x ∧ x ≤ r.right then { q with member := some i } else q := by
  simp only [joinMembers, List.getElem?_map, List.getElem?_zipIdx, Option.map_map, Nat.zero_add]
  congr 1
  funext q
  simp only [Function.comp, Bool.and_eq_true, decide_eq_true_eq]

theorem emptySlot_some {α : Type} {t : List (Option α)} {i : Nat} (h : emptySlot t = some i) :
    t[i]? = some none := by
  unfold emptySlot at h
  obtain ⟨h1, h2, -⟩ := List.findIdx?_eq_some_iff_getElem.1 h
  rw [List.getElem?_eq_getElem h1]
  simpa using h2

theorem emptySlot_none {α : Type} {t : List (Option α)} (h : emptySlot t = none) : ∀ o ∈ t, o ≠ none := by
  unfold emptySlot at h
  intro o ho hn
  have := List.findIdx?_eq_none_iff.1 h o ho
  rw [hn] at this; cases this

theorem emptySlot_none_iff {α : Type} {t : List (Option α)} : emptySlot t = none ↔ ∀ o ∈ t, o ≠ none := by
  refine ⟨emptySlot_none, fun h => ?_⟩
  unfold emptySlot
  rw [List.findIdx?_eq_none_iff]
  intro o ho
  cases o with
  | none => exact absurd rfl (h _ ho)
  | some a => rfl

theorem count_none_set {α : Type} [DecidableEq α] {t : List (Option α)} {i : Nat} (h : t[i]? = some none) (a : α) :
    (t.set i (some a)).count none + 1 = t.count none := by
  induction t generalizing i with
  | nil => simp at h
  | cons o t ih =>
    cases i with
    | zero =>
      simp only [List.getElem?_cons_zero, Option.some.injEq] at h
      subst h
      simp
    | succ i =>
      simp only [List.getElem?_cons_succ] at h
      have := ih h
      simp only [List.set_cons_succ, List.count_cons]
      omega

/-- What one lone run does. -/
theorem loneStreakRun_spec (ln : Line) (r : Run (Nat × Polarity)) (s : State) :
    ∃ (u : State) (xs : List (Nat × RecordBody)), loneStreakRun ln s r = u ∧ u.list = s.list.pushAll xs ∧
      (∀ x ∈ xs, (∀ b, x.2 ≠ .streakClose b) ∧ ∀ b, x.2 ≠ .pinhole b) ∧
      u.eng.work = { s.eng.work with
        streaks := u.eng.work.streaks, cells := u.eng.work.cells, streakLatch := u.eng.work.streakLatch
        refusals := u.eng.work.refusals } ∧
      (∀ (i : Nat) (st : Streak), s.eng.work.streaks[i]? = some (some st) → u.eng.work.streaks[i]? = some (some st)) ∧
      (∀ i : Nat, s.eng.work.streaks[i]? = some none → ∃ o, u.eng.work.streaks[i]? = some o ∧
        ∀ v : Streak, o = some v → v.openW = ln.slot.w ∧ v.openPatch = ln.slot.patchNum ∧ v.lines = 1) ∧
      (∀ (x : Nat) (q : CellRec), s.eng.work.cells[x]? = some q → ∃ q', u.eng.work.cells[x]? = some q' ∧
        (q' = q ∨ (r.left ≤ x ∧ x ≤ r.right) ∧ ∃ i : Nat, q'.member = some i ∧ s.eng.work.streaks[i]? = some none)) ∧
      (0 < s.eng.work.streaks.count none → u.eng.work.refusals = s.eng.work.refusals ∧
        u.eng.work.streaks.count none + 1 = s.eng.work.streaks.count none ∧
        ∃ (j : Nat) (after : List (Nat × RecordBody)), xs = openRecord ln r :: after ∧
          u.eng.work.streaks[j]? = some (some (newStreak ln.slot.w ln.slot.patchNum s.list.next r)) ∧
          ∀ (x : Nat) (q : CellRec), r.left ≤ x → x ≤ r.right → u.eng.work.cells[x]? = some q → q.member = some j) ∧
      ((∀ o ∈ s.eng.work.streaks, o ≠ none) → u.eng.work.streaks = s.eng.work.streaks ∧
        u.eng.work.refusals = bump s.eng.work.refusals ∧ u.eng.work.streakLatch = true ∧
        (s.eng.work.streakLatch = false → (ln.slot.w, .event .streakTableFull r.key.1) ∈ xs)) := by
  unfold loneStreakRun
  cases he : emptySlot s.eng.work.streaks with
  | some i =>
    have hi := emptySlot_some he
    have hlt := (List.getElem?_eq_some_iff.1 hi).1
    dsimp only
    set u := openStreak ln r i s with hu
    have hwork : u.eng.work = { s.eng.work with
        streaks := s.eng.work.streaks.set i (some (newStreak ln.slot.w ln.slot.patchNum s.list.next r))
        cells := joinMembers i r s.eng.work.cells } := by
      rw [hu]; unfold openStreak; dsimp only; split
      · rw [handAction_tables]; rfl
      · rfl
    obtain ⟨ys, hys, hev⟩ : ∃ ys, u.list = s.list.pushAll (openRecord ln r :: ys) ∧
        ∀ y ∈ ys, ∃ c n, y.2 = .event c n := by
      rw [hu]; unfold openStreak; dsimp only; split
      · rename_i m _
        obtain ⟨ys, h1, -, h2⟩ := handAction_pushes m (ln.copy.markerFields m) ln.slot.w ln.slot.patchNum
          (contribute (.streakOpen ln.slot.patchNum) (append ln.slot.w (.streakOpen ⟨r.key.1, r.profile, r.key.2,
            r.left, r.right, ln.slot.patchNum, r.cells⟩) (s.withWork { s.eng.work with
              streaks := s.eng.work.streaks.set i (some (newStreak ln.slot.w ln.slot.patchNum s.list.next r))
              cells := joinMembers i r s.eng.work.cells })))
        exact ⟨ys, h1, h2⟩
      · exact ⟨[], rfl, by simp⟩
    refine ⟨u, _, rfl, hys, fun x hx => ?_, by rw [hwork], fun k st hk => ?_, fun k hk => ?_, fun x q hq => ?_,
      fun _ => ⟨by rw [hwork], ?_, i, ys, rfl, ?_, fun x q h1 h2 hq => ?_⟩, fun hall => ?_⟩
    · rcases List.mem_cons.1 hx with rfl | hx
      · simp [openRecord]
      · obtain ⟨c, n, h⟩ := hev x hx; rw [h]; simp
    · rw [hwork]
      show (s.eng.work.streaks.set i _)[k]? = _
      have hne : i ≠ k := by rintro rfl; rw [hi] at hk; cases hk
      rw [List.getElem?_set_ne hne]; exact hk
    · rw [hwork]
      show ∃ o, (s.eng.work.streaks.set i _)[k]? = _ ∧ _
      by_cases hki : i = k
      · subst hki
        rw [List.getElem?_set_self hlt]
        exact ⟨_, rfl, fun v hv => by cases hv; exact ⟨rfl, rfl, rfl⟩⟩
      · rw [List.getElem?_set_ne hki, hk]
        exact ⟨none, rfl, fun v hv => by cases hv⟩
    · rw [hwork]
      show ∃ q', (joinMembers i r s.eng.work.cells)[x]? = _ ∧ _
      rw [joinMembers_get, hq]
      refine ⟨_, rfl, ?_⟩
      split
      · rename_i h; exact .inr ⟨h, i, rfl, hi⟩
      · exact .inl rfl
    · rw [hwork]; exact count_none_set hi _
    · rw [hwork]
      show (s.eng.work.streaks.set i _)[i]? = _
      rw [List.getElem?_set_self hlt]
    · rw [hwork] at hq
      have hq : (joinMembers i r s.eng.work.cells)[x]? = some q := hq
      rw [joinMembers_get, Option.map_eq_some_iff] at hq
      obtain ⟨q0, -, rfl⟩ := hq
      rw [if_pos ⟨h1, h2⟩]
    · exact absurd rfl (hall none (List.mem_of_getElem? hi))
  | none =>
    have hall := emptySlot_none he
    have hwork : (refuseStreak ln r s).eng.work = { s.eng.work with
        refusals := bump s.eng.work.refusals, streakLatch := true } := by
      unfold refuseStreak; dsimp only; split <;> rfl
    refine ⟨_, if s.eng.work.streakLatch then [] else [(ln.slot.w, .event .streakTableFull r.key.1)], rfl, ?_, ?_,
      by rw [hwork], fun k st hk => by rw [hwork]; exact hk, fun k hk => ?_,
      fun x q hq => ⟨q, by rw [hwork]; exact hq, .inl rfl⟩,
      fun h0 => ?_, fun _ => ⟨by rw [hwork], by rw [hwork], by rw [hwork], fun hl => by simp [hl]⟩⟩
    · unfold refuseStreak; dsimp only; split <;> rfl
    · intro x hx; split at hx <;> simp_all
    · exact absurd rfl (hall none (List.mem_of_getElem? hk))
    · exact absurd rfl (hall none (List.count_pos_iff.1 h0))

/-- What the lone runs do, one after another, whatever room there is. -/
theorem loneStreakRuns_fold (ln : Line) : ∀ (l : List (Run (Nat × Polarity))) (s : State),
    ∃ (u : State) (xs : List (Nat × RecordBody)), l.foldl (loneStreakRun ln) s = u ∧ u.list = s.list.pushAll xs ∧
      (∀ x ∈ xs, (∀ b, x.2 ≠ .streakClose b) ∧ ∀ b, x.2 ≠ .pinhole b) ∧
      u.eng.work = { s.eng.work with
        streaks := u.eng.work.streaks, cells := u.eng.work.cells, streakLatch := u.eng.work.streakLatch
        refusals := u.eng.work.refusals } ∧
      (∀ (i : Nat) (st : Streak), s.eng.work.streaks[i]? = some (some st) → u.eng.work.streaks[i]? = some (some st)) ∧
      (∀ i : Nat, s.eng.work.streaks[i]? = some none → ∃ o, u.eng.work.streaks[i]? = some o ∧
        ∀ v : Streak, o = some v → v.openW = ln.slot.w ∧ v.openPatch = ln.slot.patchNum ∧ v.lines = 1) ∧
      (∀ (x : Nat) (q : CellRec), s.eng.work.cells[x]? = some q → ∃ q', u.eng.work.cells[x]? = some q' ∧
        (q' = q ∨ (∃ r ∈ l, r.left ≤ x ∧ x ≤ r.right) ∧ ∃ i : Nat, q'.member = some i ∧
          s.eng.work.streaks[i]? = some none)) ∧
      (l.length ≤ s.eng.work.streaks.count none → l.Pairwise (fun r q => r.right < q.left) →
        (∀ r ∈ l, r.left ≤ r.right) → u.eng.work.refusals = s.eng.work.refusals ∧
        ∀ r ∈ l, ∃ (j : Nat) (before after : List (Nat × RecordBody)), xs = before ++ openRecord ln r :: after ∧
          u.eng.work.streaks[j]? =
            some (some (newStreak ln.slot.w ln.slot.patchNum (s.list.pushAll before).next r)) ∧
          ∀ (x : Nat) (q : CellRec), r.left ≤ x → x ≤ r.right → u.eng.work.cells[x]? = some q → q.member = some j) ∧
      ((∀ o ∈ s.eng.work.streaks, o ≠ none) → u.eng.work.streaks = s.eng.work.streaks ∧
        (l ≠ [] → u.eng.work.refusals = min (s.eng.work.refusals + l.length) 65535) ∧
        (u.eng.work.streakLatch = true ↔ s.eng.work.streakLatch = true ∨ l ≠ []) ∧
        ∀ r more, l = r :: more → s.eng.work.streakLatch = false →
          (ln.slot.w, .event .streakTableFull r.key.1) ∈ xs) := by
  intro l
  induction l with
  | nil =>
    intro s
    exact ⟨s, [], rfl, rfl, by simp, rfl, fun (_ : Nat) _ h => h, fun (_ : Nat) hi => ⟨none, hi, by simp⟩,
      fun x q hq => ⟨q, hq, .inl rfl⟩, fun _ _ _ => ⟨rfl, by simp⟩, fun _ => ⟨rfl, by simp, by simp, by simp⟩⟩
  | cons r l ih =>
    intro s
    obtain ⟨s1, xs1, a1, a2, a3, a4, a5, a6, a7, a8, a9⟩ := loneStreakRun_spec ln r s
    obtain ⟨u, xs2, b1, b2, b3, b4, b5, b6, b7, b8, b9⟩ := ih s1
    have hsame : ∀ i : Nat, s1.eng.work.streaks[i]? = some none → s.eng.work.streaks[i]? = some none := by
      intro i hi
      have hlen : s1.eng.work.streaks.length = s.eng.work.streaks.length := by
        rw [← a1]; exact (loneStreakRun_work ln s r).streaks
      have hlt := (List.getElem?_eq_some_iff.1 hi).1
      cases hs : s.eng.work.streaks[i]? with
      | none => rw [List.getElem?_eq_none_iff] at hs; omega
      | some o =>
        cases o with
        | none => rfl
        | some st => rw [a5 i st hs] at hi; cases hi
    refine ⟨u, xs1 ++ xs2, by rw [List.foldl_cons, a1]; exact b1, by rw [b2, a2, pushAll_append],
      fun x hx => (List.mem_append.1 hx).elim (a3 x) (b3 x), by rw [b4, a4],
      fun (i : Nat) st hi => b5 i st (a5 i st hi),
      fun i hi => ?_, fun x q hq => ?_, fun hroom hdis hle => ?_, fun hall => ?_⟩
    · obtain ⟨o, h1, h2⟩ := a6 i hi
      cases o with
      | none => exact b6 i h1
      | some v => exact ⟨some v, b5 i v h1, h2⟩
    · obtain ⟨q1, h1, h2⟩ := a7 x q hq
      obtain ⟨q2, h3, h4⟩ := b7 x q1 h1
      refine ⟨q2, h3, ?_⟩
      rcases h4 with rfl | ⟨⟨r', hr', hx⟩, i, hi1, hi2⟩
      · rcases h2 with rfl | ⟨hx, i, hi⟩
        · exact .inl rfl
        · exact .inr ⟨⟨r, List.mem_cons_self .., hx⟩, i, hi⟩
      · exact .inr ⟨⟨r', List.mem_cons_of_mem _ hr', hx⟩, i, hi1, hsame i hi2⟩
    · simp only [List.length_cons] at hroom
      obtain ⟨h1, h2, j, after, h3, h4, h5⟩ := a8 (by omega)
      obtain ⟨hd1, hd2⟩ := List.pairwise_cons.1 hdis
      obtain ⟨g1, g2⟩ := b8 (by omega) hd2 fun q hq => hle q (List.mem_cons_of_mem _ hq)
      refine ⟨g1.trans h1, fun q hq => ?_⟩
      rcases List.mem_cons.1 hq with rfl | hq
      · refine ⟨j, [], after ++ xs2, by rw [h3]; rfl, b5 j _ h4, fun x c hl hr hc => ?_⟩
        have hlen : s1.eng.work.cells.length = u.eng.work.cells.length := by
          rw [← b1]; exact ((EngineWork.foldl (loneStreakRun_work ln) l s1).size).symm
        have hx := (List.getElem?_eq_some_iff.1 hc).1
        obtain ⟨c1, hc1⟩ : ∃ c1, s1.eng.work.cells[x]? = some c1 :=
          ⟨_, List.getElem?_eq_getElem (by rw [hlen]; exact hx)⟩
        obtain ⟨c2, k1, k2⟩ := b7 x c1 hc1
        rw [hc] at k1; cases k1
        rcases k2 with rfl | ⟨⟨r', hr', hx'⟩, -⟩
        · exact h5 x c hl hr hc1
        · have := hd1 r' hr'; omega
      · obtain ⟨k, before, after', k1, k2, k3⟩ := g2 q hq
        refine ⟨k, xs1 ++ before, after', by rw [k1, List.append_assoc], ?_, k3⟩
        rw [k2, a2, pushAll_append]
    · obtain ⟨h1, h2, h3, h4⟩ := a9 hall
      obtain ⟨g1, g2, g3, -⟩ := b9 (by rw [h1]; exact hall)
      refine ⟨g1.trans h1, fun _ => ?_, ?_, fun r' more he hl => ?_⟩
      · have hb := bump_le s.eng.work.refusals
        by_cases hnil : l = []
        · subst hnil
          rw [show u = s1 from b1.symm, h2]; simp [bump, maxCount]
        · rw [g2 hnil, h2]; simp only [bump, maxCount, List.length_cons]; omega
      · rw [g3, h3]; simp
      · cases he
        exact List.mem_append_left _ (h4 hl)
/-! ### What stages 4 and 5 leave -/

/-- `t` comes from `s` by work that reports no close of a streak and leaves the streaks and the cell records alone. -/
structure NoStreakWork (s t : State) : Prop where
  list : ∃ xs, t.list = s.list.pushAll xs ∧ ∀ x ∈ xs, ∀ b, x.2 ≠ .streakClose b
  work : t.eng.work = { s.eng.work with
    cands := t.eng.work.cands, candLatch := t.eng.work.candLatch, tally := t.eng.work.tally
    splits := t.eng.work.splits }

theorem NoStreakWork.same {s t : State} (hl : t.list = s.list) (hw : t.eng.work = { s.eng.work with
    cands := t.eng.work.cands, candLatch := t.eng.work.candLatch, tally := t.eng.work.tally
    splits := t.eng.work.splits }) : NoStreakWork s t := ⟨⟨[], hl, by simp⟩, hw⟩

theorem NoStreakWork.trans {s t u : State} (h : NoStreakWork s t) (k : NoStreakWork t u) : NoStreakWork s u := by
  obtain ⟨xs, h1, h2⟩ := h.list
  obtain ⟨ys, k1, k2⟩ := k.list
  refine ⟨⟨xs ++ ys, by rw [k1, h1, pushAll_append], fun x hx => (List.mem_append.1 hx).elim (h2 x) (k2 x)⟩, ?_⟩
  rw [k.work, h.work]

theorem NoStreakWork.foldl {α : Type} {f : State → α → State} (h : ∀ s a, NoStreakWork s (f s a)) (as : List α) :
    ∀ s, NoStreakWork s (as.foldl f s) := by
  induction as with
  | nil => exact fun s => .same rfl rfl
  | cons a as ih => exact fun s => (h s a).trans (ih _)

theorem NoStreakWork.append (w : Nat) (b : RecordBody) (hb : ∀ c, b ≠ .streakClose c) (s : State) :
    NoStreakWork s (append w b s) := ⟨⟨[(w, b)], rfl, by simpa using hb⟩, rfl⟩

theorem reportPinhole_noStreak (markers : Marker → MarkerFields) (k : Candidate) (how : PinEnd) (s : State) :
    NoStreakWork s (reportPinhole markers k how s) := by
  obtain ⟨ys, h1, -, h2⟩ := reportPinhole_pushes markers k how s
  refine ⟨⟨_, h1, fun x hx b => ?_⟩, by rw [reportPinhole_tables]⟩
  rcases List.mem_cons.1 hx with rfl | hx
  · simp [Candidate.closeBody]
  · obtain ⟨c, n, h⟩ := h2 x hx; rw [h]; simp

theorem closeCand_noStreak (markers : Marker → MarkerFields) (how : PinEnd) (s : State) (i : Nat) :
    NoStreakWork s (closeCand markers how s i) := by
  unfold closeCand; split
  · exact NoStreakWork.trans (t := dropCand i s) (.same rfl rfl) (reportPinhole_noStreak _ _ _ _)
  · exact .same rfl rfl

theorem extendCand_noStreak (ln : Line) (t0 : List (Option Candidate)) (s : State) (c : Component Nat) :
    NoStreakWork s (extendCand ln t0 s c) := by
  unfold extendCand; split
  · exact .same rfl rfl
  · split
    · exact .same rfl rfl
    · exact (NoStreakWork.foldl (fun s j => .same (t := dropCand j s) rfl rfl) _ s).trans (.same rfl rfl)

theorem settleCand_noStreak (markers : Marker → MarkerFields) (i : Nat) (f : CandFate) (s : State) :
    NoStreakWork s (settleCand markers i f s) := by
  unfold settleCand; split
  · exact closeCand_noStreak _ _ s i
  · exact closeCand_noStreak _ _ s i
  · split <;> exact .same rfl rfl
  · exact .same rfl rfl

theorem lonePinholeRun_noStreak (ln : Line) (s : State) (r : Run Nat) : NoStreakWork s (lonePinholeRun ln s r) := by
  unfold lonePinholeRun; split
  · rename_i i _
    have h1 : NoStreakWork s (s.withWork { s.eng.work with cands := s.eng.work.cands.set i (some (newCand ln r)) }) :=
      .same rfl rfl
    unfold openCand; dsimp only; split
    · exact h1.trans (closeCand_noStreak _ _ _ _)
    · exact h1
  · have h1 : NoStreakWork s (s.withWork { s.eng.work with splits := bump s.eng.work.splits, candLatch := true }) :=
      .same rfl rfl
    unfold splitRun splitReport splitNotice; dsimp only; split
    · exact h1.trans (reportPinhole_noStreak _ _ _ _)
    · exact (h1.trans (.append _ _ (by simp) _)).trans (reportPinhole_noStreak _ _ _ _)

theorem pinholeStage_noStreak (ln : Line) (outs : List CellResult) (s : State) :
    NoStreakWork s (pinholeStage ln outs s) := by
  have hi : ∀ u x, NoStreakWork u (runPinItem ln u x) := fun u x => by
    cases x
    · exact settleCand_noStreak _ _ _ u
    · exact lonePinholeRun_noStreak ln u _
    · exact reportPinhole_noStreak _ _ _ u
  have hb : ∀ u, NoStreakWork u (beginPinholes ln outs u).2 := fun u => by
    unfold beginPinholes; split
    · exact NoStreakWork.foldl (extendCand_noStreak ln _) _ u
    · exact .same rfl rfl
  exact ((NoStreakWork.foldl (closeCand_noStreak _ _) _ s).trans (hb _)).trans (NoStreakWork.foldl hi _ _)

theorem tallyStage_noStreak (x : Slot) (s : State) : NoStreakWork s (tallyStage x s) := by
  unfold tallyStage; dsimp only; split
  · exact .same rfl rfl
  · split
    · exact .same rfl rfl
    · refine NoStreakWork.trans ?_ (.append _ _ (by simp [Tally.closeBody]) _)
      exact .same rfl rfl

end Sys2Proof.Machine
end

