-- ==== Sys2Proof/Laws/CandStage.lean ====
section
/-! SUPPORT. Stage 4 of the line operation, step by step (R103 to R108): what extending the components, the fates of the
candidates and the lone runs do to the table, its latch, the split count and the list. -/

namespace Sys2Proof.Machine

/-! ### Ages (R100) -/

/-- The oldest candidate is one of those at hand, and every other stands after it in age order. -/
theorem candSurvivor_spec {t : List (Option Candidate)} {slots : List Nat} (h : slots ≠ []) :
    ∃ j, candSurvivor t slots = some j ∧ j ∈ slots ∧
      ∀ i ∈ slots, firstWAt t j < firstWAt t i ∨ (firstWAt t j = firstWAt t i ∧ j ≤ i) := by
  unfold candSurvivor
  have hp := candAgeOrder_perm t slots
  have hs : (candAgeOrder t slots).Pairwise fun i j =>
      firstWAt t i < firstWAt t j ∨ (firstWAt t i = firstWAt t j ∧ i ≤ j) := by
    have : Std.Total fun i j => firstWAt t i < firstWAt t j ∨ (firstWAt t i = firstWAt t j ∧ i ≤ j) :=
      ⟨fun a b => by omega⟩
    have : IsTrans Nat fun i j => firstWAt t i < firstWAt t j ∨ (firstWAt t i = firstWAt t j ∧ i ≤ j) :=
      ⟨fun a b c h1 h2 => by omega⟩
    exact List.pairwise_insertionSort _ _
  cases hl : candAgeOrder t slots with
  | nil => rw [hl] at hp; exact absurd hp.symm.eq_nil h
  | cons j l =>
    rw [hl] at hp hs
    refine ⟨j, rfl, hp.mem_iff.1 (List.mem_cons_self ..), fun i hi => ?_⟩
    rcases List.mem_cons.1 (hp.mem_iff.2 hi) with rfl | hi
    · exact .inr ⟨rfl, le_rfl⟩
    · exact (List.pairwise_cons.1 hs).1 i hi

/-! ### Step 2: the extension of the matched candidates (R103, R104) -/

/-- Emptying slots one after another. -/
theorem dropCands_get : ∀ (l : List Nat) (s : State),
    (l.foldl (fun s j => dropCand j s) s) = s.withWork { s.eng.work with
      cands := (l.foldl (fun s j => dropCand j s) s).eng.work.cands
      candLatch := (l.foldl (fun s j => dropCand j s) s).eng.work.candLatch } ∧
    (∀ j ∈ l, j < s.eng.work.cands.length → (l.foldl (fun s j => dropCand j s) s).eng.work.cands[j]? = some none) ∧
    (∀ j, j ∉ l → (l.foldl (fun s j => dropCand j s) s).eng.work.cands[j]? = s.eng.work.cands[j]?) ∧
    (l = [] → (l.foldl (fun s j => dropCand j s) s) = s)
  | [], s => ⟨rfl, by simp, fun _ _ => rfl, fun _ => rfl⟩
  | a :: l, s => by
    obtain ⟨h1, h2, h3, -⟩ := dropCands_get l (dropCand a s)
    have hset : ∀ j : Nat, (dropCand a s).eng.work.cands[j]? = (s.eng.work.cands.set a none)[j]? := fun _ => rfl
    simp only [List.foldl_cons]
    refine ⟨by rw [h1]; rfl, fun j hj hlt => ?_, fun j hj => ?_, fun h => (by cases h)⟩
    · by_cases hjl : j ∈ l
      · exact h2 j hjl (by show j < (s.eng.work.cands.set a none).length; simpa using hlt)
      · rw [h3 j hjl, hset]
        rcases List.mem_cons.1 hj with rfl | h
        · rw [List.getElem?_set_self hlt]
        · exact absurd h hjl
    · rw [h3 j fun h => hj (List.mem_cons_of_mem _ h), hset,
        List.getElem?_set_ne fun h => hj (by rw [h]; exact List.mem_cons_self ..)]

/-- Extending the components one after another: the oldest candidate of each is extended by its runs and absorbs the
others of the component, whose slots empty; every other slot stays as it was. -/
theorem extendCands_fold (ln : Line) (t0 : List (Option Candidate)) : ∀ (comps : List (Component Nat)) (s : State),
    (comps.Pairwise fun c d => ∀ i ∈ c.slots, i ∉ d.slots) →
    (∀ c ∈ comps, c.slots ≠ [] ∧ ∀ i ∈ c.slots, i < s.eng.work.cands.length ∧ ∃ k, t0[i]? = some (some k)) →
    ∃ u : State, comps.foldl (extendCand ln t0) s = u ∧
      u = s.withWork { s.eng.work with cands := u.eng.work.cands, candLatch := u.eng.work.candLatch } ∧
      (∀ c ∈ comps, ∀ j k, candSurvivor t0 c.slots = some j → t0[j]? = some (some k) →
        u.eng.work.cands[j]? = some (some (k.extended ln.slot.w ln.slot.zone.hasTrail c.runs
          ((c.slots.filter fun l => l != j).filterMap (entryAt t0)))) ∧
        ∀ l ∈ c.slots, l ≠ j → u.eng.work.cands[l]? = some none) ∧
      (∀ l, (∀ c ∈ comps, l ∉ c.slots) → u.eng.work.cands[l]? = s.eng.work.cands[l]?) ∧
      ((∀ c ∈ comps, ∀ l ∈ c.slots, ∀ l' ∈ c.slots, l = l') → u.eng.work.candLatch = s.eng.work.candLatch) := by
  intro comps
  induction comps with
  | nil => intro s _ _; exact ⟨s, rfl, rfl, by simp, fun _ _ => rfl, fun _ => rfl⟩
  | cons c comps ih =>
    intro s hap hocc
    obtain ⟨hap1, hap2⟩ := List.pairwise_cons.1 hap
    obtain ⟨hcne, hcocc⟩ := hocc c (List.mem_cons_self ..)
    obtain ⟨i, hi1, hi2, -⟩ := candSurvivor_spec (t := t0) hcne
    obtain ⟨hilt, k0, hk0⟩ := hcocc i hi2
    set others := c.slots.filter fun l => l != i with ho
    have hmo : ∀ l, l ∈ others ↔ l ∈ c.slots ∧ l ≠ i := by intro l; rw [ho, List.mem_filter]; simp
    obtain ⟨d1, d2, d3, d4⟩ := dropCands_get others s
    set s0 := others.foldl (fun s j => dropCand j s) s with hs0
    set x := k0.extended ln.slot.w ln.slot.zone.hasTrail c.runs (others.filterMap (entryAt t0)) with hx
    have hstep : extendCand ln t0 s c = s0.withWork { s0.eng.work with cands := s0.eng.work.cands.set i (some x) } := by
      unfold extendCand
      simp only [hi1, entryAt_some.2 hk0]
      rfl
    set s1 : State := s0.withWork { s0.eng.work with cands := s0.eng.work.cands.set i (some x) } with hs1
    have hlen0 : s0.eng.work.cands.length = s.eng.work.cands.length :=
      (EngineWork.foldl (fun s j => dropCand_work j s) others s).cands
    have hlen1 : s1.eng.work.cands.length = s.eng.work.cands.length := by
      show (s0.eng.work.cands.set i (some x)).length = _
      rw [List.length_set, hlen0]
    have g1 : s1.eng.work.cands[i]? = some (some x) := by
      show (s0.eng.work.cands.set i (some x))[i]? = _
      rw [List.getElem?_set_self (by rw [hlen0]; exact hilt)]
    have g2 : ∀ l, l ≠ i → s1.eng.work.cands[l]? = s0.eng.work.cands[l]? := by
      intro l hl
      show (s0.eng.work.cands.set i (some x))[l]? = _
      rw [List.getElem?_set_ne hl.symm]
    obtain ⟨u, u1, u2, u3, u4, u5⟩ := ih s1 hap2 fun d hd => ⟨(hocc d (List.mem_cons_of_mem _ hd)).1, fun l hl => by
      rw [hlen1]; exact (hocc d (List.mem_cons_of_mem _ hd)).2 l hl⟩
    refine ⟨u, by rw [List.foldl_cons, hstep]; exact u1, by rw [u2, hs1, d1]; rfl, fun d hd j k hj hk => ?_,
      fun l hl => ?_, fun hs => ?_⟩
    · rcases List.mem_cons.1 hd with rfl | hd
      · rw [hi1] at hj; cases hj
        rw [hk0] at hk; cases hk
        refine ⟨?_, fun l hl hne => ?_⟩
        · rw [u4 i fun e he => hap1 e he i hi2]; exact g1
        · rw [u4 l fun e he => hap1 e he l hl, g2 l hne]
          exact d2 l ((hmo l).2 ⟨hl, hne⟩) (hcocc l hl).1
      · exact u3 d hd j k hj hk
    · have hlc := hl c (List.mem_cons_self ..)
      rw [u4 l fun e he => hl e (List.mem_cons_of_mem _ he), g2 l fun h => hlc (h ▸ hi2),
        d3 l fun h => hlc ((hmo l).1 h).1]
    · rw [u5 fun e he => hs e (List.mem_cons_of_mem _ he)]
      have : others = [] := by
        rw [List.eq_nil_iff_forall_not_mem]
        intro l hl
        obtain ⟨h1, h2⟩ := (hmo l).1 hl
        exact h2 (hs c (List.mem_cons_self ..) l h1 i hi2)
      show s0.eng.work.candLatch = _
      rw [d4 this]

/-! ### Step 3: the fates (R105, R106) -/

/-- Of a record followed by events, the record alone is a PINHOLE record. -/
theorem pinhole_only {x0 : Nat × RecordBody} {ys : List (Nat × RecordBody)}
    (h : ∀ y ∈ ys, ∃ c n, y.2 = .event c n) : ∀ x ∈ x0 :: ys, ∀ b, x.2 = .pinhole b → x = x0 := by
  intro x hx b hb
  rcases List.mem_cons.1 hx with rfl | hx
  · rfl
  · obtain ⟨c, n, hc⟩ := h x hx; rw [hb] at hc; cases hc

/-- What the close of one candidate does. -/
theorem closeCand_spec (markers : Marker → MarkerFields) (how : PinEnd) (s : State) (a : Nat) (k : Candidate)
    (hk : s.eng.work.cands[a]? = some (some k)) :
    ∃ (u : State) (xs : List (Nat × RecordBody)), closeCand markers how s a = u ∧ u.list = s.list.pushAll xs ∧
      (k.firstW, k.closeBody how) ∈ xs ∧ u.eng.work = { s.eng.work with
        cands := s.eng.work.cands.set a none, candLatch := false } ∧
      ∀ x ∈ xs, ∀ b, x.2 = .pinhole b → x = (k.firstW, k.closeBody how) := by
  obtain ⟨ys, h1, -, h2⟩ := reportPinhole_pushes markers k how (dropCand a s)
  refine ⟨_, (k.firstW, k.closeBody how) :: ys, rfl, ?_, List.mem_cons_self .., ?_, pinhole_only h2⟩
  · unfold closeCand; rw [entryAt_some.2 hk]; exact h1
  · unfold closeCand; rw [entryAt_some.2 hk]
    dsimp only
    rw [reportPinhole_tables]; rfl

/-- The fate leaves the candidate open. -/
def CandFate.open_ (f : CandFate) : Prop := f = .held ∨ f = .stays

/-- The fates of several candidates, each slot once. -/
theorem settleCands_fold (markers : Marker → MarkerFields) (fate : Nat → CandFate) : ∀ (l : List Nat) (s : State),
    l.Nodup → ∃ (u : State) (xs : List (Nat × RecordBody)),
      l.foldl (fun v i => settleCand markers i (fate i) v) s = u ∧
      u.list = s.list.pushAll xs ∧
      u.eng.work = { s.eng.work with cands := u.eng.work.cands, candLatch := u.eng.work.candLatch } ∧
      (∀ i ∈ l, ∀ k, fate i = .long → s.eng.work.cands[i]? = some (some k) →
        (k.firstW, k.closeBody .long) ∈ xs ∧ u.eng.work.cands[i]? = some none) ∧
      (∀ i ∈ l, ∀ k, fate i = .closes → s.eng.work.cands[i]? = some (some k) →
        (k.firstW, k.closeBody .ordinary) ∈ xs ∧ u.eng.work.cands[i]? = some none) ∧
      (∀ i ∈ l, ∀ k, fate i = .held → s.eng.work.cands[i]? = some (some k) →
        u.eng.work.cands[i]? = some (some { k with held := true })) ∧
      (∀ i, i ∉ l ∨ fate i = .stays → u.eng.work.cands[i]? = s.eng.work.cands[i]?) ∧
      ((∀ i ∈ l, (fate i).open_) → u.eng.work.candLatch = s.eng.work.candLatch) ∧
      ∀ x ∈ xs, ∀ b, x.2 = .pinhole b → ∃ i ∈ l, ∃ k, s.eng.work.cands[i]? = some (some k) ∧
        (fate i = .long ∧ x = (k.firstW, k.closeBody .long) ∨
          fate i = .closes ∧ x = (k.firstW, k.closeBody .ordinary)) := by
  intro l
  induction l with
  | nil =>
    intro s _
    exact ⟨s, [], rfl, rfl, rfl, by simp, by simp, by simp, fun _ _ => rfl, fun _ => rfl, by simp⟩
  | cons a l ih =>
    intro s hn
    obtain ⟨hna, hnl⟩ := List.nodup_cons.1 hn
    have hne : ∀ i ∈ l, i ≠ a := fun i hi h => hna (h ▸ hi)
    -- the step at `a`
    obtain ⟨s1, xs1, a1, a2, a3, a4, a5, a6, a7, a8, a9⟩ : ∃ (s1 : State) (xs : List (Nat × RecordBody)),
        settleCand markers a (fate a) s = s1 ∧ s1.list = s.list.pushAll xs ∧
        s1.eng.work = { s.eng.work with cands := s1.eng.work.cands, candLatch := s1.eng.work.candLatch } ∧
        (∀ k, fate a = .long → s.eng.work.cands[a]? = some (some k) →
          (k.firstW, k.closeBody .long) ∈ xs ∧ s1.eng.work.cands[a]? = some none) ∧
        (∀ k, fate a = .closes → s.eng.work.cands[a]? = some (some k) →
          (k.firstW, k.closeBody .ordinary) ∈ xs ∧ s1.eng.work.cands[a]? = some none) ∧
        (∀ k, fate a = .held → s.eng.work.cands[a]? = some (some k) →
          s1.eng.work.cands[a]? = some (some { k with held := true })) ∧
        (∀ i, i ≠ a ∨ fate a = .stays → s1.eng.work.cands[i]? = s.eng.work.cands[i]?) ∧
        ((fate a).open_ → s1.eng.work.candLatch = s.eng.work.candLatch) ∧
        ∀ x ∈ xs, ∀ b, x.2 = .pinhole b → ∃ k, s.eng.work.cands[a]? = some (some k) ∧
          (fate a = .long ∧ x = (k.firstW, k.closeBody .long) ∨
            fate a = .closes ∧ x = (k.firstW, k.closeBody .ordinary)) := by
      have hcl : ∀ how k, s.eng.work.cands[a]? = some (some k) → ∃ (u : State) (xs : List (Nat × RecordBody)),
          closeCand markers how s a = u ∧ u.list = s.list.pushAll xs ∧ (k.firstW, k.closeBody how) ∈ xs ∧
          u.eng.work = { s.eng.work with cands := u.eng.work.cands, candLatch := u.eng.work.candLatch } ∧
          u.eng.work.cands[a]? = some none ∧ (∀ i, i ≠ a → u.eng.work.cands[i]? = s.eng.work.cands[i]?) ∧
          ∀ x ∈ xs, ∀ b, x.2 = .pinhole b → x = (k.firstW, k.closeBody how) := by
        intro how k hk
        obtain ⟨u, xs, h1, h2, h3, h4, h5⟩ := closeCand_spec markers how s a k hk
        refine ⟨u, xs, h1, h2, h3, by rw [h4], ?_, fun i hi => ?_, h5⟩
        · rw [h4]; show (s.eng.work.cands.set a none)[a]? = _
          rw [List.getElem?_set_self (List.getElem?_eq_some_iff.1 hk).1]
        · rw [h4]; show (s.eng.work.cands.set a none)[i]? = _
          rw [List.getElem?_set_ne hi.symm]
      cases hf : fate a with
      | long =>
        cases hk : entryAt s.eng.work.cands a with
        | none =>
          refine ⟨s, [], ?_, rfl, rfl, fun k _ h => absurd h (entryAt_none.1 hk k), fun k h => (by cases h),
            fun k h => (by cases h), fun _ _ => rfl, fun _ => rfl,
            by simp⟩
          unfold settleCand closeCand; simp only [hk]
        | some k =>
          have hk' := entryAt_some.1 hk
          obtain ⟨u, xs, h1, h2, h3, h4, h5, h6, h7⟩ := hcl .long k hk'
          refine ⟨u, xs, ?_, h2, h4, fun k' _ h => ?_, fun k h => (by cases h), fun k h => (by cases h), fun i hi => ?_,
            fun h => ?_, fun x hx b hb => ⟨k, hk', .inl ⟨rfl, h7 x hx b hb⟩⟩⟩
          · exact h1
          · rw [hk'] at h; cases h; exact ⟨h3, h5⟩
          · rcases hi with hi | hi
            · exact h6 i hi
            · cases hi
          · rcases h with h | h <;> cases h
      | closes =>
        cases hk : entryAt s.eng.work.cands a with
        | none =>
          refine ⟨s, [], ?_, rfl, rfl, fun k h => (by cases h), fun k _ h => absurd h (entryAt_none.1 hk k),
            fun k h => (by cases h), fun _ _ => rfl, fun _ => rfl,
            by simp⟩
          unfold settleCand closeCand; simp only [hk]
        | some k =>
          have hk' := entryAt_some.1 hk
          obtain ⟨u, xs, h1, h2, h3, h4, h5, h6, h7⟩ := hcl .ordinary k hk'
          refine ⟨u, xs, ?_, h2, h4, fun k h => (by cases h), fun k' _ h => ?_, fun k h => (by cases h), fun i hi => ?_,
            fun h => ?_, fun x hx b hb => ⟨k, hk', .inr ⟨rfl, h7 x hx b hb⟩⟩⟩
          · exact h1
          · rw [hk'] at h; cases h; exact ⟨h3, h5⟩
          · rcases hi with hi | hi
            · exact h6 i hi
            · cases hi
          · rcases h with h | h <;> cases h
      | held =>
        cases hk : entryAt s.eng.work.cands a with
        | none =>
          refine ⟨s, [], ?_, rfl, rfl, fun k h => (by cases h), fun k h => (by cases h),
            fun k _ h => absurd h (entryAt_none.1 hk k), fun _ _ => rfl, fun _ => rfl,
            by simp⟩
          unfold settleCand; simp only [hk]
        | some k =>
          have hk' := entryAt_some.1 hk
          have hlt := (List.getElem?_eq_some_iff.1 hk').1
          refine ⟨s.withWork { s.eng.work with cands := s.eng.work.cands.set a (some { k with held := true }) }, [], ?_,
            rfl, rfl, fun k h => (by cases h), fun k h => (by cases h), fun k' _ h => ?_, fun i hi => ?_, fun _ => rfl,
            by simp⟩
          · unfold settleCand; simp only [hk]
          · rw [hk'] at h; cases h
            show (s.eng.work.cands.set a _)[a]? = _
            rw [List.getElem?_set_self hlt]
          · rcases hi with hi | hi
            · show (s.eng.work.cands.set a _)[i]? = _
              rw [List.getElem?_set_ne hi.symm]
            · cases hi
      | stays =>
        refine ⟨s, [], ?_, rfl, rfl, fun k h => (by cases h), fun k h => (by cases h), fun k h => (by cases h),
          fun _ _ => rfl, fun _ => rfl, by simp⟩
        rfl
    obtain ⟨u, xs2, b1, b2, b3, b4, b5, b6, b7, b8, b9⟩ := ih s1 hnl
    have hua : u.eng.work.cands[a]? = s1.eng.work.cands[a]? := b7 a (.inl hna)
    refine ⟨u, xs1 ++ xs2, by rw [List.foldl_cons, a1]; exact b1, by rw [b2, a2, pushAll_append], by rw [b3, a3],
      fun i hi k hf hk => ?_, fun i hi k hf hk => ?_, fun i hi k hf hk => ?_, fun i hi => ?_, fun h => ?_,
      fun x hx b hb => ?_⟩
    · rcases List.mem_cons.1 hi with rfl | hi
      · obtain ⟨h1, h2⟩ := a4 k hf hk
        exact ⟨List.mem_append_left _ h1, hua.trans h2⟩
      · obtain ⟨h1, h2⟩ := b4 i hi k hf ((a7 i (.inl (hne i hi))).trans hk)
        exact ⟨List.mem_append_right _ h1, h2⟩
    · rcases List.mem_cons.1 hi with rfl | hi
      · obtain ⟨h1, h2⟩ := a5 k hf hk
        exact ⟨List.mem_append_left _ h1, hua.trans h2⟩
      · obtain ⟨h1, h2⟩ := b5 i hi k hf ((a7 i (.inl (hne i hi))).trans hk)
        exact ⟨List.mem_append_right _ h1, h2⟩
    · rcases List.mem_cons.1 hi with rfl | hi
      · exact hua.trans (a6 k hf hk)
      · exact b6 i hi k hf ((a7 i (.inl (hne i hi))).trans hk)
    · by_cases hia : i = a
      · subst hia
        rw [hua]
        rcases hi with hi | hi
        · exact absurd (List.mem_cons_self ..) hi
        · exact a7 i (.inr hi)
      · rw [b7 i (hi.imp (fun h h' => h (List.mem_cons_of_mem _ h')) id)]
        exact a7 i (.inl hia)
    · rw [b8 fun i hi => h i (List.mem_cons_of_mem _ hi)]
      exact a8 (h a (List.mem_cons_self ..))
    · rcases List.mem_append.1 hx with hx | hx
      · obtain ⟨k, h1, h2⟩ := a9 x hx b hb
        exact ⟨a, List.mem_cons_self .., k, h1, h2⟩
      · obtain ⟨i, hi, k, h1, h2⟩ := b9 x hx b hb
        exact ⟨i, List.mem_cons_of_mem _ hi, k, (a7 i (.inl (hne i hi))).symm.trans h1, h2⟩

/-! ### Step 4: the lone runs (R107, R108) -/

/-- What one lone run does. -/
theorem lonePinholeRun_spec (ln : Line) (r : Run Nat) (s : State) :
    ∃ (u : State) (xs : List (Nat × RecordBody)), lonePinholeRun ln s r = u ∧ u.list = s.list.pushAll xs ∧
      u.eng.work = { s.eng.work with
        cands := u.eng.work.cands, candLatch := u.eng.work.candLatch, splits := u.eng.work.splits } ∧
      (∀ (i : Nat) (k : Candidate), s.eng.work.cands[i]? = some (some k) → u.eng.work.cands[i]? = some (some k)) ∧
      (∀ i : Nat, s.eng.work.cands[i]? = some none → ∃ o, u.eng.work.cands[i]? = some o ∧
        ∀ v : Candidate, o = some v → v.firstW = ln.slot.w ∧ v.lastW = ln.slot.w ∧ v.patch = ln.slot.patchNum ∧
          v.lines = 1) ∧
      (0 < s.eng.work.cands.count none → u.eng.work.splits = s.eng.work.splits ∧
        s.eng.work.cands.count none ≤ u.eng.work.cands.count none + 1 ∧
        (1 < ln.copy.pmax → ∃ j : Nat, u.eng.work.cands[j]? = some (some (newCand ln r))) ∧
        (ln.copy.pmax ≤ 1 → (ln.slot.w, (newCand ln r).closeBody .long) ∈ xs)) ∧
      ((∀ o ∈ s.eng.work.cands, o ≠ none) → u.eng.work.cands = s.eng.work.cands ∧
        u.eng.work.splits = bump s.eng.work.splits ∧ u.eng.work.candLatch = true ∧
        (ln.slot.w, (newCand ln r).closeBody .split) ∈ xs ∧
        (s.eng.work.candLatch = false → (ln.slot.w, .event .candidateTableFull r.key) ∈ xs)) ∧
      ∀ x ∈ xs, ∀ b, x.2 = .pinhole b →
        ln.copy.pmax ≤ 1 ∧ x = (ln.slot.w, (newCand ln r).closeBody .long) ∨
          (∀ o ∈ s.eng.work.cands, o ≠ none) ∧ x = (ln.slot.w, (newCand ln r).closeBody .split) := by
  unfold lonePinholeRun
  cases he : emptySlot s.eng.work.cands with
  | some i =>
    have hi := emptySlot_some he
    have hlt := (List.getElem?_eq_some_iff.1 hi).1
    dsimp only
    set s1 : State := s.withWork { s.eng.work with cands := s.eng.work.cands.set i (some (newCand ln r)) } with hs1
    have h1 : s1.eng.work.cands[i]? = some (some (newCand ln r)) := by
      show (s.eng.work.cands.set i _)[i]? = _
      rw [List.getElem?_set_self hlt]
    have h2 : ∀ j : Nat, j ≠ i → s1.eng.work.cands[j]? = s.eng.work.cands[j]? := by
      intro j hj
      show (s.eng.work.cands.set i _)[j]? = _
      rw [List.getElem?_set_ne hj.symm]
    have hno : (∀ o ∈ s.eng.work.cands, o ≠ none) → False := fun h => h none (List.mem_of_getElem? hi) rfl
    have hcount : s.eng.work.cands.count none ≤ s1.eng.work.cands.count none + 1 :=
      (count_none_set hi (newCand ln r)).ge
    unfold openCand
    dsimp only
    rw [← hs1]
    by_cases hp : ln.copy.pmax ≤ 1
    · rw [if_pos hp]
      obtain ⟨u, xs, g1, g2, g3, g4, g5⟩ := closeCand_spec ln.copy.markerFields .long s1 i _ h1
      have hget : ∀ j : Nat, u.eng.work.cands[j]? = if j = i then some none else s.eng.work.cands[j]? := by
        intro j
        rw [g4]
        show (s1.eng.work.cands.set i none)[j]? = _
        by_cases hj : j = i
        · subst hj
          rw [if_pos rfl, List.getElem?_set_self (List.getElem?_eq_some_iff.1 h1).1]
        · rw [if_neg hj, List.getElem?_set_ne (fun h => hj h.symm), h2 j hj]
      have hsame : u.eng.work.cands = s.eng.work.cands := by
        apply List.ext_getElem?
        intro j
        rw [hget]; split
        · rename_i h; rw [h, hi]
        · rfl
      refine ⟨u, xs, g1, g2, by rw [g4]; rfl, fun j k hk => by rw [hsame]; exact hk,
        fun j hj => ⟨none, by rw [hsame]; exact hj, fun v hv => by cases hv⟩,
        fun _ => ⟨by rw [g4]; rfl, by rw [hsame]; omega, fun h => by omega, fun _ => g3⟩, fun h => (hno h).elim,
        fun x hx b hb => .inl ⟨hp, g5 x hx b hb⟩⟩
    · rw [if_neg hp]
      refine ⟨s1, [], rfl, rfl, rfl, fun j k hk => ?_, fun j hj => ?_,
        fun _ => ⟨rfl, hcount, fun _ => ⟨i, h1⟩, fun h => absurd h hp⟩, fun h => (hno h).elim, by simp⟩
      · rw [h2 j fun h => by rw [h, hi] at hk; cases hk]; exact hk
      · by_cases hji : j = i
        · subst hji
          exact ⟨_, h1, fun v hv => by cases hv; exact ⟨rfl, rfl, rfl, rfl⟩⟩
        · exact ⟨none, by rw [h2 j hji]; exact hj, fun v hv => by cases hv⟩
  | none =>
    have hall := emptySlot_none he
    dsimp only
    set s1 : State := s.withWork { s.eng.work with splits := bump s.eng.work.splits, candLatch := true } with hs1
    set ev : List (Nat × RecordBody) :=
      if s.eng.work.candLatch then [] else [(ln.slot.w, .event .candidateTableFull r.key)] with hev
    obtain ⟨s2, e2, l2, w2⟩ : ∃ s2 : State,
        splitRun ln r s = reportPinhole ln.copy.markerFields (newCand ln r) .split s2 ∧
        s2.list = s.list.pushAll ev ∧ s2.eng.work = s1.eng.work := by
      refine ⟨splitNotice ln r s, rfl, ?_, ?_⟩
      · rw [hev]; unfold splitNotice; dsimp only; split <;> rfl
      · unfold splitNotice; dsimp only; split <;> rfl
    obtain ⟨ys, p1, -, p2⟩ := reportPinhole_pushes ln.copy.markerFields (newCand ln r) .split s2
    have hw : (splitRun ln r s).eng.work = s1.eng.work := by rw [e2, reportPinhole_tables, w2]
    refine ⟨_, ev ++ (ln.slot.w, (newCand ln r).closeBody .split) :: ys, rfl, ?_, by rw [hw]; rfl,
      fun j k hk => by rw [hw]; exact hk, fun j hj => ⟨none, by rw [hw]; exact hj, fun v hv => by cases hv⟩,
      fun h0 => absurd rfl (hall none (List.count_pos_iff.1 h0)), fun _ => ⟨by rw [hw]; rfl, by rw [hw]; rfl,
        by rw [hw]; rfl, List.mem_append_right _ (List.mem_cons_self ..), fun hl => ?_⟩,
      fun x hx b hb => .inr ⟨hall, ?_⟩⟩
    · rw [e2, p1, l2, ← pushAll_append]; rfl
    · refine List.mem_append_left _ ?_
      rw [hev, hl]; exact List.mem_singleton.2 rfl
    · rcases List.mem_append.1 hx with hx | hx
      · rw [hev] at hx
        split at hx
        · cases hx
        · rw [List.mem_singleton.1 hx] at hb; cases hb
      · exact pinhole_only p2 x hx b hb

/-- What the lone runs do, one after another, whatever room there is. -/
theorem lonePinholeRuns_fold (ln : Line) : ∀ (l : List (Run Nat)) (s : State),
    ∃ (u : State) (xs : List (Nat × RecordBody)), l.foldl (lonePinholeRun ln) s = u ∧ u.list = s.list.pushAll xs ∧
      u.eng.work = { s.eng.work with
        cands := u.eng.work.cands, candLatch := u.eng.work.candLatch, splits := u.eng.work.splits } ∧
      (∀ (i : Nat) (k : Candidate), s.eng.work.cands[i]? = some (some k) → u.eng.work.cands[i]? = some (some k)) ∧
      (∀ i : Nat, s.eng.work.cands[i]? = some none → ∃ o, u.eng.work.cands[i]? = some o ∧
        ∀ v : Candidate, o = some v → v.firstW = ln.slot.w ∧ v.lastW = ln.slot.w ∧ v.patch = ln.slot.patchNum ∧
          v.lines = 1) ∧
      (l.length ≤ s.eng.work.cands.count none → u.eng.work.splits = s.eng.work.splits ∧ ∀ r ∈ l,
        (1 < ln.copy.pmax → ∃ j : Nat, u.eng.work.cands[j]? = some (some (newCand ln r))) ∧
        (ln.copy.pmax ≤ 1 → (ln.slot.w, (newCand ln r).closeBody .long) ∈ xs)) ∧
      ((∀ o ∈ s.eng.work.cands, o ≠ none) → u.eng.work.cands = s.eng.work.cands ∧
        (l ≠ [] → u.eng.work.splits = min (s.eng.work.splits + l.length) 65535) ∧
        (u.eng.work.candLatch = true ↔ s.eng.work.candLatch = true ∨ l ≠ []) ∧
        (∀ r ∈ l, (ln.slot.w, (newCand ln r).closeBody .split) ∈ xs) ∧
        ∀ r more, l = r :: more → s.eng.work.candLatch = false →
          (ln.slot.w, .event .candidateTableFull r.key) ∈ xs) ∧
      ∀ x ∈ xs, ∀ b, x.2 = .pinhole b → ∃ r ∈ l,
        ln.copy.pmax ≤ 1 ∧ x = (ln.slot.w, (newCand ln r).closeBody .long) ∨
          s.eng.work.cands.count none < l.length ∧ x = (ln.slot.w, (newCand ln r).closeBody .split) := by
  intro l
  induction l with
  | nil =>
    intro s
    exact ⟨s, [], rfl, rfl, rfl, fun (_ : Nat) _ h => h, fun (_ : Nat) hi => ⟨none, hi, fun v hv => by cases hv⟩,
      fun _ => ⟨rfl, by simp⟩, fun _ => ⟨rfl, by simp, by simp, by simp, by simp⟩, by simp⟩
  | cons r l ih =>
    intro s
    obtain ⟨s1, xs1, a1, a2, a3, a4, a5, a6, a7, a8⟩ := lonePinholeRun_spec ln r s
    obtain ⟨u, xs2, b1, b2, b3, b4, b5, b6, b7, b8⟩ := ih s1
    refine ⟨u, xs1 ++ xs2, by rw [List.foldl_cons, a1]; exact b1, by rw [b2, a2, pushAll_append], by rw [b3, a3],
      fun (i : Nat) k hi => b4 i k (a4 i k hi), fun i hi => ?_, fun hroom => ?_, fun hall => ?_,
      fun x hx b hb => ?_⟩
    · obtain ⟨o, h1, h2⟩ := a5 i hi
      cases o with
      | none => exact b5 i h1
      | some v => exact ⟨some v, b4 i v h1, h2⟩
    · simp only [List.length_cons] at hroom
      obtain ⟨h1, h2, h3, h4⟩ := a6 (by omega)
      obtain ⟨g1, g2⟩ := b6 (by omega)
      refine ⟨g1.trans h1, fun q hq => ?_⟩
      rcases List.mem_cons.1 hq with rfl | hq
      · exact ⟨fun hp => (h3 hp).imp fun j hj => b4 j _ hj, fun hp => List.mem_append_left _ (h4 hp)⟩
      · exact ⟨(g2 q hq).1, fun hp => List.mem_append_right _ ((g2 q hq).2 hp)⟩
    · obtain ⟨h1, h2, h3, h4, h5⟩ := a7 hall
      obtain ⟨g1, g2, g3, g4, -⟩ := b7 (by rw [h1]; exact hall)
      refine ⟨g1.trans h1, fun _ => ?_, ?_, fun q hq => ?_, fun r' more he hl => ?_⟩
      · by_cases hnil : l = []
        · subst hnil
          rw [show u = s1 from b1.symm, h2]; simp [bump, maxCount]
        · rw [g2 hnil, h2]; simp only [bump, maxCount, List.length_cons]; omega
      · rw [g3, h3]; simp
      · rcases List.mem_cons.1 hq with rfl | hq
        · exact List.mem_append_left _ h4
        · exact List.mem_append_right _ (g4 q hq)
      · cases he
        exact List.mem_append_left _ (h5 hl)
    · rcases List.mem_append.1 hx with hx | hx
      · refine ⟨r, List.mem_cons_self .., (a8 x hx b hb).imp_right fun h => ⟨?_, h.2⟩⟩
        rw [List.count_eq_zero.2 fun hm => h.1 none hm rfl]; simp
      · obtain ⟨q, hq, h⟩ := b8 x hx b hb
        refine ⟨q, List.mem_cons_of_mem _ hq, h.imp_right fun h => ⟨?_, h.2⟩⟩
        rw [List.length_cons]
        by_cases h0 : 0 < s.eng.work.cands.count none
        · have := (a6 h0).2.1; omega
        · omega

/-! ### What stage 3 leaves -/

/-- `t` comes from `s` by appends and by work that leaves the candidates alone. -/
structure NoCandWork (s t : State) : Prop where
  list : ∃ xs, t.list = s.list.pushAll xs ∧ ∀ x ∈ xs, ∀ b, x.2 ≠ .pinhole b
  cands : t.eng.work.cands = s.eng.work.cands
  latch : t.eng.work.candLatch = s.eng.work.candLatch
  splits : t.eng.work.splits = s.eng.work.splits

theorem NoCandWork.same (s : State) : NoCandWork s s := ⟨⟨[], rfl, by simp⟩, rfl, rfl, rfl⟩

theorem NoCandWork.trans {s t u : State} (h : NoCandWork s t) (k : NoCandWork t u) : NoCandWork s u := by
  obtain ⟨xs, h1, h2⟩ := h.list
  obtain ⟨ys, k1, k2⟩ := k.list
  exact ⟨⟨xs ++ ys, by rw [k1, h1, pushAll_append], fun x hx => (List.mem_append.1 hx).elim (h2 x) (k2 x)⟩,
    k.cands.trans h.cands, k.latch.trans h.latch, k.splits.trans h.splits⟩

theorem NoCandWork.foldl {α : Type} {f : State → α → State} (h : ∀ s a, NoCandWork s (f s a)) (as : List α) :
    ∀ s, NoCandWork s (as.foldl f s) := by
  induction as with
  | nil => exact fun s => .same s
  | cons a as ih => exact fun s => (h s a).trans (ih _)

/-- Stage 3 leaves the candidates alone. -/
theorem streakStage_noCand (ln : Line) (outs : List CellResult) (s : State) : NoCandWork s (streakStage ln outs s) := by
  have h1 : ∀ next u c, NoCandWork u (extendStreak next u c) := by
    intro next u c; unfold extendStreak; dsimp only; split
    · exact .same u
    · split
      · exact .same u
      · exact ⟨⟨[], rfl, by simp⟩, rfl, rfl, rfl⟩
  have h2 : ∀ w i was f u, NoCandWork u (settleStreak w i was f u) := by
    intro w i was f u
    have hc : ∀ st reason into, NoCandWork u (closeStreakAs st i reason into w u) :=
      fun st reason into => ⟨⟨[(w, st.closeBody reason into)], rfl, by simp [Streak.closeBody]⟩, rfl, rfl, rfl⟩
    unfold settleStreak; split
    · split
      · exact hc _ _ _
      · exact .same u
    · unfold closeStreak; split
      · exact hc _ _ _
      · exact .same u
    · split
      · exact ⟨⟨[], rfl, by simp⟩, rfl, rfl, rfl⟩
      · exact .same u
    · exact .same u
  have h3 : ∀ u r, NoCandWork u (loneStreakRun ln u r) := by
    intro u r
    obtain ⟨v, xs, a1, a2, a3, a4, -⟩ := loneStreakRun_spec ln r u
    rw [a1]
    exact ⟨⟨xs, a2, fun x hx => (a3 x hx).2⟩, by rw [a4], by rw [a4], by rw [a4]⟩
  have h4 : ∀ u x, NoCandWork u (runStreakItem ln u x) := fun u x => by
    cases x
    · exact h2 _ _ _ _ u
    · exact h3 u _
  have h5 : NoCandWork s (beginStreaks ln outs s).2 := by
    unfold beginStreaks; split
    · exact NoCandWork.trans (t := s.withWork { s.eng.work with
        streaks := s.eng.work.streaks.map fun o => o.map (Streak.onPatch ln.slot.patchNum) })
        ⟨⟨[], rfl, by simp⟩, rfl, rfl, rfl⟩ (NoCandWork.foldl (h1 _) _ _)
    · exact .same s
  exact h5.trans (NoCandWork.foldl h4 _ _)

/-- Stage 5 leaves the candidates alone. -/
theorem tallyStage_noCand (x : Slot) (s : State) : NoCandWork s (tallyStage x s) := by
  unfold tallyStage; dsimp only; split
  · exact ⟨⟨[], rfl, by simp⟩, rfl, rfl, rfl⟩
  · split
    · exact ⟨⟨[], rfl, by simp⟩, rfl, rfl, rfl⟩
    · exact ⟨⟨[(_, _)], rfl, by simp⟩, rfl, rfl, rfl⟩

end Sys2Proof.Machine
end

