-- ==== Sys2Proof/Laws/Links.lean ====
section
/-! SUPPORT. Head links and the line assembler: what a frame, a packet and a loss can reach, and the slots' sets. -/

namespace Sys2Proof.Machine

/-! ### Slots (R52, R53, R58 to R60) -/

theorem covered_iff (x : Slot) : x.covered = true ↔ ∀ k, (x.received.get k || x.absent.get k) = x.expected.get k := by
  constructor
  · intro h k
    simp only [Slot.covered, List.all_eq_true, beq_iff_eq] at h
    exact h k (by fin_cases k <;> simp)
  · intro h
    simp only [Slot.covered, List.all_eq_true, beq_iff_eq]
    exact fun k _ => h k

/-- The completion test touches the state alone: READY when the sets agree, and otherwise as it was. -/
theorem completed_eq (x : Slot) :
    x.completed = { x with state := if x.state = .opened ∧ x.covered = true then .ready else x.state } := by
  unfold Slot.completed; split <;> simp_all

/-- The completion test on an OPEN slot. -/
theorem completed_opened {x : Slot} (h : x.state = .opened) :
    (x.completed.state = .opened ∨ x.completed.state = .ready) ∧
      (x.completed.state = .ready ↔ ∀ k, (x.received.get k || x.absent.get k) = x.expected.get k) := by
  rw [completed_eq, ← covered_iff]
  by_cases hc : x.covered = true <;> simp [h, hc]

theorem completed_setsOk {x : Slot} (h : x.setsOk) : x.completed.setsOk := by rw [completed_eq]; exact h

theorem without_setsOk {x : Slot} (h : x.setsOk) (k : HeadNo) : (x.without k).setsOk := by
  intro j
  have := h j
  simp only [Slot.without, Quad.get_set]
  split <;> simp_all

theorem forcedReady_setsOk {x : Slot} (h : x.setsOk) : x.forcedReady.setsOk := by
  intro j
  have hj := h j
  have hg : x.forcedReady.absent.get j = (x.absent.get j || (x.expected.get j && !x.received.get j)) := by
    fin_cases j <;> rfl
  show (x.received.get j = true → x.expected.get j = true ∧ x.forcedReady.absent.get j = false) ∧
    (x.forcedReady.absent.get j = true → x.expected.get j = true)
  rw [hg]
  cases hr : x.received.get j <;> cases ha : x.absent.get j <;> cases he : x.expected.get j <;> simp_all

theorem freed_setsOk (x : Slot) : x.freed.setsOk := by intro j; simp [Slot.freed]

/-! ### Packets (R48, R55 to R58) -/

theorem placeCells_length (cells : List Nat) (g : Nat) (values : List Nat) (h : g + values.length ≤ cells.length) :
    (placeCells cells g values).length = cells.length := by
  simp [placeCells]; omega

theorem placeCells_getElem? (cells : List Nat) (g : Nat) (values : List Nat) (h : g + values.length ≤ cells.length)
    (i : Nat) : (placeCells cells g values)[i]? =
      if g ≤ i ∧ i < g + values.length then values[i - g]? else cells[i]? := by
  unfold placeCells
  rw [List.append_assoc]
  by_cases h1 : i < g
  · rw [List.getElem?_append_left (by simp; omega), List.getElem?_take_of_lt h1, if_neg (by omega)]
  · have ht : (cells.take g).length = g := by simp; omega
    rw [List.getElem?_append_right (by omega), ht]
    by_cases h2 : i < g + values.length
    · rw [List.getElem?_append_left (by omega), if_pos ⟨by omega, h2⟩]
    · rw [List.getElem?_append_right (by omega), List.getElem?_drop, if_neg (by omega)]
      congr 1; omega

theorem placeCells_le {cells values : List Nat} (g : Nat) (hc : ∀ x ∈ cells, x ≤ 4095) (hv : ∀ x ∈ values, x ≤ 4095) :
    ∀ x ∈ placeCells cells g values, x ≤ 4095 := by
  intro x hx
  simp only [placeCells, List.mem_append] at hx
  rcases hx with (hx | hx) | hx
  exacts [hc x (List.mem_of_mem_take hx), hv x hx, hc x (List.mem_of_mem_drop hx)]

/-- A packet's cell values are 12 bits wide (R38). -/
theorem unpackCells_le : ∀ (n : Nat) (bs : List Byte), ∀ x ∈ unpackCells n bs, x ≤ 4095
  | 0, _ => by simp [unpackCells]
  | 1, [] => by simp [unpackCells]
  | 1, [_] => by simp [unpackCells]
  | 1, b0 :: b1 :: _ => by
    intro x hx
    simp only [unpackCells, List.mem_singleton] at hx
    have h0 := b0.isLt; have h1 := b1.isLt; omega
  | n + 2, [] => by simp [unpackCells]
  | n + 2, [_] => by simp [unpackCells]
  | n + 2, [_, _] => by simp [unpackCells]
  | n + 2, b0 :: b1 :: b2 :: rest => by
    intro x hx
    simp only [unpackCells, List.mem_cons] at hx
    have h0 := b0.isLt; have h1 := b1.isLt; have h2 := b2.isLt
    rcases hx with hx | hx | hx
    · omega
    · omega
    · exact unpackCells_le n rest x hx

/-- The cell values of a packet are what `n` says (R38). -/
theorem unpackCells_length : ∀ (n : Nat) (bs : List Byte), bs.length = (3 * n + 1) / 2 →
    (unpackCells n bs).length = n
  | 0, _, _ => by simp [unpackCells]
  | 1, [], h => by simp at h
  | 1, [_], h => by simp at h
  | 1, b0 :: b1 :: _, _ => by simp [unpackCells]
  | n + 2, [], h => by simp at h; omega
  | n + 2, [_], h => by simp at h; omega
  | n + 2, [_, _], h => by simp at h; omega
  | n + 2, b0 :: b1 :: b2 :: rest, h => by
    simp only [unpackCells, List.length_cons]
    rw [unpackCells_length n rest (by simp at h; omega)]

theorem openSlotFor_some {s : State} {tag : BitVec 16} {i : Fin 4} (h : s.openSlotFor tag = some i) :
    (s.asm.slots.get i).state = .opened ∧ (s.asm.slots.get i).line = tag := by
  have := List.find?_some h
  simpa using this

theorem openSlotFor_none {s : State} {tag : BitVec 16} (h : s.openSlotFor tag = none) (i : Fin 4) :
    (s.asm.slots.get i).state = .opened → (s.asm.slots.get i).line ≠ tag := by
  have h' := List.find?_eq_none.mp h i (by fin_cases i <;> simp)
  simpa using h'

/-- A packet accepted by a slot that expects its head: its head joins one of the two sets, and the completion test is
made. -/
theorem accept_eq (x : Slot) (e : HeadEntry) (k : Packet) :
    x.accept e k = { x with
      state := (x.accept e k).state
      cells := if k.illumFault = true ∨ k.count < e.l0 + e.n then x.cells
        else placeCells x.cells e.g0 ((k.values.drop e.l0).take e.n)
      received := if k.illumFault = true ∨ k.count < e.l0 + e.n then x.received else x.received.set k.head true
      absent := if k.illumFault = true ∨ k.count < e.l0 + e.n then x.absent.set k.head true else x.absent } := by
  unfold Slot.accept
  split
  · rename_i h; simp at h; rw [completed_eq]; simp [h]
  · rename_i h
    have h' : ¬ (k.illumFault = true ∨ k.count < e.l0 + e.n) := by simpa using h
    rw [completed_eq]; simp [h']

theorem accept_setsOk {x : Slot} (h : x.setsOk) (e : HeadEntry) (k : Packet) (he : x.expected.get k.head = true)
    (hr : x.received.get k.head = false) (ha : x.absent.get k.head = false) : (x.accept e k).setsOk := by
  rw [accept_eq]
  intro j
  have hj := h j
  by_cases hc : k.illumFault = true ∨ k.count < e.l0 + e.n
  · simp only [if_pos hc, Quad.get_set]
    split <;> simp_all
  · simp only [if_neg hc, Quad.get_set]
    split <;> simp_all

/-- A packet that its stitch entry fits leaves the slot its 2048 cell values (R50, R56). -/
theorem accept_length {x : Slot} (hx : x.cells.length = 2048) (e : HeadEntry) (he : e.g0 + e.n ≤ 2048) (k : Packet) :
    (x.accept e k).cells.length = 2048 := by
  rw [accept_eq]
  dsimp only
  split
  · exact hx
  · rw [placeCells_length, hx]
    have : ((k.values.drop e.l0).take e.n).length ≤ e.n := by simp
    omega

theorem accept_state (x : Slot) (e : HeadEntry) (k : Packet) :
    (x.accept e k).state = x.state ∨ x.state = .opened ∧ (x.accept e k).state = .ready := by
  unfold Slot.accept
  split <;> rw [completed_eq] <;> dsimp only <;> split <;> simp_all

/-! ### What a link event can reach -/

/-- The counters of a link have moved up alone. -/
structure LinkUps (k l : Link) : Prop where
  aborted : Up k.aborted l.aborted
  bad : Up k.badFrames l.badFrames
  ids : Up k.idMismatches l.idMismatches

theorem LinkUps.same (k : Link) : LinkUps k k := ⟨.same _, .same _, .same _⟩
theorem LinkUps.trans {a b c : Link} (h : LinkUps a b) (k : LinkUps b c) : LinkUps a c :=
  ⟨h.aborted.trans k.aborted, h.bad.trans k.bad, h.ids.trans k.ids⟩

/-- A slot before and after a link event: it keeps its line and copy, its sets stay in order, it may turn from OPEN to
READY, and its cell values stay 12 bits wide. -/
structure SlotStep (x y : Slot) : Prop where
  line : y.line = x.line
  rank : y.rank = x.rank
  copy : y.copy = x.copy
  state : y.state = x.state ∨ x.state = .opened ∧ y.state = .ready
  closed : x.state ≠ .opened → y = x
  sets : x.setsOk → y.setsOk
  cells : (∀ v ∈ x.cells, v ≤ 4095) → ∀ v ∈ y.cells, v ≤ 4095

theorem SlotStep.same (x : Slot) : SlotStep x x := ⟨rfl, rfl, rfl, .inl rfl, fun _ => rfl, id, id⟩
theorem SlotStep.trans {x y z : Slot} (h : SlotStep x y) (k : SlotStep y z) : SlotStep x z := by
  refine ⟨k.line.trans h.line, k.rank.trans h.rank, k.copy.trans h.copy, ?_, fun hx => ?_, fun a => k.sets (h.sets a),
    fun a => k.cells (h.cells a)⟩
  · rcases h.state with h1 | ⟨h1, h2⟩
    · rcases k.state with k1 | ⟨k1, k2⟩
      · exact .inl (k1.trans h1)
      · exact .inr ⟨h1 ▸ k1, k2⟩
    · rcases k.state with k1 | ⟨k1, k2⟩
      · exact .inr ⟨h1, k1.trans h2⟩
      · rw [h2] at k1; cases k1
  · rw [k.closed, h.closed hx]
    rw [h.closed hx]; exact hx

/-- Every stitch entry of every copy a slot can refer to ends within the 2048 global cells (R50, R161). -/
def State.headsFit (s : State) : Prop :=
  ∀ c h, ((s.copyOf c).heads.get h).g0 + ((s.copyOf c).heads.get h).n ≤ 2048

/-- Every slot holds its 2048 cell values (R52). -/
def State.slotsSized (s : State) : Prop := ∀ i, (s.asm.slots.get i).cells.length = 2048

/-- `t` comes from `s` by events at link `h`. -/
structure LinkWork (h : HeadNo) (s t : State) : Prop where
  appends : Appends s t
  pos : t.pos = s.pos
  trig : t.trig = s.trig
  trk : t.trk = s.trk
  mark : t.mark = s.mark
  rcp : t.rcp = s.rcp
  freeCount : t.freeCount = s.freeCount
  pending : t.pending = s.pending
  work : t.eng.work = s.eng.work
  pub : t.eng.pub = s.eng.pub
  lastLine : t.eng.lastLine = s.eng.lastLine
  kept : t.eng.kept = s.eng.kept
  contribs : t.eng.contribs = s.eng.contribs
  links : ∀ k, k ≠ h → t.links.get k = s.links.get k
  ups : LinkUps (s.links.get h) (t.links.get h)
  slots : ∀ i, SlotStep (s.asm.slots.get i) (t.asm.slots.get i)
  lastRank : t.asm.lastRank = s.asm.lastRank
  forced : t.asm.forced = s.asm.forced
  late : ∀ k, Up (s.asm.late.get k) (t.asm.late.get k)
  duplicate : ∀ k, Up (s.asm.duplicate.get k) (t.asm.duplicate.get k)
  short : ∀ k, Up (s.asm.short.get k) (t.asm.short.get k)
  illum : ∀ k, Up (s.asm.illum.get k) (t.asm.illum.get k)
  sizes : s.headsFit → s.slotsSized → t.slotsSized

theorem LinkWork.same (h : HeadNo) (s : State) : LinkWork h s s :=
  ⟨.rfl' s, rfl, rfl, rfl, rfl, rfl, rfl, rfl, rfl, rfl, rfl, rfl, rfl, fun _ _ => rfl, .same _, fun _ => .same _, rfl,
    rfl, fun _ => .same _, fun _ => .same _, fun _ => .same _, fun _ => .same _, fun _ k => k⟩

theorem LinkWork.trans {h : HeadNo} {s t u : State} (a : LinkWork h s t) (b : LinkWork h t u) : LinkWork h s u :=
  ⟨a.appends.trans b.appends, b.pos.trans a.pos, b.trig.trans a.trig, b.trk.trans a.trk, b.mark.trans a.mark,
    b.rcp.trans a.rcp, b.freeCount.trans a.freeCount, b.pending.trans a.pending, b.work.trans a.work,
    b.pub.trans a.pub, b.lastLine.trans a.lastLine, b.kept.trans a.kept, b.contribs.trans a.contribs,
    fun k hk => (b.links k hk).trans (a.links k hk), a.ups.trans b.ups, fun i => (a.slots i).trans (b.slots i),
    b.lastRank.trans a.lastRank, b.forced.trans a.forced, fun k => (a.late k).trans (b.late k),
    fun k => (a.duplicate k).trans (b.duplicate k), fun k => (a.short k).trans (b.short k),
    fun k => (a.illum k).trans (b.illum k),
    fun f k => b.sizes (fun c j => by
      rw [show t.copyOf c = s.copyOf c by cases c <;> simp [State.copyOf, a.rcp]]; exact f c j) (a.sizes f k)⟩

theorem LinkWork.foldl {α : Type} {h : HeadNo} {f : State → α → State} (hf : ∀ s a, LinkWork h s (f s a))
    (as : List α) : ∀ s, LinkWork h s (as.foldl f s) := by
  induction as with
  | nil => exact fun s => .same h s
  | cons a as ih => exact fun s => (hf s a).trans (ih _)

theorem LinkWork.event (h : HeadNo) (c : EventCode) (n : Nat) (s : State) : LinkWork h s (appendEvent c n s) :=
  ⟨.event c n s, rfl, rfl, rfl, rfl, rfl, rfl, rfl, rfl, rfl, rfl, rfl, rfl, fun _ _ => rfl, .same _, fun _ => .same _,
    rfl, rfl, fun _ => .same _, fun _ => .same _, fun _ => .same _, fun _ => .same _, fun _ k => k⟩

theorem LinkWork.withLink (h : HeadNo) (s : State) (k : Link) (hk : LinkUps (s.links.get h) k) :
    LinkWork h s (s.withLink h k) :=
  ⟨.same rfl rfl, rfl, rfl, rfl, rfl, rfl, rfl, rfl, rfl, rfl, rfl, rfl, rfl,
    fun j hj => by simp [Quad.get_set, hj], by simpa using hk, fun _ => .same _, rfl,
    rfl, fun _ => .same _, fun _ => .same _, fun _ => .same _, fun _ => .same _, fun _ k => k⟩

theorem LinkWork.resets (h : HeadNo) (s : State) (q : List ResetRequest) :
    LinkWork h s { s with eng := { s.eng with resets := q } } :=
  ⟨.same rfl rfl, rfl, rfl, rfl, rfl, rfl, rfl, rfl, rfl, rfl, rfl, rfl, rfl, fun _ _ => rfl, .same _, fun _ => .same _,
    rfl, rfl, fun _ => .same _, fun _ => .same _, fun _ => .same _, fun _ => .same _, fun _ k => k⟩

theorem withoutHead_step (x : Slot) (h : HeadNo) :
    SlotStep x (if x.state = .opened then (x.without h).completed else x) := by
  split
  · rename_i hx
    rw [completed_eq]
    refine ⟨rfl, rfl, rfl, ?_, fun hn => absurd hx hn, fun hs => without_setsOk hs h, id⟩
    simp only [Slot.without, hx]; split <;> simp
  · exact .same x

theorem withoutHead_cells (x : Slot) (h : HeadNo) :
    (if x.state = .opened then (x.without h).completed else x).cells = x.cells := by
  split
  · rw [completed_eq]; rfl
  · rfl

theorem headLost_work (h : HeadNo) (c : LostCause) (s : State) : LinkWork h s (headLost h c s) := by
  unfold headLost
  refine (LinkWork.event h .headLost (h.val + 256 * c.num) s).trans ?_
  generalize appendEvent .headLost (h.val + 256 * c.num) s = u
  exact ⟨.same rfl rfl, rfl, rfl, rfl, rfl, rfl, rfl, rfl, rfl, rfl, rfl, rfl, rfl, fun _ _ => rfl, .same _,
    fun i => by simp only [headLostAtSlots, Quad.get_map]; exact withoutHead_step _ h,
    rfl, rfl, fun _ => .same _, fun _ => .same _, fun _ => .same _, fun _ => .same _,
    fun _ k i => by simp only [headLostAtSlots, Quad.get_map, withoutHead_cells]; exact k i⟩

theorem up_modify (v : Quad Nat) (h k : HeadNo) : Up (v.get k) ((v.modify h bump).get k) := by
  rw [Quad.get_modify]; split
  · rename_i e; subst e; exact .bump _
  · exact .same _

theorem takePacket_work (k : Packet) (s : State) (hv : ∀ v ∈ k.values, v ≤ 4095) :
    LinkWork k.head s (takePacket k s) := by
  have hlate : LinkWork k.head s (countLate k.head s) :=
    ⟨.same rfl rfl, rfl, rfl, rfl, rfl, rfl, rfl, rfl, rfl, rfl, rfl, rfl, rfl, fun _ _ => rfl, .same _,
      fun _ => .same _, rfl, rfl, up_modify _ _, fun _ => .same _, fun _ => .same _, fun _ => .same _, fun _ k => k⟩
  unfold takePacket; split
  · exact hlate
  · rename_i i hi
    obtain ⟨ho, -⟩ := openSlotFor_some hi
    dsimp only; split
    · exact hlate
    · rename_i he
      split
      · exact ⟨.same rfl rfl, rfl, rfl, rfl, rfl, rfl, rfl, rfl, rfl, rfl, rfl, rfl, rfl, fun _ _ => rfl, .same _,
          fun _ => .same _, rfl, rfl, fun _ => .same _, up_modify _ _, fun _ => .same _, fun _ => .same _, fun _ k => k⟩
      · rename_i hra
        simp only [Bool.not_eq_true', Bool.not_eq_false] at he
        simp only [Bool.or_eq_true, not_or, Bool.not_eq_true] at hra
        have hs : ∀ e j, SlotStep (s.asm.slots.get j)
            ((s.asm.slots.set i ((s.asm.slots.get i).accept e k)).get j) := by
          intro e j
          rw [Quad.get_set]; split
          · rename_i hj; subst hj
            refine ⟨?_, ?_, ?_, accept_state _ _ _, fun hn => absurd ho hn,
              fun h => accept_setsOk h e k he hra.1 hra.2, fun hc => ?_⟩
            · rw [accept_eq]
            · rw [accept_eq]
            · rw [accept_eq]
            · rw [accept_eq]; dsimp only; split
              · exact hc
              · exact placeCells_le _ hc fun v h => hv v (List.mem_of_mem_drop (List.mem_of_mem_take h))
          · exact .same _
        have hz : s.headsFit → s.slotsSized → ∀ j, ((s.asm.slots.set i ((s.asm.slots.get i).accept
            ((s.copyOf (s.asm.slots.get i).copy).heads.get k.head) k)).get j).cells.length = 2048 := by
          intro hf hl j
          rw [Quad.get_set]; split
          · exact accept_length (hl i) _ (hf _ _) k
          · exact hl j
        unfold acceptPacket; dsimp only; split
        · exact ⟨.same rfl rfl, rfl, rfl, rfl, rfl, rfl, rfl, rfl, rfl, rfl, rfl, rfl, rfl, fun _ _ => rfl, .same _,
            hs _, rfl, rfl, fun _ => .same _, fun _ => .same _, fun _ => .same _, up_modify _ _, hz⟩
        · split
          · exact ⟨.same rfl rfl, rfl, rfl, rfl, rfl, rfl, rfl, rfl, rfl, rfl, rfl, rfl, rfl, fun _ _ => rfl, .same _,
              hs _, rfl, rfl, fun _ => .same _, fun _ => .same _, up_modify _ _, fun _ => .same _, hz⟩
          · exact ⟨.same rfl rfl, rfl, rfl, rfl, rfl, rfl, rfl, rfl, rfl, rfl, rfl, rfl, rfl, fun _ _ => rfl, .same _,
              hs _, rfl, rfl, fun _ => .same _, fun _ => .same _, fun _ => .same _, fun _ => .same _, hz⟩

theorem lockLink_work (h : HeadNo) (id : Nat) (s : State) : LinkWork h s (lockLink h id s) := by
  have h1 : LinkWork h s (appendEvent .headLocked h.val (s.withLink h
      { s.links.get h with state := .locked, bad := 0, learned := id })) := by
    refine LinkWork.trans ?_ (.event h _ _ _)
    exact .withLink h s _ ⟨.same _, .same _, .same _⟩
  unfold lockLink; dsimp only; split
  · exact h1
  · split
    · exact (h1.trans (.event h _ _ _)).trans (.resets h _ _)
    · exact h1.trans (.event h _ _ _)

theorem goodFrame_work (h : HeadNo) (f : HeadFrame) (s : State)
    (hv : ∀ id tag il n vs, f = .line id tag il n vs → ∀ v ∈ vs, v ≤ 4095) : LinkWork h s (goodFrame h f s) := by
  unfold goodFrame; dsimp only; split
  · exact .same h s
  · have h1 : ∀ good id, LinkWork h s (s.withLink h { s.links.get h with good := good, runId := id }) :=
      fun _ _ => .withLink h s _ ⟨.same _, .same _, .same _⟩
    generalize (if (s.links.get h).good ≠ 0 ∧ (s.links.get h).runId = f.id then (s.links.get h).good + 1 else 1) = run
    split
    · refine LinkWork.trans ?_ (lockLink_work h _ _); exact h1 _ _
    · exact h1 _ _
  · have h1 : LinkWork h s (s.withLink h { s.links.get h with bad := 0 }) :=
      .withLink h s _ ⟨.same _, .same _, .same _⟩
    refine h1.trans ?_
    cases f with
    | idle id => exact .same h _
    | line id tag il n vs => exact takePacket_work ⟨h, tag, il, n, vs⟩ _ (hv id tag il n vs rfl)

theorem countBad_ups (k : Link) (mismatch : Bool) : LinkUps k (k.countBad mismatch) := by
  refine ⟨.same _, .bump _, ?_⟩
  unfold Link.countBad; dsimp only; split
  exacts [.bump _, .same _]

theorem badFrame_work (h : HeadNo) (mismatch : Bool) (s : State) : LinkWork h s (badFrame h mismatch s) := by
  have hu := countBad_ups (s.links.get h) mismatch
  have h1 : ∀ k : Link, k.aborted = ((s.links.get h).countBad mismatch).aborted →
      k.badFrames = ((s.links.get h).countBad mismatch).badFrames →
      k.idMismatches = ((s.links.get h).countBad mismatch).idMismatches → LinkWork h s (s.withLink h k) :=
    fun k ha hb hc => .withLink h s k ⟨ha ▸ hu.aborted, hb ▸ hu.bad, hc ▸ hu.ids⟩
  unfold badFrame; dsimp only; split
  · exact .same h s
  · split
    · refine LinkWork.trans ?_ (.event h _ _ _); exact h1 _ rfl rfl rfl
    · exact h1 _ rfl rfl rfl
  · split
    · refine LinkWork.trans ?_ (headLost_work h _ _); exact h1 _ rfl rfl rfl
    · exact h1 _ rfl rfl rfl

/-- What the judge calls a good LINE frame carries 12-bit values. -/
theorem judge_values {e : HeadEntry} {k : Link} {stored : List Byte} {mal : Bool} {f : HeadFrame}
    (h : judge e k stored mal = .good f) : ∀ id tag il n vs, f = .line id tag il n vs → ∀ v ∈ vs, v ≤ 4095 := by
  intro id tag il n vs hf v hv
  subst hf
  unfold judge at h
  split at h
  · cases h
  · split at h
    · cases h
    · rename_i body _ g hg
      split at h
      · cases h
      · split at h
        · cases h
        · cases h
          unfold readHeadBody at hg
          simp only at hg
          split at hg
          · cases hg
          · split at hg
            · split at hg <;> cases hg
            · split at hg
              · split at hg
                · cases hg; exact unpackCells_le _ _ v hv
                · cases hg
              · cases hg

theorem headFrameEnd_work (h : HeadNo) (s : State) (e : FrameEnd) : LinkWork h s (headFrameEnd h s e) := by
  unfold headFrameEnd; split
  · exact .withLink h s _ ⟨.bump _, .same _, .same _⟩
  · split
    · rename_i hj; exact goodFrame_work h _ s (judge_values hj)
    · exact badFrame_work h _ s

theorem headBytes_work (h : HeadNo) (bytes : List Byte) (s : State) : LinkWork h s (headBytes h bytes s) := by
  unfold headBytes; dsimp only; split
  · exact .same h s
  · refine LinkWork.trans ?_ (LinkWork.foldl (headFrameEnd_work h) _ _)
    exact .withLink h s _ ⟨.same _, .same _, .same _⟩

theorem resyncLink_work (h : HeadNo) (s : State) : LinkWork h s (resyncLink h s) := by
  have h1 : LinkWork h s (s.withLink h (s.links.get h).hunt) := .withLink h s _ ⟨.same _, .same _, .same _⟩
  unfold resyncLink; dsimp only; split
  · exact .same h s
  · exact h1
  · exact h1.trans (headLost_work h _ _)

theorem dropped_ups (k : Link) : LinkUps k k.dropped := by
  refine ⟨?_, .same _, .same _⟩
  unfold Link.dropped; dsimp only; split
  exacts [.bump _, .same _]

end Sys2Proof.Machine
end

