-- ==== Sys2Proof/Laws/Ports.lean ====
section
/-! SUPPORT. The station ports: how a command is answered, held or lost, and how a body is taken apart. -/

namespace Sys2Proof.Machine

/-- Answering is the response of the machine after the command, with the reply's status and payload. -/
theorem answer_eq (p : PortNo) (code tag : Byte) (x : State × Reply) :
    answer p code tag x = x.1.answering p code tag x.2.status.num x.2.payload := by
  simp [answer, State.answering, responseBody, State.withPort, be]

/-- A command at a port with no response in progress is run and answered. -/
theorem submit_ready {s : State} {p : PortNo} (h : s.ready p) (c : Command) (tag : Byte) (payload : List Byte)
    (run : State → State × Reply) :
    submit p c tag payload run s =
      (run s).1.answering p c.code tag (run s).2.status.num (run s).2.payload := by
  unfold submit
  rw [if_pos (by simpa [State.ready] using h), answer_eq]

/-- A command at a port with a response in progress is held, or lost and counted. -/
theorem submit_busy {s : State} {p : PortNo} {r : List Byte} (h : (s.ports.get p).response = some r) (c : Command)
    (tag : Byte) (payload : List Byte) (run : State → State × Reply) :
    submit p c tag payload run s = holdBody p (commandBody c.code tag payload) s := by
  unfold submit
  rw [if_neg (by simp [h])]

theorem answering_get (s : State) (p : PortNo) (code tag : Byte) (n : Nat) (l : List Byte) (q : PortNo) :
    (s.answering p code tag n l).ports.get q =
      if q = p then { s.ports.get p with
        response := some ([code, tag, BitVec.ofNat 8 n] ++ be 2 l.length ++ l) } else s.ports.get q := by
  simp [State.answering, Triple.get_set]

theorem holdBody_get (s : State) (p : PortNo) (body : List Byte) (q : PortNo) :
    (holdBody p body s).ports.get q =
      if q = p then
        (if (s.ports.get p).held.isNone then { s.ports.get p with held := some body }
          else { s.ports.get p with overruns := bump (s.ports.get p).overruns })
      else s.ports.get q := by
  unfold holdBody; dsimp only; split <;> simp [Triple.get_set]

/-- A port's step at the command index: the code of each command names it (R177). -/
theorem commandOf_code (c : Command) : commandOf c.code = some c := by cases c <;> rfl

/-- The commands named by a code are those of the index (R177). -/
theorem commandOf_none {code : Byte} : commandOf code = none ↔ ∀ c : Command, c.code ≠ code := by
  rw [commandOf, List.find?_eq_none]
  constructor
  · intro h c
    have := h c (by cases c <;> simp [allCommands])
    simpa using this
  · intro h c _
    simpa using h c

/-- A command body is its code, its tag and, behind its length, its payload (R172). -/
theorem commandBody_parts (code tag : Byte) (payload : List Byte) (h : payload.length < 65536) :
    byteAt (commandBody code tag payload) 0 = code ∧ byteAt (commandBody code tag payload) 1 = tag ∧
      (commandBody code tag payload).drop 4 = payload ∧
      ofBe (((commandBody code tag payload).drop 2).take 2) = payload.length := by
  refine ⟨rfl, rfl, rfl, ?_⟩
  have : ((commandBody code tag payload).drop 2).take 2 = be 2 payload.length := rfl
  rw [this, ofBe_be (by simpa using h)]

/-- Taking the body of a command of the index runs it on its payload (R175, R176). -/
theorem takeBody_command (p : PortNo) (c : Command) (tag : Byte) (payload : List Byte) (s : State)
    (h : payload.length < 65536) (hf : c.lengthFits payload.length = true) :
    takeBody p (commandBody c.code tag payload) s = answer p c.code tag (runCommand p c payload s) := by
  obtain ⟨h1, h2, h3, h4⟩ := commandBody_parts c.code tag payload h
  simp only [takeBody, h1, h2, h3, h4, commandOf_code, ne_eq, not_true_eq_false, if_false, hf, Bool.not_true,
    Bool.false_eq_true]

/-- What a port's own steps can reach: its reception, its responses and its counters, before any command is run. -/
theorem stationFrameEnd_aborted (p : PortNo) (s : State) :
    stationFrameEnd p s .aborted =
      s.withPort p { s.ports.get p with aborted := bump (s.ports.get p).aborted } := rfl

end Sys2Proof.Machine
end

