-- ==== Sys2Proof/Laws/Commands.lean ====
section
/-! SUPPORT. The command rows: each is a command of the index with the payload its frame carries, and what a step at a
station port can reach besides the command it runs. -/

namespace Sys2Proof.Machine

theorem wordAt_be (pre : List Byte) (v : BitVec 16) (post : List Byte) :
    wordAt (pre ++ (be 2 v.toNat ++ post)) pre.length = v := by
  have h : ((pre ++ (be 2 v.toNat ++ post)).drop pre.length).take 2 = be 2 v.toNat := by
    rw [List.drop_left]; rfl
  rw [wordAt, h, ofBe_be v.isLt, BitVec.ofNat_toNat, BitVec.setWidth_eq]

theorem longAt_be (pre : List Byte) (v : BitVec 32) : longAt (pre ++ be 4 v.toNat) pre.length = v := by
  have h : ((pre ++ be 4 v.toNat).drop pre.length).take 4 = be 4 v.toNat := by
    rw [List.drop_left]; rfl
  rw [longAt, h, ofBe_be v.isLt, BitVec.ofNat_toNat, BitVec.setWidth_eq]

/-- A row that is a host command is that command of the index, run on the payload its frame carries (R177, R178). -/
theorem exec_command {c : Instr} {f : HostFrame} (h : hostFrame c = some f) (s : State) :
    ∃ k : Command, f.code = k.code ∧ (f.payload.length < 65536 → k.lengthFits f.payload.length = true) ∧
      exec c s = .next (submit f.port k f.tag f.payload (runCommand f.port k f.payload) s) := by
  cases c <;> simp only [hostFrame, Option.some.injEq, reduceCtorEq] at h <;> subst h
  case ident => exact ⟨.ident, rfl, fun _ => rfl, rfl⟩
  case status => exact ⟨.status, rfl, fun _ => rfl, rfl⟩
  case ackAttn => exact ⟨.ackAttn, rfl, fun _ => rfl, rfl⟩
  case endService => exact ⟨.endService, rfl, fun _ => rfl, rfl⟩
  case arm => exact ⟨.arm, rfl, fun _ => rfl, rfl⟩
  case disarm => exact ⟨.disarm, rfl, fun _ => rfl, rfl⟩
  case resetPosition => exact ⟨.resetPosition, rfl, fun _ => rfl, rfl⟩
  case claimEdit => exact ⟨.claimEdit, rfl, fun _ => rfl, rfl⟩
  case releaseEdit => exact ⟨.releaseEdit, rfl, fun _ => rfl, rfl⟩
  case stageWrite p tag sec entry data => exact ⟨.stageWrite, rfl, fun _ => by simp [Command.lengthFits], rfl⟩
  case stageRead => exact ⟨.stageRead, rfl, fun _ => rfl, rfl⟩
  case activeRead => exact ⟨.activeRead, rfl, fun _ => rfl, rfl⟩
  case commit => exact ⟨.commit, rfl, fun _ => rfl, rfl⟩
  case cancelPending => exact ⟨.cancelPending, rfl, fun _ => rfl, rfl⟩
  case fetch => exact ⟨.fetch, rfl, fun _ => rfl, rfl⟩
  case seek p tag target seq =>
    refine ⟨.seek, rfl, fun _ => rfl, ?_⟩
    have h := longAt_be [target] seq
    simp only [List.singleton_append, List.length_singleton] at h
    show Host.Outcome.next (submit p .seek tag (target :: be 4 seq.toNat) (cmdSeek p target seq) s) = .next (submit p
      .seek tag (target :: be 4 seq.toNat) (cmdSeek p (byteAt (target :: be 4 seq.toNat) 0)
        (longAt (target :: be 4 seq.toNat) 1)) s)
    rw [h]; rfl
  case subscribe p tag classes watermark enable =>
    refine ⟨.subscribe, rfl, fun _ => rfl, ?_⟩
    have h := wordAt_be [classes] watermark [enable]
    simp only [List.singleton_append, List.length_singleton] at h
    show Host.Outcome.next (submit p .subscribe tag _ (cmdSubscribe p classes watermark enable) s) = .next (submit p
      .subscribe tag _ (cmdSubscribe p (byteAt (classes :: (be 2 watermark.toNat ++ [enable])) 0)
        (wordAt (classes :: (be 2 watermark.toNat ++ [enable])) 1)
        (byteAt (classes :: (be 2 watermark.toNat ++ [enable])) 3)) s)
    rw [h]; rfl
  case readCells p tag first count =>
    refine ⟨.readCells, rfl, fun _ => rfl, ?_⟩
    have h := wordAt_be [] first [count]
    simp only [List.nil_append, List.length_nil] at h
    show Host.Outcome.next (submit p .readCells tag _ (cmdReadCells first count) s) = .next (submit p .readCells tag _
      (cmdReadCells (wordAt (be 2 first.toNat ++ [count]) 0) (byteAt (be 2 first.toNat ++ [count]) 2)) s)
    rw [h]; rfl
  case readCandidates => exact ⟨.readCandidates, rfl, fun _ => rfl, rfl⟩
  case readStreaks => exact ⟨.readStreaks, rfl, fun _ => rfl, rfl⟩
  case resyncHead => exact ⟨.resyncHead, rfl, fun _ => rfl, rfl⟩
  case forceMark p tag marker distance =>
    refine ⟨.forceMark, rfl, fun _ => rfl, ?_⟩
    have h := wordAt_be [marker] distance []
    simp only [List.singleton_append, List.append_nil, List.length_singleton] at h
    show Host.Outcome.next (submit p .forceMark tag _ (cmdForceMark marker distance) s) = .next
      (submit p .forceMark tag _
        (cmdForceMark (byteAt (marker :: be 2 distance.toNat) 0) (wordAt (marker :: be 2 distance.toNat) 1)) s)
    rw [h]; rfl

/-! ### What a station step can reach -/

/-- What a port's own part of a station step changes of the port: its reception, responses and held frame, and its
counters, which move up. -/
structure PortStep (x y : Port) : Prop where
  cursor : y.cursor = x.cursor
  sub : y.sub = x.sub
  watermark : y.watermark = x.watermark
  skipped : y.skipped = x.skipped
  enable : y.enable = x.enable
  causes : y.causes = x.causes
  service : y.service = x.service
  atn : y.atn = x.atn
  badFrames : Up x.badFrames y.badFrames
  aborted : Up x.aborted y.aborted
  inactivity : Up x.inactivity y.inactivity
  overruns : Up x.overruns y.overruns

/-- A relation that the port's own part keeps, that every command keeps, and that can be chained, holds across every
step at a station port. -/
structure StationRel (R : State → State → Prop) : Prop where
  same : ∀ s, R s s
  trans : ∀ s t u, R s t → R t u → R s u
  port : ∀ s p x, PortStep (s.ports.get p) x → R s (s.withPort p x)
  command : ∀ s p c payload, R s (runCommand p c payload s).1

variable {R : State → State → Prop}

theorem StationRel.answer_rel (h : StationRel R) {s : State} {x : State × Reply} (hx : R s x.1) (p : PortNo)
    (code tag : Byte) : R s (answer p code tag x) :=
  h.trans _ _ _ hx (h.port _ _ _ ⟨rfl, rfl, rfl, rfl, rfl, rfl, rfl, rfl, .same _, .same _, .same _, .same _⟩)

theorem StationRel.takeBody_rel (h : StationRel R) (p : PortNo) (body : List Byte) (s : State) :
    R s (takeBody p body s) := by
  unfold takeBody
  refine h.answer_rel ?_ p _ _
  split
  · exact h.same s
  · split
    · exact h.same s
    · split
      · exact h.same s
      · exact h.command _ _ _ _

theorem StationRel.holdBody_rel (h : StationRel R) (p : PortNo) (body : List Byte) (s : State) :
    R s (holdBody p body s) := by
  unfold holdBody; dsimp only; split <;> refine h.port _ _ _ ?_
  · exact ⟨rfl, rfl, rfl, rfl, rfl, rfl, rfl, rfl, .same _, .same _, .same _, .same _⟩
  · exact ⟨rfl, rfl, rfl, rfl, rfl, rfl, rfl, rfl, .same _, .same _, .same _, .bump _⟩

theorem StationRel.submit_rel (h : StationRel R) (p : PortNo) (c : Command) (tag : Byte) (payload : List Byte)
    {run : State → State × Reply} (hr : ∀ s, R s (run s).1) (s : State) : R s (submit p c tag payload run s) := by
  unfold submit; split
  · exact h.answer_rel (hr s) p _ _
  · exact h.holdBody_rel p _ s

theorem StationRel.frameEnd_rel (h : StationRel R) (p : PortNo) (s : State) (e : FrameEnd) :
    R s (stationFrameEnd p s e) := by
  have hbad : R s (countBadFrame p s) :=
    h.port _ _ _ ⟨rfl, rfl, rfl, rfl, rfl, rfl, rfl, rfl, .bump _, .same _, .same _, .same _⟩
  unfold stationFrameEnd; split
  · exact h.port _ _ _ ⟨rfl, rfl, rfl, rfl, rfl, rfl, rfl, rfl, .same _, .bump _, .same _, .same _⟩
  · split
    · exact hbad
    · split
      · exact hbad
      · unfold acceptBody; split
        · exact h.takeBody_rel p _ s
        · exact h.holdBody_rel p _ s

theorem StationRel.bytes_rel (h : StationRel R) (p : PortNo) (bytes : List Byte) (s : State) :
    R s (stationBytes p bytes s) := by
  unfold stationBytes
  dsimp only
  refine h.trans _ _ _ (h.port s p { s.ports.get p with
    rx := ((s.ports.get p).rx.feedAll stationLimit bytes).1 }
    ⟨rfl, rfl, rfl, rfl, rfl, rfl, rfl, rfl, .same _, .same _, .same _, .same _⟩) ?_
  generalize (s.withPort p { s.ports.get p with rx := ((s.ports.get p).rx.feedAll stationLimit bytes).1 }) = u
  generalize ((s.ports.get p).rx.feedAll stationLimit bytes).2 = es
  induction es generalizing u with
  | nil => exact h.same u
  | cons e es ih => exact h.trans _ _ _ (h.frameEnd_rel p u e) (ih _)

theorem StationRel.sendResponse_rel (h : StationRel R) (p : PortNo) (s : State) : R s (sendResponse p s) := by
  unfold sendResponse; dsimp only; split
  · exact h.same s
  · rename_i body _
    have h1 : R s (s.withPort p { s.ports.get p with response := none, held := none, sent := frameOf body }) :=
      h.port _ _ _ ⟨rfl, rfl, rfl, rfl, rfl, rfl, rfl, rfl, .same _, .same _, .same _, .same _⟩
    split
    · exact h1
    · exact h.trans _ _ _ h1 (h.takeBody_rel p _ _)

theorem StationRel.expireFrame_rel (h : StationRel R) (p : PortNo) (s : State) : R s (expireFrame p s) := by
  unfold expireFrame; dsimp only; split
  · exact h.port _ _ _ ⟨rfl, rfl, rfl, rfl, rfl, rfl, rfl, rfl, .same _, .same _, .bump _, .same _⟩
  · exact h.same s

/-- The station port at which a step takes place, for the steps at a port. -/
def stationPort : Instr → Option PortNo
  | .stationFrame p _ | .stationFrameAbort p _ | .frameTimeout p _ | .responseSent p => some p
  | .powerOnReset _ _ _ | .encoderTransition _ _ | .markEdge _ | .carrierGained _ | .carrierLost _ _
  | .headFrame _ _ | .headFrameAbort _ _ | .engineTakeLine | .linePublish | .stopComplete | .editExpiry => none
  | .ident p _ | .status p _ | .ackAttn p _ | .endService p _ | .arm p _ | .disarm p _ | .resetPosition p _
  | .claimEdit p _ | .releaseEdit p _ | .stageWrite p _ _ _ _ | .stageRead p _ _ _ | .activeRead p _ _ _
  | .commit p _ | .cancelPending p _ | .fetch p _ _ | .seek p _ _ _ | .subscribe p _ _ _ _ | .readCells p _ _ _
  | .readCandidates p _ | .readStreaks p _ | .resyncHead p _ _ | .forceMark p _ _ _ => some p

/-- A step at a station port, whatever it receives. -/
theorem StationRel.step (h : StationRel R) {c : Instr} {p : PortNo} (hp : stationPort c = some p) {s t : State}
    (he : exec c s = .next t) : R s t := by
  by_cases hf : (hostFrame c).isSome = true
  · obtain ⟨f, hf⟩ := Option.isSome_iff_exists.mp hf
    obtain ⟨k, -, -, hk⟩ := exec_command hf s
    rw [hk] at he
    cases he
    exact h.submit_rel _ k _ _ (fun s => h.command s _ k _) s
  · cases c <;> simp only [hostFrame, Option.isSome_some, not_true_eq_false] at hf <;>
      simp only [stationPort, reduceCtorEq, Option.some.injEq] at hp <;> cases he
    · exact h.bytes_rel _ _ s
    · exact h.bytes_rel _ _ s
    · exact h.trans _ _ _ (h.bytes_rel _ _ s) (h.expireFrame_rel _ _)
    · exact h.sendResponse_rel _ s

/-- A relation across every step: across the steps at a station port, and across each other step. -/
theorem exec_induct (h : StationRel R)
    (reset : ∀ a b k s t, exec (.powerOnReset a b k) s = .next t → R s t)
    (encoder : ∀ a b s t, exec (.encoderTransition a b) s = .next t → R s t)
    (edge : ∀ s, R s (takeEdge s))
    (gained : ∀ k s t, exec (.carrierGained k) s = .next t → R s t)
    (lost : ∀ k bytes s t, exec (.carrierLost k bytes) s = .next t → R s t)
    (head : ∀ k bytes s, R s (headBytes k bytes s))
    (take : ∀ s i, s.takeable = some i → R s (takeLine i s))
    (publish : ∀ s i, s.slotInWork = some i → R s (publishLine i s))
    (stop : ∀ s, s.rcp.run = .stopping → s.slotInWork = none → R s (completeStop s))
    (expiry : ∀ s t, exec .editExpiry s = .next t → R s t) :
    ∀ (c : Instr) (s t : State), exec c s = .next t → R s t := by
  intro c s t he
  by_cases hp : (stationPort c).isSome = true
  · obtain ⟨p, hp⟩ := Option.isSome_iff_exists.mp hp
    exact h.step hp he
  · cases c <;> simp only [stationPort, Option.isSome_some, not_true_eq_false] at hp
    case powerOnReset => exact reset _ _ _ s t he
    case encoderTransition => exact encoder _ _ s t he
    case markEdge e =>
      cases he; split
      · exact edge s
      · exact h.same s
    case carrierGained => exact gained _ s t he
    case carrierLost => exact lost _ _ s t he
    case headFrame => cases he; exact head _ _ s
    case headFrameAbort => cases he; exact head _ _ s
    case engineTakeLine =>
      cases he; split
      · rename_i i hi; exact take s i hi
      · exact h.same s
    case linePublish =>
      cases he; split
      · rename_i i hi; exact publish s i hi
      · exact h.same s
    case stopComplete =>
      cases he; split
      · rename_i hs; exact stop s hs.1 (by simpa using hs.2)
      · exact h.same s
    case editExpiry => exact expiry s t he

/-- A condition that every command keeps, and every piece of work on a line, holds after every step: of the queue, which
a step shortens, it says nothing. -/
theorem step_keeps {P : State → Prop} (queue : ∀ s rest, P s → P { s with pending := rest })
    (command : ∀ c s t, exec c s = .next t → P s → P t)
    (work : ∀ s i, s.slotInWork = some i → P s → P (advanceLine i s)) :
    ∀ s t, P s → step s = .next t → P t := by
  intro s t h hs
  unfold step at hs
  split at hs
  · cases hs
    unfold idle
    split
    · rename_i i hi; exact work s i hi h
    · exact h
  · exact command _ _ _ hs (queue s _ h)

end Sys2Proof.Machine
end

