-- ==== Sys2Proof/Laws/Components.lean ====
section
/-! SUPPORT. The components of the matching of runs and tracked defects (R102, R122): what they are, and the component
of a run that is joined to no other. -/

namespace Sys2Proof.Machine

variable {κ : Type}

/-- What the components of some runs are: each has a run, its slots are those its runs match, once each, no two share a
slot, every run lies in one, and a component with a slot holds no run that matches nothing. -/
structure ComponentsOf (slotsOf : Run κ → List Nat) (runs : List (Run κ)) (comps : List (Component κ)) : Prop where
  mem : ∀ r, r ∈ runs ↔ ∃ c ∈ comps, r ∈ c.runs
  slots : ∀ c ∈ comps, ∀ i, i ∈ c.slots ↔ ∃ r ∈ c.runs, i ∈ slotsOf r
  nodup : (∀ r ∈ runs, (slotsOf r).Nodup) → ∀ c ∈ comps, c.slots.Nodup
  runsNodup : runs.Nodup → ∀ c ∈ comps, c.runs.Nodup
  apart : comps.Pairwise fun c d => ∀ i ∈ c.slots, i ∉ d.slots
  matched : ∀ c ∈ comps, c.slots ≠ [] → ∀ r ∈ c.runs, slotsOf r ≠ []
  closed : ∀ P : Nat → Prop, (∀ r ∈ runs, ∀ i ∈ slotsOf r, P i → ∀ k ∈ slotsOf r, P k) →
    ∀ c ∈ comps, ∀ i ∈ c.slots, P i → ∀ k ∈ c.slots, P k

/-- Of two different elements of a list in order, one stands before the other. -/
theorem pairwise_of_ne {α : Type} {R : α → α → Prop} : ∀ {l : List α}, l.Pairwise R → ∀ {a b : α}, a ∈ l → b ∈ l →
    a ≠ b → R a b ∨ R b a
  | x :: l, h, a, b, ha, hb, hne => by
    obtain ⟨h1, h2⟩ := List.pairwise_cons.1 h
    rcases List.mem_cons.1 ha with rfl | ha'
    · rcases List.mem_cons.1 hb with rfl | hb'
      · exact absurd rfl hne
      · exact .inl (h1 b hb')
    · rcases List.mem_cons.1 hb with rfl | hb'
      · exact .inr (h1 a ha')
      · exact pairwise_of_ne h2 ha' hb' hne

/-- Two components that share a slot are one. -/
theorem ComponentsOf.eq_of_slot {slotsOf : Run κ → List Nat} {runs : List (Run κ)} {comps : List (Component κ)}
    (h : ComponentsOf slotsOf runs comps) {c d : Component κ} (hc : c ∈ comps) (hd : d ∈ comps) {i : Nat}
    (hi : i ∈ c.slots) (hi' : i ∈ d.slots) : c = d := by
  by_contra hne
  rcases pairwise_of_ne h.apart hc hd hne with h | h
  · exact h i hi hi'
  · exact h i hi' hi

theorem mem_addRun_slots {slotsOf : List Nat} {old : List Nat} {i : Nat} :
    i ∈ old ++ slotsOf.filter (fun i => !old.contains i) ↔ i ∈ old ∨ i ∈ slotsOf := by
  simp only [List.mem_append, List.mem_filter, Bool.not_eq_true', List.contains_eq_mem, decide_eq_false_iff_not]
  tauto

theorem ComponentsOf.addRun {slotsOf : Run κ → List Nat} {runs : List (Run κ)} {comps : List (Component κ)}
    (h : ComponentsOf slotsOf runs comps) (r : Run κ) :
    ComponentsOf slotsOf (runs ++ [r]) (addRun comps r (slotsOf r)) := by
  unfold Machine.addRun
  dsimp only
  set touched := comps.filter fun c => c.slots.any fun i => (slotsOf r).contains i with ht
  set others := comps.filter fun c => !c.slots.any fun i => (slotsOf r).contains i with ho
  have htm : ∀ c, c ∈ touched ↔ c ∈ comps ∧ ∃ i ∈ c.slots, i ∈ slotsOf r := by
    intro c; rw [ht, List.mem_filter]; simp
  have hom : ∀ c, c ∈ others ↔ c ∈ comps ∧ ∀ i ∈ c.slots, i ∉ slotsOf r := by
    intro c; rw [ho, List.mem_filter]; simp
  have hsplit : ∀ c ∈ comps, c ∈ touched ∨ c ∈ others := by
    intro c hc
    by_cases hx : ∃ i ∈ c.slots, i ∈ slotsOf r
    · exact .inl ((htm c).2 ⟨hc, hx⟩)
    · simp only [not_exists, not_and] at hx; exact .inr ((hom c).2 ⟨hc, hx⟩)
  have hold : ∀ i, i ∈ touched.flatMap Component.slots ↔ ∃ c ∈ touched, i ∈ c.slots := by
    intro i; rw [List.mem_flatMap]
  refine ⟨fun q => ?_, fun c hc i => ?_, fun hn c hc => ?_, fun hn c hc => ?_, ?_, fun c hc hs q hq => ?_,
    fun P hP c hc i hi hPi k hk => ?_⟩
  · rw [List.mem_append, h.mem q, List.mem_singleton]
    constructor
    · rintro (⟨c, hc, hq⟩ | rfl)
      · rcases hsplit c hc with hx | hx
        · exact ⟨_, List.mem_append_right _ (List.mem_singleton.2 rfl),
            List.mem_append_left _ (List.mem_flatMap.2 ⟨c, hx, hq⟩)⟩
        · exact ⟨c, List.mem_append_left _ hx, hq⟩
      · exact ⟨_, List.mem_append_right _ (List.mem_singleton.2 rfl),
          List.mem_append_right _ (List.mem_singleton.2 rfl)⟩
    · rintro ⟨c, hc, hq⟩
      rcases List.mem_append.1 hc with hc | hc
      · exact .inl ⟨c, ((hom c).1 hc).1, hq⟩
      · rw [List.mem_singleton] at hc; subst hc
        rcases List.mem_append.1 hq with hq | hq
        · obtain ⟨c, hc, hq⟩ := List.mem_flatMap.1 hq
          exact .inl ⟨c, ((htm c).1 hc).1, hq⟩
        · exact .inr (List.mem_singleton.1 hq)
  · rcases List.mem_append.1 hc with hc | hc
    · exact h.slots c ((hom c).1 hc).1 i
    · rw [List.mem_singleton] at hc; subst hc
      show i ∈ _ ++ _ ↔ _
      rw [mem_addRun_slots, hold]
      simp only [List.mem_append, List.mem_flatMap, List.mem_singleton]
      constructor
      · rintro (⟨c, hc, hi⟩ | hi)
        · obtain ⟨q, hq, hiq⟩ := (h.slots c ((htm c).1 hc).1 i).1 hi
          exact ⟨q, .inl ⟨c, hc, hq⟩, hiq⟩
        · exact ⟨r, .inr rfl, hi⟩
      · rintro ⟨q, ⟨c, hc, hq⟩ | rfl, hi⟩
        · exact .inl ⟨c, hc, (h.slots c ((htm c).1 hc).1 i).2 ⟨q, hq, hi⟩⟩
        · exact .inr hi
  · have hn' := h.nodup fun q hq => hn q (List.mem_append_left _ hq)
    rcases List.mem_append.1 hc with hc | hc
    · exact hn' c ((hom c).1 hc).1
    · rw [List.mem_singleton] at hc; subst hc
      refine List.nodup_append.2 ⟨?_, (hn r (List.mem_append_right _ (List.mem_singleton.2 rfl))).filter _, ?_⟩
      · rw [List.nodup_flatMap]
        refine ⟨fun c hc => hn' c ((htm c).1 hc).1, ?_⟩
        refine (h.apart.sublist List.filter_sublist).imp fun hcd i h1 h2 => hcd i h1 h2
      · intro a ha b hb hab
        subst hab
        have := (List.mem_filter.1 hb).2
        simp only [Bool.not_eq_true', List.contains_eq_mem, decide_eq_false_iff_not] at this
        exact this ha
  · obtain ⟨h1, h2, h3⟩ := List.nodup_append.1 hn
    have hn' := h.runsNodup h1
    rcases List.mem_append.1 hc with hc | hc
    · exact hn' c ((hom c).1 hc).1
    · rw [List.mem_singleton] at hc; subst hc
      refine List.nodup_append.2 ⟨?_, List.nodup_singleton _, ?_⟩
      · rw [List.nodup_flatMap]
        refine ⟨fun c hc => hn' c ((htm c).1 hc).1, ?_⟩
        refine (List.Pairwise.and_mem.1 (h.apart.sublist List.filter_sublist)).imp ?_
        rintro c d ⟨hc, hd, hcd⟩ q h4 h5
        obtain ⟨hc1, i, hi, -⟩ := (htm c).1 hc
        obtain ⟨i, hi⟩ := List.exists_mem_of_ne_nil _ (h.matched c hc1 (List.ne_nil_of_mem hi) q h4)
        exact hcd i ((h.slots c hc1 i).2 ⟨q, h4, hi⟩) ((h.slots d ((htm d).1 hd).1 i).2 ⟨q, h5, hi⟩)
      · intro a ha b hb hab
        subst hab
        rw [List.mem_singleton] at hb; subst hb
        obtain ⟨c, hc, hq⟩ := List.mem_flatMap.1 ha
        exact h3 a ((h.mem a).2 ⟨c, ((htm c).1 hc).1, hq⟩) a (List.mem_singleton.2 rfl) rfl
  · refine List.pairwise_append.2 ⟨h.apart.sublist List.filter_sublist, List.pairwise_singleton _ _, ?_⟩
    intro c hc d hd i hi hid
    rw [List.mem_singleton] at hd; subst hd
    have hc' := (hom c).1 hc
    rcases mem_addRun_slots.1 hid with hid | hid
    · obtain ⟨e, he, hie⟩ := (hold i).1 hid
      have he' := (htm e).1 he
      have hne : c ≠ e := by
        rintro rfl
        obtain ⟨k, hk1, hk2⟩ := he'.2
        exact hc'.2 k hk1 hk2
      exact hne (h.eq_of_slot hc'.1 he'.1 hi hie)
    · exact hc'.2 i hi hid
  · rcases List.mem_append.1 hc with hc | hc
    · exact h.matched c ((hom c).1 hc).1 hs q hq
    · rw [List.mem_singleton] at hc; subst hc
      rcases List.mem_append.1 hq with hq | hq
      · obtain ⟨c, hc, hq⟩ := List.mem_flatMap.1 hq
        obtain ⟨hc1, i, hi, -⟩ := (htm c).1 hc
        exact h.matched c hc1 (List.ne_nil_of_mem hi) q hq
      · rw [List.mem_singleton] at hq; subst hq
        intro hnil
        apply hs
        have : touched = [] := by
          rw [List.eq_nil_iff_forall_not_mem]
          intro c hc
          obtain ⟨i, -, hi⟩ := ((htm c).1 hc).2
          rw [hnil] at hi; exact List.not_mem_nil hi
        show touched.flatMap Component.slots ++ _ = []
        rw [this, hnil]; rfl
  · have hP' := h.closed P fun q hq => hP q (List.mem_append_left _ hq)
    have hPr := hP r (List.mem_append_right _ (List.mem_singleton.2 rfl))
    rcases List.mem_append.1 hc with hc | hc
    · exact hP' c ((hom c).1 hc).1 i hi hPi k hk
    · rw [List.mem_singleton] at hc; subst hc
      -- a slot of the run lies in `P`
      have hr : ∃ x ∈ slotsOf r, P x := by
        rcases mem_addRun_slots.1 hi with hi | hi
        · obtain ⟨c, hc, hic⟩ := (hold i).1 hi
          obtain ⟨hc1, x, hx1, hx2⟩ := (htm c).1 hc
          exact ⟨x, hx2, hP' c hc1 i hic hPi x hx1⟩
        · exact ⟨i, hi, hPi⟩
      obtain ⟨x, hx, hPx⟩ := hr
      rcases mem_addRun_slots.1 hk with hk | hk
      · obtain ⟨c, hc, hkc⟩ := (hold k).1 hk
        obtain ⟨hc1, y, hy1, hy2⟩ := (htm c).1 hc
        exact hP' c hc1 y hy1 (hPr x hx hPx y hy2) k hkc
      · exact hPr x hx hPx k hk

/-- The components are what they should be (R102, R122). -/
theorem componentsOf_spec (slotsOf : Run κ → List Nat) (runs : List (Run κ)) :
    ComponentsOf slotsOf runs (componentsOf slotsOf runs) := by
  unfold componentsOf
  suffices ∀ (rs done : List (Run κ)) comps, ComponentsOf slotsOf done comps →
      ComponentsOf slotsOf (done ++ rs) (rs.foldl (fun comps r => addRun comps r (slotsOf r)) comps) by
    have := this runs [] [] ⟨by simp, by simp, by simp, by simp, by simp, by simp, by simp⟩
    simpa using this
  intro rs
  induction rs with
  | nil => intro done comps h; simpa using h
  | cons r rs ih =>
    intro done comps h
    have := ih (done ++ [r]) _ (h.addRun r)
    rwa [List.append_assoc, List.singleton_append] at this

/-- The component of a run that is joined to no other: its slots are the run's, and its runs those that match one of
them. -/
theorem ComponentsOf.of_closed {slotsOf : Run κ → List Nat} {runs : List (Run κ)} {comps : List (Component κ)}
    (h : ComponentsOf slotsOf runs comps) {r₀ : Run κ} (h0 : r₀ ∈ runs) (hne : slotsOf r₀ ≠ [])
    (hcl : ∀ r ∈ runs, ∀ i ∈ slotsOf r, i ∈ slotsOf r₀ → ∀ k ∈ slotsOf r, k ∈ slotsOf r₀) :
    ∃ c ∈ comps, c.slots ≠ [] ∧ (∀ i, i ∈ c.slots ↔ i ∈ slotsOf r₀) ∧
      ∀ r, r ∈ c.runs ↔ r ∈ runs ∧ ∃ i, i ∈ slotsOf r₀ ∧ i ∈ slotsOf r := by
  obtain ⟨c, hc, hr⟩ := (h.mem r₀).1 h0
  obtain ⟨x, hx⟩ := List.exists_mem_of_ne_nil _ hne
  have hxc : x ∈ c.slots := (h.slots c hc x).2 ⟨r₀, hr, hx⟩
  have hs : ∀ i, i ∈ c.slots ↔ i ∈ slotsOf r₀ := fun i =>
    ⟨fun hi => h.closed (· ∈ slotsOf r₀) hcl c hc x hxc hx i hi, fun hi => (h.slots c hc i).2 ⟨r₀, hr, hi⟩⟩
  refine ⟨c, hc, List.ne_nil_of_mem hxc, hs, fun r => ⟨fun hm => ?_, fun ⟨hm, i, hi, hi'⟩ => ?_⟩⟩
  · obtain ⟨i, hi⟩ := List.exists_mem_of_ne_nil _ (h.matched c hc (List.ne_nil_of_mem hxc) r hm)
    exact ⟨(h.mem r).2 ⟨c, hc, hm⟩, i, (hs i).1 ((h.slots c hc i).2 ⟨r, hm, hi⟩), hi⟩
  · obtain ⟨d, hd, hrd⟩ := (h.mem r).1 hm
    have := h.eq_of_slot hc hd ((hs i).2 hi) ((h.slots d hd i).2 ⟨r, hrd, hi'⟩)
    rw [this]; exact hrd
end Sys2Proof.Machine
end

