-- ==== Sys2Proof/Laws/Lines.lean ====
section
/-! SUPPORT. What the terms of the statements about a line say of the model's tests: matching, absence, and the line in
work that LINE_PUBLISH takes. -/

namespace Sys2Proof.Machine

/-- A run matches a streak in the test and in the statements alike (R122). -/
theorem Streak.matchedBy_iff (st : Streak) (r : Run (Nat × Polarity)) : st.matchedBy r = true ↔ st.met r := by
  unfold Streak.matchedBy Streak.met Run.meets
  simp only [Bool.and_eq_true, beq_iff_eq, decide_eq_true_eq]
  constructor
  · rintro ⟨h, a, b⟩; exact ⟨h.symm, a, b⟩
  · rintro ⟨h, a, b⟩; exact ⟨h.symm, a, b⟩

/-- A run matches a candidate in the test and in the statements alike (R102). -/
theorem Candidate.matchedBy_iff (k : Candidate) (r : Run Nat) : k.matchedBy r = true ↔ k.met r := by
  unfold Candidate.matchedBy Candidate.met Run.meets
  simp only [Bool.and_eq_true, beq_iff_eq, decide_eq_true_eq]
  constructor
  · rintro ⟨h, a, b⟩; exact ⟨h.symm, a, b⟩
  · rintro ⟨h, a, b⟩; exact ⟨h.symm, a, b⟩

/-- A sublist with the members a test takes is the filter by that test. -/
theorem filter_of_sublist {α} {l m : List α} (hn : m.Nodup) (p : α → Bool) (hs : l.Sublist m)
    (hm : ∀ a, a ∈ l ↔ a ∈ m ∧ p a = true) : l = m.filter p := by
  induction hs with
  | slnil => rfl
  | @cons l m a hs ih =>
    obtain ⟨h1, h2⟩ := List.nodup_cons.1 hn
    have hpa : ¬ p a = true := fun hp => by
      have := (hm a).2 ⟨List.mem_cons_self .., hp⟩
      exact h1 (hs.subset this)
    rw [List.filter_cons_of_neg hpa]
    refine ih h2 fun x => ?_
    rw [hm x, List.mem_cons]
    constructor
    · rintro ⟨rfl | h, hp⟩
      · exact absurd hp hpa
      · exact ⟨h, hp⟩
    · rintro ⟨h, hp⟩; exact ⟨.inr h, hp⟩
  | @cons_cons l m a hs ih =>
    obtain ⟨h1, h2⟩ := List.nodup_cons.1 hn
    have hpa := ((hm a).1 (List.mem_cons_self ..)).2
    rw [List.filter_cons_of_pos hpa]
    congr 1
    refine ih h2 fun x => ?_
    constructor
    · intro hx
      refine ⟨hs.subset hx, ((hm x).1 (List.mem_cons_of_mem _ hx)).2⟩
    · rintro ⟨hx, hp⟩
      rcases List.mem_cons.1 ((hm x).2 ⟨List.mem_cons_of_mem _ hx, hp⟩) with rfl | h
      · exact absurd hx h1
      · exact h

/-- The two halves of a list of pairs, paired again. -/
theorem zip_fst_snd {α β} (l : List (α × β)) : (l.map Prod.fst).zip (l.map Prod.snd) = l := by
  induction l with
  | nil => rfl
  | cons a l ih => simp [ih]

/-- A table that keeps its size and its empty slots has at least as many of them. -/
theorem count_none_le {α} [DecidableEq α] : ∀ {t t' : List (Option α)}, t'.length = t.length →
    (∀ i : Nat, t[i]? = some none → t'[i]? = some none) → t.count none ≤ t'.count none
  | [], _, _, _ => by simp
  | o :: t, [], h, _ => by simp at h
  | o :: t, o' :: t', h, k => by
    have ih := count_none_le (t := t) (t' := t') (by simpa using h) fun i hi => by
      simpa using k (i + 1) (by simpa using hi)
    have h0 := k 0
    simp only [List.getElem?_cons_zero, Option.some.injEq] at h0
    rw [List.count_cons, List.count_cons]
    by_cases ho : o = none
    · rw [h0 ho, ho]; simp; omega
    · simp [ho]; omega

/-- The class ABSENT is what the statements say of a cell not seen (R63, R70). -/
theorem unseen_iff (ln : Line) (hsh : ln.copy.shapeOk) (c : Nat) :
    ln.classOf c (ln.copy.laneOf c) = .absent ↔ ln.unseen c := by
  obtain ⟨l1, l2⟩ := laneOf_spec ln.copy hsh.1 c
  have hd : (!ln.slot.delivered ln.copy c) = true ↔ ∀ h, ln.slot.received.get h = true →
      (ln.copy.heads.get h).enabled = 1 →
      c < (ln.copy.heads.get h).g0 ∨ (ln.copy.heads.get h).g0 + (ln.copy.heads.get h).n ≤ c := by
    have : ln.slot.delivered ln.copy c = true ↔ ¬ ∀ h, ln.slot.received.get h = true →
        (ln.copy.heads.get h).enabled = 1 →
      c < (ln.copy.heads.get h).g0 ∨ (ln.copy.heads.get h).g0 + (ln.copy.heads.get h).n ≤ c := by
      unfold Slot.delivered
      rw [List.any_eq_true]
      push Not
      constructor
      · rintro ⟨h, -, hh⟩
        simp only [HeadEntry.feeds, Bool.and_eq_true, beq_iff_eq, decide_eq_true_eq] at hh
        exact ⟨h, hh.1, hh.2.1.1, hh.2.1.2, hh.2.2⟩
      · rintro ⟨h, a, b, d, e⟩
        refine ⟨h, by fin_cases h <;> simp, ?_⟩
        simp [HeadEntry.feeds, a, b, d, e]
    rw [show (!ln.slot.delivered ln.copy c) = true ↔ ¬ ln.slot.delivered ln.copy c = true by simp, this, not_not]
  unfold Line.unseen
  rw [← hd]
  cases hl : ln.copy.laneOf c with
  | none =>
    simp only [Line.classOf, reduceCtorEq, false_iff, not_and]
    rintro ⟨l, hl16, h⟩ _
    have := l1.1 hl l hl16
    rw [LaneEntry.holds_not] at this
    have := this h.1; omega
  | some l =>
    obtain ⟨g1, g2, -⟩ := (l2 l).1 hl
    rw [LaneEntry.holds_iff] at g2
    simp only [Line.classOf]
    constructor
    · intro h
      split at h
      · rename_i hh; exact ⟨⟨l, g1, g2⟩, hh⟩
      · split at h <;> cases h
    · rintro ⟨-, h⟩; rw [if_pos h]

/-- An extent has an ABSENT cell when one of its cells is not seen. -/
theorem extentAbsent_iff (ln : Line) (hsh : ln.copy.shapeOk) (cells : List CellRec) (xs : List Nat) (a b : Nat) :
    extentAbsent ((ln.workCells 0 cells xs).map Prod.snd) a b = true ↔ ∃ c, a ≤ c ∧ c ≤ b ∧ c < cells.length ∧
      ln.unseen c := by
  have hget : ∀ c, c < cells.length → ∃ o, ((ln.workCells 0 cells xs).map Prod.snd)[c]? = some o ∧
      (o.cls = .absent ↔ ln.unseen c) := by
    intro c hc
    have h1 := workCells_getElem ln cells 0 xs c _ (List.getElem?_eq_getElem hc)
    refine ⟨_, by rw [List.getElem?_map, h1]; rfl, ?_⟩
    rw [← unseen_iff ln hsh c]
    unfold Line.workCell; dsimp only; rw [Nat.zero_add]
    split <;> rfl
  have hlen : ((ln.workCells 0 cells xs).map Prod.snd).length = cells.length := by
    rw [List.length_map, workCells_length]
  unfold extentAbsent
  rw [List.any_eq_true]
  constructor
  · rintro ⟨o, ho, hc⟩
    obtain ⟨k, hk⟩ := List.mem_iff_getElem?.1 ho
    rw [List.getElem?_take] at hk
    split at hk
    · rename_i hkk
      rw [List.getElem?_drop] at hk
      have hlt := (List.getElem?_eq_some_iff.1 hk).1
      rw [hlen] at hlt
      obtain ⟨o', h1, h2⟩ := hget (a + k) hlt
      rw [hk] at h1; cases h1
      exact ⟨a + k, by omega, by omega, hlt, h2.1 (by simpa using hc)⟩
    · cases hk
  · rintro ⟨c, h1, h2, h3, h4⟩
    obtain ⟨o, g1, g2⟩ := hget c h3
    refine ⟨o, List.mem_iff_getElem?.2 ⟨c - a, ?_⟩, by simpa using g2.2 h4⟩
    rw [List.getElem?_take, if_pos (by omega), List.getElem?_drop, show a + (c - a) = c by omega, g1]

/-- LINE_PUBLISH answers with the line in work: the list of its stages, and their tables published. -/
theorem linePublish_answers {i : Fin 4} {ln : Line} {s : State} (h : s.lineInWork i ln) :
    ∃ t, exec .linePublish s = .next t ∧ t.list = (runStages ln s).list ∧ t.eng.pub = (runStages ln s).eng.work := by
  obtain ⟨hi, hj, hp, hsl, hcp⟩ := h
  have hc : s.copyOf (s.asm.slots.get i).copy = ln.copy := by rw [← hsl]; exact copyOf_eq hcp
  have hln : s.lineOf i = ln := by unfold State.lineOf; rw [hc, ← hsl]
  refine ⟨publishLine i s, by simp [exec, execLinePublish, slotInWork_eq hi hj], ?_, ?_⟩ <;>
  · rw [publishLine_begun i hp, freeSlot_eq, hln]; rfl

end Sys2Proof.Machine
end

