-- ==== Sys2Proof/Laws/Operands.lean ====
section
/-! SUPPORT. Entries of recipe sections: writing one and reading it back. -/

namespace Sys2Proof.Machine

/-- Fields written to one entry are read back from it, and every other entry reads as before. -/
theorem withFields_spec (r : Recipe) (hs : r.shapeOk) (x : Section) (e : Nat) (he : e < x.entries) (fs : List Nat)
    (hl : fs.length = x.sizes.length) :
    (r.withFields x e fs).shapeOk ∧ (r.withFields x e fs).fields x e = fs ∧
      ∀ y f, f < y.entries → (y ≠ x ∨ f ≠ e) → (r.withFields x e fs).fields y f = r.fields y f := by
  obtain ⟨h1, h2⟩ := hs
  cases x <;> simp only [Section.sizes, List.length_cons, List.length_nil, Section.entries] at hl he
  case heads =>
    obtain ⟨a, b, c, d, g, rfl⟩ : ∃ a b c d g, fs = [a,b,c,d,g] := by
      match fs, hl with
      | [a,b,c,d,g], _ => exact ⟨_,_,_,_,_,rfl⟩
    refine ⟨⟨h1, h2⟩, ?_, ?_⟩
    · simp [Recipe.withFields, Recipe.fields]
    · intro y f hf hne
      cases y <;> simp [Recipe.withFields, Recipe.fields, Quad.get_set, Recipe.lane, Recipe.profile]
      have : headNo f ≠ headNo e := by
        simp [headNo, Section.entries] at *
        intro h; apply hne
        have := congrArg Fin.val h; simp at this; omega
      simp [this]
  case lanes =>
    obtain ⟨a, b, c, d, g, h, rfl⟩ : ∃ a b c d g h, fs = [a,b,c,d,g,h] := by
      match fs, hl with
      | [a,b,c,d,g,h], _ => exact ⟨_,_,_,_,_,_,rfl⟩
    refine ⟨⟨by simpa [Recipe.withFields] using h1, h2⟩, ?_, ?_⟩
    · simp [Recipe.withFields, Recipe.fields, Recipe.lane, h1, he]
    · intro y f hf hne
      cases y <;> simp [Recipe.withFields, Recipe.fields, Recipe.lane, Recipe.profile] at *
      simp [List.getElem?_set_ne (Ne.symm hne)]
  case profiles =>
    obtain ⟨a, b, c, d, g, h, i, j, k, rfl⟩ : ∃ a b c d g h i j k, fs = [a,b,c,d,g,h,i,j,k] := by
      match fs, hl with
      | [a,b,c,d,g,h,i,j,k], _ => exact ⟨_,_,_,_,_,_,_,_,_,rfl⟩
    refine ⟨⟨h1, by simpa [Recipe.withFields] using h2⟩, ?_, ?_⟩
    · simp [Recipe.withFields, Recipe.fields, Recipe.profile, h2, he]
    · intro y f hf hne
      cases y <;> simp [Recipe.withFields, Recipe.fields, Recipe.lane, Recipe.profile] at *
      simp [List.getElem?_set_ne (Ne.symm hne)]
  case patch =>
    obtain ⟨a, b, c, d, g, h, i, j, rfl⟩ : ∃ a b c d g h i j, fs = [a,b,c,d,g,h,i,j] := by
      match fs, hl with
      | [a,b,c,d,g,h,i,j], _ => exact ⟨_,_,_,_,_,_,_,_,rfl⟩
    refine ⟨⟨h1, h2⟩, rfl, ?_⟩
    intro y f hf hne
    cases y <;> simp [Recipe.withFields, Recipe.fields, Recipe.lane, Recipe.profile, Section.entries] at *
    omega
  case markers =>
    obtain ⟨a, b, c, rfl⟩ : ∃ a b c, fs = [a,b,c] := by
      match fs, hl with
      | [a,b,c], _ => exact ⟨_,_,_,rfl⟩
    have : e = 0 ∨ e = 1 := by omega
    rcases this with rfl | rfl
    · refine ⟨⟨h1, h2⟩, rfl, ?_⟩
      intro y f hf hne
      cases y <;> simp [Recipe.withFields, Recipe.fields, Recipe.lane, Recipe.profile, Section.entries] at *
      simp [hne]
    · refine ⟨⟨h1, h2⟩, rfl, ?_⟩
      intro y f hf hne
      cases y <;> simp [Recipe.withFields, Recipe.fields, Recipe.lane, Recipe.profile, Section.entries] at *
      have : f = 0 := by omega
      simp [this]
  case general =>
    obtain ⟨a, b, rfl⟩ : ∃ a b, fs = [a,b] := by
      match fs, hl with
      | [a,b], _ => exact ⟨_,_,rfl⟩
    refine ⟨⟨h1, h2⟩, rfl, ?_⟩
    intro y f hf hne
    cases y <;> simp [Recipe.withFields, Recipe.fields, Recipe.lane, Recipe.profile, Section.entries] at *
    omega

end Sys2Proof.Machine
end

