-- ==== Sys2Proof/Laws/Position.lean ====
section
/-! SUPPORT. A forward count: what ENCODER_TRANSITION comes to, and the works that are not due. -/

namespace Sys2Proof.Machine

/-- Inputs that move in the forward sense make a forward count. -/
theorem encoderTransition_forward (a b : Bool) (s : State) (h : forwardInputs s.pos.refA s.pos.refB a b) :
   exec (.encoderTransition a b) s = .next (forwardCount (setReference a b s)) := by
  rcases hs : s with ⟨⟨ra, rb, e, w, l, ov, il, ld, rd⟩, _⟩
  subst hs
  simp only [forwardInputs] at h
  cases ra <;> cases rb <;> cases a <;> cases b <;> simp_all [exec, execEncoderTransition, nextInputs]

/-- A forward count with no backlog and below the limit raises W. -/
theorem forwardCount_rises (s : State) (a b) (hl : s.pos.l = 0) (hw : s.pos.w < 4294967295) :
  forwardCount (setReference a b s) = positionRose { s with
    pos := { s.pos with refA := a, refB := b, e := s.pos.e + 1, w := s.pos.w + 1 } } := by
  simp [forwardCount, hl, maxPos, hw, setReference]

/-- No pop happens when none is due. -/
theorem popWork_quiet {s : State} (h : s.popDue = false) : popWork s = s := by
  unfold popWork
  split
  · rename_i hr
    unfold State.popDue at h
    rw [hr] at h
    cases hq : s.trk.queue with
    | nil => simp [popStarts]
    | cons e es =>
      simp [hq] at h
      simp [popStarts, hq]; omega
  · rfl

/-- No miss happens when none is due. -/
theorem missWork_quiet {s : State} (h : s.missDue = false) : missWork s = s := by
  simp [missWork, missMarks, h]

/-- No swap point is offered when the patch does not end. -/
theorem coatToGapWork_quiet {s : State} (h : s.coatToGapDue = false) : coatToGapWork s = s := by
  simp [coatToGapWork, h]

/-- With nothing due at the tracker a free place holds the trigger alone. -/
theorem freePlace_quiet {s : State} (h : s.trackerDue = false) : freePlace (s, false) = (triggerWork s, false) := by
  unfold freePlace nowOrLater triggerWork; cases hh : s.triggerDue <;> simp [h, hh]

/-- With nothing due at the tracker, before and after the trigger, a count below the limit is the trigger's work. -/
theorem countWork_quiet {s u : State} (hu : u = triggerWork s) (h : s.trackerDue = false) (h1 : u.trackerDue = false)
    (h2 : u.triggerDue = false) :
   countWork false s = u := by
  have h3 : triggerWork u = u := by simp [triggerWork, h2]
  have hh : u.coatToGapDue = false ∧ u.missDue = false ∧ u.popDue = false := by
    simpa [State.trackerDue, and_assoc] using h1
  unfold countWork
  rw [freePlace_quiet h, ← hu]
  simp only
  rw [coatToGapWork_quiet hh.1, freePlace_quiet h1, h3]; simp only
  rw [missWork_quiet hh.2.1, freePlace_quiet h1, h3]; simp only
  rw [popWork_quiet hh.2.2, freePlace_quiet h1, h3]; simp [h3]

end Sys2Proof.Machine
end

