-- ==== Sys2Proof/Laws/Reads.lean ====
section
/-! SUPPORT. The lengths of what the reading commands answer with. -/

namespace Sys2Proof.Machine

/-- A set of flags is one byte. -/
theorem bitsByte_length (l) : (bitsByte l).length = 1 := by simp [bitsByte]

/-- A slot in STATUS. -/
theorem slotBytes_length (x : Slot) : (slotBytes x).length = 6 := by
  unfold slotBytes; split
  · simp
  · simp [headSetByte, bitsByte_length]

/-- The run group of STATUS. -/
theorem runGroup_length (r) : (runGroup r).length = 5 := by simp [runGroup, boolByte, portByte]

/-- The position group of STATUS. -/
theorem positionGroup_length (a b) : (positionGroup a b).length = 29 := by simp [positionGroup]

/-- The tracker group of STATUS. -/
theorem trackerGroup_length (a b) : (trackerGroup a b).length = 40 := by
  have h1 : ∀ o, (patchBytes o).length = 13 := by intro o; cases o <;> simp [patchBytes]
  have h2 : ∀ o, (tallyBytes o).length = 6 := by intro o; cases o <;> simp [tallyBytes]
  simp [trackerGroup, boolByte, h1, h2]

/-- The links in STATUS. -/
theorem linkBytes_length (l : Quad Link) : (l.toList.flatMap linkBytes).length = 36 := by
  simp [Quad.toList, linkBytes]

/-- The assembler group of STATUS. -/
theorem assemblerGroup_length (a) : (assemblerGroup a).length = 58 := by
  simp [assemblerGroup, Quad.toList, slotBytes_length, headCounters]

/-- The last published line. -/
theorem lastLineBytes_length (o) : (lastLineBytes o).length = 7 := by cases o <;> simp [lastLineBytes]

/-- The engine group of STATUS. -/
theorem engineGroup_length (e) : (engineGroup e).length = 15 := by simp [engineGroup, lastLineBytes_length, boolByte]

/-- The list group of STATUS. -/
theorem listGroup_length (l) : (listGroup l).length = 14 := by simp [listGroup]

/-- The marker group of STATUS. -/
theorem markersGroup_length (k) : (markersGroup k).length = 12 := by simp [markersGroup, boolByte]

/-- Nine bytes for each cell. -/
theorem cellsBytes_length (f : Nat) (rs : List CellRec) : (cellsBytes f rs).length = 9 * rs.length := by
  induction rs generalizing f with
  | nil => rfl
  | cons r rs ih => simp [cellsBytes, cellBytes, boolByte, signedWord, ih]; omega

/-- One cell is nine bytes. -/
theorem cellBytes_length (c r) : (cellBytes c r).length = 9 := by simp [cellBytes, boolByte, signedWord]

/-- The nine bytes at one place are that cell's. -/
theorem cellsBytes_at (rs : List CellRec) : ∀ (f i : Nat) (r : CellRec), rs[i]? = some r →
    ((cellsBytes f rs).drop (9 * i)).take 9 = cellBytes (f + i) r := by
  induction rs with
  | nil => simp
  | cons a rs ih =>
    intro f i r hr
    cases i with
    | zero =>
      simp at hr; subst hr
      simp only [cellsBytes, Nat.mul_zero, List.drop_zero, Nat.add_zero]
      exact List.take_left' (cellBytes_length _ _)
    | succ i =>
      simp at hr
      simp only [cellsBytes]
      rw [show 9 * (i + 1) = (cellBytes f a).length + 9 * i by rw [cellBytes_length]; omega,
        List.drop_length_add_append, ih _ _ _ hr]
      congr 1; omega

/-- A table of entries of one length. -/
theorem tableBytes_length {α} (g : Nat → α → List Byte) (n : Nat) (hg : ∀ i x, (g i x).length = n)
    (t : List (Option α)) : ∀ i, (tableBytes g i t).length = n * t.countP Option.isSome := by
  induction t with
  | nil => intro i; rfl
  | cons o t ih =>
    intro i
    cases o with
    | none => simp [tableBytes, ih]
    | some x => simp [tableBytes, ih, hg, Nat.mul_add]; omega

end Sys2Proof.Machine
end

