-- ==== Sys2Proof/Laws/TallyStage.lean ====
section
/-! SUPPORT. What a line contributes to the patch tally (R32): the records of stages 3 and 4 and the late marks of their
actions, and what stage 5 enters of them. -/

namespace Sys2Proof.Machine

/-! ### The counts -/

/-- How many of the records are PINHOLE records of a patch. -/
def pinholesOf (xs : List (Nat × RecordBody)) (p : Nat) : Nat :=
  xs.countP fun x => match x.2 with
    | .pinhole b => b.patch == p
    | _ => false

/-- How many of the records are STREAK_OPEN records of a patch. -/
def opensOf (xs : List (Nat × RecordBody)) (p : Nat) : Nat :=
  xs.countP fun x => match x.2 with
    | .streakOpen b => b.patch == p
    | _ => false

/-- The contributions stand for the records of a run of work and for its late marks, given by their patches. -/
structure Stands (cs : List Contribution) (xs : List (Nat × RecordBody)) (late : List Nat) : Prop where
  pinholes : ∀ p, cs.count (.pinhole p) = pinholesOf xs p
  opens : ∀ p, cs.count (.streakOpen p) = opensOf xs p
  lates : ∀ p, cs.count (.lateMark p) = late.count p
  patches : ∀ x ∈ xs, ∀ b, x.2 ≠ .patch b

/-- An open candidate whose mark target is known (R107): it was open before the line, or the line has opened it. -/
def Line.knows (ln : Line) (old : List (Option Candidate)) (k : Candidate) : Prop :=
  (∃ k', some k' ∈ old ∧ k'.firstW = k.firstW ∧ k'.patch = k.patch ∧ k'.lane = k.lane ∧ k'.profile = k.profile ∧
      k'.target = k.target) ∨
    (k.firstW = ln.slot.w ∧ k.patch = ln.slot.patchNum ∧ k.target = ln.aim k.lane k.profile)

/-- Every open candidate is known. -/
def Known (ln : Line) (old : List (Option Candidate)) (s : State) : Prop :=
  ∀ k, some k ∈ s.eng.work.cands → ln.knows old k

/-- The late marks that records with their mark targets bring when no action is dropped. -/
def Line.lates (ln : Line) (w : Nat) (xs : List (Nat × RecordBody)) (ms : List (Option Marker)) : List Nat :=
  (xs.zip ms).filterMap (ln.latePatch w)

/-- `t` comes from `s` by work that leaves W and the tally alone and hands on a contribution for every PINHOLE record,
STREAK_OPEN record and late mark, the late marks being those of the records' actions. -/
structure Counted (ln : Line) (old : List (Option Candidate)) (s t : State) : Prop where
  made : ∃ cs xs ms late, Stands cs xs late ∧ t.list = s.list.pushAll xs ∧ t.eng.contribs = s.eng.contribs ++ cs ∧
    (s.mark.late ≤ 65535 → t.mark.late = min (s.mark.late + late.length) 65535) ∧
    List.Forall₂ (ln.aims old) xs ms ∧ late.Sublist (ln.lates s.pos.w xs ms) ∧
    (s.mark.dropped < 65535 → t.mark.dropped = s.mark.dropped → late = ln.lates s.pos.w xs ms)
  tally : t.eng.work.tally = s.eng.work.tally
  pos : t.pos = s.pos
  dropped : s.mark.dropped ≤ 65535 → s.mark.dropped ≤ t.mark.dropped ∧ t.mark.dropped ≤ 65535

/-- Counted work on known candidates, which leaves the open candidates known. -/
def CountedWork (ln : Line) (old : List (Option Candidate)) (s t : State) : Prop :=
  Known ln old s → Counted ln old s t ∧ Known ln old t

theorem Stands.nil : Stands [] [] [] := ⟨fun _ => rfl, fun _ => rfl, fun _ => rfl, by simp⟩

theorem Stands.append {cs ds : List Contribution} {xs ys : List (Nat × RecordBody)} {l m : List Nat}
    (h : Stands cs xs l) (k : Stands ds ys m) : Stands (cs ++ ds) (xs ++ ys) (l ++ m) := by
  refine ⟨fun p => ?_, fun p => ?_, fun p => ?_, fun x hx => (List.mem_append.1 hx).elim (h.patches x) (k.patches x)⟩
  · rw [List.count_append, h.pinholes, k.pinholes]; exact List.countP_append.symm
  · rw [List.count_append, h.opens, k.opens]; exact List.countP_append.symm
  · rw [List.count_append, List.count_append, h.lates, k.lates]

theorem Line.lates_append (ln : Line) (w : Nat) {xs ys : List (Nat × RecordBody)} {ms ns : List (Option Marker)}
    (h : xs.length = ms.length) : ln.lates w (xs ++ ys) (ms ++ ns) = ln.lates w xs ms ++ ln.lates w ys ns := by
  unfold Line.lates
  rw [List.zip_append h, List.filterMap_append]

/-- Records without a mark target bring no late mark. -/
theorem Line.lates_quiet (ln : Line) (w : Nat) (xs : List (Nat × RecordBody)) :
    ln.lates w xs (xs.map fun _ => none) = [] := by
  unfold Line.lates
  rw [List.filterMap_eq_nil_iff]
  intro x hx
  rw [List.zip_map_right] at hx
  obtain ⟨y, -, rfl⟩ := List.mem_map.1 hx
  rfl

section

variable {ln : Line} {old : List (Option Candidate)} {s t u : State}

/-! ### Known candidates -/

theorem Known.set {cands : List (Option Candidate)} (h : ∀ k, some k ∈ cands → ln.knows old k) {o : Option Candidate}
    (ho : ∀ k, o = some k → ln.knows old k) (i : Nat) : ∀ k, some k ∈ cands.set i o → ln.knows old k := by
  intro k hk
  rcases List.mem_or_eq_of_mem_set hk with hk | hk
  · exact h k hk
  · exact ho k hk.symm

theorem Known.entry {cands : List (Option Candidate)} (h : ∀ k, some k ∈ cands → ln.knows old k) {i : Nat}
    {k : Candidate} (hk : entryAt cands i = some k) : ln.knows old k :=
  h k (List.mem_of_getElem? (entryAt_some.1 hk))

/-- A known candidate's record has its mark target. -/
theorem Line.knows.aims {k : Candidate} (h : ln.knows old k) (how : PinEnd) :
    ln.aims old (k.firstW, k.closeBody how) k.target := by
  rcases h with ⟨k', h⟩ | h
  · exact .inl ⟨k', h⟩
  · exact .inr h

theorem markTarget_aim (ln : Line) (lane profile : Nat) : ln.copy.markTarget lane profile = ln.aim lane profile := by
  unfold Recipe.markTarget Line.aim LaneEntry.target
  by_cases h : (ln.copy.profile profile).markEnable = 1 <;> simp [h]

theorem newCand_known (ln : Line) (old : List (Option Candidate)) (r : Run Nat) : ln.knows old (newCand ln r) :=
  .inr ⟨rfl, rfl, markTarget_aim ln _ _⟩

/-! ### Counted work in general -/

theorem Counted.same (hl : t.list = s.list) (hc : t.eng.contribs = s.eng.contribs) (hm : t.mark = s.mark)
    (hp : t.pos = s.pos) (ht : t.eng.work.tally = s.eng.work.tally) : Counted ln old s t :=
  ⟨⟨[], [], [], [], .nil, hl, by rw [hc, List.append_nil], fun h => by rw [hm]; simp [h], .nil, .slnil, fun _ _ => rfl⟩,
    ht, hp, fun h => by rw [hm]; exact ⟨le_refl _, h⟩⟩

theorem CountedWork.same (hl : t.list = s.list) (hc : t.eng.contribs = s.eng.contribs) (hm : t.mark = s.mark)
    (hp : t.pos = s.pos) (ht : t.eng.work.tally = s.eng.work.tally) (hk : Known ln old s → Known ln old t) :
    CountedWork ln old s t := fun h => ⟨.same hl hc hm hp ht, hk h⟩

theorem Counted.trans (h : Counted ln old s t) (k : Counted ln old t u) : Counted ln old s u := by
  obtain ⟨cs, xs, ms, l, h1, h2, h3, h4, h5, h6, h7⟩ := h.made
  obtain ⟨ds, ys, ns, m, k1, k2, k3, k4, k5, k6, k7⟩ := k.made
  have hz := ln.lates_append s.pos.w (ys := ys) (ns := ns) h5.length_eq
  rw [h.pos] at k6 k7
  refine ⟨⟨cs ++ ds, xs ++ ys, ms ++ ns, l ++ m, h1.append k1, by rw [k2, h2, pushAll_append],
    by rw [k3, h3, List.append_assoc], fun hs => ?_, List.rel_append h5 k5, hz ▸ h6.append k6, fun hs hu => ?_⟩,
    k.tally.trans h.tally, k.pos.trans h.pos, fun hs => ?_⟩
  · rw [k4 (by rw [h4 hs]; exact Nat.min_le_right _ _), h4 hs, List.length_append]
    omega
  · obtain ⟨a, b⟩ := h.dropped (by omega)
    obtain ⟨c, -⟩ := k.dropped b
    rw [hz, h7 hs (by omega), k7 (by omega) (by omega)]
  · obtain ⟨a, b⟩ := h.dropped hs
    obtain ⟨c, d⟩ := k.dropped b
    exact ⟨by omega, d⟩

theorem CountedWork.trans (h : CountedWork ln old s t) (k : CountedWork ln old t u) : CountedWork ln old s u :=
  fun hs => ⟨(h hs).1.trans (k (h hs).2).1, (k (h hs).2).2⟩

theorem CountedWork.foldl {α : Type} {f : State → α → State} (h : ∀ s a, CountedWork ln old s (f s a)) (as : List α) :
    ∀ s, CountedWork ln old s (as.foldl f s) := by
  induction as with
  | nil => exact fun s => .same rfl rfl rfl rfl rfl id
  | cons a as ih => exact fun s => (h s a).trans (ih _)

/-- Records without a mark action, which are no contributions. -/
theorem Counted.quiet {cs : List Contribution} {xs : List (Nat × RecordBody)} (hs : Stands cs xs [])
    (hx : ∀ x ∈ xs, ln.aims old x none) (hl : t.list = s.list.pushAll xs)
    (hc : t.eng.contribs = s.eng.contribs ++ cs) (hm : t.mark = s.mark) (hp : t.pos = s.pos)
    (ht : t.eng.work.tally = s.eng.work.tally) : Counted ln old s t := by
  refine ⟨⟨cs, xs, xs.map fun _ => none, [], hs, hl, hc, fun h => by rw [hm]; simp [h], ?_, List.nil_sublist _,
    fun _ _ => (ln.lates_quiet _ xs).symm⟩, ht, hp, fun h => by rw [hm]; exact ⟨le_refl _, h⟩⟩
  rw [List.forall₂_map_right_iff, List.forall₂_same]
  exact hx

/-- An append of an event or of a STREAK_CLOSE record is no contribution. -/
theorem CountedWork.append {b : RecordBody} (hb : (∃ c n, b = .event c n) ∨ ∃ c, b = .streakClose c) (w : Nat)
    (s : State) : CountedWork ln old s (append w b s) := by
  refine fun h => ⟨.quiet (cs := []) (xs := [(w, b)]) ?_ ?_ rfl (List.append_nil _).symm rfl rfl rfl, h⟩
  · rcases hb with ⟨c, n, rfl⟩ | ⟨c, rfl⟩ <;> exact ⟨fun _ => rfl, fun _ => rfl, fun _ => rfl, by simp⟩
  · rcases hb with ⟨c, n, rfl⟩ | ⟨c, rfl⟩ <;> simp [Line.aims]

/-- A mark action of the engine (R151, R153, R155): events at most in the list, and its late mark when it is due and not
dropped. -/
theorem handAction_late (m : Marker) (f : MarkerFields) (r patch : Nat) (s : State) :
    ∃ (v : State) (ys : List (Nat × RecordBody)) (late : Bool), handAction m f r patch s = v ∧
      v.list = s.list.pushAll ys ∧ (∀ y ∈ ys, ∃ c n, y.2 = .event c n) ∧
      v.eng = { s.eng with contribs := s.eng.contribs ++ if late then [.lateMark patch] else [] } ∧ v.pos = s.pos ∧
      v.mark.late = (if late then bump s.mark.late else s.mark.late) ∧
      (late = true → r + f.offset ≤ s.pos.w ∧ patch ≠ 0) ∧
      (v.mark.dropped = s.mark.dropped ∧ (r + f.offset ≤ s.pos.w → patch ≠ 0 → late = true) ∨
        v.mark.dropped = bump s.mark.dropped) := by
  obtain ⟨ys, h1, -, h2⟩ := handAction_pushes m f r patch s
  have hd := enter_due s.mark s.pos.w m (r + f.offset) f.width f.spacing
  have hf := handAction_frame m f r patch s
  have hc := handAction_counts m f r patch s
  have hm := (congrArg State.mark hf).trans (enterAction_mark m (r + f.offset) f.width f.spacing patch s)
  refine ⟨_, ys, (s.mark.enter s.pos.w m (r + f.offset) f.width f.spacing).2.isLate patch, rfl, h1, h2, ?_, ?_, ?_, ?_,
    ?_⟩
  · rw [hf, hc]
  · rw [hf]
  · rw [hm]
    simp only [lateAfter, (enter_counts _ _ _ _ _ _).1]
  · simp only [MarkResult.isLate, hd.1]
    simp only [Bool.and_eq_true, decide_eq_true_eq, bne_iff_ne, ne_eq]
    exact fun h => ⟨h.1.1, h.2⟩
  · rw [hm]
    rcases hd.2 with ⟨ho, h⟩ | ⟨-, h⟩
    · refine .inl ⟨h, fun ha hp => ?_⟩
      simp [MarkResult.isLate, hd.1, ha, hp, ho]
    · exact .inr h

/-- A PINHOLE or STREAK_OPEN record with its contribution and, when it has a mark target, its mark action. -/
theorem Counted.reported {w patch : Nat} {b : RecordBody} {c : Contribution} {target : Option Marker}
    {s v : State} (hs : Stands [c] [(w, b)] []) (hb : b.actionPatch = patch) (ha : ln.aims old (w, b) target)
    (hv : (target = none ∧ v = contribute c (Sys2Proof.Machine.append w b s)) ∨
      ∃ m, target = some m ∧
        v = handAction m (ln.copy.markerFields m) w patch (contribute c (Sys2Proof.Machine.append w b s))) :
    Counted ln old s v ∧ v.eng.work = s.eng.work := by
  rcases hv with ⟨rfl, rfl⟩ | ⟨m, rfl, rfl⟩
  · exact ⟨.quiet hs (by simpa using ha) rfl rfl rfl rfl rfl, rfl⟩
  · obtain ⟨v, ys, late, e, h1, h2, h3, h4, h5, h6, h7⟩ := handAction_late m (ln.copy.markerFields m) w patch
      (contribute c (Sys2Proof.Machine.append w b s))
    replace h6 : late = true → w + (ln.copy.markerFields m).offset ≤ s.pos.w ∧ patch ≠ 0 := h6
    replace h7 : v.mark.dropped = s.mark.dropped ∧
        (w + (ln.copy.markerFields m).offset ≤ s.pos.w → patch ≠ 0 → late = true) ∨
      v.mark.dropped = bump s.mark.dropped := h7
    rw [e]
    have hev : ∀ y ∈ ys, ln.aims old y none := fun y hy => by
      obtain ⟨c, n, h⟩ := h2 y hy; simp [Line.aims, h]
    have hsy : Stands (if late then [.lateMark patch] else []) ys (if late then [patch] else []) := by
      refine ⟨fun p => ?_, fun p => ?_, fun p => ?_, fun y hy b hb => ?_⟩
      · have : pinholesOf ys p = 0 := List.countP_eq_zero.2 fun y hy => by
          obtain ⟨c, n, h⟩ := h2 y hy; simp [h]
        rw [this]; cases late <;> simp
      · have : opensOf ys p = 0 := List.countP_eq_zero.2 fun y hy => by
          obtain ⟨c, n, h⟩ := h2 y hy; simp [h]
        rw [this]; cases late <;> simp
      · cases late
        · rfl
        · by_cases h : patch = p <;> simp [h]
      · obtain ⟨c, n, h⟩ := h2 y hy; rw [h] at hb; cases hb
    have hoff : (ln.copy.markerFields m).offset = (if m = .mk0 then ln.copy.mk0 else ln.copy.mk1).offset := by
      cases m <;> rfl
    have hlt : ln.lates s.pos.w ((w, b) :: ys) (some m :: ys.map fun _ => none) =
        if w + (ln.copy.markerFields m).offset ≤ s.pos.w ∧ patch ≠ 0 then [patch] else [] := by
      have hn := ln.lates_quiet s.pos.w ys
      have h1 : ln.latePatch s.pos.w ((w, b), some m) =
          if w + (ln.copy.markerFields m).offset ≤ s.pos.w ∧ patch ≠ 0 then some patch else none := by
        simp only [Line.latePatch, hb, hoff]
      unfold Line.lates at hn ⊢
      rw [List.zip_cons_cons, List.filterMap_cons, hn, h1]
      split <;> rename_i h <;> split at h <;> simp_all
    refine ⟨⟨⟨[c] ++ if late then [.lateMark patch] else [], (w, b) :: ys, some m :: ys.map fun _ => none,
      if late then [patch] else [], ?_, ?_, ?_, ?_, ?_, ?_, ?_⟩,
      by rw [h3]; rfl, h4, ?_⟩, by rw [h3]; rfl⟩
    · exact hs.append hsy
    · rw [h1]; rfl
    · rw [h3]; exact List.append_assoc _ _ _
    · intro hl
      rw [h5]
      show (if late = true then bump s.mark.late else s.mark.late) = _
      cases late <;> simp [bump, maxCount, hl]
    · refine .cons ha ?_
      rw [List.forall₂_map_right_iff, List.forall₂_same]
      exact hev
    · rw [hlt]
      cases late
      · exact List.nil_sublist _
      · rw [if_pos (h6 rfl)]; exact .refl _
    · intro hd hv
      rw [hlt]
      rcases h7 with ⟨-, h7⟩ | h7
      · cases late
        · exact (if_neg fun h => Bool.false_ne_true (h7 h.1 h.2)).symm
        · rw [if_pos (h6 rfl)]; rfl
      · rw [h7] at hv
        simp only [bump, maxCount] at hv; omega
    · intro hd
      rcases h7 with ⟨h7, -⟩ | h7
      · rw [h7]; exact ⟨le_refl _, hd⟩
      · rw [h7]; simp only [bump, maxCount]; omega

/-! ### The stages -/

theorem dropCand_counted (i : Nat) (s : State) : CountedWork ln old s (dropCand i s) :=
  .same rfl rfl rfl rfl rfl fun h => Known.set h (by simp) i

theorem reportPinhole_counted {k : Candidate} (hk : ln.knows old k) (how : PinEnd) (s : State) :
    CountedWork ln old s (reportPinhole ln.copy.markerFields k how s) := by
  have h := Counted.reported (s := s) (v := reportPinhole ln.copy.markerFields k how s) (w := k.firstW)
    (patch := k.patch) (c := .pinhole k.patch)
    ⟨fun p => by by_cases h : k.patch = p <;> simp [pinholesOf, Candidate.closeBody, h], fun _ => rfl, fun _ => rfl,
      by simp [Candidate.closeBody]⟩ rfl (hk.aims how) (by
        unfold reportPinhole; dsimp only; split
        · rename_i m hm; exact .inr ⟨m, hm, rfl⟩
        · rename_i hm; exact .inl ⟨hm, rfl⟩)
  exact fun hs => ⟨h.1, by unfold Known; rw [h.2]; exact hs⟩

theorem closeCand_counted (how : PinEnd) (s : State) (i : Nat) :
    CountedWork ln old s (closeCand ln.copy.markerFields how s i) := by
  unfold closeCand; split
  · rename_i k hk
    exact fun h => ((dropCand_counted i s).trans (reportPinhole_counted (Known.entry h hk) how _)) h
  · exact .same rfl rfl rfl rfl rfl id

theorem runStreakItem_counted (s : State) (x : StreakItem) : CountedWork ln old s (runStreakItem ln s x) := by
  have hc : ∀ st i reason into w u, CountedWork ln old u (closeStreakAs st i reason into w u) :=
    fun st i reason into w u =>
      CountedWork.trans (t := dropStreak i u) (.same rfl rfl rfl rfl rfl id) (.append (.inr ⟨_, rfl⟩) _ _)
  cases x with
  | fate i was f =>
    simp only [runStreakItem]; unfold settleStreak; split
    · split
      · exact hc _ _ _ _ _ s
      · exact .same rfl rfl rfl rfl rfl id
    · unfold closeStreak; split
      · exact hc _ _ _ _ _ s
      · exact .same rfl rfl rfl rfl rfl id
    · split <;> exact .same rfl rfl rfl rfl rfl id
    · exact .same rfl rfl rfl rfl rfl id
  | run r =>
    simp only [runStreakItem]; unfold loneStreakRun; split
    · rename_i i _
      have h1 : CountedWork ln old s (s.withWork { s.eng.work with
          streaks := s.eng.work.streaks.set i (some (newStreak ln.slot.w ln.slot.patchNum s.list.next r))
          cells := joinMembers i r s.eng.work.cells }) := .same rfl rfl rfl rfl rfl id
      refine h1.trans ?_
      have h2 := Counted.reported (ln := ln) (old := old) (s := s.withWork { s.eng.work with
          streaks := s.eng.work.streaks.set i (some (newStreak ln.slot.w ln.slot.patchNum s.list.next r))
          cells := joinMembers i r s.eng.work.cells }) (v := openStreak ln r i s) (w := ln.slot.w)
        (patch := ln.slot.patchNum)
        (b := .streakOpen ⟨r.key.1, r.profile, r.key.2, r.left, r.right, ln.slot.patchNum, r.cells⟩)
        (c := .streakOpen ln.slot.patchNum) ⟨fun _ => rfl,
          fun p => by by_cases h : ln.slot.patchNum = p <;> simp [opensOf, h], fun _ => rfl, by simp⟩ rfl
        (markTarget_aim ln r.key.1 r.profile) (by
          unfold openStreak; dsimp only; split
          · rename_i m hm; exact .inr ⟨m, hm, rfl⟩
          · rename_i hm; exact .inl ⟨hm, rfl⟩)
      exact fun h => ⟨h2.1, by unfold Known; rw [h2.2]; exact h⟩
    · have h1 : CountedWork ln old s (s.withWork { s.eng.work with
          refusals := bump s.eng.work.refusals, streakLatch := true }) := .same rfl rfl rfl rfl rfl id
      unfold refuseStreak; dsimp only; split
      · exact h1
      · exact h1.trans (.append (.inl ⟨_, _, rfl⟩) _ _)

theorem streakStage_counted (outs : List CellResult) (s : State) : CountedWork ln old s (streakStage ln outs s) := by
  have h1 : ∀ next u c, CountedWork ln old u (extendStreak next u c) := by
    intro next u c; unfold extendStreak; dsimp only; split
    · exact .same rfl rfl rfl rfl rfl id
    · split <;> exact .same rfl rfl rfl rfl rfl id
  have h2 : CountedWork ln old s (beginStreaks ln outs s).2 := by
    unfold beginStreaks; split
    · exact CountedWork.trans (t := s.withWork { s.eng.work with
        streaks := s.eng.work.streaks.map fun o => o.map (Streak.onPatch ln.slot.patchNum) })
        (.same rfl rfl rfl rfl rfl id) (CountedWork.foldl (h1 _) _ _)
    · exact .same rfl rfl rfl rfl rfl id
  exact h2.trans (CountedWork.foldl runStreakItem_counted _ _)

theorem runPinItem_counted (s : State) (x : PinItem) : CountedWork ln old s (runPinItem ln s x) := by
  cases x with
  | fate i f =>
    simp only [runPinItem]; unfold settleCand; split
    · exact closeCand_counted _ s i
    · exact closeCand_counted _ s i
    · split
      · rename_i k hk
        exact .same rfl rfl rfl rfl rfl fun h =>
          Known.set h (fun _ e => by cases e; exact (Known.entry h hk : ln.knows old k)) i
      · exact .same rfl rfl rfl rfl rfl id
    · exact .same rfl rfl rfl rfl rfl id
  | run r =>
    simp only [runPinItem]; unfold lonePinholeRun; split
    · rename_i i _
      have h1 : CountedWork ln old s
          (s.withWork { s.eng.work with cands := s.eng.work.cands.set i (some (newCand ln r)) }) :=
        .same rfl rfl rfl rfl rfl fun h => Known.set h (fun _ e => by cases e; exact newCand_known ln old r) i
      unfold openCand; dsimp only; split
      · exact h1.trans (closeCand_counted _ _ _)
      · exact h1
    · have h1 : CountedWork ln old s (s.withWork { s.eng.work with
          splits := bump s.eng.work.splits, candLatch := true }) := .same rfl rfl rfl rfl rfl id
      have h2 := fun u => reportPinhole_counted (newCand_known ln old r) .split u
      unfold splitRun splitReport splitNotice; dsimp only; split
      · exact h1.trans (h2 _)
      · exact (h1.trans (.append (.inl ⟨_, _, rfl⟩) _ _)).trans (h2 _)
  | report r => exact reportPinhole_counted (newCand_known ln old r) _ s

/-- An extension leaves what a candidate's record and mark action go by. -/
theorem Line.knows.extended {k : Candidate} (h : ln.knows old k) (w : Nat) (trail : Bool) (runs : List (Run Nat))
    (absorbed : List Candidate) : ln.knows old (k.extended w trail runs absorbed) := by
  unfold Candidate.extended; split
  · exact h
  · exact h

theorem beginPinholes_counted (outs : List CellResult) (s : State) :
    CountedWork ln old s (beginPinholes ln outs s).2 := by
  unfold beginPinholes; split
  · intro hs
    refine CountedWork.foldl (fun u c => ?_) _ s hs
    unfold extendCand; split
    · exact .same rfl rfl rfl rfl rfl id
    · split
      · exact .same rfl rfl rfl rfl rfl id
      · rename_i k hk
        exact (CountedWork.foldl (fun v j => dropCand_counted j v) _ u).trans
          (.same rfl rfl rfl rfl rfl fun h =>
            Known.set h (fun _ e => by cases e; exact (Known.entry hs hk).extended _ _ _ _) _)
  · exact .same rfl rfl rfl rfl rfl id

theorem pinholeStage_counted (outs : List CellResult) (s : State) : CountedWork ln old s (pinholeStage ln outs s) :=
  ((CountedWork.foldl (closeCand_counted _) _ s).trans (beginPinholes_counted _ _)).trans
    (CountedWork.foldl runPinItem_counted _ _)

/-- Stages 1 to 4 hand on a contribution for each of the line's records that count and for each late mark. -/
theorem stages_counted (ln : Line) (s : State) :
    Counted ln s.eng.work.cands s
      (pinholeStage ln (cellStages ln s).1 (streakStage ln (cellStages ln s).1 (cellStages ln s).2)) :=
  have h : CountedWork ln s.eng.work.cands s (cellStages ln s).2 := .same rfl rfl rfl rfl rfl id
  (((h.trans (streakStage_counted _ _)).trans (pinholeStage_counted _ _)) fun k hk =>
    .inl ⟨k, hk, rfl, rfl, rfl, rfl, rfl⟩).1

end

/-! ### Stage 5 -/

/-- Entering contributions in a tally moves its three counts alone, each by the contributions of its patch (R32). -/
theorem addAll_counts (cs : List Contribution) (t : Tally) (h1 : t.pinholes ≤ 65535) (h2 : t.streakOpens ≤ 65535)
    (h3 : t.lateMarks ≤ 65535) :
    t.addAll cs = { t with
      pinholes := min (t.pinholes + cs.count (.pinhole t.num)) 65535
      streakOpens := min (t.streakOpens + cs.count (.streakOpen t.num)) 65535
      lateMarks := min (t.lateMarks + cs.count (.lateMark t.num)) 65535 } := by
  induction cs generalizing t with
  | nil => simp [Tally.addAll, h1, h2, h3]
  | cons c cs ih =>
    have hadd : t.addAll (c :: cs) = (t.add c).addAll cs := rfl
    rw [hadd]
    by_cases hp : c.patch = t.num
    · cases c <;> simp only [Contribution.patch] at hp <;>
      · subst hp
        rw [ih _ (by simp [Tally.add, Contribution.patch, bump, maxCount, h1])
          (by simp [Tally.add, Contribution.patch, bump, maxCount, h2])
          (by simp [Tally.add, Contribution.patch, bump, maxCount, h3])]
        simp [Tally.add, Contribution.patch, bump, maxCount]
        try omega
    · have hn : t.add c = t := by unfold Tally.add; rw [if_neg hp]
      rw [hn, ih t h1 h2 h3]
      cases c <;> simp only [Contribution.patch] at hp <;> simp [hp]

end Sys2Proof.Machine
end

