-- ==== Sys2Proof/WellFormed.lean ====
section
/-! DEFINITION. Which commands spell the step they name. `exec` has a meaning for every command, well-formed or
not; a command that is not well-formed names a step other than the one its bytes make (assumption 10), or carries
more data than a station frame can (R173). -/

namespace Sys2Proof

/-- Reads bytes after an opening delimiter by the escape rule of R36. `none`: a delimiter or an abort sequence
stands among them. `some held`: neither does, and `held` says whether an escape byte is held at the end. -/
def scanWire (held : Bool) : List Byte → Option Bool
  | [] => some held
  | b :: bs =>
    if b = 0xB2#8 then none
    else if held then scanWire false bs
    else scanWire (b = 0xB5#8) bs

/-- The bytes less the opening delimiter they may start with. -/
def afterOpening : List Byte → List Byte
  | [] => []
  | b :: bs => if b = 0xB2#8 then bs else b :: bs

/-- The bytes hold one frame, not empty, that a delimiter or an abort sequence would end. -/
def spellsFrame (bytes : List Byte) : Bool :=
  afterOpening bytes != [] && scanWire false (afterOpening bytes) == some false

/-- The bytes hold part of a frame and nothing that ends one. -/
def spellsPart (bytes : List Byte) : Bool :=
  (scanWire false (afterOpening bytes)).isSome

/-- The largest field data of a STAGE_WRITE that a station frame of 1,200 body bytes can carry (R172, R173). -/
def maxStageData : Nat := 1194

/-- A command that spells the step it names. -/
def Instr.wellFormed : Instr → Bool
  | .powerOnReset _ _ _ => true
  | .encoderTransition _ _ => true
  | .markEdge _ => true
  | .carrierGained _ => true
  | .carrierLost _ bytes => spellsPart bytes
  | .headFrame _ bytes => spellsFrame bytes
  | .headFrameAbort _ bytes => spellsFrame bytes || afterOpening bytes == []
  | .engineTakeLine => true
  | .linePublish => true
  | .stopComplete => true
  | .editExpiry => true
  | .stationFrame _ bytes => spellsFrame bytes
  | .stationFrameAbort _ bytes => spellsFrame bytes || afterOpening bytes == []
  | .frameTimeout _ bytes => afterOpening bytes != [] && spellsPart bytes
  | .responseSent _ => true
  | .ident _ _ => true
  | .status _ _ => true
  | .ackAttn _ _ => true
  | .endService _ _ => true
  | .arm _ _ => true
  | .disarm _ _ => true
  | .resetPosition _ _ => true
  | .claimEdit _ _ => true
  | .releaseEdit _ _ => true
  | .stageWrite _ _ _ _ data => data.length ≤ maxStageData
  | .stageRead _ _ _ _ => true
  | .activeRead _ _ _ _ => true
  | .commit _ _ => true
  | .cancelPending _ _ => true
  | .fetch _ _ _ => true
  | .seek _ _ _ _ => true
  | .subscribe _ _ _ _ _ => true
  | .readCells _ _ _ _ => true
  | .readCandidates _ _ => true
  | .readStreaks _ _ => true
  | .resyncHead _ _ _ => true
  | .forceMark _ _ _ _ => true

end Sys2Proof
end

