-- ==== Sys2Proof/Tests/Slice0.lean ====
section
/-! SUPPORT. Small tests: what `wellFormed` refuses, one-step results taken from the manual's rules and worked
sequences, and for every obligation with hypotheses a state and operands that meet them together. -/

namespace Sys2Proof.Tests

open Sys2Proof Sys2Proof.Machine

/-! ### What is not well-formed -/

theorem test_wf_carrier_lost_with_delimiter : (Instr.carrierLost 0 [0xB2, 0x02, 0xB2]).wellFormed = false := by decide

theorem test_wf_head_frame_without_bytes : (Instr.headFrame 0 [0xB2]).wellFormed = false := by decide

theorem test_wf_head_frame_with_abort : (Instr.headFrame 1 [0xB2, 0x02, 0xB5, 0xB2]).wellFormed = false := by decide

theorem test_wf_head_frame_abort_with_held_escape : (Instr.headFrameAbort 2 [0xB2, 0xB5]).wellFormed = false := by
  decide

theorem test_wf_station_frame_without_bytes : (Instr.stationFrame 0 []).wellFormed = false := by decide

theorem test_wf_station_frame_abort_with_delimiter :
    (Instr.stationFrameAbort 1 [0xB2, 0x01, 0xB2, 0x02]).wellFormed = false := by decide

theorem test_wf_frame_timeout_without_bytes : (Instr.frameTimeout 2 [0xB2]).wellFormed = false := by decide

theorem test_wf_stage_write_too_long :
    (Instr.stageWrite 0 0 0 0 (List.replicate 1195 0)).wellFormed = false := by decide +kernel

/-- The IDLE frame of the manual's escaping example (03 3.1), and a longest STAGE_WRITE. -/
theorem test_wf_good : (Instr.headFrame 0 [0xB2, 0x02, 0xB5, 0x82, 0xB5, 0x85, 0x01, 0x02]).wellFormed = true ∧
    (Instr.stageWrite 0 0 0 0 (List.replicate 1194 0)).wellFormed = true := by decide +kernel

/-! ### States the tests start from -/

/-- The next state of an outcome. -/
def after (o : Host.Outcome State Fault Refusal) : State :=
  match o with
  | .next t => t
  | _ => State.reset

/-- ARMED in continuous mode at W 0, with the next trigger at W 1. -/
def armed : State := { State.reset with
  rcp := { State.reset.rcp with run := .armed }
  trk := { State.reset.trk with mode := .continuous }
  trig := { State.reset.trig with t := 1 } }

/-- The PATCH section of 02 2.8. -/
def patch28 : PatchFields := ⟨4000, 1000, 12000, 200, 300, 100, 1, 0⟩

/-- ARMED in patterned mode under the PATCH section of 02 2.8, in SEEK at W 10,300, lines every 50 counts. -/
def seeking : State := { armed with
  pos := { armed.pos with w := 10300 }
  trig := { armed.trig with t := 10350, lastTrigger := 10300 }
  trk := { armed.trk with mode := .seek }
  rcp := { armed.rcp with active := { defaultRecipe with patch := patch28, p := 50 } } }

/-- As `seeking`, in TRACK after the edge at 15,340. -/
def tracking : State := { seeking with
  pos := { seeking.pos with w := 20440 }
  trig := { seeking.trig with t := 20450, lastTrigger := 20400 }
  trk := { seeking.trk with
    mode := .track, pred := 20340, prev := 15340, queue := [⟨22300, 0, .acq⟩, ⟨27340, 40, .plain⟩] } }

/-- As `armed`, with one slot replaced. -/
def withSlot0 (x : Slot) : State := armed.withSlot 0 x

/-- No other slot is occupied. -/
theorem withSlot0_alone (x : Slot) (j : Fin 4) (h : j ≠ 0) : ((withSlot0 x).asm.slots.get j).state ≠ .inWork := by
  rcases j with ⟨_ | _ | _ | _ | j, hj⟩
  · exact absurd rfl h
  · show SlotState.free ≠ _; decide
  · show SlotState.free ≠ _; decide
  · show SlotState.free ≠ _; decide
  · omega

/-- An OPEN slot of line 5 that expects heads 0 and 1. -/
def openSlot : Slot := { Slot.reset with
  state := .opened, line := 5, rank := 1, copy := .active, zone := .body, expected := ⟨true, true, false, false⟩ }

/-- A READY slot of line 5. -/
def readySlot : Slot := { openSlot with state := .ready, received := ⟨true, true, false, false⟩ }

/-- A slot of line 5 IN_WORK in the given zone. -/
def workSlot (z : Zone) : Slot := { readySlot with state := .inWork, zone := z }

/-- A machine whose link 0 is in a given state. -/
def withLink0 (k : Link) : State := { armed with links := armed.links.set 0 k }

/-- STOPPING, no line in any slot. -/
def stopping : State := { State.reset with
  rcp := { State.reset.rcp with run := .stopping, stopBy := 1 }
  trk := { State.reset.trk with mode := .continuous, frozen := true } }

/-- Port 0 holds the edit right. -/
def editing : State := { State.reset with
  rcp := { State.reset.rcp with holder := some 0, staging := some defaultRecipe, silenceMs := 2000 } }

/-! ### One step, results from the rules and worked sequences -/

/-- A command put into the queue of a machine. -/
def queued (c : Instr) (s : State) : State := { s with pending := [c] }

/-- 02 2.8, first two rows: the start queue and pred after an accepted edge. -/
theorem test_edge_acquires : (after (exec (.markEdge .rising) seeking)).trk =
    { seeking.trk with mode := .track, pred := 15300, prev := 10300, queue := [⟨22300, 0, .acq⟩] } := by decide

/-- 02 2.8, third row: an edge below the window is spurious. -/
theorem test_edge_spurious :
    (after (exec (.markEdge .rising) { tracking with pos := { tracking.pos with w := 20200 } })).trk =
      { tracking.trk with spurious := 1 } := by decide

/-- 02 2.8, fourth row: W passes 20,440. -/
theorem test_miss_flywheel : (after (exec (.encoderTransition true false) tracking)).trk =
    { tracking.trk with
      pred := 25340, prev := 20340, misses := 1, marksMissed := 1
      queue := [⟨22300, 0, .acq⟩, ⟨27340, 40, .plain⟩, ⟨32340, 0, .flywheel⟩] } := by decide +kernel

/-- R1: both channels together are illegal. -/
theorem test_illegal_transition : (after (exec (.encoderTransition true true) State.reset)).pos =
    { State.reset.pos with refA := true, refB := true, illegal := 1 } := by decide

/-- R2, R41: a power-on reset under carrier on head 2. -/
theorem test_power_on_with_carrier :
    ((after (exec (.powerOnReset true false ⟨false, false, true, false⟩) seeking)).links.q2.state,
      (after (exec (.powerOnReset true false ⟨false, false, true, false⟩) seeking)).pos.w) = (.hunt, 0) := by decide

/-- 03 3.1: head 45,749 goes on the wire with both id bytes escaped. -/
theorem test_escaping : (sentBytes (idleBody 45749)).take 6 = [0xB2, 0x02, 0xB5, 0x82, 0xB5, 0x85] := by decide

/-- R37 on the bytes 31 to 39: AEE7, the published check value of a CRC with this polynomial, start value and bit
order. -/
theorem test_crc : crc [0x31, 0x32, 0x33, 0x34, 0x35, 0x36, 0x37, 0x38, 0x39] = 0xAEE7 := by decide +kernel

/-- 03 3.8, step 2: a good IDLE frame of id 310 in HUNT. -/
theorem test_idle_frame : (after (exec (.headFrame 0 (sentBytes (idleBody 310)))
    (withLink0 { Link.reset with state := .hunt }))).links.q0 =
      { Link.reset with state := .hunt, rx := Reception.fresh, good := 1, runId := 310 } := by decide +kernel

/-- 03 3.8, step 11, at head 2: HEAD_LOST with argument 258. -/
theorem test_carrier_lost : ((after (exec (.carrierLost 2 []) { armed with
    links := armed.links.set 2 { Link.reset with state := .locked, learned := 310 } })).list.records.map
      Record.body) = [.event .headLost 258] := by decide

/-- 03 3.8, step 12. -/
theorem test_carrier_gained : (after (exec (.carrierGained 2) State.reset)).links.q2.state = .hunt := by decide

/-- R36, R40: an aborted frame is counted and leaves the good run. -/
theorem test_frame_abort : (after (exec (.headFrameAbort 0 [0xB2, 0x02])
    (withLink0 { Link.reset with state := .hunt, good := 2, runId := 7 }))).links.q0 =
      { Link.reset with state := .hunt, good := 2, runId := 7, rx := Reception.fresh, aborted := 1 } := by decide

/-- 05 5.6: the three enabled lanes of the worked example. -/
def lanes56 : List LaneEntry :=
  [⟨1, 40, 239, 6, 0, 1⟩, ⟨1, 280, 479, 6, 8, 2⟩, ⟨1, 520, 530, 8, 0, 0⟩, ⟨0, 600, 900, 4, 0, 0⟩] ++
    List.replicate 12 defaultLane

/-- 05 5.6: its copy, and a LEAD line on which H1 reported ILLUM_FAULT. -/
def lead56 : Line where
  slot := { workSlot .lead with received := ⟨true, false, false, false⟩, absent := ⟨false, true, false, false⟩ }
  copy := { defaultRecipe with
    heads := ⟨⟨1, 0, 0, 500, 0⟩, ⟨1, 0, 0, 500, 500⟩, defaultHead 2, defaultHead 3⟩, lanes := lanes56 }

/-- Class and profile index of a cell on a line. -/
def classAndIndex (ln : Line) (cell : Nat) : CellClass × Nat :=
  ((ln.workCell cell CellRec.blank 0).2.cls, (ln.workCell cell CellRec.blank 0).2.profile)

/-- 05 5.6, first table. -/
theorem test_classes : [39, 40, 45, 46, 233, 234, 280, 300, 525, 700].map (classAndIndex lead56) =
    [(.margin, 0), (.edge, 3), (.edge, 3), (.inner, 2), (.inner, 2), (.edge, 3), (.edge, 11), (.inner, 10),
      (.absent, 0), (.margin, 0)] := by decide

/-- The records of a cell over lines with the given values, by one profile. -/
def overLines (p : Profile) (r : CellRec) (xs : List Nat) : List CellRec :=
  (List.scanl (fun y x => y.worked p x) r xs).tail

/-- 06 6.4, the three lines at one cell: B16 and S. -/
theorem test_judged_cell :
    (overLines ⟨1, 1, 0, 400, 40, 6, 64, 16, 0⟩ ⟨true, 32000, 3, 0, none⟩ [2030, 1950, 2460]).map
      (fun y => (y.b16, y.s)) = [(32007, 2), (32006, -1), (32006, 1)] := by decide

/-- 06 6.4, a seed and a warm-up, lines a to e: B16 and warm. -/
theorem test_warm_up_cell :
    (overLines ⟨1, 1, 0, 400, 40, 6, 64, 16, 3⟩ CellRec.blank [1800, 1810, 2300, 1805, 1806]).map
      (fun y => (y.b16, y.warm)) = [(28800, 3), (28802, 2), (28926, 1), (28925, 0), (28924, 0)] := by decide

/-! The worked sequence of 07 7.6: cells 100..299 in lane 3, MK0, TP 400. -/

/-- What stages 1 and 2 hand on for 161 cells when the given cells are flagged. -/
def outs76 (flagged : List (Nat × Int × Nat)) : List CellResult :=
  (List.range 161).map fun c => match flagged.find? fun f => f.1 == c with
    | some (_, d, x) => ⟨.inner, 3, 0, true, d, x, true⟩
    | none => ⟨.inner, 3, 0, true, 0, 2000, false⟩

/-- A line of patch 12 at a position, under a copy with lane 3 on MK0 and a marking profile 0. -/
def line76 (w : Nat) : Line where
  slot := { workSlot .body with w := w, patchNum := 12 }
  copy := { defaultRecipe with
    lanes := List.replicate 3 defaultLane ++ [⟨1, 100, 299, 4, 0, 1⟩] ++ List.replicate 12 defaultLane
    profiles := { defaultProfile with markEnable := 1 } :: List.replicate 15 defaultProfile
    mk0 := ⟨20000, 400, 300⟩ }

/-- A candidate of the sequence. -/
def cand76 (first last lines hullL hullR extL extR area peak : Nat) (sat held : Bool) : Candidate :=
  ⟨3, 12, first, last, lines, hullL, hullR, extL, extR, area, peak, 0, some .mk0, sat, false, false, false, held⟩

/-- A machine with the given candidates in its first slots and 161 blank cells. -/
def with76 (cands : List (Option Candidate)) : State := { armed with
  eng := { armed.eng with
    work := { armed.eng.work with
      cells := List.replicate 161 CellRec.blank, cands := cands ++ List.replicate (24 - cands.length) none } } }

/-- 07 7.6, the line at 5016: one run joins two candidates into the older. -/
theorem test_candidates_merge :
    (pinholeStage (line76 5016) (outs76 [(141, 460, 0), (142, 900, 0), (143, 2115, 4095), (144, 700, 0),
        (145, 430, 0)]) (with76 [some (cand76 5000 5000 1 140 141 140 141 2 510 false false),
        some (cand76 5000 5000 1 146 146 146 146 1 405 false false)])).eng.work.cands.take 2 =
      [some (cand76 5000 5016 2 140 146 141 145 8 2115 true false), none] := by decide +kernel

/-- 07 7.6, the line at 5064: both close in age order, and MK0 is handed R = 5000 and R = 5032. -/
theorem test_candidates_close :
    (fun t : State => (t.list.records.map Record.w, t.mark.queue.map MarkEntry.start,
        t.eng.work.cands.take 2 == [none, none]))
      (pinholeStage (line76 5064) (outs76 [])
        (with76 [some (cand76 5000 5032 3 140 146 143 144 10 2115 true true),
          some (cand76 5032 5032 1 160 160 160 160 1 430 false true)])) =
      ([5000, 5032], [25000], true) := by decide +kernel

/-! The worked sequence of 08 8.7: lane 5, MK1, L_open 4, L_close 2, the line at 8080. -/

/-- The line at 8080 of patch 30. -/
def line87 : Line where
  slot := { workSlot .body with w := 8080, patchNum := 30 }
  copy := { defaultRecipe with
    lanes := List.replicate 5 defaultLane ++ [⟨1, 400, 599, 4, 0, 2⟩] ++ List.replicate 10 defaultLane
    profiles := ⟨1, 1, 1, 400, 40, 6, 4, 2, 16⟩ :: List.replicate 15 defaultProfile }

/-- A streak of the sequence. -/
def streak87 (seq extL extR openW lines peak wideL wideR : Nat) : Streak :=
  ⟨seq, .light, 5, 0, extL, extR, openW, 30, 30, lines, 1, peak, wideL, wideR, false⟩

/-- The machine before stage 3 of the line at 8080, the cells as stage 2 left them. -/
def before87 : State := { armed with
  list := { armed.list with next := 7003 }
  eng := { armed.eng with
    work := { armed.eng.work with
      cells := List.replicate 450 CellRec.blank ++ List.replicate 3 ⟨true, 32000, 6, 0, some 0⟩ ++
        List.replicate 2 ⟨true, 32000, 4, 0, none⟩ ++ List.replicate 2 ⟨true, 32000, 5, 0, some 1⟩
      streaks := some (streak87 7001 450 452 8048 2 66 450 452) ::
        some (streak87 7002 455 456 8064 1 57 455 456) :: List.replicate 30 none } } }

/-- What stages 1 and 2 hand on there: d 72 at cell 455. -/
def outs87 : List CellResult :=
  List.replicate 450 ⟨.inner, 5, 0, true, 0, 2000, false⟩ ++ List.replicate 5 ⟨.inner, 5, 0, true, 50, 2050, false⟩ ++
    [⟨.inner, 5, 0, true, 72, 2072, false⟩, ⟨.inner, 5, 0, true, 50, 2050, false⟩]

/-- 08 8.7, line 8080: slot 0 survives with the whole band, slot 1 closes MERGED as record 7003. -/
theorem test_streaks_merge : (fun t : State => (t.eng.work.streaks.take 2, t.list.records,
      (t.eng.work.cells.drop 450).map CellRec.member)) (streakStage line87 outs87 before87) =
    ([some (streak87 7001 450 456 8048 3 72 450 456), none],
      [⟨7003, 8080, .streakClose ⟨5, 0, .light, false, 7002, 7001, .merged, 1, 1, 455, 456, 57⟩⟩],
      List.replicate 7 (some 0)) := by decide +kernel

/-! The worked sequence of 10 10.7. -/

/-- The scheduler after the actions a1 to a3. -/
def queue107 : Scheduler := { State.reset.mark with
  nextRank := 4
  queue := [⟨.mk1, 23200, 23400, 3⟩, ⟨.mk0, 25000, 25400, 1⟩, ⟨.mk0, 26000, 26400, 2⟩] }

/-- 10 10.7, a4: it joins both MK0 entries into the older, two merges. -/
theorem test_mark_merges : (queue107.enter 6100 .mk0 25550 400 300).1 = { queue107 with
    merges := 2, queue := [⟨.mk1, 23200, 23400, 3⟩, ⟨.mk0, 25000, 26400, 1⟩] } := by decide

/-- 10 10.7, a5: due at W = 25,100, moved to W, merged without a change of A; MK0 is active. -/
theorem test_mark_due :
    Scheduler.enter 25100 .mk0 25050 400 300 { queue107 with queue := [⟨.mk0, 25000, 26400, 1⟩] } =
      ({ queue107 with queue := [⟨.mk0, 25000, 26400, 1⟩], merges := 1, mk0 := true },
        ⟨.merged, 25100, 25500, true⟩) := by decide

/-! The worked sequence of 11 11.6, step 2, and single commands. -/

/-- Copy B of 11 11.6: lane 4 enabled besides lanes 0 to 3 of copy A, pitch 20. -/
def copyB : Recipe := { defaultRecipe with
  lanes := List.replicate 4 defaultLane ++ ⟨1, 0, 0, 0, 0, 0⟩ :: List.replicate 11 defaultLane
  p := 20 }

/-- Before the trigger at 40,032: lines 100 IN_WORK, 101 READY, 102 OPEN under A, B pending. -/
def before116 : State := { armed with
  pos := { armed.pos with w := 40031 }
  trig := { armed.trig with t := 40032, lastTrigger := 40016, n := 103 }
  asm := { armed.asm with
    lastRank := 3
    slots := ⟨{ workSlot .body with line := 100 }, { readySlot with line := 101, rank := 2 },
      { openSlot with line := 102, rank := 3 }, Slot.reset⟩ }
  rcp := { armed.rcp with pending := some ⟨copyB, 0⟩ } }

/-- 11 11.6, step 2: the trigger is the swap point; line 103 opens in slot 3 under B; T becomes 40,052. -/
theorem test_swap_at_trigger : (fun t : State => (t.rcp.active.p, t.rcp.retiring.map Recipe.p, t.trig.t,
      t.list.records.map Record.body, t.asm.slots.toList.map fun x => (x.line, x.copy)))
      (after (exec (.encoderTransition true false) before116)) =
    (20, some 16, 40052, [.event .recipeSwap 256],
      [(100, .retiring), (101, .retiring), (102, .retiring), (103, .active)]) := by decide +kernel

/-- 11 11.6, step 7 in small: the last reference gone, the retiring copy is discarded with the published line. -/
theorem test_publish_discards : (fun t : State => (t.rcp.retiring, t.asm.slots.q0.state, t.eng.lastLine))
      (after (exec .linePublish { withSlot0 { workSlot .gap with copy := .retiring } with
        rcp := { armed.rcp with retiring := some defaultRecipe } })) = (none, .free, some (5, 0)) := by decide +kernel

/-- R78: with two closes left of the line in work, one piece appends the first one's record alone; the second close is
still to come when the next command is taken. -/
theorem test_work_goes_on : (fun t : State => (t.list.records.map Record.w, t.eng.progress, t.asm.slots.q0.state))
      (idle (((with76 [some (cand76 5000 5032 3 140 146 143 144 10 2115 true true),
        some (cand76 5032 5032 1 160 160 160 160 1 430 false true)]).withSlot 0 (workSlot .gap)).atProgress
          (.closes [] [0, 1]))) = ([5000], .closes [] [1], .inWork) := by decide +kernel

/-- R61: a READY slot that is the oldest is taken. -/
theorem test_engine_takes : (after (exec .engineTakeLine (withSlot0 readySlot))).asm.slots.q0.state = .inWork := by
  decide +kernel

/-- R171: the stop completes with DISARMED and the argument of the port that stopped the run. -/
theorem test_stop_completes : (fun t : State => (t.rcp.run, t.trk.mode, t.list.records.map Record.body))
      (after (exec .stopComplete stopping)) = (.idle, .off, [.event .disarmed 1]) := by decide +kernel

/-- R162: expiry frees the right. -/
theorem test_edit_expires : (fun t : State => (t.rcp.holder, t.rcp.staging, t.list.records.map Record.body))
      (after (exec .editExpiry editing)) = (none, none, [.event .editExpired 0]) := by decide

/-- R176: a frame with an unknown code is answered UNKNOWN (10), its code and tag echoed. -/
theorem test_unknown_code :
    (after (exec (.stationFrame 0 (sentBytes [0x7F, 0x09, 0, 0])) State.reset)).ports.t0.response =
    some [0x7F, 0x09, 0x0A, 0, 0] := by decide +kernel

/-- R173: an aborted frame is counted. -/
theorem test_station_abort : (after (exec (.stationFrameAbort 1 [0xB2, 0x01]) State.reset)).ports.t1.aborted = 1 := by
  decide

/-- R174: the 50 ms limit runs out on an open frame with a byte stored. -/
theorem test_frame_timeout : (after (exec (.frameTimeout 2 [0xB2, 0x01]) State.reset)).ports.t2.inactivity = 1 := by
  decide

/-- R175, R163: the held command is taken when the response has been sent; it then has a response of its own. -/
theorem test_response_sent : (fun x : Port => (x.response, x.held))
      (after (exec (.responseSent 0) { State.reset with ports := State.reset.ports.set 0 { Port.reset with
        response := some [0x10, 0, 0, 0, 0], held := some [0x11, 7, 0, 0] } })).ports.t0 =
    (some [0x11, 7, 6, 0, 0], none) := by decide +kernel

/-- R170: no lane is enabled in the default copy, so ARM answers NOT_READY (7). -/
theorem test_arm_not_ready :
    (after (exec (.arm 1 0x21) State.reset)).ports.t1.response = some [0x10, 0x21, 7, 0, 0] := by
  decide

/-- R145, R178: FETCH on the empty list: nothing skipped, cursor 1, nothing unread, no record. -/
theorem test_fetch_empty : (after (exec (.fetch 0 5 16) State.reset)).ports.t0.response =
    some [0x30, 5, 0, 0, 9, 0, 0, 0, 0, 0, 1, 0, 0, 0] := by decide

/-- 09 9.7, step 6: SEEK to a number that is neither retained nor the next is refused with RANGE (8). -/
theorem test_seek_dropped : (after (exec (.seek 1 3 0 1002) { State.reset with
    list := ⟨[⟨1004, 9, .event .armed 0⟩], 1005⟩ })).ports.t1.response = some [0x31, 3, 8, 0, 0] := by decide

/-- R157: a forced mark 100 counts ahead under the default width 64, entered. -/
theorem test_force_mark : (after (exec (.forceMark 2 1 0 100) State.reset)).ports.t2.response =
    some [0x51, 1, 0, 0, 11, 0, 0, 0, 0, 0, 100, 0, 0, 0, 0, 164] := by decide

/-- R163: STAGE_WRITE from a port without the edit right answers NOT_HOLDER (2). -/
theorem test_stage_write_not_holder : (after (exec (.stageWrite 1 4 5 0 []) editing)).ports.t1.response =
    some [0x22, 4, 2, 0, 0] := by decide

/-- R165: the default copy with a pitch of 0 fails PITCH (11) alone, with no entry. -/
theorem test_commit_pitch : (after (exec (.commit 0 6) { editing with
    rcp := { editing.rcp with staging := some { defaultRecipe with p := 0 } } })).ports.t0.response =
      some [0x25, 6, 3, 0, 2, 11, 0xFF] := by decide +kernel

/-- R47: RESYNC_HEAD of head 4 is refused with RANGE (8). -/
theorem test_resync_range :
    (after (exec (.resyncHead 0 9 4) State.reset)).ports.t0.response = some [0x50, 9, 8, 0, 0] := by
  decide

/-! ### Witnesses: states and operands that meet an obligation's hypotheses together -/

theorem witness_StepRunsFront :
    (queued .linePublish State.reset).pending = .linePublish :: [] ∧ State.reset.pending = [] ∧
      ∀ i, (State.reset.asm.slots.get i).state ≠ .inWork := by decide

/-- Backward at the last free place of L, within an episode and at the start of one; forward with one count of backlog
and at the position limit. -/
theorem witness_CountsThatHoldW : ∃ u v x y z : State,
    (backwardInputs u.pos.refA u.pos.refB false true ∧ u.pos.l < 65535 ∧ u.pos.l = 65534) ∧
    (backwardInputs v.pos.refA v.pos.refB false true ∧ v.pos.l = 65535 ∧ v.pos.overrun = true) ∧
    (backwardInputs x.pos.refA x.pos.refB false true ∧ x.pos.l = 65535 ∧ x.pos.overrun = false) ∧
    (forwardInputs y.pos.refA y.pos.refB true false ∧ 0 < y.pos.l ∧ y.pos.l = 1) ∧
    forwardInputs z.pos.refA z.pos.refB true false ∧ z.pos.l = 0 ∧ z.pos.w = 4294967295 :=
  ⟨{ armed with pos := { armed.pos with l := 65534 } },
    { armed with pos := { armed.pos with l := 65535, overrun := true } },
    { armed with pos := { armed.pos with l := 65535 } }, { armed with pos := { armed.pos with l := 1 } },
    { armed with pos := { armed.pos with w := 4294967295 } }, by decide⟩

theorem witness_ForwardCountMovesW : ∃ s : State, forwardInputs s.pos.refA s.pos.refB true false ∧ s.pos.l = 0 ∧
    s.pos.w < 4294967295 ∧ s.pos.w = 4294967294 :=
  ⟨{ armed with pos := { armed.pos with w := 4294967294 } }, by decide⟩

/-- A forward count that moves W is due. -/
abbrev movesW (s : State) : Prop :=
  forwardInputs s.pos.refA s.pos.refB true false ∧ s.pos.l = 0 ∧ s.pos.w < 4294967295

/-- TRACK one count before the end of patch 3, with the start of patch 4 queued and a copy of the given pitch
pending. -/
def ending (pitch : Nat) : State := { tracking with
  pos := { tracking.pos with w := 20000 }
  trig := { tracking.trig with t := 20040, lastTrigger := 19990 }
  trk := { tracking.trk with patch := some ⟨3, 16001, 20001, 0, .plain⟩ }
  asm := { tracking.asm with slots := ⟨workSlot .body, Slot.reset, Slot.reset, Slot.reset⟩ }
  rcp := { tracking.rcp with pending := some ⟨{ defaultRecipe with patch := patch28, p := pitch }, 2⟩ } }

/-- In IDLE and in ARMED, each at and below the limit; and at a coat-to-gap swap whose new T lies just ahead
and at W. -/
theorem witness_ForwardCountNoTrigger : ∃ u v x : State,
    (movesW u ∧ u.rcp.run = .idle ∧ u.trk.mode = .off ∧ u.pos.w + 1 = 4294967294) ∧
    (movesW v ∧ v.rcp.run = .idle ∧ v.trk.mode = .off ∧ v.pos.w + 1 = 4294967295) ∧
    (movesW x ∧ x.rcp.run = .armed ∧ x.pos.w + 1 = 4294967295 ∧ x.trackerRests 4294967295 ∧ 4294967295 < x.trig.t) ∧
    ∀ n ∈ [12, 11], ∃ s p c rcp slots list trk, s = ending n ∧ movesW s ∧ s.rcp.run = .armed ∧
      s.pos.w + 1 < 4294967295 ∧ s.pos.w + 1 < s.trig.t ∧ s.trk.mode = .track ∧ s.trk.frozen = false ∧
      s.trk.patch = some p ∧ p.endW = s.pos.w + 1 ∧ s.rcp.pending = some c ∧ s.rcp.retiring = none ∧
      s.swapsTo (s.pos.w + 1) c rcp slots list trk ∧ (∀ e ∈ trk.queue, s.pos.w + 1 < e.pos) ∧
      (trk.mode = .track → s.pos.w + 1 ≤ trk.pred + c.copy.patch.wm) ∧
      (n = 12 → s.pos.w + 1 < s.trig.lastTrigger + c.copy.p) ∧
      (n = 11 → s.trig.lastTrigger + c.copy.p ≤ s.pos.w + 1 ∧ 1 ≤ c.copy.p) :=
  ⟨{ State.reset with pos := { State.reset.pos with w := 4294967293 } },
    { State.reset with pos := { State.reset.pos with w := 4294967294 } },
    { armed with pos := { armed.pos with w := 4294967294 }, trig := { armed.trig with t := 4294967296 } },
    by decide, by decide, ⟨by decide, rfl, rfl, ⟨by decide, fun h => absurd h (by decide)⟩, by decide⟩, by
    intro n h
    simp only [List.mem_cons, List.not_mem_nil, or_false] at h
    obtain rfl | rfl := h <;>
      exact ⟨_, _, _, _, ⟨{ workSlot .body with copy := .retiring }, Slot.reset, Slot.reset, Slot.reset⟩, _, _, rfl,
        by decide, rfl, by decide, by decide, rfl, rfl, rfl, rfl, rfl, rfl, ⟨rfl, by decide +kernel, rfl, rfl⟩,
        by decide⟩⟩

theorem witness_WNeverFalls : ∃ s t u : State, exec (.resetPosition 0 1) s = .next t ∧ s.positionOk ∧
    s.rcp.run = .idle ∧ 0 < s.pos.w ∧ exec (.encoderTransition true false) s = .next u :=
  ⟨{ State.reset with pos := { State.reset.pos with w := 4294967294 } }, _, _, rfl, ⟨by decide, by decide⟩, by decide,
    by decide, rfl⟩

/-- A trigger is due at the next forward count, with nothing for the tracker to do. -/
def triggerDue (s : State) : Prop :=
  movesW s ∧ s.pos.w + 1 < 4294967295 ∧ s.rcp.run = .armed ∧ s.trk.mode ≠ .off ∧ s.trackerRests (s.pos.w + 1) ∧
    s.trig.t = s.pos.w + 1

/-- Without a swap: in continuous mode, with no patch, inside and behind one, and in TRACK behind one with a start
queued, at the highest position a trigger can fall on. With a swap in continuous mode: a stale OPEN slot, the lowest
FREE slot the last. -/
theorem witness_TriggerOpensLine : (∃ f : TrackerMode → Option Patch → List StartEntry → State,
    ∀ m q l, (m, q, l) ∈ [(TrackerMode.continuous, (none : Option Patch), ([] : List StartEntry)), (.seek, none, []),
        (.seek, some ⟨1, 4294967292, 4294967294, 0, .acq⟩, []), (.lost, some ⟨1, 4294967292, 4294967293, 0, .acq⟩, []),
        (.track, some ⟨1, 100, 200, 0, .acq⟩, [⟨4294967294, 0, .plain⟩])] → ∃ s, s = f m q l ∧ triggerDue s ∧
      s.trk.mode = m ∧ s.trk.patch = q ∧ s.trk.queue = l ∧
      s.atTrigger (s.pos.w + 1) s.rcp s.asm.slots s.list s.trk ∧ 1 ≤ s.rcp.active.p ∧
      (s.asm.slots.get 0).state = .free ∧ (∀ j, j < 0 → (s.asm.slots.get j).state ≠ .free) ∧
      ∀ p, q = some p → p.s ≤ s.pos.w + 1) ∧
    ∃ s rcp slots list trk, triggerDue s ∧ s.rcp.pending ≠ none ∧
      s.atTrigger (s.pos.w + 1) rcp slots list trk ∧ 1 ≤ rcp.active.p ∧ (s.asm.slots.get 3).state = .free ∧
      (∀ j, j < 3 → (s.asm.slots.get j).state ≠ .free) ∧ (s.asm.slots.get 2).state = .opened ∧
      3 ≤ (s.trig.n - (s.asm.slots.get 2).line).toNat :=
  ⟨⟨fun m q l => { armed with
      pos := { armed.pos with w := 4294967292 }
      trig := { armed.trig with t := 4294967293 }
      trk := { armed.trk with mode := m, patch := q, queue := l, pred := 4294967293 } }, by
    intro m q l h
    simp only [List.mem_cons, Prod.mk.injEq, List.not_mem_nil, or_false] at h
    obtain ⟨rfl, rfl, rfl⟩ | ⟨rfl, rfl, rfl⟩ | ⟨rfl, rfl, rfl⟩ | ⟨rfl, rfl, rfl⟩ | ⟨rfl, rfl, rfl⟩ := h <;>
      exact ⟨_, rfl, ⟨by decide, by decide, rfl, by decide,
        ⟨by decide, by first
          | exact fun h => absurd h (by decide)
          | exact fun _ => ⟨by decide, fun q h => by cases h; decide⟩⟩, rfl⟩, rfl, rfl, rfl,
        .inl ⟨.inl rfl, rfl, rfl, rfl, rfl⟩, by decide, rfl, by decide, by simp⟩⟩,
    { before116 with trig := { before116.trig with n := 105 } }, _,
    ⟨{ workSlot .body with line := 100, copy := .retiring },
      { readySlot with line := 101, rank := 2, copy := .retiring },
      { openSlot with line := 102, rank := 3, copy := .retiring }, Slot.reset⟩, _, _,
    ⟨by decide, by decide, rfl, by decide, ⟨by decide, fun h => absurd h (by decide)⟩, rfl⟩, by decide,
    .inr ⟨_, rfl, rfl, by decide, rfl, by decide +kernel, rfl, rfl⟩, by decide, rfl, by decide, rfl, by decide⟩

/-- All slots occupied, three lines OPEN for three lines and more: without a swap, and with one in continuous mode. -/
theorem witness_TriggerSkipsLine : ∃ s u : State, (∀ i, (s.asm.slots.get i).state ≠ .free) ∧
    (∀ i, (u.asm.slots.get i).state ≠ .free) ∧ triggerDue s ∧
    s.atTrigger (s.pos.w + 1) s.rcp s.asm.slots s.list s.trk ∧ 1 ≤ s.rcp.active.p ∧
    (s.asm.slots.get 0).state = .opened ∧ (s.trig.n - (s.asm.slots.get 0).line).toNat = 3 ∧ triggerDue u ∧
    ∃ rcp slots list trk, u.rcp.pending ≠ none ∧ u.atTrigger (u.pos.w + 1) rcp slots list trk ∧ 1 ≤ rcp.active.p :=
  ⟨{ armed with asm := { armed.asm with slots := Quad.fill openSlot }, trig := { armed.trig with n := 8 } },
    { armed with
      asm := { armed.asm with slots := Quad.fill openSlot }
      rcp := { armed.rcp with pending := some ⟨copyB, 0⟩ } }, by decide, by decide,
    ⟨by decide, by decide, rfl, by decide, ⟨by decide, fun h => absurd h (by decide)⟩, rfl⟩,
    .inl ⟨.inl rfl, rfl, rfl, rfl, rfl⟩, by decide, rfl, by decide,
    ⟨by decide, by decide, rfl, by decide, ⟨by decide, fun h => absurd h (by decide)⟩, rfl⟩, _,
    Quad.fill { openSlot with copy := .retiring }, _, _, by decide,
    .inr ⟨_, rfl, rfl, by decide, rfl, by decide +kernel, rfl, rfl⟩, by decide⟩

/-- Another polarity, OFF and backlog; and in SEEK or LOST with room, with four starts queued, with M = 0, and with a
start at the edge's own place. -/
theorem witness_MarkEdgeOutsideTrack : (∃ s : State, s.rcp.active.patch.polarity ≤ 1 ∧
      (EdgeSense.falling = .falling ∧ s.rcp.active.patch.polarity = 0) ∧ State.reset.trk.mode = .off ∧
      State.reset.rcp.active.patch.polarity ≤ 1 ∧ s.trk.mode ≠ .off ∧ s.trk.mode ≠ .continuous ∧
      s.trk.frozen = false ∧ 0 < s.pos.l) ∧
    ∃ u v x y : State,
    (∀ s ∈ [u, v, x, y], s.rcp.active.patch.polarity = 0 ∧ (s.trk.mode = .seek ∨ s.trk.mode = .lost) ∧
      s.trk.frozen = false ∧ s.pos.l = 0) ∧
    v.trk.queue.length = 4 ∧
    (∀ s ∈ [u, x, y], s.trk.queue.length < 4 ∧ s.trk.queue.Pairwise (fun e f => e.pos < f.pos) ∧
      ∀ e ∈ s.trk.queue, s.pos.w < e.pos) ∧
    (∀ e ∈ u.trk.queue, e.pos ≠ u.pos.w + u.rcp.active.patch.m) ∧ u.trk.queue.length = 3 ∧
    0 < u.rcp.active.patch.m ∧ x.rcp.active.patch.m = 0 ∧
    ∃ e ∈ y.trk.queue, e.pos = y.pos.w + y.rcp.active.patch.m :=
  ⟨⟨{ seeking with pos := { seeking.pos with l := 1 } }, by decide⟩,
    { seeking with trk := { seeking.trk with queue := [⟨10301, 0, .acq⟩, ⟨10302, 0, .acq⟩, ⟨22301, 0, .acq⟩] } },
    { seeking with trk := { seeking.trk with
      mode := .lost, queue := [⟨10301, 0, .acq⟩, ⟨10302, 0, .acq⟩, ⟨22301, 0, .acq⟩, ⟨22302, 0, .acq⟩] } },
    { seeking with rcp := { seeking.rcp with active := { defaultRecipe with patch := { patch28 with m := 0 } } } },
    { seeking with trk := { seeking.trk with mode := .lost, queue := [⟨22300, 0, .flywheel⟩] } }, by decide⟩

/-- Below the window, and at the previous edge; at the lowest position of the window with room, with a start at the
edge's own place, with four starts queued, and with M = 0. -/
theorem witness_MarkEdgeInTrack : ∃ u v : State, ∃ x : Nat → List StartEntry → State,
    (∀ s ∈ [u, v], s.rcp.active.patch.polarity = 0 ∧ s.trk.mode = .track ∧ s.trk.frozen = false ∧ s.pos.l = 0) ∧
    u.pos.w + u.rcp.active.patch.wm < u.trk.pred ∧ v.pos.w ≤ v.trk.prev ∧
    ∀ m q, (m, q) ∈ [(12000, [⟨22300, 0, .acq⟩, ⟨27340, 40, .plain⟩, ⟨32239, 0, .plain⟩]),
        (12000, [⟨32240, 0, .flywheel⟩]), (0, []),
        (12000, [⟨22300, 0, .acq⟩, ⟨27340, 40, .plain⟩, ⟨32239, 0, .plain⟩, ⟨32241, 0, .plain⟩])] →
      ∃ s, s = x m q ∧ s.rcp.active.patch.polarity = 0 ∧ s.trk.mode = .track ∧ s.trk.frozen = false ∧ s.pos.l = 0 ∧
      s.trk.pred ≤ s.pos.w + s.rcp.active.patch.wm ∧ s.trk.prev < s.pos.w ∧ s.trk.queue = q ∧
      s.pos.w + s.rcp.active.patch.m = 20240 + m ∧ q.Pairwise (fun e f => e.pos < f.pos) ∧ ∀ e ∈ q, s.pos.w < e.pos :=
  ⟨{ tracking with pos := { tracking.pos with w := 20239 } },
    { tracking with pos := { tracking.pos with w := 20240 }, trk := { tracking.trk with prev := 20240 } },
    fun m q => { tracking with
      pos := { tracking.pos with w := 20240 }
      trk := { tracking.trk with queue := q }
      rcp := { tracking.rcp with active := { defaultRecipe with patch := { patch28 with m := m } } } },
    by decide, by decide, by decide, by
    intro m q h
    simp only [List.mem_cons, Prod.mk.injEq, List.not_mem_nil, or_false] at h
    obtain ⟨rfl, rfl⟩ | ⟨rfl, rfl⟩ | ⟨rfl, rfl⟩ | ⟨rfl, rfl⟩ := h <;> exact ⟨_, rfl, by decide⟩⟩

/-- The miss with room, at the miss that loses registration, with a start that pops at once, with one at its place, and
with four starts queued; and a first start that W reaches while the patch before is coated. -/
theorem witness_TrackerOnForwardCount : ∃ f : Nat → Nat → List StartEntry → State, ∃ y : State,
    (∀ n m q, (n, m, q) ∈ [(0, 12000, tracking.trk.queue), (1, 12000, tracking.trk.queue), (0, 101, tracking.trk.queue),
        (0, 12000, [⟨32340, 40, .plain⟩]),
        (0, 12000, [⟨22300, 0, .acq⟩, ⟨27340, 40, .plain⟩, ⟨32339, 0, .plain⟩, ⟨32341, 0, .plain⟩])] →
      ∃ s, s = f n m q ∧ movesW s ∧ s.pos.w + 1 < 4294967295 ∧ s.trk.frozen = false ∧ s.pos.w + 1 < s.trig.t ∧
      s.trk.mode = .track ∧ s.trk.patch = none ∧ s.trk.pred + s.rcp.active.patch.wm = s.pos.w ∧
      0 < s.rcp.active.patch.c + s.rcp.active.patch.g ∧ (∀ e ∈ s.trk.queue, s.pos.w + 1 < e.pos) ∧ s.trk.queue = q ∧
      s.trk.queue.Pairwise (fun e f => e.pos < f.pos) ∧ (s.trk.misses < s.rcp.active.patch.f ↔ n = 0) ∧
      s.trk.pred + s.rcp.active.patch.m = 20340 + m ∧ s.pos.w + 1 = 20441) ∧
    movesW y ∧ y.pos.w + 1 < 4294967295 ∧ y.trk.frozen = false ∧ y.pos.w + 1 < y.trig.t ∧ y.trk.mode = .track ∧
    y.pos.w + 1 ≤ y.trk.pred + y.rcp.active.patch.wm ∧
    (∃ q, y.trk.patch = some q ∧ q.endW ≠ y.pos.w + 1 ∧ y.pos.w + 1 < q.endW) ∧
    ∃ e rest, y.trk.queue = e :: rest ∧ e.pos = y.pos.w + 1 ∧ ∀ f ∈ rest, y.pos.w + 1 < f.pos :=
  ⟨fun n m q => { tracking with
      trk := { tracking.trk with misses := n, queue := q }
      rcp := { tracking.rcp with active := { defaultRecipe with patch := { patch28 with m := m } } } },
    { tracking with
      pos := { tracking.pos with w := 22299 }
      trig := { tracking.trig with t := 22350 }
      trk := { tracking.trk with pred := 25340, patch := some ⟨3, 18301, 22301, 0, .plain⟩ } }, by
    intro n m q h
    simp only [List.mem_cons, Prod.mk.injEq, List.not_mem_nil, or_false] at h
    obtain ⟨rfl, rfl, rfl⟩ | ⟨rfl, rfl, rfl⟩ | ⟨rfl, rfl, rfl⟩ | ⟨rfl, rfl, rfl⟩ | ⟨rfl, rfl, rfl⟩ := h <;>
      exact ⟨_, rfl, by decide⟩,
    by decide, by decide, rfl, by decide, rfl, by decide, ⟨_, rfl, by decide, by decide⟩, _, _, rfl, rfl, by decide⟩

theorem witness_CarrierMovesLink : ∃ f : LinkState → State, ∀ k, ((f k).links.get 0).state = k ∧
    (k = .locked → ((f k).asm.slots.get 0).state = .opened ∧ ((f k).asm.slots.get 1).state ≠ .opened) :=
  ⟨fun k => { withSlot0 openSlot with links := armed.links.set 0 { Link.reset with state := k } }, by
    intro k; cases k <;> decide⟩

/-- In HUNT, below the fourth frame, at the fourth with no learned id, with another learned id and with another id in
the run, and in LOCKED; with no reset requested, a full one, and one of the head's cells between others; with the head
enabled and not; at both ends of the id range; and a LINE body with just the cells the entry asks for. -/
theorem witness_GoodFrameAtLink : ∃ f : Link → List ResetRequest → Nat → State, ∃ values : List Nat,
    (∀ k rs e, ∃ s : State, s = f k rs e ∧ s.links.get 0 = k ∧ s.eng.resets = rs ∧
      (s.rcp.active.heads.get 0).enabled = e ∧ (s.rcp.active.heads.get 0).expectedId = 0 ∧
      (s.rcp.active.heads.get 0).l0 + (s.rcp.active.heads.get 0).n = values.length) ∧
    (1 ≤ values.length ∧ values.length ≤ 512 ∧ ∀ v ∈ values, v ≤ 4095) ∧
    (∀ good runId learned id, (good, runId, learned, id) ∈ [(2, 1, 0, 1), (3, 1, 0, 1), (3, 65535, 310, 65535),
        (3, 310, 0, 1)] → ∃ k : Link, k.state = .hunt ∧ k.rx = Reception.fresh ∧ k.good = good ∧ k.runId = runId ∧
      k.learned = learned ∧ 1 ≤ id ∧ id ≤ 65535) ∧
    (∃ k : Link, k.state = .locked ∧ k.rx = Reception.shut ∧ k.learned = 310) ∧
    (ResetRequest.full ∉ ([] : List ResetRequest) ∧ ∀ cells, ResetRequest.head 0 cells ∉ ([] : List ResetRequest)) ∧
    ∃ rs before after : List ResetRequest, ResetRequest.full ∉ rs ∧ (∀ x, ResetRequest.head 0 x ∉ before) ∧
      rs = before ++ .head 0 [(40, 10)] :: after ∧ before ≠ [] ∧ after ≠ [] :=
  ⟨fun k rs e => { withLink0 k with
      eng := { armed.eng with resets := rs }
      rcp := { armed.rcp with active := { defaultRecipe with
        heads := ⟨⟨e, 0, 1, 2, 0⟩, defaultHead 1, defaultHead 2, defaultHead 3⟩ } } }, [0, 4095, 7],
    fun k rs e => ⟨_, rfl, rfl, rfl, rfl, rfl, rfl⟩, by decide, fun good runId learned id h =>
    ⟨{ Link.reset with
        state := .hunt, rx := Reception.fresh, good := good, runId := runId, learned := learned }, rfl, rfl, rfl, rfl,
      rfl, by simp only [List.mem_cons, Prod.mk.injEq, List.not_mem_nil, or_false] at h; omega⟩,
    ⟨{ Link.reset with state := .locked, learned := 310 }, rfl, rfl, rfl⟩, by simp,
    [.head 1 [(0, 5)], .head 0 [(40, 10)], .head 2 [(50, 5)]], [.head 1 [(0, 5)]], [.head 2 [(50, 5)]], by decide, by
      simp, rfl, by decide, by decide⟩

/-- An aborted frame; and in HUNT, before and after the report of a mismatch, and in LOCKED, at the second and the third
bad frame in a row: a frame of each kind of fault. -/
theorem witness_BadAndAbortedFrames : ∃ u : State, ∃ f : LinkState → Nat → Bool → State,
    ((u.links.get 0).state ≠ .down ∧ (u.links.get 0).rx.isOpen = true ∧ (u.links.get 0).rx.escape = false) ∧
    ∀ k n r, (k, n, r) ∈ [(LinkState.hunt, 0, false), (.hunt, 0, true), (.locked, 1, false), (.locked, 2, false)] →
      ∃ s, s = f k n r ∧ (s.links.get 0).rx = Reception.fresh ∧ (s.links.get 0).state = k ∧ (s.links.get 0).bad = n ∧
        (s.links.get 0).mismatchReported = r ∧
        s.badHeadFrame 0 (0xB2#8 :: escapeBytes ([0x02] ++ [0, 0])) false ∧
        s.badHeadFrame 0 (0xB2#8 :: escapeBytes [0x02, 0x01]) false ∧
        s.badHeadFrame 0 (0xB2#8 :: escapeBytes (List.replicate 779 0)) false ∧
        s.badHeadFrame 0 (0xB2#8 :: (escapeBytes [0x02] ++ [0xB5, 0x81] ++ escapeBytes [])) false ∧
        s.badHeadFrame 0 (sentBytes [0x02, 0x01, 0x36, 0x00]) false ∧
        s.badHeadFrame 0 (sentBytes (lineBody 310 0 0 [4095, 0])) false ∧
        s.badHeadFrame 0 (sentBytes (idleBody 65535)) true :=
  ⟨withLink0 { Link.reset with state := .hunt, rx := ⟨true, true, [0x02], false, false⟩ },
    fun k n r => { withLink0 { Link.reset with
        state := k, rx := Reception.fresh, bad := n, learned := 310, mismatchReported := r } with
      rcp := { armed.rcp with active := { defaultRecipe with heads := Quad.fill ⟨1, 310, 0, 3, 0⟩ } } }, by decide, by
    intro k n r _
    exact ⟨_, rfl, rfl, rfl, rfl, rfl, .inl ⟨rfl, .crc _ _ _ (by decide) (by decide) (by decide +kernel)⟩,
      .inl ⟨rfl, .short _ (by decide) (by decide)⟩, .inl ⟨rfl, .long _ (by decide +kernel)⟩,
      .inl ⟨rfl, .escape _ _ _ (by decide) (by decide) (by decide)⟩,
      .inr (.inl ⟨rfl, _, by decide, by decide, .inr (.inr (.inl (by decide))), rfl⟩),
      .inr (.inr (.inr ⟨rfl, 310, 0, 0, [4095, 0], by decide, by decide, by decide, by decide, by decide, by
        rintro (⟨-, h⟩ | ⟨-, h⟩) <;> exact h rfl, rfl, (by decide : 2 < 3), rfl⟩)),
      .inr (.inr (.inl ⟨rfl, 65535, _, ⟨by decide, by decide, .inl rfl⟩, .inl ⟨(by decide : 310 ≠ 0),
        (by decide : 310 ≠ 65535)⟩, rfl⟩))⟩⟩

theorem witness_LinksIndependent : ∃ t : State,
    (Instr.headFrame 0 [0xB2, 0x02]) ∈ [.carrierGained 0, .carrierLost 0 [0xB2, 0x02], .headFrame 0 [0xB2, 0x02],
      .headFrameAbort 0 [0xB2, 0x02]] ∧
    exec (.headFrame 0 [0xB2, 0x02]) armed = .next t ∧ (3 : HeadNo) ≠ 0 := ⟨_, by decide, rfl, by decide⟩

/-- A link that is LOCKED on head 310, with an empty frame open. -/
def lockedLink : Link := { Link.reset with state := .locked, rx := Reception.fresh, learned := 310 }

/-- A LINE frame of two cells for line 5: late without a slot, late at a slot that does not expect it, a duplicate,
absent by ILLUM_FAULT, one cell short of the retiring copy's entry, and delivered by both copies' entries. -/
theorem witness_LineFrameDelivered : ∃ u : State, ∃ f : Slot → Nat → State, ∃ values : List Nat,
    values.length = 2 ∧ (∀ n ∈ values, n ≤ 4095) ∧ (0xFE : Byte).getLsbD 0 = false ∧ (0x01 : Byte).getLsbD 0 = true ∧
    (∀ i, (u.asm.slots.get i).state = .opened → (u.asm.slots.get i).line ≠ 5) ∧
    (∀ x n, ∃ s, s = f x n ∧ (s.links.get 0).state = .locked ∧ (s.links.get 0).learned = 310 ∧
      (s.links.get 0).rx = Reception.fresh ∧ (s.rcp.active.heads.get 0).expectedId = 0 ∧
      (s.rcp.active.heads.get 0).l0 + (s.rcp.active.heads.get 0).n ≤ values.length ∧ s.asm.slots.get 0 = x ∧
      (∀ j, (s.asm.slots.get j).state = .opened → j = 0) ∧
      (x.copy = .active → s.rcp.active.heads.get 0 = ⟨1, 0, 0, 2, 2046⟩) ∧
      ∃ r, s.rcp.retiring = some r ∧ r.heads.get 0 = ⟨1, 0, 0, n, 2045⟩) ∧
    (∃ x : Slot, x.state = .opened ∧ x.line = 5 ∧ x.expected.get 0 = false) ∧
    (∃ x : Slot, x.state = .opened ∧ x.line = 5 ∧ x.expected.get 0 = true ∧ x.absent.get 0 = true) ∧
    ∀ c ∈ [CopyRef.active, .retiring], ∃ x : Slot, x.state = .opened ∧ x.line = 5 ∧ x.copy = c ∧
      x.expected.get 0 = true ∧ x.received.get 0 = false ∧ x.absent.get 0 = false ∧ x.cells.length = 2048 :=
  ⟨withLink0 lockedLink, fun x n => { withSlot0 x with
      links := armed.links.set 0 lockedLink
      rcp := { armed.rcp with
        active := { defaultRecipe with heads := Quad.fill ⟨1, 0, 0, 2, 2046⟩ }
        retiring := some { defaultRecipe with heads := Quad.fill ⟨1, 0, 0, n, 2045⟩ } } },
    [0, 4095], rfl, by decide, by decide, by decide, by decide,
    fun x n => ⟨_, rfl, rfl, rfl, rfl, rfl, (by decide : 2 ≤ 2), rfl, fun j h => (by
      rcases j with ⟨_ | _ | _ | _ | j, hj⟩
      · rfl
      · cases h
      · cases h
      · cases h
      · omega), fun _ => rfl, _, rfl, rfl⟩,
    ⟨{ openSlot with expected := Quad.fill false }, rfl, rfl, rfl⟩,
    ⟨{ openSlot with absent := ⟨true, false, false, false⟩ }, rfl, rfl, rfl, rfl⟩, fun c _ =>
    ⟨{ openSlot with copy := c }, rfl, rfl, rfl, rfl, rfl, rfl,
      (by decide +kernel : openSlot.cells.length = 2048)⟩⟩

/-- The shortest frame within its limit; and the longest LINE frame, at the last id. -/
theorem witness_FramesReadBack : (1 ≤ [(0xB2 : Byte)].length ∧ [(0xB2 : Byte)].length + 2 ≤ 3) ∧
    (1 ≤ 65535 ∧ 65535 ≤ 65535) ∧ ∃ values : List Nat, 1 ≤ values.length ∧ values.length ≤ 512 ∧
      values.length = 512 ∧ ∀ v ∈ values, v ≤ 4095 :=
  ⟨by decide, by decide, List.replicate 512 4095, by decide +kernel⟩

/-- The widest W distance a PATCH record holds. -/
theorem witness_RecordLayout : ∃ b : PatchBody, ∃ r : Record, r.body = .patch b ∧ b.lastW - r.w = 16777215 ∧
    b.lastW - r.w < 256 ^ 3 ∧ r.w < 256 ^ 4 :=
  ⟨⟨1, 16777215, 0, 0, 0, 0, 0, 0, .acq, false, false⟩, ⟨4294967295, 0, .patch _⟩, rfl, by decide, by decide, by decide⟩

/-- No reset pending; the full reset of an ARM; the reset of cells 0 to 9 of head 0, with the geometry kept and with
other lanes, a streak and a candidate inside and outside; a slot in work; an OPEN slot that is the oldest. -/
theorem witness_EngineTakesLine : ∃ u v x y : State, ∃ f : Recipe → State, ∃ r : Recipe,
    (∀ s ∈ [u, v, f defaultRecipe, f copyB], (s.asm.slots.get 0).state = .ready ∧
      (∀ j, (s.asm.slots.get j).state ≠ .inWork) ∧
      (∀ j, j ≠ 0 → (s.asm.slots.get j).state ≠ .free → (s.asm.slots.get 0).rank < (s.asm.slots.get j).rank) ∧
      (s.asm.slots.get 0).copy = .active ∧ r = s.rcp.active) ∧
    (∀ k, u.eng.kept = some k → k.heads = r.heads ∧ k.lanes = r.lanes) ∧ u.eng.resets = [] ∧
    v.eng.kept = none ∧ v.eng.resets = [.full] ∧ (∀ o ∈ v.eng.work.streaks, o = none) ∧
    (∀ o ∈ v.eng.work.cands, o = none) ∧
    (∀ c, ∃ s : State, ∃ k, s = f c ∧ s.eng.kept = some k ∧ k.lanes = c.lanes ∧ s.eng.resets = [.head 0 [(0, 10)]] ∧
      s.eng.work.cells.map CellRec.member = some 0 :: List.replicate 9 none ++ [some 0, some 1] ∧
      (∃ st su, s.eng.work.streaks = [some st, some su]) ∧
      s.eng.work.cands.map (Option.map fun g => (g.hullL, g.hullR)) = [some (9, 11), some (10, 11)]) ∧
    copyB.lanes ≠ r.lanes ∧ (∃ i, (x.asm.slots.get i).state = .inWork) ∧
    ∃ i, (y.asm.slots.get i).state = .opened ∧
      ∀ j, j ≠ i → (y.asm.slots.get j).state ≠ .free → (y.asm.slots.get i).rank < (y.asm.slots.get j).rank :=
  ⟨{ withSlot0 readySlot with eng := { armed.eng with kept := some (keptOf defaultRecipe) } },
    { withSlot0 readySlot with eng := { armed.eng with resets := [.full] } },
    withSlot0 (workSlot .body), withSlot0 openSlot, fun c => { withSlot0 readySlot with
      eng := { armed.eng with
        kept := some (keptOf c)
        resets := [.head 0 [(0, 10)]]
        work := { armed.eng.work with
          cells := { CellRec.blank with member := some 0 } :: List.replicate 9 CellRec.blank ++
            [{ CellRec.blank with member := some 0 }, { CellRec.blank with member := some 1 }]
          streaks := [some (streak87 1 0 10 5 6 9 0 10), some (streak87 2 11 11 5 6 9 11 11)]
          cands := [some (cand76 5 5 1 9 11 9 11 3 410 false false),
            some (cand76 5 5 1 10 11 10 11 2 410 false false)] } } },
    defaultRecipe, by decide +kernel,
    by intro k h; obtain rfl := Option.some.inj h; exact ⟨rfl, rfl⟩, rfl, rfl, rfl, by decide +kernel,
    by decide +kernel, fun c => ⟨_, _, rfl, rfl, rfl, rfl, rfl, ⟨_, _, rfl⟩, rfl⟩, by decide, ⟨0, rfl⟩, 0, rfl,
      by decide⟩

/-- At the beginning of the line's work, between two of its records, and at its end. -/
theorem witness_EngineAdvances : ∃ f : LineProgress → State, ∀ φ, (f φ).pending = [] ∧ (f φ).eng.progress = φ ∧
    ((f φ).asm.slots.get 0).state = .inWork ∧ ∀ j, j ≠ 0 → ((f φ).asm.slots.get j).state ≠ .inWork :=
  ⟨fun φ => (withSlot0 (workSlot .body)).atProgress φ, fun _ => ⟨rfl, rfl, rfl, withSlot0_alone _⟩⟩

theorem witness_PublishUncoated : ∃ s : State, ∃ q : Tally, (s.asm.slots.get 0).state = .inWork ∧
    (∀ j, j ≠ 0 → (s.asm.slots.get j).state ≠ .inWork) ∧ s.eng.progress = .begun ∧ (s.asm.slots.get 0).zone = .gap ∧
    (∀ o ∈ s.eng.work.cands, o = none) ∧ s.eng.contribs = [] ∧ s.eng.work.tally = some q :=
  ⟨{ withSlot0 (workSlot .gap) with eng := { armed.eng with
      work := { armed.eng.work with tally := some ⟨1, 100, 200, 100, 0, .acq, 7, 0, 0, 0, 0, false, false⟩ } } },
    _, rfl, by decide, rfl, rfl, by decide +kernel, rfl, rfl⟩

/-- A copy with lane 0 on cells 0 to 9, guard 1, fed by head 0. -/
def laned : Recipe := { defaultRecipe with
  heads := ⟨⟨1, 0, 0, 10, 0⟩, defaultHead 1, defaultHead 2, defaultHead 3⟩
  lanes := ⟨1, 0, 9, 1, 0, 0⟩ :: List.replicate 15 defaultLane }

/-- Cell 9, the last of lane 0, and cell 10, outside every enabled lane. Cell 9 delivered: with a record not yet seeded,
in warm-up, and judged, one under TP, at TP and at 4095; and undelivered. -/
theorem witness_PublishedCells : ∃ f : CellRec → Nat → Quad Bool → State, ∃ ln : Nat → Quad Bool → Line,
    (∀ old x received, ∃ s : State, s = f old x received ∧ s.lineInWork 0 (ln x received) ∧
      (ln x received).slot.zone.coated = true ∧ (ln x received).copy = laned ∧
      10 < s.eng.work.cells.length ∧ 10 < (ln x received).slot.cells.length ∧
      s.eng.work.cells.getD 9 CellRec.blank = old ∧ (ln x received).slot.cells.getD 9 0 = x ∧
      (s.eng.work.cells.getD 10 CellRec.blank).b16 ≤ 65520 ∧ (ln x received).slot.cells.getD 10 0 ≤ 4095 ∧
      (ln x received).slot.received = received) ∧
    (∀ y ∈ [(CellRec.blank, 4095, (⟨true, true, false, false⟩ : Quad Bool)),
        (⟨true, 65520, -4095, 1, none⟩, 0, ⟨true, true, false, false⟩),
        (⟨true, 0, 4095, 0, none⟩, 399, ⟨true, true, false, false⟩),
        (⟨true, 0, -1, 0, some 3⟩, 400, ⟨true, true, false, false⟩),
        (⟨true, 65520, 0, 0, none⟩, 4095, ⟨true, true, false, false⟩), (CellRec.blank, 0, Quad.fill false)],
      y.1.b16 ≤ 65520 ∧ y.2.1 ≤ 4095) ∧
    laned.shapeOk ∧ (laned.profile 1).tp = 400 ∧
    ((laned.lane 0).enabled = 1 ∧ (laned.lane 0).first ≤ 9 ∧ 9 ≤ (laned.lane 0).last) ∧
    ∀ l, l < 16 → (laned.lane l).enabled = 1 → 10 < (laned.lane l).first ∨ (laned.lane l).last < 10 :=
  ⟨fun old x received => { withSlot0 { workSlot .body with
        received := received, cells := List.replicate 9 0 ++ [x, 4095] } with
      rcp := { armed.rcp with active := laned }
      eng := { armed.eng with work := { armed.eng.work with
        cells := List.replicate 9 CellRec.blank ++ [old, CellRec.blank] } } },
    fun x received =>
      ⟨{ workSlot .body with received := received, cells := List.replicate 9 0 ++ [x, 4095] }, laned⟩,
    fun old x received => ⟨_, rfl, ⟨rfl, withSlot0_alone _, rfl, rfl, .inl ⟨rfl, rfl⟩⟩, rfl, rfl,
      (by decide : 10 < 11), (by decide : 10 < 11), rfl, rfl, (by decide : 0 ≤ 65520), (by decide : 4095 ≤ 4095), rfl⟩,
    by decide, ⟨rfl, rfl⟩, rfl, by decide, by decide⟩

/-- With and without a tally of the candidate's patch; without a mark target, with one whose place lies ahead, and with
one whose place W has just reached. -/
theorem witness_PublishClosesCandidate : ∃ f : Option Marker → Nat → Option Tally → State, ∃ ln : Line, ∃ q : Tally,
    ∀ m w y, (m, w, y) ∈ [((none : Option Marker), 99, (none : Option Tally)), (some Marker.mk1, 20099, some q),
        (some .mk1, 20100, some q)] → ∃ s k, s = f m w y ∧
      s.lineInWork 0 ln ∧ ln.slot.zone = .unknown ∧ s.eng.contribs = [] ∧ s.eng.work.cands[23]? = some (some k) ∧
      (∀ j, j ≠ 23 → s.eng.work.cands.getD j none = none) ∧ s.eng.work.tally = y ∧ k.patch = q.num ∧
      s.mark.queue.length < 32 ∧ k.target = m ∧ (∀ e ∈ s.mark.queue, e.marker ≠ .mk1 ∧ s.pos.w < e.stop) ∧
      s.mark.queue.length = 1 ∧ s.pos.w = w ∧ k.firstW + ln.copy.mk1.offset = 20100 ∧ 1 ≤ ln.copy.mk1.width ∧
      s.mark.queue.Pairwise MarkEntry.before :=
  ⟨fun m w y => { withSlot0 (workSlot .unknown) with
      pos := { armed.pos with w := w }
      mark := { armed.mark with queue := [⟨.mk0, 90, 20101, 1⟩], nextRank := 2 }
      rcp := { armed.rcp with active := { defaultRecipe with mk1 := ⟨20000, 64, 10⟩ } }
      eng := { armed.eng with work := { armed.eng.work with
        tally := y
        cands := List.replicate 23 none ++
          [some ⟨0, 1, 100, 100, 1, 4, 5, 4, 5, 2, 410, 0, m, false, false, false, false, false⟩] } } },
    ⟨workSlot .unknown, { defaultRecipe with mk1 := ⟨20000, 64, 10⟩ }⟩,
    ⟨1, 100, 200, 100, 0, .acq, 7, 65535, 0, 65535, 0, false, false⟩, by
    intro m w y h
    have key : ∀ (k : Candidate) (j : Nat), j ≠ 23 → (List.replicate 23 none ++ [some k]).getD j none = none := by
      intro k j hj
      rcases Nat.lt_trichotomy j 23 with a | a | a
      · rw [List.getD_append _ _ _ _ (by simpa using a), List.getD_replicate _ a]
      · exact absurd a hj
      · rw [List.getD_eq_default _ _ (by simp; omega)]
    simp only [List.mem_cons, Prod.mk.injEq, List.not_mem_nil, or_false] at h
    obtain ⟨rfl, rfl, rfl⟩ | ⟨rfl, rfl, rfl⟩ | ⟨rfl, rfl, rfl⟩ := h <;>
      exact ⟨_, _, rfl, ⟨rfl, by decide, rfl, rfl, .inl ⟨rfl, rfl⟩⟩, rfl, rfl, rfl, key _, rfl, rfl, by decide, rfl,
        by decide,
        rfl, rfl, rfl, by decide, by simp⟩⟩

/-- The first and the last cell of a line of two, each with a key; and a judged cell at L_open, and one at L_close whose
member names an open streak of its polarity. -/
theorem witness_RunsMaximal : (∃ cells : List (CellRec × CellResult), cells.length = 2 ∧
      (∃ x, cells[0]? = some x ∧ (if x.2.pin then some x.2.lane else none) = some 3) ∧
      ∃ x, cells[1]? = some x ∧ (if x.2.pin then some x.2.lane else none) = some 4) ∧
    ∃ p : Profile, ∃ o : CellResult, ∃ r q : CellRec, ∃ t : List (Option Streak), p = line87.copy.profile o.profile ∧
      1 ≤ p.lOpen ∧ 1 ≤ p.lClose ∧ o.judged = true ∧ p.streakEnable = 1 ∧ r.s = p.lOpen ∧ r.member = none ∧
      q.s = p.lClose ∧ ∃ j st, q.member = some j ∧ t[j]? = some (some st) ∧ st.pol = .light :=
  ⟨⟨[(CellRec.blank, ⟨.inner, 3, 0, true, 420, 2420, true⟩), (CellRec.blank, ⟨.edge, 4, 1, true, 420, 4095, true⟩)],
    rfl,
    ⟨_, rfl, rfl⟩, _, rfl, rfl⟩,
    _, ⟨.inner, 5, 0, true, 50, 2050, false⟩, ⟨true, 32000, 4, 0, none⟩, ⟨true, 32000, 2, 0, some 0⟩,
    [some (streak87 1 2 3 4 5 6 2 3)], rfl, by decide, by decide, rfl, rfl, rfl, rfl, rfl, _, _, rfl, rfl, rfl⟩

/-- At a position: one place in the streak table, the last, and one in the mark queue. -/
def crowded (w : Nat) : State := { armed with
  pos := { armed.pos with w := w }
  mark := { armed.mark with queue := List.replicate 31 ⟨.mk0, 8000, 60000, 1⟩ }
  eng := { armed.eng with work := { armed.eng.work with
    streaks := List.replicate 31 (some (streak87 1 2 3 4 5 6 2 3)) ++ [none] } } }

/-- The lowest empty slot is the last of the table, without a mark target, with one whose place lies ahead and with one
whose place W has just reached; and a full table. -/
theorem witness_LoneRunOpensStreak : ∃ u v x y : State,
    (∀ s ∈ [u, x, y], s.eng.work.streaks[31]? = some none ∧ ∀ j, j < 31 → s.eng.work.streaks.getD j none ≠ none) ∧
    (line76 5000).copy.markTarget 0 1 = none ∧
    ((line87.copy.profile 0).markEnable = 1 ∧ (line87.copy.lane 5).marker = 2 ∧ 1 ≤ line87.copy.mk1.width) ∧
    (∀ s ∈ [x, y], s.mark.queue.length < 32 ∧ (∀ e ∈ s.mark.queue, e.marker ≠ .mk1 ∧ s.pos.w < e.stop) ∧
      s.mark.queue.Pairwise MarkEntry.before ∧ s.mark.queue.length = 31) ∧
    x.pos.w + 1 = line87.slot.w + line87.copy.mk1.offset ∧ y.pos.w = line87.slot.w + line87.copy.mk1.offset ∧
    v.eng.work.streaks ≠ [] ∧ ∀ o ∈ v.eng.work.streaks, o ≠ none :=
  ⟨crowded 1, { armed with eng := { armed.eng with work := { armed.eng.work with
      streaks := List.replicate 32 (some (streak87 1 2 3 4 5 6 2 3)) } } },
    crowded (8079 + line87.copy.mk1.offset), crowded (8080 + line87.copy.mk1.offset), by decide +kernel⟩

theorem witness_ExtensionHulls : ∃ runs : List (Run Nat), ∃ lobes : List (Run (Nat × Polarity)),
    runs ≠ [] ∧ lobes ≠ [] ∧ runs.length = 2 ∧ lobes.length = 2 :=
  ⟨[⟨3, 4, 5, 410, false, false, 0⟩, ⟨3, 7, 7, 400, false, true, 1⟩],
    [⟨(5, .dark), 0, 0, 40, false, true, 0⟩, ⟨(5, .dark), 2047, 2047, 41, true, true, 1⟩], by decide⟩

/-! A line of patch 30 on twelve cells of lane 0: head 0 delivers cells 0 to 9, head 1 feeds 10 and 11 and is absent. -/

/-- The line with the given values at cells 0 to 9, and the given PMAX. -/
def line12 (values : List Nat) (pmax : Nat) : Line where
  slot := { workSlot .body with
    w := 8080, patchNum := 30, received := ⟨true, false, false, false⟩, cells := values ++ [0, 0] }
  copy := { defaultRecipe with
    heads := ⟨⟨1, 0, 0, 10, 0⟩, ⟨1, 0, 0, 2, 10⟩, defaultHead 2, defaultHead 3⟩
    lanes := ⟨1, 0, 11, 0, 0, 0⟩ :: List.replicate 15 defaultLane
    profiles := List.replicate 16 ⟨1, 1, 0, 400, 40, 6, 4, 2, 16⟩
    pmax := pmax }

/-- The machine with that line in slot 0, seeded cells with the given counter, and the given tables. -/
def at12 (values : List Nat) (pmax : Nat) (counter : Int) (streaks : List (Option Streak))
    (cands : List (Option Candidate)) : State :=
  { withSlot0 (line12 values pmax).slot with
    list := { armed.list with next := 9 }
    rcp := { armed.rcp with active := (line12 values pmax).copy }
    eng := { armed.eng with work := { armed.eng.work with
      cells := List.replicate 12 ⟨true, 32000, counter, 0, none⟩, streaks := streaks, cands := cands } } }

theorem at12_inWork (values : List Nat) (pmax : Nat) (counter : Int) (streaks : List (Option Streak))
    (cands : List (Option Candidate)) :
    (at12 values pmax counter streaks cands).lineInWork 0 (line12 values pmax) :=
  ⟨rfl, withSlot0_alone _, rfl, rfl, .inl ⟨rfl, rfl⟩⟩

theorem unseen12 (values : List Nat) (pmax c : Nat) (h1 : 10 ≤ c) (h2 : c ≤ 11) : (line12 values pmax).unseen c := by
  refine ⟨⟨0, by decide, rfl, Nat.zero_le _, h2⟩, fun h hr _ => .inr ?_⟩
  rcases h with ⟨_ | _ | _ | _ | h, hh⟩
  · exact h1
  · cases hr
  · cases hr
  · cases hr
  · omega

/-- A streak of lane 0 with an extent. -/
def streak12 (seq l r : Nat) : Streak := { streak87 seq l r 5 6 60 l r with lane := 0 }

/-- Hot runs at cells 1 to 3 and 8. Slots 0 and 1 are joined by the first, slot 2 is not matched, nor is slot 3, at an
ABSENT cell; slot 4 is empty. And a full table of two, one matched alone and one at an ABSENT cell. -/
theorem witness_StreaksOnLine : ∃ i ln, ∃ s u : State, ∃ streaks full : List (Option Streak),
    ∃ runs lone : List (Run (Nat × Polarity)), ln.copy.shapeOk ∧ ln.slot.zone.coated = true ∧
    (∀ x t, (x, t) ∈ [(s, streaks), (u, full)] → x.lineInWork i ln ∧
      (t = x.eng.work.streaks.map (fun o => o.map fun st => if st.curPatch = ln.slot.patchNum then st
        else { st with curPatch := ln.slot.patchNum, patches := min (st.patches + 1) 65535 })) ∧
      runs = streakRuns ln.copy t (ln.workCells 0 x.eng.work.cells ln.slot.cells) ∧
      lone.Sublist runs ∧ ∀ r, r ∈ lone ↔ r ∈ runs ∧ ∀ st, some st ∈ t → ¬ st.met r) ∧
    (∃ r₀ q a b c d, runs = [r₀, q] ∧ lone = [q] ∧ streaks = [some a, some b, some c, some d, none] ∧
      a.met r₀ ∧ b.met r₀ ∧ streakDistance s.list.next b.openSeq < streakDistance s.list.next a.openSeq ∧
      (∀ r ∈ runs, ¬ c.met r ∧ ¬ d.met r) ∧
      (∀ x, c.extL ≤ x → x ≤ c.extR → x < s.eng.work.cells.length → ¬ ln.unseen x) ∧ ln.unseen d.extL ∧
      lone.length = s.eng.work.streaks.count none) ∧
    (∃ r₀ q a d, runs = [r₀, q] ∧ full = [some a, some d] ∧ a.met r₀ ∧ ¬ a.met q ∧ (∀ r ∈ runs, ¬ d.met r) ∧
      ln.unseen d.extL ∧ u.eng.work.streakLatch = false) := by
  refine ⟨0, line12 [2000, 2050, 2050, 2050, 2000, 2000, 2000, 2000, 2050, 2000] 3,
    at12 [2000, 2050, 2050, 2050, 2000, 2000, 2000, 2000, 2050, 2000] 3 3
      [some (streak12 1 0 1), some (streak12 2 3 3), some (streak12 3 5 6), some (streak12 4 11 11), none] [],
    at12 [2000, 2050, 2050, 2050, 2000, 2000, 2000, 2000, 2050, 2000] 3 3
      [some (streak12 1 4 5), some (streak12 4 11 11)] [],
    [some (streak12 1 0 1), some (streak12 2 3 3), some (streak12 3 5 6), some (streak12 4 11 11), none],
    [some (streak12 1 4 5), some (streak12 4 11 11)],
    [⟨(0, .light), 1, 3, 50, false, false, 0⟩, ⟨(0, .light), 8, 8, 50, false, false, 0⟩],
    [⟨(0, .light), 8, 8, 50, false, false, 0⟩], ⟨rfl, rfl⟩, rfl, fun x t h => ?_, ?_, ?_⟩
  · simp only [List.mem_cons, Prod.mk.injEq, List.not_mem_nil, or_false] at h
    obtain ⟨rfl, rfl⟩ | ⟨rfl, rfl⟩ := h <;>
    · refine ⟨at12_inWork _ _ _ _ _, by decide +kernel, by decide +kernel, by simp, fun r => ?_⟩
      simp only [List.mem_cons, List.not_mem_nil, or_false]
      constructor
      · rintro rfl; exact ⟨.inr rfl, by simp [Streak.met, streak12, streak87]⟩
      · rintro ⟨rfl | rfl, h⟩
        · exact absurd (h _ (by simp; exact .inl rfl)) (by simp [Streak.met, streak12, streak87])
        · rfl
  · refine ⟨_, _, _, _, _, _, rfl, rfl, rfl, ?_, ?_, by decide, ?_, ?_, unseen12 _ _ 11 (by decide) (by decide),
    by decide⟩
    · simp [Streak.met, streak12, streak87]
    · simp [Streak.met, streak12, streak87]
    · simp [Streak.met, streak12, streak87]
    · rintro x h1 h2 - ⟨-, h⟩
      have := h 0 rfl rfl
      simp only [streak12, streak87] at h1 h2
      simp only [line12, Quad.get] at this
      omega
  · refine ⟨_, _, _, _, rfl, rfl, ?_, ?_, ?_, unseen12 _ _ 11 (by decide) (by decide), rfl⟩ <;>
      simp [Streak.met, streak12, streak87]

/-- A candidate of lane 0 and a patch with an extent, open for one line. -/
def cand12 (patch l r : Nat) : Candidate :=
  { cand76 8000 8000 1 l r l r 1 400 false false with lane := 0, patch := patch, target := none }

/-- Pinhole runs at cells 1 to 3 and 8. Slots 0 and 1, of one first line, are joined by the first, at PMAX 3 and at PMAX
2, which it reaches; slot 2 is not matched, nor is slot 3, at an ABSENT cell; slot 4 is empty. A full table of two, one
matched alone and one at an ABSENT cell. And a table of two with a candidate of another patch, at PMAX 3 and 1. -/
theorem witness_CandidatesOnLine : ∃ ln : Nat → Line, ∃ s : Nat → List (Option Candidate) → State,
    ∃ joined full moved : List (Option Candidate), ∃ runs lone : List (Run Nat),
    (∀ p c, (s p c).lineInWork 0 (ln p) ∧ (ln p).copy.shapeOk ∧ (ln p).slot.zone.coated = true ∧
      (s p c).eng.work.cands = c ∧ (ln p).copy.pmax = p ∧ (ln p).slot.patchNum = 30) ∧
    (∀ x ∈ [(3, joined), (2, joined), (3, full), (3, moved), (1, moved)], ∃ t,
      t = after (exec .linePublish (s x.1 x.2)) ∧ runs = pinholeRuns t.eng.pub.streaks (t.eng.pub.cells.zip (
        ((ln x.1).workCells 0 (s x.1 x.2).eng.work.cells (ln x.1).slot.cells).map Prod.snd))) ∧
    lone.Sublist runs ∧ (∃ k, some k ∈ moved ∧ k.patch ≠ 30) ∧ runs.length = moved.length ∧
    (∃ r₀ q a b c d, runs = [r₀, q] ∧ lone = [q] ∧ joined = [some a, some b, some c, some d, none] ∧
      a.met r₀ ∧ b.met r₀ ∧ ¬ a.met q ∧ ¬ b.met q ∧ a.firstW = b.firstW ∧ a.lines = 1 ∧
      (∀ r ∈ runs, ¬ c.met r ∧ ¬ d.met r) ∧ (∀ x, c.extL ≤ x → x ≤ c.extR → ¬ (ln 3).unseen x) ∧
      (ln 3).unseen d.extL ∧ ∀ k ∈ [a, b, c, d], k.patch = 30) ∧
    ∃ r₀ q a d, runs = [r₀, q] ∧ full = [some a, some d] ∧ a.met r₀ ∧ ¬ a.met q ∧ (∀ r ∈ runs, ¬ d.met r) ∧
      (ln 3).unseen d.extL ∧ a.lines + 1 < 3 ∧ d.lines + 1 < 3 ∧ a.patch = 30 ∧ d.patch = 30 := by
  refine ⟨line12 [2000, 2400, 2400, 2400, 2000, 2000, 2000, 2000, 2400, 2000],
    fun p c => at12 [2000, 2400, 2400, 2400, 2000, 2000, 2000, 2000, 2400, 2000] p 0 [] c,
    [some (cand12 30 0 1), some (cand12 30 3 3), some (cand12 30 5 6), some (cand12 30 11 11), none],
    [some (cand12 30 4 5), some (cand12 30 11 11)], [some (cand12 29 1 3), none],
    [⟨0, 1, 3, 400, false, false, 0⟩, ⟨0, 8, 8, 400, false, false, 0⟩], [⟨0, 8, 8, 400, false, false, 0⟩],
    fun p c => ⟨at12_inWork _ _ _ _ _, ⟨rfl, rfl⟩, rfl, rfl, rfl, rfl⟩, fun x h => ⟨_, rfl, ?_⟩, by simp,
    ⟨_, List.mem_cons_self, by decide⟩, rfl, ?_, ?_⟩
  · simp only [List.mem_cons, List.not_mem_nil, or_false] at h
    obtain rfl | rfl | rfl | rfl | rfl := h <;> decide +kernel
  · refine ⟨_, _, _, _, _, _, rfl, rfl, rfl, ?_, ?_, ?_, ?_, rfl, rfl, ?_, ?_, unseen12 _ _ 11 (by decide) (by decide),
      by decide⟩
    iterate 5 simp [Candidate.met, cand12, cand76]
    rintro x h1 h2 ⟨-, h⟩
    have := h 0 rfl rfl
    simp only [cand12, cand76] at h1 h2
    simp only [line12, Quad.get] at this
    omega
  · refine ⟨_, _, _, _, rfl, rfl, ?_, ?_, ?_, unseen12 _ _ 11 (by decide) (by decide), by decide⟩ <;>
      simp [Candidate.met, cand12, cand76]

/-- A line of a patch, and one with no patch number: with no tally open, with its own, and with another's, full in its
counts. And a line that closes a candidate whose mark is due at W itself, with no action dropped. -/
theorem witness_TallyOnLine : ∃ f : Nat → Option Tally → State, ∃ ln : Nat → Line, ∃ q : Nat → Tally,
    (∀ p y, ∃ s : State, s = f p y ∧ s.lineInWork 0 (ln p) ∧ (ln p).slot.zone.coated = true ∧ s.mark.late = 65535 ∧
      s.eng.work.tally = y ∧ (ln p).slot.patchNum = p ∧ s.eng.contribs.count (.pinhole 30) = 1) ∧
    (∀ n, (q n).num = n ∧ (q n).pinholes = 65535 ∧ (q n).streakOpens = 65535 ∧ (q n).lateMarks = 65535) ∧
    ∃ u : State, u.lineInWork 0 ⟨workSlot .body, (line76 0).copy⟩ ∧ u.mark.dropped = 65534 ∧
      (fun m : Scheduler => (m.dropped, m.late)) (after (exec .linePublish u)).mark = (65534, 1) :=
  ⟨fun p y => { withSlot0 { workSlot .body with patchNum := p } with
      mark := { armed.mark with late := 65535 }
      eng := { armed.eng with contribs := [.pinhole 30], work := { armed.eng.work with tally := y } } },
    fun p => ⟨{ workSlot .body with patchNum := p }, defaultRecipe⟩,
    fun n => ⟨n, 8000, 8070, 8000, 0, .plain, 7, 65535, 65535, 65535, 65535, false, false⟩,
    fun _ _ => ⟨_, rfl, ⟨rfl, withSlot0_alone _, rfl, rfl, .inl ⟨rfl, rfl⟩⟩, rfl, rfl, rfl, rfl, rfl⟩,
    fun _ => ⟨rfl, rfl, rfl, rfl⟩,
    { withSlot0 (workSlot .body) with
      pos := { armed.pos with w := 25000 }
      rcp := { armed.rcp with active := (line76 0).copy }
      mark := { armed.mark with dropped := 65534 }
      eng := (with76 [some (cand76 5000 5032 3 140 146 143 144 10 2115 true true)]).eng },
    ⟨rfl, withSlot0_alone _, rfl, rfl, .inl ⟨rfl, rfl⟩⟩, rfl, by decide +kernel⟩

/-- A baseline above, at and below sixteen times the cell value. -/
theorem witness_AdaptationSettles : 16 * 2000 ≤ 32100 ∧ 16 * 2000 ≤ 32000 ∧ 31900 ≤ 16 * 2000 := by decide

/-- A stop with a streak, two candidates, one of the open tally's patch, and the sections and the last line of the run,
with and without a pending copy. -/
theorem witness_StopCompletes : ∃ f : Option PendingCopy → State,
    ∀ pc ∈ [none, some (⟨defaultRecipe, 2⟩ : PendingCopy)],
    ∃ s, s = f pc ∧ s.rcp.run = .stopping ∧ (∀ i, (s.asm.slots.get i).state ≠ .inWork) ∧
    s.eng.work.streaks.length = 32 ∧ s.eng.work.cands.length = 24 ∧ s.list.records.length ≤ 512 ∧
    some (streak87 1 2 3 4 5 6 2 3) ∈ s.eng.work.streaks ∧ (∃ k, s.eng.kept = some k) ∧
    (∃ x, s.eng.lastLine = some x) ∧
    (∃ y, s.eng.work.tally = some y ∧ y.pinholes ≤ 65535 ∧ y.pinholes = 65534 ∧
      (s.eng.work.cands.countP fun o => o.any fun k => k.patch == y.num) = 1) ∧
    s.eng.work.cands.countP Option.isSome = 2 ∧ s.rcp.pending = pc ∧ s.rcp.retiring = none :=
  ⟨fun pc => { stopping with
      rcp := { stopping.rcp with pending := pc }
      eng := { stopping.eng with
        kept := some (keptOf defaultRecipe), lastLine := some (7, 112)
        work := { stopping.eng.work with
          tally := some ⟨12, 100, 200, 90, 0, .acq, 7, 65534, 0, 0, 0, false, false⟩
          cands := some (cand76 100 112 2 1 2 1 2 4 500 false false) ::
            some { cand76 100 112 2 5 6 5 6 4 500 false false with patch := 0 } :: List.replicate 22 none
          streaks := some (streak87 1 2 3 4 5 6 2 3) :: List.replicate 31 none } } }, by
    intro pc h
    simp only [List.mem_cons, List.not_mem_nil, or_false] at h
    obtain rfl | rfl := h <;>
      exact ⟨_, rfl, rfl, by decide, rfl, rfl, by decide, List.mem_cons_self, ⟨_, rfl⟩, ⟨_, rfl⟩,
        ⟨_, rfl, by decide, rfl, rfl⟩, rfl, rfl, rfl⟩⟩

/-- The list holds three records, of which port 0 takes two. -/
def listed : State := { State.reset with
  list := ⟨[⟨4294967294, 1, .event .armed 0⟩, ⟨4294967295, 2, .patch ⟨1, 2, 1, 0, 0, 0, 0, 0, .acq, false, false⟩⟩,
    ⟨1, 3, .event .disarmed 0⟩], 2⟩
  ports := State.reset.ports.map fun x => { x with cursor := 4294967294, sub := ⟨true, true, false, true⟩ } }

/-- Counts 0, 17 and 16, with more and with fewer records to deliver. -/
theorem witness_FetchDelivers : listed.ready 0 ∧ (0 : Byte).toNat = 0 ∧ 16 < (17 : Byte).toNat ∧
    1 ≤ (16 : Byte).toNat ∧ (16 : Byte).toNat ≤ 16 ∧ (2 : Byte).toNat = 2 ∧
    (listed.list.delivered (listed.ports.get 0) 2).length = 2 ∧
    (listed.list.delivered (listed.ports.get 0) 16).length < 16 := by decide

theorem witness_SeekMovesCursor : listed.ready 1 ∧ (∃ r ∈ listed.list.records, r.seq = (4294967294#32).toNat) ∧
    (2#32).toNat = listed.list.next ∧ (∀ r ∈ listed.list.records, r.seq ≠ (3#32).toNat) ∧
    (3#32).toNat ≠ listed.list.next ∧ 2 < (3 : Byte).toNat := by decide

theorem witness_SubscribeReplaces : listed.ready 2 ∧ (0#16).toNat = 0 ∧ 512 < (513#16).toNat ∧ 1 ≤ (512#16).toNat ∧
    (512#16).toNat ≤ 512 ∧ 1 ≤ (1#16).toNat := by decide

/-- A forced mark that collides with none, with room and with a full queue; with the only one of its marker, at the last
place where they collide; and with one that makes it collide with another, and so on to a third, beside one that stays
clear by the spacing. -/
theorem witness_ForceMarkEnters : ∃ u v x y : State, (∀ s ∈ [u, v, x, y], s.ready 0 ∧ 1 ≤ s.rcp.active.mk0.width ∧
      (∀ e ∈ s.mark.queue, s.pos.w < e.stop) ∧ s.mark.queue.Pairwise MarkEntry.before) ∧
    1 < (2 : Byte).toNat ∧ u.mark.queue.length = 31 ∧ v.mark.queue.length = 32 ∧ u.rcp.active.mk0.spacing = 10 ∧
    (∀ s ∈ [u, v], ∀ e ∈ s.mark.queue, e.marker = Marker.mk0 →
      s.pos.w + 100 + s.rcp.active.mk0.width + s.rcp.active.mk0.spacing ≤ e.start ∨
        e.stop + s.rcp.active.mk0.spacing ≤ s.pos.w + 100 ∧ e.start < s.pos.w + 100) ∧
    ∃ met : State → Nat → Nat → MarkEntry → Prop,
      (∀ s a b e, met s a b e ↔ e.marker = .mk0 ∧ (a ≤ e.start ∧ e.start < b + s.rcp.active.mk0.spacing ∨
        e.start < a ∧ a < e.stop + s.rcp.active.mk0.spacing)) ∧
      (∀ s ∈ [x, y], ∃ e ∈ s.mark.queue, met s 100 164 e) ∧
      ∃ h e f g : MarkEntry, y.mark.queue = [h, e, f, g] ∧ met y 100 164 e ∧ ¬ met y 100 164 f ∧ met y 100 e.stop f ∧
        ¬ met y 100 e.stop g ∧ met y 100 f.stop g ∧ ¬ met y 100 g.stop h :=
  ⟨{ State.reset with
      mark := { State.reset.mark with queue := List.replicate 31 ⟨.mk0, 174, 200, 1⟩ }
      rcp := { State.reset.rcp with active := { defaultRecipe with mk0 := ⟨0, 64, 10⟩ } } },
    { State.reset with mark := { State.reset.mark with queue := List.replicate 32 ⟨.mk0, 164, 200, 1⟩ } },
    { State.reset with mark := { State.reset.mark with queue := [⟨.mk0, 30, 101, 1⟩, ⟨.mk1, 100, 164, 2⟩] } },
    { State.reset with
      mark := { State.reset.mark with
        queue := [⟨.mk0, 20, 90, 4⟩, ⟨.mk0, 173, 240, 3⟩, ⟨.mk0, 249, 300, 1⟩, ⟨.mk0, 309, 350, 2⟩] }
      rcp := { State.reset.rcp with active := { defaultRecipe with mk0 := ⟨0, 64, 10⟩ } } },
    by decide +kernel, by decide, by decide, by decide, by decide, by decide +kernel,
    fun s a b e => e.marker = .mk0 ∧ (a ≤ e.start ∧ e.start < b + s.rcp.active.mk0.spacing ∨
      e.start < a ∧ a < e.stop + s.rcp.active.mk0.spacing), fun _ _ _ _ => .rfl, by decide, ⟨.mk0, 20, 90, 4⟩,
    ⟨.mk0, 173, 240, 3⟩, ⟨.mk0, 249, 300, 1⟩, ⟨.mk0, 309, 350, 2⟩, rfl, by decide⟩

theorem witness_EditRightHeldByOne : editing.ready 0 ∧ editing.rcp.holder = some 0 := by decide

/-- From the holder and from another port; the last profile, an entry and a section that do not exist. -/
theorem witness_EntriesReadBack : editing.ready 0 ∧ editing.ready 1 ∧ editing.rcp.holder ≠ some 1 ∧
    editing.rcp.holder = some 0 ∧
    editing.rcp.staging ≠ none ∧ editing.rcp.staging = some defaultRecipe ∧ defaultRecipe.shapeOk ∧
    (∃ x, sectionOf 3 = some x ∧ (15 : Byte).toNat < x.entries ∧ (List.replicate 13 (0 : Byte)).length = x.sizes.sum) ∧
    (∀ x, sectionOf 3 = some x → x.entries ≤ (16 : Byte).toNat) ∧ (∀ x, sectionOf 0xFF = some x → x.entries ≤ 0) := by
  refine ⟨rfl, rfl, by decide, rfl, by decide, rfl, ⟨rfl, rfl⟩, ⟨_, rfl, by decide, by decide⟩, ?_, ?_⟩
  · intro x h; obtain rfl := Option.some.inj h; decide
  · intro x h; cases h

/-- A copy that passes every check, and one that fails the last alone. -/
theorem witness_CommitChecks : defaultRecipe.shapeOk ∧ defaultRecipe.valid = true ∧ ∃ r : Recipe, r.shapeOk ∧
    r.firstFault = some (.pitch, 0xFF) ∧ r.p = 0 :=
  ⟨⟨rfl, rfl⟩, by decide +kernel, { defaultRecipe with p := 0 }, ⟨rfl, rfl⟩, by decide +kernel, rfl⟩

/-- From the holder and from another port: with a good staging copy in IDLE and in ARMED, with a copy pending, and with
a staging copy that fails a check. -/
theorem witness_CommitAndCancel : ∃ u v x y : State, (∀ s ∈ [u, v, x, y], s.ready 0 ∧ s.ready 1 ∧
      s.rcp.holder = some 0 ∧ s.rcp.holder ≠ some 1) ∧
    (∀ s ∈ [u, y], s.rcp.staging = some defaultRecipe ∧ s.rcp.pending = none) ∧ defaultRecipe.valid = true ∧
    (u.rcp.run = .idle ∧ u.rcp.retiring = none ∧ ∀ i, (u.asm.slots.get i).copy = .none) ∧ y.rcp.run ≠ .idle ∧
    (v.rcp.pending ≠ none ∧ v.rcp.staging = some defaultRecipe) ∧
    x.rcp.staging = some { defaultRecipe with p := 0 } ∧ x.rcp.pending = none ∧
      ({ defaultRecipe with p := 0 } : Recipe).firstFault = some (.pitch, 0xFF) :=
  ⟨editing, { editing with rcp := { editing.rcp with run := .armed, pending := some ⟨defaultRecipe, 1⟩ } },
    { editing with rcp := { editing.rcp with staging := some { defaultRecipe with p := 0 } } },
    { editing with rcp := { editing.rcp with run := .armed } }, by decide, by decide, by decide +kernel,
    by decide, by decide, by decide, rfl, rfl, by decide +kernel⟩

/-- In IDLE with an enabled lane, at the highest position at which a line can open and at the limit; without a lane; and
ARMED. -/
theorem witness_ArmBeginsRun : ∃ s u : State, (∀ x ∈ [s, u], x.ready 0 ∧ x.rcp.run = .idle ∧
      (∃ l ∈ x.rcp.active.lanes, l.enabled = 1) ∧ x.rcp.pending = none ∧ ∀ i, (x.asm.slots.get i).state = .free) ∧
    s.pos.w = 4294967294 ∧ u.pos.w = 4294967295 ∧
    (State.reset.ready 0 ∧ State.reset.rcp.run = .idle ∧ ∀ l ∈ State.reset.rcp.active.lanes, l.enabled ≠ 1) ∧
    armed.ready 0 ∧ armed.rcp.run ≠ .idle :=
  ⟨{ State.reset with
      pos := { State.reset.pos with w := 4294967294 }, rcp := { State.reset.rcp with active := laned } },
    { State.reset with
      pos := { State.reset.pos with w := 4294967295 }, rcp := { State.reset.rcp with active := laned } }, by decide⟩

theorem witness_DisarmBeginsStop : ∃ s : State, s.ready 0 ∧ s.rcp.run = .armed ∧ 0 < s.trig.skipped ∧
    (s.asm.slots.get 0).state = .inWork ∧ (s.asm.slots.get 1).state = .opened ∧ (s.asm.slots.get 2).state = .ready ∧
    State.reset.ready 0 ∧ State.reset.rcp.run ≠ .armed :=
  ⟨{ armed with
      trig := { armed.trig with skipped := 1 }
      asm := { armed.asm with slots := ⟨workSlot .body, openSlot, readySlot, Slot.reset⟩ } }, by decide⟩

theorem witness_ResetPositionZeroes : State.reset.ready 0 ∧ State.reset.rcp.run = .idle ∧ armed.ready 0 ∧
    armed.rcp.run ≠ .idle := by decide

theorem witness_StationFrameIsCommand : ∃ f, hostFrame (.stageWrite 2 1 2 3 (List.replicate 1194 0xB2)) = some f ∧
    f.payload.length ≤ 1196 ∧ (State.reset.ports.get f.port).rx = Reception.shut := ⟨_, rfl, by decide +kernel, rfl⟩

/-- A frame bad on the wire, too short a body, an unknown code, a wrong length field, and right ones over payloads of a
wrong length; an open frame. -/
theorem witness_StationFrameJudged : ∃ s : State, State.reset.ready 0 ∧ (State.reset.ports.get 0).rx = Reception.shut ∧
    BadOnWire 1202 (0xB2#8 :: escapeBytes ([0x02] ++ [0, 0])) ∧
    BadOnWire 1202 (0xB2#8 :: escapeBytes (List.replicate 1203 0)) ∧
    (1 ≤ [(1 : Byte), 2, 3].length ∧ [(1 : Byte), 2, 3].length < 4) ∧
    ∃ lengths : List (Byte × Nat),
    lengths = [(0x01, 0), (0x02, 0), (0x03, 0), (0x04, 0), (0x10, 0), (0x11, 0), (0x12, 0), (0x20, 0), (0x21, 0),
      (0x23, 2), (0x24, 2), (0x25, 0), (0x26, 0), (0x30, 1), (0x31, 5), (0x32, 4), (0x40, 3), (0x41, 0), (0x42, 0),
      (0x50, 1), (0x51, 3)] ∧
    ((0x05 : Byte) ≠ 0x22 ∧ ∀ n, ((0x05 : Byte), n) ∉ lengths) ∧
    (((0x51 : Byte), 3) ∈ lengths ∧ 256 * (0 : Byte).toNat + (1 : Byte).toNat ≠ ([] : List Byte).length) ∧
    (256 * (0 : Byte).toNat + (1 : Byte).toNat = [(0x00 : Byte)].length ∧ [(0x00 : Byte)].length < 2) ∧
    (((0x30 : Byte), 1) ∈ lengths ∧ 256 * (0 : Byte).toNat + (2 : Byte).toNat = [(1 : Byte), 1].length ∧
      [(1 : Byte), 1].length ≠ 1) ∧
    (s.ports.get 0).rx.isOpen = true ∧ (s.ports.get 0).rx.escape = false ∧ (s.ports.get 0).rx.stored ≠ [] :=
  ⟨{ State.reset with ports := State.reset.ports.set 0 { Port.reset with rx := ⟨true, true, [0x01], false, false⟩ } },
    rfl, rfl, .crc [0x02] 0 0 (by decide) (by decide) (by decide +kernel), .long _ (by decide +kernel), by decide, _,
      rfl,
    ⟨by decide, by simp⟩, by decide, by decide, by decide, by decide⟩

theorem witness_CommandsWait : ∃ f, ∃ s : Option (List Byte) → State, hostFrame (.disarm 0 7) = some f ∧
    f.payload.length ≤ 1196 ∧ ((s none).ports.get f.port).response = some [0x10, 0, 0, 0, 0] ∧
    ((s none).ports.get f.port).held = none ∧
    ((s (some f.body)).ports.get f.port).response = some [0x10, 0, 0, 0, 0] ∧
    ((s (some f.body)).ports.get f.port).held = some f.body :=
  ⟨_, fun held => { State.reset with ports := State.reset.ports.set 0 { Port.reset with
    response := some [0x10, 0, 0, 0, 0], held := held } }, rfl, by decide, rfl, rfl, rfl, rfl⟩

theorem witness_ResponsesBounded : ∃ f t, hostFrame (.readStreaks 0 1) = some f ∧ State.reset.ready f.port ∧
    State.reset.eng.pub.streaks.length = 32 ∧ State.reset.eng.pub.cands.length = 24 ∧
    exec (.readStreaks 0 1) State.reset = .next t := ⟨_, _, rfl, rfl, rfl, rfl, rfl⟩

theorem witness_IdentAndStatusAnswer : armed.ready 2 := rfl

/-- 64 cells up to the last, one cell, none, 65, and one past the end; a candidate and a streak in the last slots. -/
theorem witness_TablesReadPublished : armed.ready 0 ∧ (1 ≤ (64 : Byte).toNat ∧ (64 : Byte).toNat ≤ 64 ∧
      (1984#16).toNat + (64 : Byte).toNat ≤ 2048) ∧
    ((0 : Byte).toNat = 0 ∧ 64 < (65 : Byte).toNat ∧ 2048 < (2047#16).toNat + (2 : Byte).toNat) ∧
    armed.eng.pub.cells.length = 2048 ∧ (∃ r, armed.eng.pub.cells[(1984#16).toNat + 63]? = some r) ∧
    ∃ s : State, ∃ k st, s.ready 0 ∧ s.eng.pub.cands[23]? = some (some k) ∧ s.eng.pub.streaks[31]? = some (some st) :=
  ⟨rfl, by decide, by decide, by decide +kernel, ⟨CellRec.blank, by decide +kernel⟩, { armed with
    eng := { armed.eng with pub := { armed.eng.pub with
      cands := List.replicate 23 none ++ [some (cand76 5 6 2 1 2 1 2 3 400 true true)]
      streaks := List.replicate 31 none ++ [some (streak87 1 2 3 4 5 6 2 3)] } } }, _, _, rfl, rfl, rfl⟩

theorem witness_ResyncHeadUnlocks : ∃ f : LinkState → State, 3 < (4 : Byte).toNat ∧
    (3 : HeadNo).val = (3 : Byte).toNat ∧
    ∀ k, (f k).ready 0 ∧ ((f k).links.get 3).state = k ∧ ((f k).asm.slots.get 0).state = .opened :=
  ⟨fun k => { withSlot0 openSlot with links := armed.links.set 3 { Link.reset with state := k } }, by decide, by decide,
    fun k => ⟨rfl, rfl, rfl⟩⟩

/-- The attention of a port with PINHOLE and DATA pending and STREAK in service is as R182 says; and of a port after a
power-on reset. -/
theorem witness_AttentionServiceInRank : ∃ s : State, s.ready 0 ∧ (s.ports.get 0).attentionOk ∧
    ((s.ports.get 0).causes.has .pinhole = true ∧
      ∀ d, (s.ports.get 0).causes.has d = true → Cause.pinhole.rank ≤ d.rank) ∧
    ((s.ports.get 0).service.has .streak = true ∧
      ∀ d, (s.ports.get 0).service.has d = true → Cause.streak.rank ≤ d.rank) ∧
    s.ready 1 ∧ (∀ c, (s.ports.get 1).causes.has c = false) ∧ ∀ c, (s.ports.get 1).service.has c = false :=
  ⟨{ State.reset with ports := State.reset.ports.set 0 { Port.reset with
      causes := ⟨false, false, true, true⟩, service := ⟨false, true, false, false⟩ } }, rfl,
    ⟨⟨fun h => absurd h (by decide), fun ⟨c, h, k⟩ => absurd (k .streak rfl) (by
        cases c <;> first | decide | exact absurd h (by decide))⟩,
      fun c _ => by cases c <;> rfl⟩,
    ⟨rfl, fun d h => by cases d <;> first | decide | exact absurd h (by decide)⟩,
    ⟨rfl, fun d h => by cases d <;> first | decide | exact absurd h (by decide)⟩, rfl,
    fun c => by cases c <;> rfl, fun c => by cases c <;> rfl⟩

/-! For the conditions that every step keeps: a machine that meets the condition, and a step of it. -/

/-- A short list before a step; and a full list before an append, with the cursors on its oldest record. -/
theorem witness_ListKept : (∃ s t : State, s.listOk ∧ s.list.records.length = 3 ∧ step s = .next t) ∧
    ∃ s : State, s.list.records.length = 512 ∧ s.list.records.head?.map Record.seq = some 1 ∧
      ∀ p, (s.ports.get p).cursor = 1 ∧ (s.ports.get p).sub.event = true ∧ (s.ports.get p).attentionOk :=
  ⟨⟨queued .editExpiry { listed with rcp := editing.rcp }, _,
    ⟨by decide, by simp [inSequence, firstSeq, queued, listed],
      fun p => .inr ⟨⟨4294967294, 1, .event .armed 0⟩, by simp [queued, listed], by
        rcases p with ⟨_ | _ | _ | n, hn⟩
        · rfl
        · rfl
        · rfl
        · omega⟩⟩, by decide, rfl⟩,
    { State.reset with
      list := ⟨⟨1, 0, .event .armed 0⟩ :: (List.range 511).map fun n => ⟨n + 2, 0, .event .armed 0⟩, 513⟩ },
    by simp, rfl, fun p => by
      have key : Port.reset.cursor = 1 ∧ Port.reset.sub.event = true ∧ Port.reset.attentionOk :=
        ⟨rfl, rfl, ⟨⟨nofun, fun ⟨c, h, _⟩ => by cases c <;> cases h⟩, fun c h => by cases c <;> cases h⟩⟩
      rcases p with ⟨_ | _ | _ | n, hn⟩
      · exact key
      · exact key
      · exact key
      · omega⟩

theorem witness_AttentionKept : ∃ s t : State, s.attentionOk ∧ (s.ports.get 2).atn = true ∧ step s = .next t :=
  ⟨queued (.ackAttn 2 0) { State.reset with ports := Triple.fill { Port.reset with
      causes := ⟨true, false, false, false⟩, atn := true } }, _, fun p => by
    have key : ({ Port.reset with causes := ⟨true, false, false, false⟩, atn := true } : Port).attentionOk :=
      ⟨⟨fun _ => ⟨.alert, rfl, fun d h => by cases d <;> exact absurd h (by decide)⟩, fun _ => rfl⟩,
        fun c _ => by cases c <;> rfl⟩
    rcases p with ⟨_ | _ | _ | n, hn⟩
    · exact key
    · exact key
    · exact key
    · omega, rfl, rfl⟩

theorem witness_MarksKept : ∃ s t : State, s.marksOk ∧ s.mark.mk0 = true ∧ step s = .next t :=
  ⟨queued (.encoderTransition true false) { State.reset with mark := { State.reset.mark with
      queue := [⟨.mk0, 0, 1, 1⟩, ⟨.mk1, 1, 2, 2⟩], mk0 := true } }, _,
    ⟨by decide, by decide, by decide, ⟨fun _ => ⟨⟨.mk0, 0, 1, 1⟩, by simp [queued], rfl, by decide⟩, fun _ => rfl⟩,
      ⟨fun h => absurd h (by decide), fun ⟨e, h, hm, hc⟩ => by
        simp only [queued, List.mem_cons, List.not_mem_nil, or_false] at h
        obtain rfl | rfl := h
        · cases hm
        · exact absurd hc (by decide)⟩⟩, rfl, rfl⟩

theorem witness_SlotsKept : ∃ s t : State, s.slotsOk ∧ (s.asm.slots.get 0).state = .inWork ∧ step s = .next t :=
  ⟨queued .linePublish (withSlot0 (workSlot .body)), _, ⟨by unfold Slot.setsOk; decide, by decide, by decide⟩, rfl, rfl⟩

theorem witness_ControlKept : ∃ s t : State, s.controlOk ∧ s.rcp.run = .armed ∧ step s = .next t :=
  ⟨queued (.disarm 0 0) (withSlot0 openSlot), _,
    ⟨⟨by decide, by decide⟩, ⟨by decide, by decide, by decide, by decide⟩⟩, rfl, rfl⟩

theorem witness_StartsKept : ∃ s t : State, s.startsOk ∧ s.trk.queue.length = 2 ∧ step s = .next t :=
  ⟨queued (.markEdge .rising) tracking, _, ⟨by decide, by decide, by decide⟩, rfl, rfl⟩

/-- The first cell at one end of both ranges, the value of a cell in work at its limit. -/
theorem witness_CellsKept : ∃ s t : State, s.cellsOk ∧ s.recipesOk ∧
    s.eng.work.cells[0]? = some ⟨true, 65520, -4095, 0, none⟩ ∧ (s.asm.slots.get 0).state = .inWork ∧
    (s.asm.slots.get 0).cells[0]? = some 4095 ∧ step s = .next t :=
  ⟨queued .linePublish { withSlot0 { workSlot .body with cells := 4095 :: List.replicate 2047 0 } with
      eng := { armed.eng with
        work := { armed.eng.work with cells :=
          ⟨true, 65520, -4095, 0, none⟩ :: List.replicate 2047 CellRec.blank } } }, _,
    by
      have hr : ∀ r : CellRec, r = ⟨true, 65520, -4095, 0, none⟩ ∨ r = CellRec.blank → r.inRange := by
        rintro r (rfl | rfl) <;> exact ⟨by decide, by decide, by decide⟩
      refine ⟨⟨?_, rfl, rfl⟩, ⟨?_, rfl, rfl⟩, ?_, fun r h => hr r ?_, fun r h => hr r (.inr ?_), ?_⟩
      · decide +kernel
      · decide +kernel
      · decide +kernel
      · rcases List.mem_cons.1 h with h | h
        · exact .inl h
        · exact .inr (List.eq_of_mem_replicate h)
      · exact List.eq_of_mem_replicate h
      · decide +kernel,
    ⟨⟨⟨rfl, rfl⟩, by decide +kernel⟩, fun c h => (Option.some_ne_none c h.symm).elim,
      fun r h => (Option.some_ne_none r h.symm).elim, fun r h => (Option.some_ne_none r h.symm).elim⟩,
    rfl, rfl, rfl, rfl⟩

theorem witness_RecipesKept : ∃ s t : State, s.recipesOk ∧ s.editOk ∧ step s = .next t :=
  ⟨queued (.commit 0 0) editing, _,
    ⟨⟨⟨rfl, rfl⟩, by decide +kernel⟩, fun c h => (Option.some_ne_none c h.symm).elim,
      fun r h => (Option.some_ne_none r h.symm).elim, fun r h => by obtain rfl := Option.some.inj h; exact ⟨rfl, rfl⟩⟩,
    ⟨by decide, rfl⟩, rfl⟩

/-- A full counter, with a command that counts on it and with an empty queue. -/
theorem witness_CountersKept : ∃ f : List Instr → State, ∀ q ∈ [[Instr.encoderTransition true true], []],
    ∃ t : State, (f q).countersOk ∧ 65535 ∈ (f q).counters ∧ step (f q) = .next t ∧
      ∀ a b k rest, (f q).pending ≠ .powerOnReset a b k :: rest :=
  ⟨fun q => { State.reset with pos := { State.reset.pos with illegal := 65535 }, pending := q }, fun q hq => by
    simp only [List.mem_cons, List.not_mem_nil, or_false] at hq
    obtain rfl | rfl := hq <;>
      exact ⟨_, by unfold State.countersOk; decide, by decide, rfl, fun a b k rest h => by cases h⟩⟩

end Sys2Proof.Tests
end

section
/-! SUPPORT. What a step does to the position (R2, R13): every step but RESET_POSITION's command, a count and a power-on
reset leaves it, and no station command brings a run back to IDLE. -/

namespace Sys2Proof.Machine

/-! ### The station commands -/

/-- The position stays, and IDLE is not entered. -/
def HoldsPosition (s t : State) : Prop := t.pos = s.pos ∧ (t.rcp.run = .idle → s.rcp.run = .idle)

theorem HoldsPosition.same (s : State) : HoldsPosition s s := ⟨rfl, id⟩

theorem HoldsPosition.trans {s t u : State} (h : HoldsPosition s t) (k : HoldsPosition t u) : HoldsPosition s u :=
  ⟨k.1.trans h.1, fun hu => h.2 (k.2 hu)⟩

theorem restartSilence_holds (p : PortNo) (s : State) : HoldsPosition s (restartSilence p s) := by
  unfold restartSilence; split <;> exact .same s

theorem swapPoint_holds (s : State) : HoldsPosition s (swapPoint s) :=
  ⟨(swapPoint_web s).pos, fun h => (swapPoint_run s).symm.trans h⟩

theorem armRun_pos (p : PortNo) (s : State) : (armRun p s).pos = s.pos := by
  unfold armRun
  dsimp only
  split
  · rw [(positionLimit_web _).pos, (takeTrigger_web _).pos]; rfl
  · rw [(takeTrigger_web _).pos]; rfl

/-- ARM is accepted in IDLE alone. -/
theorem cmdArm_holds (p : PortNo) (s : State) : HoldsPosition s (cmdArm p s).1 := by
  unfold cmdArm
  split
  · exact .same s
  · rename_i hidle
    split
    · exact .same s
    · exact ⟨armRun_pos p s, fun _ => not_not.mp hidle⟩

theorem cmdDisarm_holds (p : PortNo) (s : State) : HoldsPosition s (cmdDisarm p s).1 := by
  unfold cmdDisarm
  split
  · refine ⟨(beginStop_web _ s).pos, fun h => ?_⟩
    obtain ⟨-, -, hrcp⟩ := beginStop_control p.val s
    rw [hrcp] at h
    cases h
  · exact .same s

theorem cmdCommit_holds (p : PortNo) (s : State) : HoldsPosition s (cmdCommit p s).1 := by
  have h := restartSilence_holds p s
  unfold cmdCommit
  dsimp only
  split
  · exact h
  · split
    · exact h
    · split
      · exact h
      · split
        · exact HoldsPosition.trans h (swapPoint_holds { restartSilence p s with rcp := _ })
        · exact h

/-- Of all station commands RESET_POSITION alone moves the position (R13). -/
theorem runCommand_holds {c : Command} (hc : c ≠ .resetPosition) (p : PortNo) (payload : List Byte) (s : State) :
    HoldsPosition s (runCommand p c payload s).1 := by
  have hs := restartSilence_holds p s
  cases c <;> simp only [runCommand]
  case resetPosition => exact absurd rfl hc
  case ident | status | readCandidates | readStreaks => exact .same s
  case ackAttn => unfold cmdAckAttn; dsimp only; split <;> exact .same s
  case endService => unfold cmdEndService; dsimp only; split <;> exact .same s
  case arm => exact cmdArm_holds p s
  case disarm => exact cmdDisarm_holds p s
  case claimEdit =>
    unfold cmdClaimEdit
    split
    · exact .same s
    · split
      · exact hs
      · exact .same s
  case releaseEdit => unfold cmdReleaseEdit; split <;> exact .same s
  case stageWrite =>
    unfold cmdStageWrite
    dsimp only
    split
    · exact hs
    · split
      · exact hs
      · split <;> exact hs
  case stageRead =>
    unfold cmdStageRead
    dsimp only
    split
    · exact hs
    · split <;> exact hs
  case activeRead => unfold cmdActiveRead; split <;> exact .same s
  case commit => exact cmdCommit_holds p s
  case cancelPending =>
    unfold cmdCancelPending
    dsimp only
    split
    · split <;> exact hs
    · exact hs
  case fetch => unfold cmdFetch; dsimp only; split <;> exact .same s
  case seek => unfold cmdSeek; split <;> exact .same s
  case subscribe => unfold cmdSubscribe; dsimp only; split <;> exact .same s
  case readCells => unfold cmdReadCells; dsimp only; split <;> exact .same s
  case resyncHead =>
    unfold cmdResyncHead
    split
    · exact .same s
    · have h := resyncLink_work (headNo (byteAt payload 0).toNat) s
      exact ⟨h.pos, fun hr => (congrArg RecipeStore.run h.rcp).symm.trans hr⟩
  case forceMark =>
    unfold cmdForceMark
    split
    · exact .same s
    · rename_i m _
      show HoldsPosition s (enterAction m _ _ _ _ s).1
      rw [enterAction_frame]
      exact .same s

/-! ### The steps at a station port -/

/-- The position stays, or a RESET_POSITION in IDLE brings it to 0 (R13); IDLE is not entered. -/
def HoldsOrZeroes (s t : State) : Prop :=
  (t.rcp.run = .idle → s.rcp.run = .idle) ∧
    (t.pos = s.pos ∨ s.rcp.run = .idle ∧ t.pos.w = 0 ∧ t.pos.l = 0)

theorem HoldsPosition.orZeroes {s t : State} (h : HoldsPosition s t) : HoldsOrZeroes s t := ⟨h.2, .inl h.1⟩

theorem HoldsOrZeroes.trans {s t u : State} (h : HoldsOrZeroes s t) (k : HoldsOrZeroes t u) : HoldsOrZeroes s u := by
  refine ⟨fun hu => h.1 (k.1 hu), ?_⟩
  rcases k.2 with k2 | ⟨hidle, hw, hl⟩
  · rw [k2]; exact h.2
  · exact .inr ⟨h.1 hidle, hw, hl⟩

theorem cmdResetPosition_zeroes (s : State) : HoldsOrZeroes s (cmdResetPosition s).1 := by
  unfold cmdResetPosition
  split
  · rename_i hidle; exact ⟨fun _ => hidle, .inr ⟨hidle, rfl, rfl⟩⟩
  · exact (HoldsPosition.same s).orZeroes

theorem holdsOrZeroes_stationRel : StationRel HoldsOrZeroes where
  same s := (HoldsPosition.same s).orZeroes
  trans _ _ _ h k := h.trans k
  port s _ _ _ := (HoldsPosition.same s).orZeroes
  command s p c payload := by
    by_cases hc : c = .resetPosition
    · subst hc; exact cmdResetPosition_zeroes s
    · exact (runCommand_holds hc p payload s).orZeroes

/-- A command row other than RESET_POSITION, whether it is taken, held or lost. -/
theorem submit_pos {k : Command} (hk : k ≠ .resetPosition) (p : PortNo) (tag : Byte) (payload : List Byte)
    (s : State) : (submit p k tag payload (runCommand p k payload) s).pos = s.pos := by
  unfold submit
  split
  · exact (runCommand_holds hk p payload s).1
  · unfold holdBody; dsimp only; split <;> rfl

/-! ### The counts -/

/-- W has not fallen, and the ranges of W and L are kept (R2). -/
def Rises (s t : State) : Prop := s.pos.w ≤ t.pos.w ∧ (s.positionOk → t.positionOk)

theorem Rises.of_pos {s t : State} (h : t.pos = s.pos) : Rises s t := by
  unfold Rises State.positionOk; rw [h]; exact ⟨le_rfl, id⟩

theorem positionRose_pos (s : State) : (positionRose s).pos = s.pos := (countWork_web _ _).pos

theorem rises_forwardCount (s : State) : Rises s (forwardCount s) := by
  unfold forwardCount Rises State.positionOk maxPos
  dsimp only
  split
  · exact ⟨le_rfl, fun ⟨hw, hl⟩ => ⟨hw, by dsimp only; omega⟩⟩
  · split
    · rw [positionRose_pos]; dsimp only; omega
    · exact ⟨le_rfl, id⟩

theorem rises_backwardCount (s : State) : Rises s (backwardCount s) := by
  unfold backwardCount Rises State.positionOk maxCount
  dsimp only
  split
  · dsimp only; omega
  · split <;> exact ⟨le_rfl, id⟩

theorem rises_encoderTransition (a b : Bool) {s t : State} (h : exec (.encoderTransition a b) s = .next t) :
    Rises s t := by
  cases h
  split
  · exact .of_pos rfl
  · split
    · exact rises_forwardCount (setReference a b s)
    · split
      · exact rises_backwardCount (setReference a b s)
      · exact ⟨le_rfl, id⟩

/-! ### The other steps -/

theorem takeLine_pos (i : Fin 4) (s : State) : (takeLine i s).pos = s.pos := by
  obtain ⟨v, hv, h⟩ := takeLine_work i s
  rw [h]; exact hv.pos

theorem workedFrom_pos (ln : Line) (s : State) (φ : LineProgress) : (workedFrom ln s φ).pos = s.pos := by
  obtain ⟨cells, h⟩ := workedFrom_eq ln s φ
  rw [h]; rfl

theorem publishLine_pos (i : Fin 4) (s : State) : (publishLine i s).pos = s.pos := by
  obtain ⟨v, hv, h⟩ := publishLine_work i s
  rw [h, freeSlot_eq]; exact hv.pos.trans (workedFrom_pos _ _ _)

theorem completeStop_pos (s : State) : (completeStop s).pos = s.pos := by
  obtain ⟨v, hv, h⟩ := completeStop_work s
  rw [h, (swapPoint_web _).pos]; exact hv.pos

theorem carrierLost_pos (h : HeadNo) (bytes : List Byte) {s t : State} (ht : exec (.carrierLost h bytes) s = .next t) :
    t.pos = s.pos := by
  have hb := (headBytes_work h bytes s).pos
  cases ht
  dsimp only
  split
  · exact hb
  · exact hb
  · exact (headLost_work _ _ _).pos.trans hb

/-- A step that is neither a station port's nor a power-on reset does not lower W. -/
theorem rises_exec {c : Instr} (hp : stationPort c = none) (hr : ∀ a b k, c ≠ .powerOnReset a b k) {s t : State}
    (h : exec c s = .next t) : Rises s t := by
  cases c <;> simp only [stationPort, reduceCtorEq] at hp
  case powerOnReset => exact absurd rfl (hr _ _ _)
  case encoderTransition => exact rises_encoderTransition _ _ h
  case carrierLost => exact .of_pos (carrierLost_pos _ _ h)
  all_goals cases h; refine .of_pos ?_
  case markEdge => split; exacts [(takeEdge_web s).pos, rfl]
  case carrierGained => dsimp only; split <;> rfl
  case headFrame => exact (headBytes_work _ _ s).pos
  case headFrameAbort => exact (headBytes_work _ _ s).pos
  case engineTakeLine => split; exacts [takeLine_pos _ s, rfl]
  case linePublish => split; exacts [publishLine_pos _ s, rfl]
  case stopComplete => split; exacts [completeStop_pos s, rfl]
  case editExpiry => split <;> rfl

/-- A host command's row, RESET_POSITION's apart, leaves the position. -/
theorem hostFrame_pos {c : Instr} {f : HostFrame} (hf : hostFrame c = some f)
    (hc : ∀ p tag, c ≠ .resetPosition p tag) {s t : State} (h : exec c s = .next t) : t.pos = s.pos := by
  obtain ⟨k, hcode, -, hk⟩ := exec_command hf s
  rw [hk] at h
  cases h
  refine submit_pos ?_ _ _ _ s
  rintro rfl
  cases c <;> simp only [hostFrame, Option.some.injEq, reduceCtorEq] at hf <;> subst hf
  case resetPosition => exact hc _ _ rfl
  all_goals simp [Command.code] at hcode

/-- The rows within which a RESET_POSITION can be taken (assumption 4): its own, and those of a port that take a
frame. -/
abbrev MayResetPosition (c : Instr) : Prop :=
  (∃ p tag, c = .resetPosition p tag) ∨ (∃ p bytes, c = .stationFrame p bytes) ∨
    (∃ p bytes, c = .stationFrameAbort p bytes) ∨ (∃ p bytes, c = .frameTimeout p bytes) ∨ ∃ p, c = .responseSent p

/-- A step at a station port leaves the position, or brings it to 0 in IDLE (R13). -/
theorem station_holds_or_zeroes {c : Instr} {p : PortNo} (hp : stationPort c = some p) {s t : State}
    (h : exec c s = .next t) :
    t.pos = s.pos ∨ (t.pos.w = 0 ∧ t.pos.l = 0 ∧ s.rcp.run = .idle ∧ MayResetPosition c) := by
  rcases (holdsOrZeroes_stationRel.step hp h).2 with heq | ⟨hidle, hw, hl⟩
  · exact .inl heq
  · by_cases hm : MayResetPosition c
    · exact .inr ⟨hw, hl, hidle, hm⟩
    · left
      obtain ⟨hc, hother⟩ := not_or.mp hm
      have hf : (hostFrame c).isSome = true := by
        cases c <;> simp [stationPort, hostFrame] at hp hother ⊢
      obtain ⟨f, hf⟩ := Option.isSome_iff_exists.mp hf
      exact hostFrame_pos hf (fun p tag hc' => hc ⟨p, tag, hc'⟩) h

/-- Settles O6, by the kinds of steps: a power-on reset, the steps at a station port, of which RESET_POSITION's alone
moves the position, and the others, which do not lower W. -/
theorem wNeverFalls : Obligations.WNeverFalls := by
  intro c s t h
  by_cases hr : ∃ a b k, c = .powerOnReset a b k
  · obtain ⟨a, b, k, rfl⟩ := hr
    cases h
    exact ⟨.inr ⟨rfl, .inl ⟨a, b, k, rfl⟩⟩, fun _ => ⟨Nat.zero_le _, Nat.zero_le _⟩⟩
  · cases hp : stationPort c with
    | none =>
      obtain ⟨hw, hok⟩ := rises_exec hp (fun a b k hc => hr ⟨a, b, k, hc⟩) h
      exact ⟨.inl hw, hok⟩
    | some p =>
      rcases station_holds_or_zeroes hp h with heq | ⟨hw, hl, hidle, hm⟩
      · obtain ⟨hle, hok⟩ := Rises.of_pos heq
        exact ⟨.inl hle, hok⟩
      · refine ⟨.inr ⟨hw, .inr ⟨hidle, hm⟩⟩, fun _ => ?_⟩
        unfold State.positionOk
        rw [hw, hl]
        exact ⟨Nat.zero_le _, Nat.zero_le _⟩

end Sys2Proof.Machine
end

section
/-! SUPPORT. The counts that hold W, a power-on reset and RESET_POSITION, and the conditions at reset. -/

namespace Sys2Proof.Machine

/-! ### The encoder's transitions (R1) -/

/-- Inputs that move in the backward sense make a backward count. -/
theorem encoderTransition_backward (a b : Bool) (s : State) (h : backwardInputs s.pos.refA s.pos.refB a b) :
    exec (.encoderTransition a b) s = .next (backwardCount (setReference a b s)) := by
  obtain ⟨⟨ra, rb, e, w, l, ov, il, ld, rd⟩, _⟩ := s
  simp only [backwardInputs, forwardInputs] at h
  cases ra <;> cases rb <;> cases a <;> cases b <;> simp_all [exec, execEncoderTransition, nextInputs]

/-- Both channels together make an illegal transition. -/
theorem encoderTransition_illegal (s : State) :
    exec (.encoderTransition (!s.pos.refA) (!s.pos.refB)) s = .next { s with
      pos := { s.pos with refA := !s.pos.refA, refB := !s.pos.refB, illegal := bump s.pos.illegal } } := by
  obtain ⟨⟨ra, rb, e, w, l, ov, il, ld, rd⟩, _⟩ := s
  cases ra <;> cases rb <;> rfl

/-- A backward count while L can rise. -/
theorem backwardCount_backlog {s : State} (h : s.pos.l < 65535) :
    backwardCount s = { s with pos := { s.pos with e := s.pos.e - 1, l := s.pos.l + 1 } } := by
  unfold backwardCount maxCount; dsimp only; rw [if_pos h]

/-- A backward count at full backlog: discarded and counted, the first of an episode reported. -/
theorem backwardCount_full {s : State} (h : s.pos.l = 65535) :
    backwardCount s =
      (if s.pos.overrun then id else appendEvent .reverseOverrun 0) { s with pos := { s.pos with
        e := s.pos.e - 1, overrun := true, reverseDiscards := bump s.pos.reverseDiscards } } := by
  unfold backwardCount maxCount; dsimp only; rw [if_neg (by omega)]; split <;> rfl

/-- A forward count that makes up backlog. -/
theorem forwardCount_backlog {s : State} (h : 0 < s.pos.l) :
    forwardCount s = { s with pos := { s.pos with
      e := s.pos.e + 1, l := s.pos.l - 1, overrun := s.pos.overrun && decide (s.pos.l ≠ 1) } } := by
  unfold forwardCount; dsimp only; rw [if_pos h]
  by_cases h1 : s.pos.l = 1 <;> simp [h1]

/-- A forward count at the position limit. -/
theorem forwardCount_limit {s : State} (hl : s.pos.l = 0) (hw : s.pos.w = 4294967295) :
    forwardCount s = { s with pos := { s.pos with
      e := s.pos.e + 1, limitDiscards := bump s.pos.limitDiscards } } := by
  unfold forwardCount maxPos; dsimp only; rw [if_neg (by omega), if_neg (by omega)]

/-- Settles O3: each count by its sense, its backlog and the limit. -/
theorem countsThatHoldW : Obligations.CountsThatHoldW := by
  refine fun a b s => ⟨fun hback => ?_, fun hforw => ?_, encoderTransition_illegal s⟩
  · rw [encoderTransition_backward a b s hback]
    refine ⟨fun hl => ?_, fun hl ho => ?_, fun hl ho => ?_⟩
    · rw [backwardCount_backlog (s := setReference a b s) hl]; rfl
    · rw [backwardCount_full (s := setReference a b s) hl]; simp [ho, bump_eq, setReference]
    · rw [backwardCount_full (s := setReference a b s) hl]; simp [ho, bump_eq, setReference, appendEvent]
  · rw [encoderTransition_forward a b s hforw]
    refine ⟨fun hl => ?_, fun hl hw => ?_⟩
    · rw [forwardCount_backlog (s := setReference a b s) hl]; rfl
    · rw [forwardCount_limit (s := setReference a b s) hl hw]; rfl

/-! ### A forward count that moves W (R3) -/

/-- The machine whose W has just risen, with the outputs set by the new W (R2, R156). -/
def State.atNextW (s : State) (a b : Bool) : State :=
  settleMarks { s with pos := { s.pos with refA := a, refB := b, e := s.pos.e + 1, w := s.pos.w + 1 } }

/-- A forward count with no backlog below the limit is the work of the count at the new W. -/
theorem encoderTransition_countWork {a b : Bool} {s : State} (h : forwardInputs s.pos.refA s.pos.refB a b)
    (hl : s.pos.l = 0) (hw : s.pos.w < 4294967295) :
    exec (.encoderTransition a b) s =
      .next (countWork (decide (s.pos.w + 1 = 4294967295)) (s.atNextW a b)) := by
  rw [encoderTransition_forward a b s h, forwardCount_rises s a b hl hw]; rfl

/-- Settles O4: the work of a count reaches neither the position nor the links, the engine and the ports' frames. -/
theorem forwardCountMovesW : Obligations.ForwardCountMovesW := by
  intro a b s h hl hw
  refine ⟨_, encoderTransition_countWork h hl hw, ?_⟩
  have hweb := countWork_web (decide (s.pos.w + 1 = 4294967295)) (s.atNextW a b)
  refine ⟨hweb.pos, hweb.links, hweb.eng, hweb.pending, hweb.holder, hweb.staging, hweb.silence, fun p => ?_⟩
  rw [hweb.appends.port p]
  exact ⟨rfl, rfl, rfl⟩

/-! ### A power-on reset -/

/-- A link after a power-on reset, with carrier or without (R41). -/
def Link.atReset (carrier : Bool) : Link := { Link.reset with state := if carrier then .hunt else .down }

/-- The machine after a power-on reset (R1, R2, R41). -/
def State.atPowerOnReset (a b : Bool) (carriers : Quad Bool) (s : State) : State :=
  { setReference a b State.reset with
    links := carriers.map Link.atReset, freeCount := s.freeCount, pending := s.pending }

theorem exec_powerOnReset (a b : Bool) (carriers : Quad Bool) (s : State) :
    exec (.powerOnReset a b carriers) s = .next (s.atPowerOnReset a b carriers) := by
  have h : (fun c => if c = true then { Link.reset with state := .hunt } else Link.reset) = Link.atReset := by
    funext c; cases c <;> rfl
  simp only [exec, execPowerOnReset, h]; rfl

section
variable (a b : Bool) (carriers : Quad Bool) (s : State)

theorem atPowerOnReset_link (h : HeadNo) :
    (s.atPowerOnReset a b carriers).links.get h = Link.atReset (carriers.get h) := Quad.get_map _ _ _

theorem atPowerOnReset_slot (i : Fin 4) : (s.atPowerOnReset a b carriers).asm.slots.get i = Slot.reset :=
  Quad.get_fill _ _

theorem atPowerOnReset_port (p : PortNo) : (s.atPowerOnReset a b carriers).ports.get p = Port.reset :=
  Triple.get_fill _ _

theorem atPowerOnReset_counters : (s.atPowerOnReset a b carriers).counters = List.replicate 55 0 := rfl

end

/-- Settles O2: the reset state block by block, its links, slots, ports and counters by their lemmas. -/
theorem powerOnResetState : Obligations.PowerOnResetState := by
  intro a b carriers s
  refine ⟨s.atPowerOnReset a b carriers, exec_powerOnReset a b carriers s, rfl, rfl, rfl, rfl, rfl, rfl, rfl, rfl, rfl,
    rfl, rfl, rfl, rfl, rfl, rfl, rfl, rfl, rfl, rfl, fun h => ?_, fun i => ?_, rfl, rfl, rfl, rfl, rfl, rfl, rfl, rfl,
    rfl, rfl, rfl, rfl, rfl, rfl, rfl, rfl, rfl, rfl, rfl, rfl, rfl, rfl, rfl, fun p => ?_, fun n hn => ?_⟩
  · rw [atPowerOnReset_link]; exact ⟨rfl, rfl, rfl, rfl, rfl, rfl⟩
  · rw [atPowerOnReset_slot]; exact ⟨rfl, rfl, rfl, rfl, rfl⟩
  · rw [atPowerOnReset_port]; exact ⟨rfl, rfl, rfl, rfl, rfl, rfl, rfl, rfl, rfl, rfl, rfl⟩
  · rw [atPowerOnReset_counters] at hn; exact List.eq_of_mem_replicate hn

/-! ### RESET_POSITION (R13, R158) -/

/-- Settles O42: the command by the run state, answered at a port with no response in progress. -/
theorem resetPositionZeroes : Obligations.ResetPositionZeroes := by
  intro p tag s hready
  have hexec : exec (.resetPosition p tag) s = .next (submit p .resetPosition tag [] cmdResetPosition s) := rfl
  rw [hexec, submit_ready hready]
  constructor <;> intro hrun
  · rw [cmdResetPosition, if_neg hrun]; rfl
  · rw [cmdResetPosition, if_pos hrun]; rfl

/-! ### The conditions at reset -/

theorem reset_slot (i : Fin 4) : State.reset.asm.slots.get i = Slot.reset := Quad.get_fill _ _

theorem reset_port (p : PortNo) : State.reset.ports.get p = Port.reset := Triple.get_fill _ _

theorem CauseSet.has_none (c : Cause) : (⟨false, false, false, false⟩ : CauseSet).has c = false := by cases c <;> rfl

theorem reset_attentionOk : State.reset.attentionOk := by
  intro p
  rw [reset_port]
  have hnone : ∀ c, Port.reset.causes.has c ≠ true := fun c => by
    rw [show Port.reset.causes.has c = false from CauseSet.has_none c]; decide
  exact ⟨⟨fun h => (nomatch h), fun ⟨c, hc, _⟩ => absurd hc (hnone c)⟩, fun c hc => absurd hc (hnone c)⟩

theorem reset_marksOk : State.reset.marksOk := by
  refine ⟨Nat.zero_le _, .nil, fun e he => (List.not_mem_nil he).elim, ?_, ?_⟩ <;>
    exact ⟨fun h => (nomatch h), fun ⟨e, he, _⟩ => (List.not_mem_nil he).elim⟩

theorem reset_slotsOk : State.reset.slotsOk := by
  have hnone : ∀ h, (Quad.fill false).get h ≠ true := fun h => by rw [Quad.get_fill]; decide
  refine ⟨fun i h => ?_, fun i _ h => ?_, fun i j hi => ?_⟩
  · rw [reset_slot]; exact ⟨fun hr => absurd hr (hnone h), fun ha => absurd ha (hnone h)⟩
  · rw [reset_slot]; exact Quad.get_fill _ _
  · rw [reset_slot] at hi; cases hi

theorem reset_controlOk : State.reset.controlOk := by
  refine ⟨⟨fun i => ?_, ?_⟩, fun _ => ⟨fun i => ?_, rfl⟩, fun h => (nomatch h), ?_, ?_⟩
  · rw [reset_slot]; exact ⟨fun _ => rfl, fun _ => rfl⟩
  · refine ⟨fun h => (nomatch h), fun ⟨i, hi⟩ => ?_⟩
    rw [reset_slot] at hi; cases hi
  · rw [reset_slot]; rfl
  · exact ⟨fun h => (nomatch h), fun h => (nomatch h)⟩
  · exact ⟨fun _ => rfl, fun _ => rfl⟩

theorem blank_inRange : CellRec.blank.inRange := ⟨by decide, by decide, by decide⟩

theorem reset_cells_inRange : ∀ r ∈ EngineTables.reset.cells, r.inRange := fun r hr => by
  rw [List.eq_of_mem_replicate hr]; exact blank_inRange

theorem reset_cellsOk : State.reset.cellsOk := by
  have hsizes : EngineTables.reset.cells.length = 2048 ∧ EngineTables.reset.streaks.length = 32 ∧
      EngineTables.reset.cands.length = 24 :=
    ⟨List.length_replicate, List.length_replicate, List.length_replicate⟩
  refine ⟨hsizes, hsizes, fun i => ?_, reset_cells_inRange, reset_cells_inRange, fun i x hx => ?_⟩
  · rw [reset_slot]; exact List.length_replicate
  · rw [reset_slot] at hx; rw [List.eq_of_mem_replicate hx]; exact Nat.zero_le _

theorem defaultRecipe_valid : defaultRecipe.valid = true := by decide +kernel

theorem reset_recipesOk : State.reset.recipesOk :=
  ⟨⟨⟨rfl, rfl⟩, defaultRecipe_valid⟩, fun _ h => (nomatch h), fun _ h => (nomatch h), fun _ h => (nomatch h)⟩

theorem reset_counters : State.reset.counters = List.replicate 55 0 := rfl

/-- Settles O51: each condition at the reset state. -/
theorem conditionsAtReset : Obligations.ConditionsAtReset := by
  refine ⟨⟨Nat.zero_le _, Nat.zero_le _⟩, ⟨Nat.zero_le _, ⟨by decide, by decide⟩, fun p => ?_⟩, reset_attentionOk,
    reset_marksOk, reset_slotsOk, reset_controlOk, ⟨Nat.zero_le _, .nil, fun _ => rfl⟩, reset_cellsOk,
    reset_recipesOk, ⟨Iff.rfl, rfl⟩, fun n hn => ?_⟩
  · rw [reset_port]; exact .inl rfl
  · rw [reset_counters] at hn; rw [List.eq_of_mem_replicate hn]; exact Nat.zero_le _

end Sys2Proof.Machine
end

section
/-! SUPPORT. A line trigger (R8 to R11): the swap it takes first, the slots it forces, the line it opens or skips. -/

namespace Sys2Proof.Machine

/-! ### A swap in a run (R29, R168) -/

theorem references_eq_zero (s : State) (c : CopyRef) :
    s.references c = 0 ↔ ¬ ∃ i, (s.asm.slots.get i).copy = c := by
  rw [State.references, List.countP_eq_zero]
  simp [Quad.mem_toList]

theorem geometryDiffers_eq (old new : Recipe) :
    geometryDiffers old new = !decide (new.heads = old.heads ∧ new.lanes = old.lanes) := by
  rw [geometryDiffers, Bool.eq_iff_iff]
  simp only [Bool.or_eq_true, bne_iff_ne, Bool.not_eq_true', decide_eq_false_iff_not, not_and_or, ne_comm]

theorem swapArgument_eq (old new : Recipe) (p : PortNo) :
    swapArgument old new p = p.val + if new.heads = old.heads ∧ new.lanes = old.lanes then 0 else 256 := by
  rw [swapArgument, geometryDiffers_eq]
  by_cases h : new.heads = old.heads ∧ new.lanes = old.lanes <;> simp [h]

/-- What a tracker that is not OFF makes of new patch fields (R29). -/
theorem adopt_eq {k : Tracker} (hk : k.mode ≠ .off) (f : PatchFields) :
    k.adopt f =
      if f.c = 0 then
        if k.mode = .continuous then k
        else { k with
          mode := .continuous, queue := [], patch := none
          startsDropped := min (k.startsDropped + k.queue.length) 65535 }
      else if k.mode = .continuous then { k with mode := .seek, misses := 0 }
      else if k.mode = .track then { k with pred := k.prev + (f.c + f.g) }
      else k := by
  unfold Tracker.adopt
  cases hm : k.mode <;> by_cases hc : f.c = 0 <;> simp_all [bumpBy_eq]

/-- A tracker that has adopted new patch fields has no new start in its queue. -/
theorem adopt_queue {k : Tracker} (hk : k.mode ≠ .off) (f : PatchFields) :
    (k.adopt f).queue = k.queue ∨ (k.adopt f).queue = [] := by
  rw [adopt_eq hk]
  split
  · split
    · exact .inl rfl
    · exact .inr rfl
  · split
    · exact .inl rfl
    · split <;> exact .inl rfl

/-- A tracker comes to TRACK by no adoption. -/
theorem adopt_mode_track {k : Tracker} (hk : k.mode ≠ .off) (f : PatchFields) (h : (k.adopt f).mode = .track) :
    k.mode = .track ∧ (k.adopt f).patch = k.patch := by
  rw [adopt_eq hk] at h ⊢
  split at h
  · split at h
    · rename_i hm; rw [hm] at h; cases h
    · cases h
  · rename_i hc
    rw [if_neg hc]
    split at h
    · cases h
    · rename_i hm
      rw [if_neg hm]
      split at h
      · rename_i ht; rw [if_pos ht]; exact ⟨ht, rfl⟩
      · rename_i ht; exact absurd h ht

/-- No adoption turns the tracker OFF. -/
theorem adopt_mode_ne_off {k : Tracker} (hk : k.mode ≠ .off) (f : PatchFields) : (k.adopt f).mode ≠ .off := by
  unfold Tracker.adopt
  split
  · exact hk
  · split
    · exact hk
    · simp
  · split
    · simp
    · exact hk
  · split
    · simp
    · exact hk
  · split
    · simp
    · exact hk

/-- `u` is what a trigger in `s` finds, with the recipe store, the slots, the list and the tracker as given: of these a
swap may have changed the contents, and of the slots the copies alone. -/
structure Found (s u : State) (rcp : RecipeStore) (slots : Quad Slot) (list : DefectList) (trk : Tracker) : Prop where
  rcp_eq : u.rcp = rcp
  asm_eq : u.asm = { s.asm with slots := slots }
  list_eq : u.list = list
  trk_eq : u.trk = trk
  trig_eq : u.trig = s.trig
  ports_eq : list = s.list → u.ports = s.ports
  web : WebWork s u
  lines : ∀ i, (slots.get i).state = (s.asm.slots.get i).state ∧ (slots.get i).line = (s.asm.slots.get i).line

theorem push_ne (l : DefectList) (w : Nat) (b : RecordBody) : l.push w b ≠ l := by
  intro h
  have hn := congrArg DefectList.next h
  rw [push_eq] at hn
  dsimp only at hn
  split at hn <;> omega

variable {s u : State} {rcp : RecipeStore} {slots : Quad Slot} {list : DefectList} {trk : Tracker} {c : PendingCopy}

/-- A swap taken in a run leaves what R29 and R168 say. -/
theorem takeSwap_found (hp : s.rcp.pending = some c) (hrun : s.rcp.run = .armed) (hm : s.trk.mode ≠ .off)
    (h : s.swapsTo s.pos.w c rcp slots list trk) : Found s (takeSwap s) rcp slots list trk := by
  obtain ⟨hrcp, hslots, hlist, htrk⟩ := h
  have hs : slots = s.asm.slots.map fun x => if x.copy = .active then { x with copy := .retiring } else x :=
    Quad.ext_get fun i => by rw [Quad.get_map]; exact hslots i
  have ht := takeSwap_some hp
  refine ⟨?_, ?_, ?_, ?_, ?_, fun hl => ?_, takeSwap_web s, fun i => ?_⟩
  · rw [ht, hrcp]
    dsimp only [append_rcp]
    by_cases hr : ∃ i, (s.asm.slots.get i).copy = .active
    · rw [if_neg (fun h0 => (references_eq_zero s _).mp h0 hr), if_pos hr]
    · rw [if_pos ((references_eq_zero s _).mpr hr), if_neg hr]
  · rw [ht, hs]; rfl
  · rw [ht, hlist, ← swapArgument_eq]; rfl
  · rw [ht, htrk, ← adopt_eq hm]; dsimp only [append_trk]; rw [if_pos hrun]
  · rw [ht]; rfl
  · rw [hlist] at hl; exact absurd hl (push_ne _ _ _)
  · rw [hslots]; split <;> exact ⟨rfl, rfl⟩

/-- A trigger takes a waiting swap in CONTINUOUS, SEEK and LOST (R167). -/
theorem triggerSwaps_iff (hrun : s.rcp.run = .armed) (hm : s.trk.mode ≠ .off) :
    s.triggerSwaps = true ↔ s.rcp.pending ≠ none ∧ s.rcp.retiring = none ∧ s.trk.mode ≠ .track := by
  unfold State.triggerSwaps State.swapWaits
  rw [hrun]
  cases hmode : s.trk.mode <;> cases s.rcp.pending <;> cases s.rcp.retiring <;> simp_all

/-- A tracker that is not OFF is not OFF either when a trigger has taken its swap. -/
theorem mode_at_trigger {w : Nat} (hm : s.trk.mode ≠ .off) (ha : s.atTrigger w rcp slots list trk) :
    trk.mode ≠ .off := by
  rcases ha with ⟨-, -, -, -, rfl⟩ | ⟨c, -, -, -, -, -, -, htrk⟩
  · exact hm
  · rw [← adopt_eq hm] at htrk
    rw [htrk]
    exact adopt_mode_ne_off hm _

/-- What a trigger finds once it has taken a swap that waits for it (R8). -/
theorem trigger_found (hrun : s.rcp.run = .armed) (hm : s.trk.mode ≠ .off)
    (h : s.atTrigger s.pos.w rcp slots list trk) :
    Found s (if s.triggerSwaps then takeSwap s else s) rcp slots list trk := by
  rcases h with ⟨hno, hrcp, hslots, hlist, htrk⟩ | ⟨c, hp, hr, ht, hswap⟩
  · subst hrcp hslots hlist htrk
    rw [if_neg (by rw [triggerSwaps_iff hrun hm]; tauto)]
    exact ⟨rfl, rfl, rfl, rfl, rfl, fun _ => rfl, .same s, fun _ => ⟨rfl, rfl⟩⟩
  · rw [if_pos ((triggerSwaps_iff hrun hm).mpr ⟨by simp [hp], hr, ht⟩)]
    exact takeSwap_found hp hrun hm hswap

/-! ### The tracker at rest (R28) -/

theorem missDue_of_within (h : s.trk.mode = .track → s.pos.w ≤ s.trk.pred + s.rcp.active.patch.wm) :
    s.missDue = false := by
  unfold State.missDue
  by_cases hm : s.trk.mode = .track
  · have := h hm
    simp; omega
  · simp [hm]

theorem popDue_of_ahead (h : ∀ e ∈ s.trk.queue, s.pos.w < e.pos) : s.popDue = false := by
  unfold State.popDue
  cases hq : s.trk.queue with
  | nil => simp
  | cons e es =>
    have := h e (by rw [hq]; exact List.mem_cons_self ..)
    simp; omega

/-- A tracker with no work of its own at W is due for nothing. -/
theorem trackerDue_of_rests (h : s.trackerRests s.pos.w) : s.trackerDue = false := by
  obtain ⟨hq, ht⟩ := h
  have hpop : s.popDue = false := popDue_of_ahead hq
  have hmiss : s.missDue = false := missDue_of_within fun hm => (ht hm).1
  have hgap : s.coatToGapDue = false := by
    unfold State.coatToGapDue
    by_cases hm : s.trk.mode = .track
    · cases hp : s.trk.patch with
      | none => simp
      | some p => simp [(ht hm).2 p hp]
    · simp [hm]
  simp [State.trackerDue, hgap, hmiss, hpop]

/-- A tracker at rest is still at rest once the trigger has taken its swap. -/
theorem rests_at_trigger {w : Nat} (h : s.trackerRests w) (hm : s.trk.mode ≠ .off)
    (ha : s.atTrigger w rcp slots list trk) (hr : u.rcp = rcp) (hq : u.trk.queue = trk.queue)
    (hmode : u.trk.mode = trk.mode) (hpred : u.trk.pred = trk.pred) (hpatch : u.trk.patch = trk.patch) :
    u.trackerRests w := by
  unfold State.trackerRests
  rw [hr, hq, hmode, hpred, hpatch]
  rcases ha with ⟨-, rfl, -, -, rfl⟩ | ⟨c, -, -, ht, -, -, -, htrk⟩
  · exact h
  · rw [← adopt_eq hm] at htrk
    subst htrk
    refine ⟨fun e he => ?_, fun hk => absurd (adopt_mode_track hm _ hk).1 ht⟩
    rcases adopt_queue hm c.copy.patch with hk | hk <;> rw [hk] at he
    · exact h.1 e he
    · exact (List.not_mem_nil he).elim

/-! ### The slots at a trigger (R54, R60) -/

theorem stale_eq (x : Slot) (n : BitVec 16) :
    x.stale n = decide (x.state = .opened ∧ 3 ≤ (n - x.line).toNat) := by
  rw [Bool.eq_iff_iff]; simp [Slot.stale]

/-- Forcing, slot by slot. -/
theorem forceSlots_get (s : State) (i : Fin 4) :
    (forceSlots s).asm.slots.get i = (s.asm.slots.get i).afterForcing s.trig.n := by
  simp only [forceSlots, Quad.get_map, stale_eq, decide_eq_true_eq]; rfl

theorem afterForcing_free (x : Slot) (n : BitVec 16) : (x.afterForcing n).state = .free ↔ x.state = .free := by
  unfold Slot.afterForcing
  split
  · rename_i h; simp [h.1]
  · exact Iff.rfl

theorem toList_countP_congr {α : Type} {v w : Quad α} {p q : α → Bool} (h : ∀ i, p (v.get i) = q (w.get i)) :
    v.toList.countP p = w.toList.countP q := by
  have h0 : p v.q0 = q w.q0 := h 0
  have h1 : p v.q1 = q w.q1 := h 1
  have h2 : p v.q2 = q w.q2 := h 2
  have h3 : p v.q3 = q w.q3 := h 3
  simp only [Quad.toList, List.countP_cons, List.countP_nil, h0, h1, h2, h3]

/-- The forced counter counts the slots that were stale before a swap (R60, R66). -/
theorem Found.forced (h : Found s u rcp slots list trk) : (forceSlots u).asm.forced = s.forcedAfter := by
  show bumpBy u.asm.forced (u.asm.slots.toList.countP fun x => x.stale u.trig.n) = _
  rw [bumpBy_eq, h.asm_eq, h.trig_eq, State.forcedAfter]
  congr 2
  refine toList_countP_congr fun i => ?_
  obtain ⟨hstate, hline⟩ := h.lines i
  rw [stale_eq, hstate, hline]

/-- The first slot that meets a condition is found. -/
theorem find_first (p : Fin 4 → Bool) (i : Fin 4) (h : p i = true) (hj : ∀ j, j < i → p j = false) :
    ([0, 1, 2, 3] : List (Fin 4)).find? p = some i := by
  match i, h, hj with
  | 0, h, _ => simp [List.find?, h]
  | 1, h, hj => simp [List.find?, h, hj 0 (by decide)]
  | 2, h, hj => simp [List.find?, h, hj 0 (by decide), hj 1 (by decide)]
  | 3, h, hj => simp [List.find?, h, hj 0 (by decide), hj 1 (by decide), hj 2 (by decide)]

theorem freeSlotNo_some {i : Fin 4} (h : (s.asm.slots.get i).state = .free)
    (hj : ∀ j, j < i → (s.asm.slots.get j).state ≠ .free) : s.freeSlotNo = some i :=
  find_first _ i (by simpa using h) fun j hji => by simpa using hj j hji

theorem freeSlotNo_none (h : ∀ i, (s.asm.slots.get i).state ≠ .free) : s.freeSlotNo = none := by
  unfold State.freeSlotNo
  rw [List.find?_eq_none]
  intro i _
  simpa using h i

/-- A slot is FREE after the swap and the forcing of a trigger exactly when it was FREE before them. -/
theorem Found.free_iff (h : Found s u rcp slots list trk) (i : Fin 4) :
    ((forceSlots u).asm.slots.get i).state = .free ↔ (s.asm.slots.get i).state = .free := by
  rw [forceSlots_get, afterForcing_free, h.asm_eq]
  show (slots.get i).state = .free ↔ _
  rw [(h.lines i).1]

/-! ### The line that opens (R9, R26, R52, R54) -/

/-- The slot of the line that opens in slot `i`. -/
def State.lineSlot (i : Fin 4) (s : State) : Slot :=
  ({ s.asm.slots.get i with
    state := .opened, line := s.trig.n, rank := s.asm.lastRank + 1, w := s.pos.w
    zone := s.lineZone.zone, patchNum := s.lineZone.patchNum, patchS := s.lineZone.patchS
    patchErr := s.lineZone.patchErr, patchKind := s.lineZone.patchKind
    prevShort := s.trk.prevShort, skippedBefore := s.trig.skipped, copy := .active
    expected := s.expectedHeads, received := Quad.fill false, absent := Quad.fill false } : Slot).completed

/-- The machine with the pending skipped count, if above 0, reported in the list (R9). -/
def State.withSkipReport (s : State) : State :=
  if s.trig.skipped = 0 then s else append s.pos.w (.event .linesSkipped s.trig.skipped) s

/-- The report reaches the list and the ports alone. -/
theorem withSkipReport_frame (s : State) :
    s.withSkipReport = { s with list := s.withSkipReport.list, ports := s.withSkipReport.ports } := by
  unfold State.withSkipReport; split <;> rfl

theorem withSkipReport_list (s : State) :
    s.withSkipReport.list = if s.trig.skipped = 0 then s.list
      else s.list.push s.pos.w (.event .linesSkipped s.trig.skipped) := by
  unfold State.withSkipReport; split <;> rfl

/-- The opening of a line (R8, R9, R11): its slot, n, the trigger word, and the report of the lines skipped. -/
theorem openLine_eq (i : Fin 4) (s : State) :
    openLine i s = { s with
      list := s.withSkipReport.list
      ports := s.withSkipReport.ports
      asm := { s.asm with slots := s.asm.slots.set i (s.lineSlot i), lastRank := s.asm.lastRank + 1 }
      trk := { s.trk with prevShort := false }
      trig := { s.trig with n := s.trig.n + 1, skipped := 0, out := frameOf (be 2 s.trig.n.toNat) } } := by
  unfold openLine State.withSkipReport
  dsimp only
  rw [reportSkipped_eq]
  by_cases h : s.trig.skipped = 0
  · rw [if_pos h, if_pos (show (s.withSlot i _).trig.skipped = 0 from h)]; rfl
  · rw [if_neg h, if_neg (show ¬ (s.withSlot i _).trig.skipped = 0 from h)]; rfl

theorem expectedHeads_get (s : State) (h : HeadNo) :
    s.expectedHeads.get h = true ↔ (s.rcp.active.heads.get h).enabled = 1 ∧ (s.links.get h).state = .locked := by
  have hget : s.expectedHeads.get h =
      ((s.rcp.active.heads.get h).enabled == 1 && (s.links.get h).state == .locked) := by fin_cases h <;> rfl
  simp [hget]

/-- A line that expects no head is complete as it opens (R58). -/
theorem lineSlot_eq (i : Fin 4) (s : State) :
    s.lineSlot i = { s.asm.slots.get i with
      state := if ∃ h, s.expectedHeads.get h = true then .opened else .ready
      line := s.trig.n, rank := s.asm.lastRank + 1, w := s.pos.w
      zone := s.lineZone.zone, patchNum := s.lineZone.patchNum, patchS := s.lineZone.patchS
      patchErr := s.lineZone.patchErr, patchKind := s.lineZone.patchKind
      prevShort := s.trk.prevShort, skippedBefore := s.trig.skipped, copy := .active
      expected := s.expectedHeads, received := Quad.fill false, absent := Quad.fill false } := by
  rw [State.lineSlot, completed_eq]
  simp only [covered_iff, Quad.get_fill, Bool.or_self, true_and]
  by_cases h : ∃ h, s.expectedHeads.get h = true
  · rw [if_pos h, if_neg]
    obtain ⟨k, hk⟩ := h
    exact fun hall => absurd (hall k) (by simp [hk])
  · rw [if_neg h, if_pos]
    exact fun k => (Bool.eq_false_iff.mpr fun hk => h ⟨k, hk⟩).symm

/-! ### The zone of a line (R25 to R27) -/

theorem lineZone_continuous (h : s.trk.mode = .continuous) : s.lineZone = .bare .body := by
  simp [State.lineZone, h]

theorem lineZone_noPatch (hc : s.trk.mode ≠ .continuous) (h : s.trk.patch = none) :
    s.lineZone = .bare .unknown := by
  unfold State.lineZone
  cases hm : s.trk.mode <;> simp_all

/-- Within the coat of the current patch. -/
theorem lineZone_coated {q : Patch} (hc : s.trk.mode ≠ .continuous) (ho : s.trk.mode ≠ .off)
    (hq : s.trk.patch = some q) (hs : q.s ≤ s.pos.w) (he : s.pos.w < q.endW) :
    s.lineZone = ⟨zoneOf (decide (s.pos.w < q.s + s.rcp.active.patch.leadLen))
      (decide (q.endW ≤ s.pos.w + s.rcp.active.patch.trailLen)), q.num, q.s, q.err, q.kind⟩ := by
  unfold State.lineZone
  cases hm : s.trk.mode <;> simp_all

/-- Behind the coat of the current patch. -/
theorem lineZone_behind {q : Patch} (hc : s.trk.mode ≠ .continuous) (ho : s.trk.mode ≠ .off)
    (hq : s.trk.patch = some q) (he : q.endW ≤ s.pos.w) :
    s.lineZone = .bare (if q.endW + s.rcp.active.patch.g + s.rcp.active.patch.wm < s.pos.w ∧ s.trk.queue = []
      then .unknown else .gap) := by
  have hn : ¬ (q.s ≤ s.pos.w ∧ s.pos.w < q.endW) := fun h => absurd h.2 (not_lt.mpr he)
  rw [apply_ite LineZone.bare]
  unfold State.lineZone
  cases hm : s.trk.mode
  case off => exact absurd hm ho
  case continuous => exact absurd hm hc
  all_goals simp only [hq]; rw [if_neg hn]

theorem zoneOf_flags (lead trail : Bool) :
    (zoneOf lead trail).coated = true ∧ (zoneOf lead trail).hasLead = lead ∧ (zoneOf lead trail).hasTrail = trail := by
  cases lead <;> cases trail <;> exact ⟨rfl, rfl, rfl⟩

end Sys2Proof.Machine
end

section
/-! SUPPORT. A forward count with a trigger due and nothing else (R8 to R11): the line opened, or skipped. -/

namespace Sys2Proof.Machine

variable {s u : State} {rcp : RecipeStore} {slots : Quad Slot} {list : DefectList} {trk : Tracker}

/-! ### The two outcomes of a trigger (R8, R9) -/

/-- A trigger that finds slot `i` FREE, after the swap that waited for it. -/
theorem takeTrigger_opens {i : Fin 4} (hu : (if s.triggerSwaps then takeSwap s else s) = u)
    (hi : (forceSlots u).freeSlotNo = some i) :
    takeTrigger s = { forceSlots u with
      list := (forceSlots u).withSkipReport.list
      ports := (forceSlots u).withSkipReport.ports
      asm := { (forceSlots u).asm with
        slots := (forceSlots u).asm.slots.set i ((forceSlots u).lineSlot i), lastRank := u.asm.lastRank + 1 }
      trk := { u.trk with prevShort := false }
      trig := { u.trig with
        t := u.pos.w + u.rcp.active.p, lastTrigger := u.pos.w, n := u.trig.n + 1, skipped := 0
        out := frameOf (be 2 u.trig.n.toNat) } } := by
  unfold takeTrigger
  simp only [hu, hi, openLine_eq]
  rfl

/-- A trigger that finds no slot FREE, after the swap that waited for it. -/
theorem takeTrigger_skips (hu : (if s.triggerSwaps then takeSwap s else s) = u)
    (hi : (forceSlots u).freeSlotNo = none) :
    takeTrigger s = { forceSlots u with trig := { u.trig with
      t := u.pos.w + u.rcp.active.p, lastTrigger := u.pos.w
      skipped := min (u.trig.skipped + 1) 65535, linesSkipped := min (u.trig.linesSkipped + 1) 65535 } } := by
  unfold takeTrigger
  simp only [hu, hi]
  rfl

/-- What a trigger leaves in both outcomes: `rcp` and `trk` are what it found. -/
structure Triggered (s t : State) (rcp : RecipeStore) (trk : Tracker) : Prop where
  rcp_eq : t.rcp = rcp
  trk_eq : ∃ b, t.trk = { trk with prevShort := b }
  pos_eq : t.pos = s.pos
  next : t.trig.t = s.pos.w + rcp.active.p
  last : t.trig.lastTrigger = s.pos.w
  number : t.trig.n = s.trig.n + 1 ∨ t.trig.n = s.trig.n ∧ t.trig.skipped = min (s.trig.skipped + 1) 65535

theorem takeTrigger_triggered (h : Found s (if s.triggerSwaps then takeSwap s else s) rcp slots list trk) :
    Triggered s (takeTrigger s) rcp trk := by
  generalize hu : (if s.triggerSwaps then takeSwap s else s) = u at h
  have hpos := (takeTrigger_web s).pos
  cases hi : (forceSlots u).freeSlotNo with
  | some i =>
    have ht := takeTrigger_opens hu hi
    refine ⟨?_, ⟨false, ?_⟩, hpos, ?_, ?_, .inl ?_⟩ <;> rw [ht]
    · exact h.rcp_eq
    · rw [h.trk_eq]
    · dsimp only; rw [h.rcp_eq, h.web.pos]
    · dsimp only; rw [h.web.pos]
    · dsimp only; rw [h.trig_eq]
  | none =>
    have ht := takeTrigger_skips hu hi
    refine ⟨?_, ⟨u.trk.prevShort, ?_⟩, hpos, ?_, ?_, .inr ⟨?_, ?_⟩⟩ <;> rw [ht]
    · exact h.rcp_eq
    · rw [← h.trk_eq]; rfl
    · dsimp only; rw [h.rcp_eq, h.web.pos]
    · dsimp only; rw [h.web.pos]
    · dsimp only; rw [h.trig_eq]
    · dsimp only; rw [h.trig_eq]

/-- The next trigger lies ahead of W. -/
theorem Triggered.not_due {t : State} (h : Triggered s t rcp trk) (hp : 1 ≤ rcp.active.p) : t.triggerDue = false := by
  unfold State.triggerDue
  rw [h.next, h.pos_eq]
  simp; omega

/-- A count at which a trigger is due and the tracker rests is the trigger's work. -/
theorem countWork_trigger (hrun : s.rcp.run = .armed) (hm : s.trk.mode ≠ .off) (hrest : s.trackerRests s.pos.w)
    (ht : s.trig.t = s.pos.w) (ha : s.atTrigger s.pos.w rcp slots list trk) (hp : 1 ≤ rcp.active.p) :
    countWork false s = takeTrigger s := by
  have h := takeTrigger_triggered (trigger_found hrun hm ha)
  have hdue : s.triggerDue = true := by simp [State.triggerDue, hrun, ht]
  obtain ⟨b, htrk⟩ := h.trk_eq
  refine countWork_quiet (by rw [triggerWork, if_pos hdue]) (trackerDue_of_rests hrest)
    (trackerDue_of_rests ?_) (h.not_due hp)
  rw [h.pos_eq]
  exact rests_at_trigger hrest hm ha h.rcp_eq (by rw [htrk]) (by rw [htrk]) (by rw [htrk]) (by rw [htrk])

/-- A forward count at which a trigger is due and the tracker rests. -/
theorem encoderTransition_trigger {a b : Bool} (hf : forwardInputs s.pos.refA s.pos.refB a b) (hl : s.pos.l = 0)
    (hw : s.pos.w + 1 < 4294967295) (hrun : s.rcp.run = .armed) (hm : s.trk.mode ≠ .off)
    (hrest : s.trackerRests (s.pos.w + 1)) (ht : s.trig.t = s.pos.w + 1)
    (ha : s.atTrigger (s.pos.w + 1) rcp slots list trk) (hp : 1 ≤ rcp.active.p) :
    exec (.encoderTransition a b) s = .next (takeTrigger (s.atNextW a b)) := by
  rw [encoderTransition_countWork hf hl (by omega), decide_eq_false (by omega),
    countWork_trigger (s := s.atNextW a b) hrun hm hrest ht ha hp]

/-! ### The line skipped (R9) -/

/-- Settles O8: the trigger's second outcome, on what the swap has left. -/
theorem triggerSkipsLine : Obligations.TriggerSkipsLine := by
  intro a b s rcp slots list trk hf hl hw hrun hm hrest ht ha hp hfree
  refine ⟨_, encoderTransition_trigger hf hl hw hrun hm hrest ht ha hp, ?_⟩
  have h : Found (s.atNextW a b) _ rcp slots list trk := trigger_found hrun hm ha
  generalize hu : (if (s.atNextW a b).triggerSwaps then takeSwap (s.atNextW a b) else s.atNextW a b) = u at h
  have hnone : (forceSlots u).freeSlotNo = none :=
    freeSlotNo_none fun i hi => hfree i ((h.free_iff i).mp hi)
  have hpos : u.pos.w = s.pos.w + 1 := congrArg PositionCounter.w h.web.pos
  have htrig : u.trig = s.trig := h.trig_eq
  rw [takeTrigger_skips hu hnone]
  refine ⟨?_, fun i => ?_, h.forced, h.trk_eq, h.list_eq, h.ports_eq, h.rcp_eq, h.web.links, h.web.eng⟩
  · dsimp only; rw [htrig, hpos, h.rcp_eq]
  · show (forceSlots u).asm.slots.get i = _
    rw [forceSlots_get, htrig, h.asm_eq]

/-! ### The line opened (R8, R25 to R27, R52, R54) -/

/-- Settles O7: the trigger's first outcome, on what the swap has left. -/
theorem triggerOpensLine : Obligations.TriggerOpensLine := by
  intro a b i s rcp slots list trk hf hl hw hrun hm hrest ht ha hp hfree hlow
  refine ⟨_, encoderTransition_trigger hf hl hw hrun hm hrest ht ha hp, ?_⟩
  have h : Found (s.atNextW a b) _ rcp slots list trk := trigger_found hrun hm ha
  generalize hu : (if (s.atNextW a b).triggerSwaps then takeSwap (s.atNextW a b) else s.atNextW a b) = u at h
  have hsome : (forceSlots u).freeSlotNo = some i :=
    freeSlotNo_some ((h.free_iff i).mpr hfree) fun j hj hj' => hlow j hj ((h.free_iff j).mp hj')
  have hw' : (forceSlots u).pos.w = s.pos.w + 1 := congrArg PositionCounter.w h.web.pos
  have htrig : (forceSlots u).trig = s.trig := h.trig_eq
  have htrk : (forceSlots u).trk = trk := h.trk_eq
  have hrcp : (forceSlots u).rcp = rcp := h.rcp_eq
  have hrank : u.asm.lastRank = s.asm.lastRank := by rw [h.asm_eq]; rfl
  have hheads : ∀ k, (forceSlots u).expectedHeads.get k = true ↔
      (rcp.active.heads.get k).enabled = 1 ∧ (s.links.get k).state = .locked := fun k => by
    rw [expectedHeads_get, hrcp, show (forceSlots u).links = s.links from h.web.links]
  have hmode : (forceSlots u).trk.mode ≠ .off := by rw [htrk]; exact mode_at_trigger hm ha
  rw [takeTrigger_opens hu hsome]
  refine ⟨?_, ?_⟩
  · dsimp only
    rw [show u.trig = s.trig from htrig, show u.pos.w = s.pos.w + 1 from hw', h.rcp_eq]
  dsimp only
  rw [Quad.get_set_self, lineSlot_eq]
  dsimp only
  rw [← htrk, ← hrcp, ← hw']
  refine ⟨congrArg TriggerGenerator.n htrig, rfl, congrArg (· + 1) hrank, congrArg (· + 1) hrank,
    congrArg TriggerGenerator.skipped htrig, rfl, rfl, rfl, hrcp ▸ hheads,
    fun k => ⟨Quad.get_fill _ k, Quad.get_fill _ k⟩, by simp only [hheads, hrcp], fun hc => ?_, fun hc hq => ?_,
    fun hc q hq hqs => ⟨fun hqe => ?_, fun hqe => ?_⟩, fun j hj => ?_, h.forced, ?_, rfl, h.web.links, h.web.eng⟩
  · rw [lineZone_continuous hc]; exact ⟨rfl, rfl⟩
  · rw [lineZone_noPatch hc hq]; exact ⟨rfl, rfl⟩
  · obtain ⟨hcoat, hlead, htrail⟩ := zoneOf_flags
      (decide ((forceSlots u).pos.w < q.s + (forceSlots u).rcp.active.patch.leadLen))
      (decide (q.endW ≤ (forceSlots u).pos.w + (forceSlots u).rcp.active.patch.trailLen))
    rw [lineZone_coated hc hmode hq hqs hqe]
    exact ⟨hcoat, by rw [hlead, decide_eq_true_eq], by rw [htrail, decide_eq_true_eq], rfl, rfl, rfl, rfl⟩
  · rw [lineZone_behind hc hmode hq hqe]; exact ⟨rfl, rfl⟩
  · rw [Quad.get_set_of_ne _ _ hj, forceSlots_get, show u.trig = s.trig from htrig, h.asm_eq]
  · rw [withSkipReport_list, htrig, forceSlots_list, h.list_eq]

end Sys2Proof.Machine
end

section
/-! SUPPORT. A forward count with no trigger due: the works at their free places (R28, assumption 7), the position limit
(R6, R12) and the coat-to-gap swap (R10, R28). -/

namespace Sys2Proof.Machine

variable {s u x : State} {rcp : RecipeStore} {slots : Quad Slot} {list : DefectList} {trk : Tracker}

/-! ### The free places -/

/-- A work at a free place is left for later or done now, but for the count of choices drawn; it is done only when it is
due, and left only when it is not due or something else is. -/
theorem nowOrLater_cases (due others : Bool) (work : State → State) (s : State) :
    (∃ n, nowOrLater due others work s = { s with freeCount := n }) ∨
      due = true ∧ ∃ n, nowOrLater due others work s = work { s with freeCount := n } := by
  unfold nowOrLater drawChoice
  cases due
  · exact .inl ⟨s.freeCount, rfl⟩
  · cases others
    · exact .inr ⟨rfl, s.freeCount, rfl⟩
    · cases Config.orderChoice s.freeCount
      · exact .inl ⟨s.freeCount + 1, rfl⟩
      · exact .inr ⟨rfl, s.freeCount + 1, rfl⟩

/-- Below the limit a free place is the trigger's alone. -/
theorem freePlace_below (s : State) :
    freePlace (s, false) = (nowOrLater s.triggerDue (s.trackerDue || false) triggerWork s, false) := by
  simp [freePlace]

/-- Below the limit and with no trigger due nothing happens at a free place. -/
theorem freePlace_still (h : s.triggerDue = false) : freePlace (s, false) = (s, false) := by
  rw [freePlace_below, h]; simp [nowOrLater]

theorem triggerWork_still (h : s.triggerDue = false) : triggerWork s = s := by
  simp [triggerWork, h]

/-- A count at whose first place everything due is done is that work. -/
theorem countWork_of_first {limit : Bool} (h : freePlace (s, limit) = (u, false)) (hk : u.trackerDue = false)
    (ht : u.triggerDue = false) : countWork limit s = u := by
  obtain ⟨⟨hgap, hmiss⟩, hpop⟩ : (u.coatToGapDue = false ∧ u.missDue = false) ∧ u.popDue = false := by
    simpa [State.trackerDue] using hk
  simp only [countWork, h, coatToGapWork_quiet hgap, missWork_quiet hmiss, popWork_quiet hpop, freePlace_still ht,
    triggerWork_still ht, Bool.false_eq_true, if_false]

/-- At the limit, with nothing else due, the first place is the limit's. -/
theorem freePlace_limit (hk : s.trackerDue = false) (ht : s.triggerDue = false) :
    freePlace (s, true) = (positionLimit s, false) := by
  simp [freePlace, nowOrLater, hk, ht]

/-! ### A count in IDLE (R2, R6) -/

theorem trackerDue_off (h : s.trk.mode = .off) : s.trackerDue = false := by
  simp [State.trackerDue, State.coatToGapDue, State.missDue, State.popDue, Tracker.running, h]

theorem triggerDue_unarmed (h : s.rcp.run ≠ .armed) : s.triggerDue = false := by
  simp [State.triggerDue, h]

theorem triggerDue_ahead (h : s.pos.w < s.trig.t) : s.triggerDue = false := by
  simp only [State.triggerDue, Bool.and_eq_false_iff, decide_eq_false_iff_not]
  exact .inr (by omega)

/-- In IDLE with the tracker OFF a count below the limit does no work. -/
theorem countWork_idle (hrun : s.rcp.run = .idle) (hm : s.trk.mode = .off) : countWork false s = s := by
  have ht : s.triggerDue = false := triggerDue_unarmed (by simp [hrun])
  exact countWork_of_first (freePlace_still ht) (trackerDue_off hm) ht

/-- In IDLE with the tracker OFF the count that reaches the limit appends POSITION_LIMIT with argument 0. -/
theorem countWork_idle_limit (hrun : s.rcp.run = .idle) (hm : s.trk.mode = .off) :
    countWork true s = appendEvent .positionLimit 0 s := by
  have ht : s.triggerDue = false := triggerDue_unarmed (by simp [hrun])
  have hlimit : positionLimit s = appendEvent .positionLimit 0 s := by
    rw [positionLimit, if_neg (by simp [hrun])]
  refine countWork_of_first (hlimit ▸ freePlace_limit (trackerDue_off hm) ht) (trackerDue_off hm)
    (triggerDue_unarmed ?_)
  simp [hrun]

/-! ### The position limit in a run (R6, R12, R171) -/

/-- The beginning of a stop at the trigger generator and the list (R9, R12). -/
theorem beginStop_report (n : Nat) (s : State) :
    (beginStop n s).trig = { s.trig with skipped := 0 } ∧ (beginStop n s).list = s.withSkipReport.list := by
  unfold beginStop State.withSkipReport
  dsimp only
  rw [discardRetiring_eq, reportSkipped_eq]
  dsimp only
  refine ⟨rfl, ?_⟩
  split <;> rfl

/-- What the position limit leaves of an ARMED machine (R6, R64, R171). -/
structure StoppedAtLimit (t : State) : Prop where
  run : t.rcp.run = .stopping
  cause : t.rcp.stopBy = 3
  frozen : t.trk.frozen = true
  skipped : t.trig.skipped = 0
  slots : ∀ i, (t.asm.slots.get i).state ≠ .opened ∧ (t.asm.slots.get i).state ≠ .ready
  reported : ∃ q ∈ t.list.records, q.w = 4294967295 ∧ q.body = .event .positionLimit 1

theorem positionLimit_armed (h : s.rcp.run = .armed) :
    positionLimit s = beginStop 3 (appendEvent .positionLimit 1 s) := by
  rw [positionLimit, if_pos h]

/-- POSITION_LIMIT and, when lines were skipped, LINES_SKIPPED. -/
theorem positionLimit_list (h : s.rcp.run = .armed) :
    (positionLimit s).list = if s.trig.skipped = 0 then s.list.push s.pos.w (.event .positionLimit 1)
      else (s.list.push s.pos.w (.event .positionLimit 1)).push s.pos.w (.event .linesSkipped s.trig.skipped) := by
  obtain ⟨-, hlist⟩ := beginStop_report 3 (appendEvent .positionLimit 1 s)
  rw [positionLimit_armed h, hlist, withSkipReport_list]; rfl

theorem stopped_state (x : Slot) : x.stopped.state ≠ .opened ∧ x.stopped.state ≠ .ready := by
  unfold Slot.stopped
  split
  · exact ⟨nofun, nofun⟩
  · rename_i h; exact not_or.mp h

theorem positionLimit_stops (h : s.rcp.run = .armed) (hw : s.pos.w = 4294967295) :
    StoppedAtLimit (positionLimit s) := by
  obtain ⟨htrk, hasm, hrcp⟩ := beginStop_control 3 (appendEvent .positionLimit 1 s)
  obtain ⟨htrig, -⟩ := beginStop_report 3 (appendEvent .positionLimit 1 s)
  have hlist := positionLimit_list h
  rw [positionLimit_armed h] at hlist ⊢
  refine ⟨by rw [hrcp], by rw [hrcp], by rw [htrk], by rw [htrig], fun i => ?_, ?_⟩
  · rw [hasm]
    dsimp only
    rw [Quad.get_map]
    exact stopped_state _
  · have hmem : ∀ xs : List (Nat × RecordBody), xs.length ≤ 1 →
        ∃ q ∈ (s.list.pushAll ((4294967295, .event .positionLimit 1) :: xs)).records,
          q.w = 4294967295 ∧ q.body = .event .positionLimit 1 := fun xs hxs =>
      pushAll_retained s.list _ (by simp; omega) (4294967295, .event .positionLimit 1) (List.mem_cons_self ..)
    rw [hlist, hw]
    split
    · exact hmem [] (by simp)
    · exact hmem [(4294967295, .event .linesSkipped s.trig.skipped)] (by simp)

/-- Once the stop has begun nothing more is due at the count. -/
theorem StoppedAtLimit.still (h : StoppedAtLimit s) :
    s.triggerDue = false ∧ s.coatToGapDue = false ∧ s.missDue = false ∧ s.popDue = false := by
  refine ⟨triggerDue_unarmed (by simp [h.run]), ?_, ?_, ?_⟩
  · simp [State.coatToGapDue, h.frozen]
  · simp [State.missDue, h.frozen]
  · simp [State.popDue, Tracker.running, h.frozen]

theorem StoppedAtLimit.trackerDue (h : StoppedAtLimit s) : s.trackerDue = false := by
  obtain ⟨-, hgap, hmiss, hpop⟩ := h.still
  simp [State.trackerDue, hgap, hmiss, hpop]

/-- Of a machine in the count that reaches the limit in a run, with the mark whether the limit is still to act. -/
inductive AtLimit : State × Bool → Prop
  | pending {s : State} (run : s.rcp.run = .armed) (w : s.pos.w = 4294967295) : AtLimit (s, true)
  | stopped {s : State} (h : StoppedAtLimit s) : AtLimit (s, false)

theorem triggerWork_run (s : State) : (triggerWork s).rcp.run = s.rcp.run := by
  unfold triggerWork; split
  · exact takeTrigger_run s
  · rfl

/-- A free place keeps the limit pending, or the limit acts at it. -/
theorem freePlace_atLimit {p : State × Bool} (h : AtLimit p) : AtLimit (freePlace p) := by
  cases h with
  | stopped h => rw [freePlace_still h.still.1]; exact .stopped h
  | @pending s hrun hw =>
    have hnow : ∀ due others, (nowOrLater due others triggerWork s).rcp.run = .armed ∧
        (nowOrLater due others triggerWork s).pos.w = 4294967295 := fun due others => by
      refine ⟨?_, by rw [(nowOrLater_web due others triggerWork_web s).pos]; exact hw⟩
      rcases nowOrLater_cases due others triggerWork s with ⟨n, h⟩ | ⟨-, n, h⟩ <;> rw [h]
      · exact hrun
      · rw [triggerWork_run]; exact hrun
    unfold freePlace
    dsimp only
    obtain ⟨hr, hp⟩ := hnow s.triggerDue (s.trackerDue || true)
    generalize nowOrLater s.triggerDue (s.trackerDue || true) triggerWork s = v at hr hp
    simp only [Bool.true_and, if_true]
    split
    · unfold drawChoice
      cases Config.orderChoice v.freeCount
      · exact .pending hr hp
      · exact .stopped (positionLimit_stops (s := { v with freeCount := v.freeCount + 1 }) hr hp)
    · exact .stopped (positionLimit_stops hr hp)

/-- A work that keeps the run state and does nothing once the stop has begun. -/
theorem AtLimit.work {p : State × Bool} (h : AtLimit p) {work : State → State} (hweb : ∀ s, WebWork s (work s))
    (hrun : ∀ s, (work s).rcp.run = s.rcp.run) (hstill : ∀ s, StoppedAtLimit s → work s = s) :
    AtLimit (work p.1, p.2) := by
  cases h with
  | @pending s h hw => exact .pending ((hrun s).trans h) ((congrArg PositionCounter.w (hweb s).pos).trans hw)
  | @stopped s h => dsimp only; rw [hstill s h]; exact .stopped h

theorem coatToGapWork_run (s : State) : (coatToGapWork s).rcp.run = s.rcp.run := by
  unfold coatToGapWork; split
  · exact swapPoint_run s
  · rfl

theorem pushStart_rcp (pos : Nat) (err : Int) (kind : StartKind) (s : State) :
    (pushStart pos err kind s).rcp = s.rcp := by
  unfold pushStart; dsimp only; split
  · rfl
  · split <;> rfl

theorem missMark_rcp (s : State) : (missMark s).rcp = s.rcp := by
  unfold missMark; dsimp only; split
  · exact pushStart_rcp _ _ _ _
  · rfl

theorem missMarks_rcp (n : Nat) : ∀ s, (missMarks n s).rcp = s.rcp := by
  induction n with
  | zero => exact fun _ => rfl
  | succ n ih =>
    intro s
    unfold missMarks; split
    · rw [ih, missMark_rcp]
    · rfl

theorem popStarts_rcp (n : Nat) : ∀ s, (popStarts n s).rcp = s.rcp := by
  induction n with
  | zero => exact fun _ => rfl
  | succ n ih =>
    intro s
    unfold popStarts; split
    · rfl
    · split
      · rw [ih]; rfl
      · rfl

theorem popWork_rcp (s : State) : (popWork s).rcp = s.rcp := by
  unfold popWork; split
  · exact popStarts_rcp _ s
  · rfl

/-- The count that reaches the limit in a run stops it, whatever else is due (R6, R12). -/
theorem countWork_stops (hrun : s.rcp.run = .armed) (hw : s.pos.w = 4294967295) :
    StoppedAtLimit (countWork true s) := by
  have h1 := freePlace_atLimit (.pending hrun hw)
  have h2 := freePlace_atLimit (h1.work coatToGapWork_web coatToGapWork_run
    fun s h => coatToGapWork_quiet h.still.2.1)
  have h3 := freePlace_atLimit (h2.work missWork_web (fun s => congrArg RecipeStore.run (missMarks_rcp _ s))
    fun s h => missWork_quiet h.still.2.2.1)
  have h4 := freePlace_atLimit (h3.work popWork_web (fun s => congrArg RecipeStore.run (popWork_rcp s))
    fun s h => popWork_quiet h.still.2.2.2)
  have hend : ∀ p, AtLimit p → StoppedAtLimit (triggerWork (if p.2 then positionLimit p.1 else p.1)) := by
    rintro _ (⟨hr, hp⟩ | h)
    · have h := positionLimit_stops hr hp
      rw [if_pos rfl, triggerWork_still h.still.1]; exact h
    · rw [if_neg (by simp), triggerWork_still h.still.1]; exact h
  exact hend _ h4

/-- With nothing else due the limit's stop is the whole work of the count. -/
theorem countWork_limit (hrun : s.rcp.run = .armed) (hw : s.pos.w = 4294967295) (hk : s.trackerDue = false)
    (ht : s.triggerDue = false) : countWork true s = positionLimit s := by
  have h := positionLimit_stops hrun hw
  exact countWork_of_first (freePlace_limit hk ht) h.trackerDue h.still.1

/-! ### The swap at the coat-to-gap transition (R10, R28) -/

/-- At the coat-to-gap transition a waiting swap is taken with its pitch, and then only a trigger can be due. -/
theorem countWork_coatToGap (ht : s.triggerDue = false) (hgap : s.coatToGapDue = true) (hwait : s.swapWaits = true)
    (hx : adoptPitch (takeSwap s) = x) :
    countWork false s =
      let p2 := freePlace (x, false)
      let p3 := freePlace (missWork p2.1, p2.2)
      let p4 := freePlace (popWork p3.1, p3.2)
      triggerWork (if p4.2 then positionLimit p4.1 else p4.1) := by
  simp only [countWork, freePlace_still ht, coatToGapWork, hgap, swapPoint, hwait, if_true, hx]

/-- With no trigger due after the swap, the count is the swap. -/
theorem countWork_coatToGap_ahead (ht : s.triggerDue = false) (hgap : s.coatToGapDue = true)
    (hwait : s.swapWaits = true) (hx : adoptPitch (takeSwap s) = x) (hmiss : x.missDue = false)
    (hpop : x.popDue = false) (htx : x.triggerDue = false) : countWork false s = x := by
  rw [countWork_coatToGap ht hgap hwait hx]
  simp only [freePlace_still htx, missWork_quiet hmiss, popWork_quiet hpop, triggerWork_still htx, Bool.false_eq_true,
    if_false]

/-- Of a machine in the count at which a swap has brought T to W or below: the trigger is still to come, or done. -/
def TriggerOwed (x y : State) : Prop :=
  (∃ n, y = { x with freeCount := n }) ∨ Triggered x y x.rcp x.trk

/-- The tracker has no miss and no pop before or after the trigger. -/
theorem TriggerOwed.still {y : State} (h : TriggerOwed x y) (hmiss : x.missDue = false) (hpop : x.popDue = false) :
    y.missDue = false ∧ y.popDue = false := by
  rcases h with ⟨n, rfl⟩ | h
  · exact ⟨hmiss, hpop⟩
  · obtain ⟨b, hb⟩ := h.trk_eq
    constructor
    · unfold State.missDue at hmiss ⊢; rw [hb, h.rcp_eq, h.pos_eq]; exact hmiss
    · unfold State.popDue at hpop ⊢; rw [hb, h.pos_eq]; exact hpop

section
variable (hpending : x.rcp.pending = none) (hdue : x.triggerDue = true) (hp : 1 ≤ x.rcp.active.p)
include hpending hdue

/-- The trigger that is due, after any number of choices drawn. -/
theorem triggerWork_owed (n : Nat) : Triggered x (triggerWork { x with freeCount := n }) x.rcp x.trk := by
  have hno : ({ x with freeCount := n } : State).triggerSwaps = false := by
    simp [State.triggerSwaps, State.swapWaits, hpending]
  have h : Triggered { x with freeCount := n } (takeTrigger { x with freeCount := n }) x.rcp x.trk := by
    refine takeTrigger_triggered (slots := x.asm.slots) (list := x.list) ?_
    rw [hno]
    exact ⟨rfl, rfl, rfl, rfl, rfl, fun _ => rfl, .same _, fun _ => ⟨rfl, rfl⟩⟩
  rw [triggerWork, if_pos (show ({ x with freeCount := n } : State).triggerDue = true from hdue)]
  exact ⟨h.rcp_eq, h.trk_eq, h.pos_eq, h.next, h.last, h.number⟩

include hp

theorem TriggerOwed.at_place {y : State} (h : TriggerOwed x y) :
    ∃ z, freePlace (y, false) = (z, false) ∧ TriggerOwed x z := by
  rcases h with ⟨n, rfl⟩ | h
  · rw [freePlace_below]
    refine ⟨_, rfl, ?_⟩
    rcases nowOrLater_cases ({ x with freeCount := n } : State).triggerDue
      (({ x with freeCount := n } : State).trackerDue || false) triggerWork { x with freeCount := n }
      with ⟨m, hm⟩ | ⟨-, m, hm⟩ <;> rw [hm]
    · exact .inl ⟨m, rfl⟩
    · exact .inr (triggerWork_owed hpending hdue m)
  · exact ⟨y, freePlace_still (h.not_due hp), .inr h⟩

theorem TriggerOwed.at_end {y : State} (h : TriggerOwed x y) : Triggered x (triggerWork y) x.rcp x.trk := by
  rcases h with ⟨n, rfl⟩ | h
  · exact triggerWork_owed hpending hdue n
  · rw [triggerWork_still (h.not_due hp)]; exact h

/-- With T at W or below after the swap, the count ends with the trigger done. -/
theorem countWork_coatToGap_due (hmiss : x.missDue = false) (hpop : x.popDue = false) (ht : s.triggerDue = false)
    (hgap : s.coatToGapDue = true) (hwait : s.swapWaits = true) (hx : adoptPitch (takeSwap s) = x) :
    Triggered x (countWork false s) x.rcp x.trk := by
  rw [countWork_coatToGap ht hgap hwait hx]
  obtain ⟨y, hy, hyo⟩ := TriggerOwed.at_place hpending hdue hp (.inl ⟨x.freeCount, rfl⟩)
  obtain ⟨z, hz, hzo⟩ := TriggerOwed.at_place hpending hdue hp hyo
  obtain ⟨v, hv, hvo⟩ := TriggerOwed.at_place hpending hdue hp hzo
  have hx' : freePlace (x, false) = (y, false) := hy
  simp only [hx', missWork_quiet (hyo.still hmiss hpop).1, hz, popWork_quiet (hzo.still hmiss hpop).2, hv,
    Bool.false_eq_true, if_false]
  exact hvo.at_end hpending hdue hp

end

/-! ### The three parts of the statement -/

/-- The scheduler at the new W (R155, R156). -/
theorem atNextW_eq (s : State) (a b : Bool) :
    s.atNextW a b = { s with
      pos := { s.pos with refA := a, refB := b, e := s.pos.e + 1, w := s.pos.w + 1 }
      mark := { s.mark with
        queue := s.mark.queue.filter (fun e => decide (s.pos.w + 1 < e.stop))
        latch := s.mark.latch && s.mark.queue.all (fun e => decide (s.pos.w + 1 < e.stop))
        mk0 := s.mark.queue.any (fun e => decide (e.marker = .mk0 ∧ e.covers (s.pos.w + 1)))
        mk1 := s.mark.queue.any (fun e => decide (e.marker = .mk1 ∧ e.covers (s.pos.w + 1))) } } := by
  rw [State.atNextW, settleMarks, settle_eq]

/-- The tracker's transition from coat to gap is due where the current patch ends (R28). -/
theorem coatToGapDue_of_end {p : Patch} (hm : s.trk.mode = .track) (hf : s.trk.frozen = false)
    (hp : s.trk.patch = some p) (he : p.endW = s.pos.w) : s.coatToGapDue = true := by
  simp [State.coatToGapDue, hm, hf, hp, he]

/-- The position limit of a run with nothing else due, block by block (R6, R12, R171). -/
theorem countWork_limit_blocks (hrun : s.rcp.run = .armed) (hw : s.pos.w = 4294967295) (hk : s.trackerDue = false)
    (ht : s.triggerDue = false) :
    (countWork true s).trk = { s.trk with frozen := true } ∧ (countWork true s).trig = { s.trig with skipped := 0 } ∧
      (countWork true s).list = if s.trig.skipped = 0 then s.list.push 4294967295 (.event .positionLimit 1)
        else (s.list.push 4294967295 (.event .positionLimit 1)).push 4294967295
          (.event .linesSkipped s.trig.skipped) := by
  obtain ⟨htrk, -, -⟩ := beginStop_control 3 (appendEvent .positionLimit 1 s)
  obtain ⟨htrig, -⟩ := beginStop_report 3 (appendEvent .positionLimit 1 s)
  have hlist := positionLimit_list hrun
  rw [hw] at hlist
  rw [countWork_limit hrun hw hk ht]
  rw [positionLimit_armed hrun] at hlist ⊢
  exact ⟨htrk, htrig, hlist⟩

/-- The swap at a coat-to-gap transition (R10, R28, R168): the machine `x` after it, which ends the count when the new T
lies ahead, and which is triggered at once when it does not. -/
theorem countWork_swap_at_end {p : Patch} {c : PendingCopy} (hrun : s.rcp.run = .armed) (hahead : s.pos.w < s.trig.t)
    (hm : s.trk.mode = .track) (hfrozen : s.trk.frozen = false) (hpatch : s.trk.patch = some p)
    (hend : p.endW = s.pos.w) (hpending : s.rcp.pending = some c) (hretiring : s.rcp.retiring = none)
    (hswap : s.swapsTo s.pos.w c rcp slots list trk) (hqueue : ∀ e ∈ trk.queue, s.pos.w < e.pos)
    (hpred : trk.mode = .track → s.pos.w ≤ trk.pred + c.copy.patch.wm) :
    ∃ x : State, x.rcp = rcp ∧ x.asm = { s.asm with slots := slots } ∧ x.list = list ∧ x.trk = trk ∧
      x.pos = s.pos ∧ x.trig = { s.trig with t := s.trig.lastTrigger + c.copy.p } ∧
      (s.pos.w < s.trig.lastTrigger + c.copy.p → countWork false s = x) ∧
      (s.trig.lastTrigger + c.copy.p ≤ s.pos.w → 1 ≤ c.copy.p → Triggered x (countWork false s) rcp trk) := by
  have h : Found s (takeSwap s) rcp slots list trk := takeSwap_found hpending hrun (by rw [hm]; simp) hswap
  have hactive : rcp.active = c.copy := by rw [hswap.1]
  have hnone : rcp.pending = none := by rw [hswap.1]
  generalize hx : adoptPitch (takeSwap s) = x
  have hxrcp : x.rcp = rcp := by rw [← hx]; exact h.rcp_eq
  have hxtrk : x.trk = trk := by rw [← hx]; exact h.trk_eq
  have hxpos : x.pos = s.pos := by rw [← hx]; exact h.web.pos
  have hxtrig : x.trig = { s.trig with t := s.trig.lastTrigger + c.copy.p } := by
    rw [← hx, adoptPitch_trig, h.trig_eq, h.rcp_eq, hactive]
  have hmiss : x.missDue = false :=
    missDue_of_within (by rw [hxtrk, hxpos, hxrcp, hactive]; exact hpred)
  have hpop : x.popDue = false := popDue_of_ahead (by rw [hxtrk, hxpos]; exact hqueue)
  have ht : s.triggerDue = false := triggerDue_ahead hahead
  have hgap : s.coatToGapDue = true := coatToGapDue_of_end hm hfrozen hpatch hend
  have hwait : s.swapWaits = true := by simp [State.swapWaits, hpending, hretiring]
  refine ⟨x, hxrcp, by rw [← hx]; exact h.asm_eq, by rw [← hx]; exact h.list_eq, hxtrk, hxpos, hxtrig, fun hlt => ?_,
    fun hle hp => ?_⟩
  · exact countWork_coatToGap_ahead ht hgap hwait hx hmiss hpop (triggerDue_ahead (by rw [hxpos, hxtrig]; exact hlt))
  · have hdue : x.triggerDue = true := by
      simp only [State.triggerDue, hxrcp, hxpos, hxtrig, Bool.and_eq_true, decide_eq_true_eq, beq_iff_eq]
      exact ⟨by rw [hswap.1]; exact hrun, hle⟩
    have hdone := countWork_coatToGap_due (by rw [hxrcp]; exact hnone) hdue
      (by rw [hxrcp, hactive]; exact hp) hmiss hpop ht hgap hwait hx
    rwa [hxrcp, hxtrk] at hdone

/-- Settles O5: in IDLE, at the limit in a run, and at the coat-to-gap swap. -/
theorem forwardCountNoTrigger : Obligations.ForwardCountNoTrigger := by
  intro a b s hf hl hw
  rw [encoderTransition_countWork hf hl hw]
  refine ⟨fun hrun hm => ⟨s.atNextW a b, atNextW_eq s a b, fun hlt => ?_, fun heq => ?_⟩, fun hrun heq => ?_, ?_⟩
  · rw [decide_eq_false (by omega), countWork_idle (s := s.atNextW a b) hrun hm]
  · rw [decide_eq_true heq, countWork_idle_limit (s := s.atNextW a b) hrun hm, ← heq]; rfl
  · have hwn : (s.atNextW a b).pos.w = 4294967295 := heq
    have hstop := countWork_stops (s := s.atNextW a b) hrun hwn
    rw [decide_eq_true heq]
    refine ⟨_, rfl, hstop.run, hstop.cause, hstop.frozen, hstop.skipped, hstop.slots, hstop.reported,
      fun hrest hahead => ?_⟩
    exact countWork_limit_blocks (s := s.atNextW a b) hrun hwn (trackerDue_of_rests (by rw [hwn]; exact hrest))
      (triggerDue_ahead (by rw [hwn]; exact hahead))
  · intro p c rcp slots list trk hrun hlt hahead hm hfrozen hpatch hend hpending hretiring hswap hqueue hpred
    obtain ⟨x, hrcp, hasm, hlist, htrk, hpos, htrig, hswapped, htriggered⟩ :=
      countWork_swap_at_end (s := s.atNextW a b) hrun hahead hm hfrozen hpatch hend hpending hretiring hswap hqueue hpred
    have hactive : rcp.active = c.copy := by rw [hswap.1]
    rw [decide_eq_false (by omega)]
    constructor
    · intro hnext
      exact ⟨x, congrArg _ (hswapped hnext), hrcp, hasm, hlist, htrk, htrig⟩
    · intro hnext hp
      have hdone := htriggered hnext hp
      refine ⟨_, rfl, hdone.rcp_eq, ?_, ?_, ?_⟩
      · rw [hdone.next, hpos, hactive]; rfl
      · rw [hdone.last, hpos]; rfl
      · rcases hdone.number with hn | ⟨hn, hskip⟩
        · exact .inl (by rw [hn, htrig]; rfl)
        · exact .inr ⟨by rw [hn, htrig]; rfl, by rw [hskip, htrig]; rfl⟩

end Sys2Proof.Machine
end

section
/-! SUPPORT. The pending start queue (R23, R24): what a push, a pop and a mark edge do to it, and the condition that
every step keeps (O57). -/

namespace Sys2Proof.Machine

/-! ### Steps that bring no new start -/

/-- The condition of the pending start queue is kept from `s` to `t` (R16, R17, R23). -/
def KeepsStarts (s t : State) : Prop := s.startsOk → t.startsOk

theorem KeepsStarts.trans {s t u : State} (h : KeepsStarts s t) (k : KeepsStarts t u) : KeepsStarts s u :=
  fun hs => k (h hs)

/-- Starts may leave the queue, and the tracker may leave OFF. -/
theorem KeepsStarts.of_sublist {s t : State} (hq : t.trk.queue.Sublist s.trk.queue)
    (hm : t.trk.mode = .off → s.trk.mode = .off) : KeepsStarts s t := fun ⟨hlen, hsorted, hoff⟩ =>
  ⟨hq.length_le.trans hlen, hsorted.sublist hq, fun h => List.sublist_nil.mp (hoff (hm h) ▸ hq)⟩

theorem KeepsStarts.of_trk {s t : State} (h : t.trk = s.trk) : KeepsStarts s t :=
  .of_sublist (h ▸ .refl _) fun hm => h ▸ hm

/-- Work that starts from a machine with the same tracker. -/
theorem KeepsStarts.behind {s u t : State} (k : KeepsStarts u t) (h : u.trk = s.trk) : KeepsStarts s t :=
  (KeepsStarts.of_trk h).trans k

/-! ### A push (R23) -/

/-- A start of a new position waits in its place when the queue has room. -/
theorem pushStart_waits {pos : Nat} {s : State} (err : Int) (kind : StartKind)
    (hnew : ∀ e ∈ s.trk.queue, e.pos ≠ pos) (hroom : s.trk.queue.length < 4) :
    pushStart pos err kind s =
      { s with trk := { s.trk with queue := insertStart ⟨pos, err, kind⟩ s.trk.queue } } := by
  have hany : (s.trk.queue.any fun e => e.pos == pos) = false := by simpa using hnew
  simp [pushStart, hany, startCapacity, hroom]

/-- A start whose position waits already is discarded and counted. -/
theorem pushStart_duplicate {pos : Nat} {s : State} (err : Int) (kind : StartKind)
    (hdup : ∃ e ∈ s.trk.queue, e.pos = pos) :
    pushStart pos err kind s =
      { s with trk := { s.trk with startsDropped := min (s.trk.startsDropped + 1) 65535 } } := by
  have hany : (s.trk.queue.any fun e => e.pos == pos) = true := by simpa using hdup
  simp only [pushStart, hany, if_true]; rfl

/-- A start of a new position that finds the queue full is dropped and counted, and registration is lost. -/
theorem pushStart_full {pos : Nat} {s : State} (err : Int) (kind : StartKind)
    (hnew : ∀ e ∈ s.trk.queue, e.pos ≠ pos) (hfull : s.trk.queue.length = 4) :
    pushStart pos err kind s = append s.pos.w (.event .regLost 2) { s with
      trk := { s.trk with startsDropped := min (s.trk.startsDropped + 1) 65535, mode := .lost } } := by
  have hany : (s.trk.queue.any fun e => e.pos == pos) = false := by simpa using hnew
  simp only [pushStart, hany, hfull, startCapacity, lt_irrefl, if_false, Bool.false_eq_true]; rfl

/-- A push keeps the queue in order within its four entries. -/
theorem pushStart_keeps (pos : Nat) (err : Int) (kind : StartKind) {s : State} (hm : s.trk.mode ≠ .off) :
    KeepsStarts s (pushStart pos err kind s) := by
  intro hs
  have ⟨hlen, hsorted, _⟩ := hs
  by_cases hdup : ∃ e ∈ s.trk.queue, e.pos = pos
  · rw [pushStart_duplicate err kind hdup]
    exact KeepsStarts.of_sublist (.refl _) id hs
  · have hnew : ∀ e ∈ s.trk.queue, e.pos ≠ pos := fun e he h => hdup ⟨e, he, h⟩
    rcases Nat.lt_or_eq_of_le hlen with hroom | hfull
    · rw [pushStart_waits err kind hnew hroom]
      refine ⟨?_, insertStart_sorted _ hsorted hnew, fun h => absurd h hm⟩
      rw [(insertStart_perm _ _).length_eq]
      exact hroom
    · rw [pushStart_full err kind hnew hfull]
      exact KeepsStarts.of_sublist (s := s) (.refl _) nofun hs

/-! ### Pops, misses and mark edges (R19 to R22, R24) -/

theorem popStarts_keeps (n : Nat) : ∀ s, KeepsStarts s (popStarts n s) := by
  induction n with
  | zero => exact fun _ => id
  | succ n ih =>
    intro s
    unfold popStarts
    split
    · exact id
    · rename_i e rest hq
      split
      · refine KeepsStarts.trans (t := popStart e rest s) (.of_sublist ?_ id) (ih _)
        rw [hq]
        exact List.sublist_cons_self _ _
      · exact id

theorem popWork_keeps (s : State) : KeepsStarts s (popWork s) := by
  unfold popWork
  split
  · exact popStarts_keeps _ s
  · exact id

theorem missMark_keeps {s : State} (hm : s.trk.mode ≠ .off) : KeepsStarts s (missMark s) := by
  have h1 : KeepsStarts s (appendEvent .markMissed (s.trk.misses + 1) { s with
      trk := { s.trk with misses := s.trk.misses + 1, marksMissed := bump s.trk.marksMissed } }) :=
    .of_sublist (.refl _) id
  unfold missMark
  dsimp only
  split
  · exact (h1.trans (pushStart_keeps _ _ _ hm)).trans (.of_sublist (.refl _) id)
  · exact h1.trans (.of_sublist (.refl _) nofun)

theorem missMarks_keeps (n : Nat) : ∀ s, KeepsStarts s (missMarks n s) := by
  induction n with
  | zero => exact fun _ => id
  | succ n ih =>
    intro s
    unfold missMarks
    split
    · rename_i hdue
      refine (missMark_keeps fun hm => ?_).trans (ih _)
      simp [State.missDue, hm] at hdue
    · exact id

theorem acquire_keeps (s : State) : KeepsStarts s (acquire s) := by
  unfold acquire
  dsimp only
  split
  · refine (KeepsStarts.trans ?_ (pushStart_keeps _ _ _ ?_)).trans (popWork_keeps _)
    · exact .of_sublist (.refl _) nofun
    · exact nofun
  · exact .of_sublist (.refl _) id

theorem edgeInTrack_keeps {s : State} (hm : s.trk.mode = .track) : KeepsStarts s (edgeInTrack s) := by
  unfold edgeInTrack
  dsimp only
  split
  · exact .of_sublist (.refl _) id
  · refine (KeepsStarts.trans ?_ (pushStart_keeps _ _ _ ?_)).trans (popWork_keeps _)
    · exact .of_sublist (.refl _) id
    · simp [hm]

theorem takeEdge_keeps (s : State) : KeepsStarts s (takeEdge s) := by
  have hbacklog : KeepsStarts s { s with trk := { s.trk with backlogEdges := bump s.trk.backlogEdges } } :=
    .of_sublist (.refl _) id
  unfold takeEdge
  split
  · exact id
  · cases hm : s.trk.mode
    case off | continuous => exact id
    case seek | lost => dsimp only; split; exacts [hbacklog, acquire_keeps s]
    case track => dsimp only; split; exacts [hbacklog, edgeInTrack_keeps hm]

/-! ### Swaps, triggers and counts (R8, R28, R29) -/

/-- An adoption may empty the queue, and turns no tracker OFF (R29). -/
theorem adopt_keeps (f : PatchFields) {s t : State} (h : t.trk = s.trk.adopt f) : KeepsStarts s t := by
  by_cases hm : s.trk.mode = .off
  · exact .of_trk (h.trans (by simp [Tracker.adopt, hm]))
  · refine .of_sublist ?_ fun hoff => absurd (h ▸ hoff) (adopt_mode_ne_off hm f)
    rw [h]
    rcases adopt_queue hm f with hq | hq <;> rw [hq]
    exact List.nil_sublist _

theorem takeSwap_keeps (s : State) : KeepsStarts s (takeSwap s) := by
  cases hp : s.rcp.pending with
  | none => exact .of_trk (by simp [takeSwap, hp])
  | some c =>
    rw [takeSwap_some hp]
    by_cases hrun : s.rcp.run = .armed
    · exact adopt_keeps c.copy.patch (by simp [hrun])
    · exact .of_trk (by simp [hrun])

theorem swapPoint_keeps (s : State) : KeepsStarts s (swapPoint s) := by
  unfold swapPoint
  split
  · exact (takeSwap_keeps s).trans (.of_trk rfl)
  · exact id

theorem takeTrigger_keeps (s : State) : KeepsStarts s (takeTrigger s) := by
  have hswap : KeepsStarts s (if s.triggerSwaps then takeSwap s else s) := by
    split
    · exact takeSwap_keeps s
    · exact id
  refine hswap.trans ?_
  unfold takeTrigger
  dsimp only
  generalize (if s.triggerSwaps then takeSwap s else s) = u
  cases (forceSlots u).freeSlotNo with
  | some i => dsimp only; rw [openLine_eq]; exact .of_sublist (.refl _) id
  | none => exact .of_trk rfl

theorem triggerWork_keeps (s : State) : KeepsStarts s (triggerWork s) := by
  unfold triggerWork
  split
  · exact takeTrigger_keeps s
  · exact id

theorem beginStop_keeps (n : Nat) (s : State) : KeepsStarts s (beginStop n s) := by
  obtain ⟨htrk, -, -⟩ := beginStop_control n s
  exact .of_sublist (by rw [htrk]) fun hm => by rw [htrk] at hm; exact hm

theorem positionLimit_keeps (s : State) : KeepsStarts s (positionLimit s) := by
  unfold positionLimit
  split
  · exact (beginStop_keeps _ _).behind rfl
  · exact .of_trk rfl

theorem freePlace_keeps (p : State × Bool) : KeepsStarts p.1 (freePlace p).1 := by
  unfold freePlace
  extract_lets u
  have htrigger : KeepsStarts p.1 u := by
    rcases nowOrLater_cases p.1.triggerDue (p.1.trackerDue || p.2) triggerWork p.1 with ⟨n, h⟩ | ⟨-, n, h⟩
    · exact .of_trk (by rw [show u = _ from h])
    · rw [show u = _ from h]
      exact (triggerWork_keeps _).behind rfl
  clear_value u
  refine htrigger.trans ?_
  split
  · unfold drawChoice
    cases Config.orderChoice u.freeCount
    · exact .of_trk rfl
    · exact (positionLimit_keeps _).behind rfl
  · split
    · exact positionLimit_keeps u
    · exact id

theorem coatToGapWork_keeps (s : State) : KeepsStarts s (coatToGapWork s) := by
  unfold coatToGapWork
  split
  · exact swapPoint_keeps s
  · exact id

theorem countWork_keeps (limit : Bool) (s : State) : KeepsStarts s (countWork limit s) := by
  unfold countWork
  extract_lets p1 p2 p3 p4 s5
  have h1 : KeepsStarts s p1.1 := freePlace_keeps (s, limit)
  have h2 : KeepsStarts p1.1 p2.1 := (coatToGapWork_keeps _).trans (freePlace_keeps (_, _))
  have h3 : KeepsStarts p2.1 p3.1 := (missMarks_keeps _ _).trans (freePlace_keeps (_, _))
  have h4 : KeepsStarts p3.1 p4.1 := (popWork_keeps _).trans (freePlace_keeps (_, _))
  have h5 : KeepsStarts p4.1 s5 := by
    unfold s5
    split
    · exact positionLimit_keeps _
    · exact id
  exact (((h1.trans h2).trans h3).trans (h4.trans h5)).trans (triggerWork_keeps _)

theorem positionRose_keeps (s : State) : KeepsStarts s (positionRose s) :=
  (countWork_keeps _ _).behind (settleMarks_trk s)

theorem forwardCount_keeps (s : State) : KeepsStarts s (forwardCount s) := by
  unfold forwardCount
  dsimp only
  split
  · exact .of_trk rfl
  · split
    · exact (positionRose_keeps _).behind rfl
    · exact .of_trk rfl

theorem backwardCount_keeps (s : State) : KeepsStarts s (backwardCount s) := by
  refine .of_trk ?_
  unfold backwardCount
  dsimp only
  split
  · rfl
  · split <;> rfl

theorem encoderTransition_keeps (a b : Bool) {s t : State} (h : exec (.encoderTransition a b) s = .next t) :
    KeepsStarts s t := by
  cases h
  split
  · exact id
  · split
    · exact (forwardCount_keeps _).behind rfl
    · split
      · exact (backwardCount_keeps _).behind rfl
      · exact .of_trk rfl

/-! ### The station commands -/

/-- ARM leaves the queue and takes the tracker out of OFF (R17). -/
theorem armRun_keeps (p : PortNo) (s : State) : KeepsStarts s (armRun p s) := by
  unfold armRun
  extract_lets rcp s1 trig s2 s3
  have hoff : s2.trk.mode ≠ .off := by
    show (if _ then TrackerMode.continuous else TrackerMode.seek) ≠ .off
    split <;> simp
  have harmed : KeepsStarts s s2 := .of_sublist (.refl _) fun hm => absurd hm hoff
  have h3 : KeepsStarts s s3 := harmed.trans (takeTrigger_keeps s2)
  split
  · exact h3.trans (positionLimit_keeps _)
  · exact h3

theorem restartSilence_trk (p : PortNo) (s : State) : (restartSilence p s).trk = s.trk := by
  unfold restartSilence; split <;> rfl

/-- Of the station commands ARM, DISARM and COMMIT alone reach the tracker. -/
theorem runCommand_keeps (p : PortNo) (c : Command) (payload : List Byte) (s : State) :
    KeepsStarts s (runCommand p c payload s).1 := by
  have hs : KeepsStarts s (restartSilence p s) := .of_trk (restartSilence_trk p s)
  cases c <;> simp only [runCommand]
  case arm =>
    unfold cmdArm
    split
    · exact id
    · split
      · exact id
      · exact armRun_keeps p s
  case disarm =>
    unfold cmdDisarm
    split
    · exact beginStop_keeps _ s
    · exact id
  case commit =>
    unfold cmdCommit
    dsimp only
    split
    · exact hs
    · split
      · exact hs
      · split
        · exact hs
        · split
          · exact (swapPoint_keeps _).behind (restartSilence_trk p s)
          · exact hs
  case resyncHead =>
    unfold cmdResyncHead
    split
    · exact id
    · exact .of_trk (resyncLink_work _ s).trk
  case forceMark =>
    unfold cmdForceMark
    split
    · exact id
    · exact .of_trk (by dsimp only; rw [enterAction_frame])
  case claimEdit =>
    unfold cmdClaimEdit
    split
    · exact id
    · split
      · exact hs
      · exact id
  case stageWrite | stageRead | cancelPending =>
    simp only [cmdStageWrite, cmdStageRead, cmdCancelPending]
    repeat' split
    all_goals exact hs
  case ident | status | readCandidates | readStreaks => exact id
  case ackAttn | endService | resetPosition | releaseEdit | activeRead | fetch | seek | subscribe | readCells =>
    simp only [cmdAckAttn, cmdEndService, cmdResetPosition, cmdReleaseEdit, cmdActiveRead, cmdFetch, cmdSeek,
      cmdSubscribe, cmdReadCells]
    split <;> exact id

theorem keepsStarts_stationRel : StationRel KeepsStarts where
  same _ := id
  trans _ _ _ := KeepsStarts.trans
  port _ _ _ _ := .of_trk rfl
  command s p c payload := runCommand_keeps p c payload s

/-! ### The engine's steps and the links -/

theorem workedFrom_trk (ln : Line) (s : State) (φ : LineProgress) : (workedFrom ln s φ).trk = s.trk := by
  obtain ⟨cells, h⟩ := workedFrom_eq ln s φ
  rw [h]; rfl

theorem takeLine_trk (i : Fin 4) (s : State) : (takeLine i s).trk = s.trk := by
  obtain ⟨v, hv, h⟩ := takeLine_work i s
  rw [h]; exact hv.trk

theorem advanceLine_trk (i : Fin 4) (s : State) : (advanceLine i s).trk = s.trk := by
  obtain ⟨v, hv, h⟩ := advanceLine_work i s
  rw [h]; exact hv.trk.trans (workedFrom_trk _ _ _)

theorem publishLine_trk (i : Fin 4) (s : State) : (publishLine i s).trk = s.trk := by
  obtain ⟨v, hv, h⟩ := publishLine_work i s
  rw [h, freeSlot_eq]; exact hv.trk.trans (workedFrom_trk _ _ _)

/-- A stop that completes empties the queue as it turns the tracker OFF (R17). -/
theorem completeStop_keeps (s : State) : KeepsStarts s (completeStop s) := by
  obtain ⟨v, -, h⟩ := completeStop_work s
  rw [h]
  exact fun _ => swapPoint_keeps _ ⟨Nat.zero_le _, List.Pairwise.nil, fun _ => rfl⟩

theorem carrierLost_trk (h : HeadNo) (bytes : List Byte) {s t : State} (ht : exec (.carrierLost h bytes) s = .next t) :
    t.trk = s.trk := by
  have hb := (headBytes_work h bytes s).trk
  cases ht
  dsimp only
  split
  · exact hb
  · exact hb
  · exact (headLost_work _ _ _).trk.trans hb

theorem exec_keepsStarts (c : Instr) (s t : State) (h : exec c s = .next t) : KeepsStarts s t := by
  refine exec_induct keepsStarts_stationRel (reset := ?_) (encoder := ?_) (edge := takeEdge_keeps) (gained := ?_)
    (lost := ?_) (head := ?_) (take := ?_) (publish := ?_) (stop := ?_) (expiry := ?_) c s t h
  · intro a b k s t h
    cases h
    exact fun _ => ⟨Nat.zero_le _, List.Pairwise.nil, fun _ => rfl⟩
  · exact fun a b s t h => encoderTransition_keeps a b h
  · intro k s t h
    cases h
    dsimp only
    split <;> exact .of_trk rfl
  · exact fun k bytes s t h => .of_trk (carrierLost_trk k bytes h)
  · exact fun k bytes s => .of_trk (headBytes_work k bytes s).trk
  · exact fun s i _ => .of_trk (takeLine_trk i s)
  · exact fun s i _ => .of_trk (publishLine_trk i s)
  · exact fun s _ _ => completeStop_keeps s
  · intro s t h
    cases h
    split <;> exact .of_trk rfl

/-- Settles O57, by the kinds of steps: a push keeps the queue in order within its room, everything else takes starts
away or leaves the tracker. -/
theorem startsKept : Obligations.StartsKept :=
  step_keeps (fun _ _ h => h) (fun c s t h => exec_keepsStarts c s t h)
    fun s i _ => KeepsStarts.of_trk (advanceLine_trk i s)

end Sys2Proof.Machine
end

section
/-! SUPPORT. Mark edges at the tracker (R18 to R20, R23, R24): where a start goes that is pushed with the others ahead
of W, and what an edge does in each state of the tracker. -/

namespace Sys2Proof.Machine

variable {s : State} {pos : Nat}

/-! ### A start pushed and popped (R23, R24) -/

theorem running_iff (k : Tracker) : k.running = true ↔ k.mode ≠ .off ∧ k.frozen = false := by
  simp [Tracker.running]

theorem popStarts_ahead (n : Nat) (h : ∀ e ∈ s.trk.queue, s.pos.w < e.pos) : popStarts n s = s := by
  cases n with
  | zero => rfl
  | succ n =>
    unfold popStarts
    split
    · rfl
    · rename_i e rest hq
      rw [if_neg]
      have := h e (by rw [hq]; exact List.mem_cons_self ..)
      omega

/-- A pop begins the next patch (R24). -/
theorem popStart_eq (e : StartEntry) (rest : List StartEntry) (s : State) :
    popStart e rest s = { s with
      trk := { s.trk.begins s.pos.w e.pos s.rcp.active.patch.c e.err e.kind with queue := rest } } := by
  obtain ⟨_, _, ⟨mode, pred, prev, misses, queue, patch, _⟩, _⟩ := s
  cases patch <;> simp only [popStart, Tracker.begins, following_eq, Bool.or_comm]

/-- The first start alone pops when W has reached it and no other. -/
theorem popWork_first {e : StartEntry} {rest : List StartEntry} (hrun : s.trk.running = true)
    (hq : s.trk.queue = e :: rest) (he : e.pos ≤ s.pos.w) (hrest : ∀ f ∈ rest, s.pos.w < f.pos) :
    popWork s = { s with
      trk := { s.trk.begins s.pos.w e.pos s.rcp.active.patch.c e.err e.kind with queue := rest } } := by
  rw [popWork, if_pos hrun, hq, List.length_cons, popStarts]
  simp only [hq, if_pos he]
  rw [popStarts_ahead _ hrest, popStart_eq]

theorem insertStart_first {x : StartEntry} {q : List StartEntry} (h : ∀ e ∈ q, x.pos < e.pos) :
    insertStart x q = x :: q := by
  cases q with
  | nil => rfl
  | cons e es => rw [insertStart, if_pos (h e (List.mem_cons_self ..))]

section
variable (err : Int) (kind : StartKind) (hahead : ∀ e ∈ s.trk.queue, s.pos.w < e.pos)
include hahead

/-- A start of a new position that W has not reached waits. -/
theorem pushPop_waits (hnew : ∀ e ∈ s.trk.queue, e.pos ≠ pos) (hroom : s.trk.queue.length < 4)
    (hpos : s.pos.w < pos) : popWork (pushStart pos err kind s) =
      { s with trk := { s.trk with queue := insertStart ⟨pos, err, kind⟩ s.trk.queue } } := by
  rw [pushStart_waits err kind hnew hroom]
  refine popWork_quiet (popDue_of_ahead fun e he => ?_)
  rcases List.mem_cons.mp ((insertStart_perm _ _).mem_iff.mp he) with rfl | he
  exacts [hpos, hahead e he]

/-- A start that W has reached begins a patch at once. -/
theorem pushPop_begins (hrun : s.trk.running = true) (hroom : s.trk.queue.length < 4) (hpos : pos ≤ s.pos.w) :
    popWork (pushStart pos err kind s) =
      { s with trk := s.trk.begins s.pos.w pos s.rcp.active.patch.c err kind } := by
  have hnew : ∀ e ∈ s.trk.queue, e.pos ≠ pos := fun e he => by have := hahead e he; omega
  rw [pushStart_waits err kind hnew hroom,
    insertStart_first (x := ⟨pos, err, kind⟩) fun e he => lt_of_le_of_lt hpos (hahead e he)]
  exact popWork_first (e := ⟨pos, err, kind⟩) hrun rfl hpos hahead

/-- A start whose position waits already is discarded, and nothing pops. -/
theorem pushPop_duplicate (hdup : ∃ e ∈ s.trk.queue, e.pos = pos) : popWork (pushStart pos err kind s) =
    { s with trk := { s.trk with startsDropped := min (s.trk.startsDropped + 1) 65535 } } := by
  rw [pushStart_duplicate err kind hdup]
  exact popWork_quiet (popDue_of_ahead hahead)

/-- A start that finds the queue full loses registration, and nothing pops. -/
theorem pushPop_full (hnew : ∀ e ∈ s.trk.queue, e.pos ≠ pos) (hfull : s.trk.queue.length = 4) :
    popWork (pushStart pos err kind s) = append s.pos.w (.event .regLost 2) { s with
      trk := { s.trk with mode := .lost, startsDropped := min (s.trk.startsDropped + 1) 65535 } } := by
  rw [pushStart_full err kind hnew hfull]
  exact popWork_quiet (popDue_of_ahead hahead)

end

/-! ### Mark edges (R18 to R20) -/

/-- The edge is of the active copy's polarity (R18). -/
abbrev State.takesEdge (s : State) (edge : EdgeSense) : Prop :=
  (edge = .rising ∧ s.rcp.active.patch.polarity = 0) ∨ (edge = .falling ∧ s.rcp.active.patch.polarity = 1)

theorem markEdge_taken {edge : EdgeSense} (h : s.takesEdge edge) : exec (.markEdge edge) s = .next (takeEdge s) := by
  rcases h with ⟨rfl, h⟩ | ⟨rfl, h⟩ <;> simp [exec, execMarkEdge, isMarkEdge, h]

theorem markEdge_otherPolarity {edge : EdgeSense} (h : (edge = .rising ∧ s.rcp.active.patch.polarity = 1) ∨
    (edge = .falling ∧ s.rcp.active.patch.polarity = 0)) : exec (.markEdge edge) s = .next s := by
  rcases h with ⟨rfl, h⟩ | ⟨rfl, h⟩ <;> simp [exec, execMarkEdge, isMarkEdge, h]

theorem takeEdge_ignored (h : s.trk.mode = .off ∨ s.trk.mode = .continuous ∨ s.trk.frozen = true) :
    takeEdge s = s := by
  rcases h with h | h | h <;> simp [takeEdge, h]

theorem takeEdge_backlog (hoff : s.trk.mode ≠ .off) (hcont : s.trk.mode ≠ .continuous) (hf : s.trk.frozen = false)
    (hl : 0 < s.pos.l) : takeEdge s =
      { s with trk := { s.trk with backlogEdges := min (s.trk.backlogEdges + 1) 65535 } } := by
  cases hm : s.trk.mode <;> simp_all [takeEdge, bump, maxCount]

theorem takeEdge_acquires (hm : s.trk.mode = .seek ∨ s.trk.mode = .lost) (hf : s.trk.frozen = false)
    (hl : s.pos.l = 0) : takeEdge s = acquire s := by
  rcases hm with hm | hm <;> simp [takeEdge, hm, hf, hl]

theorem takeEdge_track (hm : s.trk.mode = .track) (hf : s.trk.frozen = false) (hl : s.pos.l = 0) :
    takeEdge s = edgeInTrack s := by
  simp [takeEdge, hm, hf, hl]

/-- The machine when a mark edge is taken at W (R19, R20). -/
def State.onMark (s : State) : State :=
  { s with trk := { s.trk with
      mode := .track, misses := 0, prev := s.pos.w
      pred := s.pos.w + s.rcp.active.patch.c + s.rcp.active.patch.g } }

/-- The machine when that mark edge acquires registration (R19). -/
def State.acquired (s : State) : State := append s.pos.w (.event .regAcquired 0) s.onMark

theorem acquire_full (h : s.trk.queue.length = 4) :
    acquire s = { s with trk := { s.trk with startsDropped := min (s.trk.startsDropped + 1) 65535 } } := by
  rw [acquire, if_neg (by simp [h, startCapacity])]; rfl

/-- With room in the queue registration is acquired, and the start pushed (R19). -/
theorem acquire_room (h : s.trk.queue.length < 4) :
    acquire s = popWork (pushStart (s.pos.w + s.rcp.active.patch.m) 0 .acq s.acquired) := by
  rw [acquire, if_pos (by simpa [startCapacity] using h)]
  simp only [State.acquired, State.onMark, Nat.add_assoc]; rfl

theorem edgeInTrack_spurious (h : s.pos.w + s.rcp.active.patch.wm < s.trk.pred ∨ s.pos.w ≤ s.trk.prev) :
    edgeInTrack s = { s with trk := { s.trk with spurious := min (s.trk.spurious + 1) 65535 } } := by
  rw [edgeInTrack, if_pos h]; rfl

/-- An edge in its window is accepted, and its start pushed with the registration error (R20). -/
theorem edgeInTrack_accepted (hm : s.trk.mode = .track) (hpred : s.trk.pred ≤ s.pos.w + s.rcp.active.patch.wm)
    (hprev : s.trk.prev < s.pos.w) :
    edgeInTrack s = popWork (pushStart (s.pos.w + s.rcp.active.patch.m) ((s.pos.w : Int) - s.trk.pred) .plain
      s.onMark) := by
  rw [edgeInTrack, if_neg (by omega)]
  simp only [State.onMark, Nat.add_assoc, ← hm]

/-- Settles O9: the edges that reach no rule, and what an acquisition does with its start. -/
theorem markEdgeOutsideTrack : Obligations.MarkEdgeOutsideTrack := by
  refine ⟨fun edge s _ => ⟨markEdge_otherPolarity, fun h => ?_, fun hmark hoff hcont hf hl => ?_⟩,
    fun edge s hmark hm hf hl => ⟨fun hfull => ?_, fun hroom hsorted hahead => ?_⟩⟩
  · simp only [exec, execMarkEdge, takeEdge_ignored h, ite_self]
  · rw [markEdge_taken hmark, takeEdge_backlog hoff hcont hf hl]
  · rw [markEdge_taken hmark, takeEdge_acquires hm hf hl, acquire_full hfull]
  · rw [markEdge_taken hmark, takeEdge_acquires hm hf hl, acquire_room hroom]
    by_cases hdup : ∃ e ∈ s.trk.queue, e.pos = s.pos.w + s.rcp.active.patch.m
    · obtain ⟨e, he, hpos⟩ := id hdup
      exact ⟨{ s.trk with startsDropped := min (s.trk.startsDropped + 1) 65535 },
        congrArg _ (pushPop_duplicate (s := s.acquired) _ _ hahead hdup),
        fun hnew => absurd hpos (hnew e he), fun _ => rfl, fun hzero => absurd (hahead e he) (by omega)⟩
    · have hnew : ∀ e ∈ s.trk.queue, e.pos ≠ s.pos.w + s.rcp.active.patch.m := fun e he h => hdup ⟨e, he, h⟩
      rcases Nat.eq_zero_or_pos s.rcp.active.patch.m with hzero | hpos
      · have hrun : s.acquired.trk.running = true := (running_iff _).mpr ⟨nofun, hf⟩
        rw [hzero]
        exact ⟨s.trk.begins s.pos.w s.pos.w s.rcp.active.patch.c 0 .acq,
          congrArg _ (pushPop_begins (s := s.acquired) _ _ hahead hrun hroom (le_refl _)),
          fun _ h => absurd h (lt_irrefl 0), fun ⟨e, he, h⟩ => absurd (hzero ▸ h) (hnew e he), fun _ => rfl⟩
      · exact ⟨{ s.trk with queue := _ },
          congrArg _ (pushPop_waits (s := s.acquired) _ _ hahead hnew hroom (Nat.lt_add_of_pos_right hpos)),
          fun _ _ => ⟨_, rfl, insertStart_sorted _ hsorted hnew, insertStart_perm _ _⟩, fun h => absurd h hdup,
          fun h => absurd h hpos.ne'⟩

/-- Settles O10: an edge out of its window, and what an accepted edge does with its start. -/
theorem markEdgeInTrack : Obligations.MarkEdgeInTrack := by
  intro edge s hmark hm hf hl
  rw [markEdge_taken hmark, takeEdge_track hm hf hl]
  refine ⟨fun h => by rw [edgeInTrack_spurious h], fun hpred hprev hahead => ?_⟩
  rw [edgeInTrack_accepted hm hpred hprev]
  refine ⟨s.onMark.trk, by simp only [State.onMark, ← hm], fun hnew hroom hpos hsorted => ?_, fun hdup => ?_,
    fun hnew hfull => ?_, fun hzero hroom => ?_⟩
  · exact ⟨_, congrArg _ (pushPop_waits (s := s.onMark) _ _ hahead hnew hroom (Nat.lt_add_of_pos_right hpos)),
      insertStart_sorted _ hsorted hnew, insertStart_perm _ _⟩
  · exact congrArg _ (pushPop_duplicate (s := s.onMark) _ _ hahead hdup)
  · exact congrArg _ (pushPop_full (s := s.onMark) _ _ hahead hnew hfull)
  · have hrun : s.onMark.trk.running = true := (running_iff _).mpr ⟨nofun, hf⟩
    rw [hzero]
    exact congrArg _ (pushPop_begins (s := s.onMark) _ _ hahead hrun hroom (le_refl _))

end Sys2Proof.Machine
end

section
/-! SUPPORT. A forward count with no trigger due at the tracker (R21, R22, R24, R28): a miss with its flywheel start or
the loss of registration, and the pop of a start. -/

namespace Sys2Proof.Machine

variable {s t u : State}

/-! ### What the tracker's works leave -/

/-- `t` comes from `s` by work on the tracker, the list and the ports alone. -/
def TrackerWork (s t : State) : Prop := t = { s with trk := t.trk, list := t.list, ports := t.ports }

theorem TrackerWork.trans (h : TrackerWork s t) (k : TrackerWork t u) : TrackerWork s u := by
  unfold TrackerWork at h k ⊢
  rw [k, h]

theorem popStarts_tracker (n : Nat) : ∀ s, TrackerWork s (popStarts n s) := by
  induction n with
  | zero => exact fun _ => rfl
  | succ n ih =>
    intro s
    unfold popStarts
    split
    · rfl
    · split
      · exact TrackerWork.trans (t := popStart _ _ s) rfl (ih _)
      · rfl

theorem popWork_tracker (s : State) : TrackerWork s (popWork s) := by
  unfold popWork
  split
  · exact popStarts_tracker _ s
  · rfl

theorem pushStart_tracker (pos : Nat) (err : Int) (kind : StartKind) (s : State) :
    TrackerWork s (pushStart pos err kind s) := by
  unfold pushStart
  dsimp only
  split
  · rfl
  · split <;> rfl

/-- A push neither reads nor moves the edges' positions. -/
theorem pushStart_edges (pos : Nat) (err : Int) (kind : StartKind) (s : State) (prev pred : Nat) :
    pushStart pos err kind { s with trk := { s.trk with prev := prev, pred := pred } } =
      { pushStart pos err kind s with
        trk := { (pushStart pos err kind s).trk with prev := prev, pred := pred } } := by
  unfold pushStart
  dsimp only
  split
  · rfl
  · split <;> rfl

theorem pushStart_pred (pos : Nat) (err : Int) (kind : StartKind) (s : State) :
    (pushStart pos err kind s).trk.pred = s.trk.pred :=
  congrArg (fun t => t.trk.pred) (pushStart_edges pos err kind s s.trk.prev s.trk.pred)

/-! ### A miss (R21, R22) -/

/-- The tracker when a miss is counted (R21). -/
def Tracker.missed (k : Tracker) : Tracker :=
  { k with misses := k.misses + 1, marksMissed := min (k.marksMissed + 1) 65535 }

/-- The machine when a miss is counted and reported (R21). -/
def State.missed (s : State) : State :=
  append s.pos.w (.event .markMissed (s.trk.misses + 1)) { s with trk := s.trk.missed }

/-- The machine when the miss is bridged by the flywheel, before its start is pushed (R22). -/
def State.bridged (s : State) : State :=
  { s.missed with trk := { s.trk.missed with
      prev := s.trk.pred, pred := s.trk.pred + s.rcp.active.patch.c + s.rcp.active.patch.g } }

/-- A miss within F pushes the flywheel's start and moves the predicted edge on. -/
theorem missMark_bridged (h : s.trk.misses < s.rcp.active.patch.f) :
    missMark s = pushStart (s.trk.pred + s.rcp.active.patch.m) 0 .flywheel s.bridged := by
  have hle : s.trk.misses + 1 ≤ s.rcp.active.patch.f := h
  have hedges := pushStart_edges (s.trk.pred + s.rcp.active.patch.m) 0 .flywheel s.missed s.trk.pred
    (s.trk.pred + s.rcp.active.patch.c + s.rcp.active.patch.g)
  have hpred := pushStart_pred (s.trk.pred + s.rcp.active.patch.m) 0 .flywheel s.missed
  generalize hu : pushStart (s.trk.pred + s.rcp.active.patch.m) 0 .flywheel s.missed = u at hedges hpred
  calc missMark s
      = { u with trk := { u.trk with
          prev := u.trk.pred, pred := u.trk.pred + (s.rcp.active.patch.c + s.rcp.active.patch.g) } } := by
        rw [← hu]
        exact if_pos hle
    _ = pushStart (s.trk.pred + s.rcp.active.patch.m) 0 .flywheel s.bridged := by
        rw [hpred, show s.missed.trk.pred = s.trk.pred from rfl, ← Nat.add_assoc]
        exact hedges.symm

/-- A miss above F loses registration. -/
theorem missMark_lost (h : s.rcp.active.patch.f ≤ s.trk.misses) :
    missMark s = append s.pos.w (.event .regLost 1) { s.missed with
      trk := { s.trk.missed with mode := .lost } } := by
  have hgt : ¬ s.trk.misses + 1 ≤ s.rcp.active.patch.f := by omega
  simp only [missMark, hgt, if_false]
  rfl

theorem missMark_tracker (s : State) : TrackerWork s (missMark s) := by
  rcases Nat.lt_or_ge s.trk.misses s.rcp.active.patch.f with h | h
  · rw [missMark_bridged h]
    exact TrackerWork.trans (t := s.bridged) rfl (pushStart_tracker _ _ _ _)
  · rw [missMark_lost h]; rfl

theorem missMarks_tracker (n : Nat) : ∀ s, TrackerWork s (missMarks n s) := by
  induction n with
  | zero => exact fun _ => rfl
  | succ n ih =>
    intro s
    unfold missMarks
    split
    · exact (missMark_tracker s).trans (ih _)
    · rfl

theorem missMarks_quiet (n : Nat) (h : s.missDue = false) : missMarks n s = s := by
  cases n <;> simp [missMarks, h]

/-- A miss after which none is due is the whole run of misses. -/
theorem missWork_once (hdue : s.missDue = true) (hnext : (missMark s).missDue = false) : missWork s = missMark s := by
  rw [missWork, missMarks, if_pos hdue, missMarks_quiet _ hnext]

/-- Within F, where the next edge's window lies ahead, the miss brings the flywheel's start alone. -/
theorem missWork_bridged (hdue : s.missDue = true) (h : s.trk.misses < s.rcp.active.patch.f)
    (hw : s.pos.w ≤ s.trk.pred + s.rcp.active.patch.c + s.rcp.active.patch.g + s.rcp.active.patch.wm) :
    missWork s = pushStart (s.trk.pred + s.rcp.active.patch.m) 0 .flywheel s.bridged := by
  have hpush := pushStart_tracker (s.trk.pred + s.rcp.active.patch.m) 0 .flywheel s.bridged
  rw [missWork_once hdue, missMark_bridged h]
  rw [missMark_bridged h]
  refine missDue_of_within fun _ => ?_
  rw [pushStart_pred, congrArg State.pos hpush, congrArg State.rcp hpush]
  exact hw

/-- Above F the miss loses registration. -/
theorem missWork_lost (hdue : s.missDue = true) (h : s.rcp.active.patch.f ≤ s.trk.misses) :
    missWork s = append s.pos.w (.event .regLost 1) { s.missed with
      trk := { s.trk.missed with mode := .lost } } := by
  rw [missWork_once hdue, missMark_lost h]
  rw [missMark_lost h]
  exact missDue_of_within nofun

/-- In TRACK a miss is due once W has passed the window (R21). -/
theorem missDue_of_passed (hm : s.trk.mode = .track) (hf : s.trk.frozen = false)
    (hw : s.trk.pred + s.rcp.active.patch.wm < s.pos.w) : s.missDue = true := by
  simp [State.missDue, hm, hf, hw]

/-! ### A count with no trigger due (R28) -/

theorem TrackerWork.triggerDue_eq (h : TrackerWork s t) : t.triggerDue = s.triggerDue := by
  unfold TrackerWork at h
  rw [h]; rfl

/-- With no trigger and no coat-to-gap transition due, a count below the limit is the misses and the pops. -/
theorem countWork_tracker (ht : s.triggerDue = false) (hgap : s.coatToGapDue = false) :
    countWork false s = popWork (missWork s) := by
  have hmiss : TrackerWork s (missWork s) := missMarks_tracker _ s
  have hpop : TrackerWork s (popWork (missWork s)) := hmiss.trans (popWork_tracker _)
  have ht1 : (missWork s).triggerDue = false := hmiss.triggerDue_eq.trans ht
  have ht2 : (popWork (missWork s)).triggerDue = false := hpop.triggerDue_eq.trans ht
  simp only [countWork, freePlace_still ht, coatToGapWork_quiet hgap, freePlace_still ht1, freePlace_still ht2,
    triggerWork_still ht2, Bool.false_eq_true, if_false]

theorem coatToGapDue_of_apart (h : s.trk.mode = .track → ∀ p, s.trk.patch = some p → p.endW ≠ s.pos.w) :
    s.coatToGapDue = false := by
  unfold State.coatToGapDue
  by_cases hm : s.trk.mode = .track
  · cases hp : s.trk.patch with
    | none => simp
    | some p => simp [h hm p hp]
  · simp [hm]

/-- Settles O11: the miss with its start, and the pop, at the count's new W. -/
theorem trackerOnForwardCount : Obligations.TrackerOnForwardCount := by
  intro a b s hf hl hw hfrozen harmed hgap
  have ht : (s.atNextW a b).triggerDue = false := by
    by_cases hrun : s.rcp.run = .armed
    · exact triggerDue_ahead (harmed hrun)
    · exact triggerDue_unarmed hrun
  have hframe : TrackerWork (s.atNextW a b) (popWork (missWork (s.atNextW a b))) :=
    TrackerWork.trans (missMarks_tracker _ _) (popWork_tracker _)
  rw [encoderTransition_countWork hf hl (by omega), decide_eq_false (by omega),
    countWork_tracker ht (coatToGapDue_of_apart hgap)]
  refine ⟨_, rfl, fun hm hpred hpitch hahead => ?_, fun hm hwithin e rest hq he hrest => ?_,
    (congrArg State.trig hframe).trans rfl, (congrArg State.rcp hframe).trans rfl,
    (congrArg State.asm hframe).trans rfl⟩
  · have hdue : (s.atNextW a b).missDue = true :=
      missDue_of_passed hm hfrozen (hpred ▸ Nat.lt_succ_self s.pos.w)
    have hrun : (s.atNextW a b).bridged.trk.running = true :=
      (running_iff _).mpr ⟨fun hoff => absurd (hm.symm.trans hoff) nofun, hfrozen⟩
    refine ⟨(s.atNextW a b).bridged.trk, (s.atNextW a b).missed.list, rfl, rfl, fun hlt => ?_, fun hge => ?_⟩
    · have hnext : s.pos.w + 1 ≤
          s.trk.pred + s.rcp.active.patch.c + s.rcp.active.patch.g + s.rcp.active.patch.wm := by omega
      have hpush : missWork (s.atNextW a b) =
          pushStart (s.trk.pred + s.rcp.active.patch.m) 0 .flywheel (s.atNextW a b).bridged :=
        missWork_bridged hdue hlt hnext
      rw [hpush]
      refine ⟨fun hnew hroom hpos hsorted => ?_, fun hroom hpos => ?_, fun hdup => ?_, fun hnew hfull => ?_⟩
      · rw [pushPop_waits (s := (s.atNextW a b).bridged) _ _ hahead hnew hroom hpos]
        exact ⟨_, rfl, insertStart_sorted _ hsorted hnew, insertStart_perm _ _, rfl⟩
      · rw [pushPop_begins (s := (s.atNextW a b).bridged) _ _ hahead hrun hroom hpos]
        exact ⟨rfl, rfl⟩
      · rw [pushPop_duplicate (s := (s.atNextW a b).bridged) _ _ hahead hdup]
        exact ⟨rfl, rfl⟩
      · rw [pushPop_full (s := (s.atNextW a b).bridged) _ _ hahead hnew hfull]
        exact ⟨rfl, rfl⟩
    · rw [missWork_lost hdue hge, popWork_quiet (popDue_of_ahead hahead)]
      exact ⟨rfl, rfl⟩
  · have hmiss : (s.atNextW a b).missDue = false := missDue_of_within hwithin
    have hrun : (s.atNextW a b).trk.running = true := (running_iff _).mpr ⟨hm, hfrozen⟩
    rw [missWork_quiet hmiss, popWork_first hrun hq he hrest]
    exact ⟨rfl, rfl⟩

end Sys2Proof.Machine
end

section
/-! SUPPORT. Stage 5 of a published line (R31 to R33): how the line's contributions enter the tally, and how the tally
opens, goes on and closes. -/

namespace Sys2Proof.Machine

variable {s v : State} {x : Slot} {q : Tally}

/-! ### LINE_PUBLISH on a line none of whose stages has begun (R62, R77) -/

/-- LINE_PUBLISH runs the five stages on the line in work, publishes the tables and frees the slot. -/
theorem linePublish_runs {i : Fin 4} {ln : Line} (h : s.lineInWork i ln) :
    ∃ t, exec .linePublish s = .next t ∧ t.list = (runStages ln s).list ∧ t.eng.pub = (runStages ln s).eng.work ∧
      t.mark = (runStages ln s).mark ∧ (t.asm.slots.get i).state = .free := by
  obtain ⟨hi, hj, hbegun, hslot, hcopy⟩ := h
  have hline : s.lineOf i = ln := by
    unfold State.lineOf
    rw [← hslot, copyOf_eq hcopy]
  refine ⟨publishLine i s, by simp [exec, execLinePublish, slotInWork_eq hi hj], ?_⟩
  rw [publishLine_begun i hbegun, freeSlot_eq, hline]
  refine ⟨rfl, rfl, rfl, ?_⟩
  dsimp only
  rw [Quad.get_set_self]; rfl

/-! ### The tally of a line (R31, R32) -/

/-- The tally's patch, first and last W, coated and skipped lines, SHORT and CUT do not go by contributions. -/
theorem addAll_fields (cs : List Contribution) (t : Tally) :
    ∃ a b c, t.addAll cs = { t with pinholes := a, streakOpens := b, lateMarks := c } :=
  ⟨_, _, _, (addAll_eq cs t).1⟩

/-- A line is counted before or after the contributions alike. -/
theorem addAll_countLine (x : Slot) (cs : List Contribution) :
    ∀ t : Tally, (t.countLine x).addAll cs = (t.addAll cs).countLine x := by
  induction cs with
  | nil => exact fun _ => rfl
  | cons c cs ih =>
    intro t
    have hadd : (t.countLine x).add c = (t.add c).countLine x := by
      unfold Tally.add
      by_cases hp : c.patch = t.num
      · rw [if_pos hp, if_pos (show c.patch = (t.countLine x).num from hp)]
        cases c <;> rfl
      · rw [if_neg hp, if_neg (show ¬ c.patch = (t.countLine x).num from hp)]
    show ((t.countLine x).add c).addAll cs = ((t.add c).addAll cs).countLine x
    rw [hadd, ih]

theorem tallied_iff (h : x.zone.coated = true) : x.tallied = true ↔ x.patchNum ≠ 0 := by
  simp [Slot.tallied, h]

/-- The tally that a coated line opens (R31), or none without a patch number. -/
theorem openedTally_eq (h : x.zone.coated = true) (cs : List Contribution) :
    openedTally x cs = if x.patchNum = 0 then none else some (((openTally x).countLine x).addAll cs) := by
  unfold openedTally
  rw [addAll_countLine]
  by_cases hp : x.patchNum = 0
  · rw [if_pos hp, if_neg (by simp [tallied_iff h, hp])]
  · rw [if_neg hp, if_pos ((tallied_iff h).mpr hp)]

/-! ### Stage 5 (R31 to R33) -/

/-- The machine with the contributions entered and the given tally open. -/
def State.entered (s : State) (t : Option Tally) : State :=
  ({ s with eng := { s.eng with contribs := [] } } : State).withTally t

theorem tallyStage_opens (h : v.eng.work.tally = none) :
    tallyStage x v = v.entered (openedTally x v.eng.contribs) := by
  simp only [tallyStage, h]; rfl

theorem tallyStage_extends (h : v.eng.work.tally = some q) (hx : x.tallied = true) (hq : q.num = x.patchNum) :
    tallyStage x v = v.entered (some ((q.addAll v.eng.contribs).countLine x)) := by
  simp only [tallyStage, h, hx, hq, Bool.true_and, beq_self_eq_true, if_true]; rfl

/-- The PATCH record of a tally with its contributions `y`, closed by a line (R33). -/
def Tally.closedBy (q y : Tally) (x : Slot) : RecordBody :=
  .patch
    { num := q.num, lastW := q.lastW, s := q.s, err := q.err, pinholes := y.pinholes, streakOpens := y.streakOpens
      lateMarks := y.lateMarks, skipped := q.skipped, kind := q.kind, short := q.short || x.prevShort, cut := q.cut }

theorem tallyStage_closes (h : v.eng.work.tally = some q) (hx : x.tallied = true → q.num ≠ x.patchNum) :
    tallyStage x v = append q.firstW (q.closedBy (q.addAll v.eng.contribs) x)
      (v.entered (openedTally x v.eng.contribs)) := by
  have hno : (x.tallied && x.patchNum == q.num) = false := by
    cases ht : x.tallied
    · rfl
    · simpa using fun h => hx ht h.symm
  obtain ⟨a, b, c, hy⟩ := addAll_fields v.eng.contribs q
  simp only [tallyStage, h, hno, Bool.false_eq_true, if_false, hy]
  rfl

/-- Stage 5 leaves the mark queue. -/
theorem tallyStage_mark (x : Slot) (v : State) : (tallyStage x v).mark = v.mark := by
  unfold tallyStage
  dsimp only
  split
  · rfl
  · split <;> rfl

/-- What stage 5 enters in a tally: the contributions from before the stages, and what the records stand for (R32). -/
theorem addAll_stands {cs cs' : List Contribution} {xs : List (Nat × RecordBody)} {late : List Nat}
    (h : Stands cs' xs late) (q : Tally) (h1 : q.pinholes ≤ 65535) (h2 : q.streakOpens ≤ 65535)
    (h3 : q.lateMarks ≤ 65535) : q.addAll (cs ++ cs') = { q with
      pinholes := min (q.pinholes + cs.count (.pinhole q.num) + pinholesOf xs q.num) 65535
      streakOpens := min (q.streakOpens + cs.count (.streakOpen q.num) + opensOf xs q.num) 65535
      lateMarks := min (q.lateMarks + cs.count (.lateMark q.num) + late.count q.num) 65535 } := by
  rw [addAll_counts _ q h1 h2 h3]
  simp only [List.count_append, h.pinholes, h.opens, h.lates, Nat.add_assoc]

/-- Settles O29: what stages 1 to 4 hand on, and what stage 5 makes of it. -/
theorem tallyOnLine : Obligations.TallyOnLine := by
  intro i ln s h hcoated hlate
  obtain ⟨⟨cs, xs, targets, late, hstands, hlist, hcontribs, hmark, haims, hsub, hall⟩, htally, -, -⟩ :=
    stages_counted ln s
  generalize hv : pinholeStage ln (cellStages ln s).1 (streakStage ln (cellStages ln s).1 (cellStages ln s).2) = v
    at hlist hcontribs hmark hall htally
  have hruns : runStages ln s = tallyStage ln.slot v := by rw [← hv]; rfl
  have hopened : openedTally ln.slot v.eng.contribs = _ := openedTally_eq hcoated v.eng.contribs
  obtain ⟨t, ht, htlist, htpub, htmark, -⟩ := linePublish_runs h
  rw [hruns, tallyStage_mark] at htmark
  rw [hruns] at htlist htpub
  refine ⟨t, xs, targets, ln.lates s.pos.w xs targets, late, fun q => q.addAll v.eng.contribs,
    ((openTally ln.slot).countLine ln.slot).addAll v.eng.contribs, ht, hstands.patches, haims, rfl, hsub,
    htmark ▸ hall, htmark ▸ hmark hlate, fun q h1 h2 h3 => ?_, ?_, fun hnone => ?_,
    fun q hsome => ⟨fun hq hp => ?_, fun hq => ?_⟩⟩
  · rw [hcontribs]
    exact addAll_stands hstands q h1 h2 h3
  · simp [openTally, Tally.countLine, bump, bumpBy, maxCount]
  · rw [tallyStage_opens (htally.trans hnone)] at htlist htpub
    exact ⟨htlist.trans hlist, by rw [htpub]; exact hopened⟩
  · rw [tallyStage_extends (htally.trans hsome) ((tallied_iff hcoated).mpr hp) hq] at htlist htpub
    obtain ⟨a, b, c, hy⟩ := addAll_fields v.eng.contribs q
    refine ⟨htlist.trans hlist, ?_⟩
    rw [htpub]
    simp only [hy]
    rfl
  · have hother : ln.slot.tallied = true → q.num ≠ ln.slot.patchNum := fun htal =>
      hq.resolve_right ((tallied_iff hcoated).mp htal)
    rw [tallyStage_closes (htally.trans hsome) hother] at htlist htpub
    refine ⟨_, rfl, ?_, by rw [htpub]; exact hopened⟩
    rw [htlist, pushAll_append, ← hlist]
    rfl

end Sys2Proof.Machine
end

section
/-! SUPPORT. A line that is not coated and closes the one open candidate (R101, R112, R113): its record, its mark action
and its count in the tally that the line closes. -/

namespace Sys2Proof.Machine

variable {s : State} {ln : Line} {j : Nat} {k : Candidate}

/-! ### The stages on a line that is not coated (R72) -/

theorem workCell_uncoated (h : ln.slot.zone.coated = false) (c : Nat) (r : CellRec) (x : Nat) :
    (ln.workCell c r x).1 = r := by
  simp [Line.workCell, h]

theorem workCells_uncoated (h : ln.slot.zone.coated = false) :
    ∀ (c : Nat) (rs : List CellRec) (xs : List Nat), (ln.workCells c rs xs).map Prod.fst = rs
  | _, [], _ => rfl
  | c, r :: rs, xs => by
    rw [Line.workCells, List.map_cons, workCell_uncoated h, workCells_uncoated h (c + 1) rs xs.tail]

/-- Stages 1 and 2 leave the records of a line that is not coated. -/
theorem cellStages_uncoated (h : ln.slot.zone.coated = false) (s : State) : (cellStages ln s).2 = s := by
  rw [cellStages_eq, workCells_uncoated h]; rfl

/-- Of the five stages the closes of the candidates and stage 5 alone work on a line that is not coated. -/
theorem runStages_uncoated (h : ln.slot.zone.coated = false) (s : State) :
    runStages ln s = tallyStage ln.slot (closeCands ln.copy.markerFields .ordinary s.candSlots s) := by
  show tallyStage ln.slot (pinholeStage ln _ (streakStage ln _ (cellStages ln s).2)) = _
  rw [cellStages_uncoated h, streakStage_uncoated h, pinholeStage_uncoated h]

/-! ### The close of the one open candidate (R101, R112) -/

theorem candSlots_one (hk : s.eng.work.cands[j]? = some (some k))
    (hj : ∀ j', j' ≠ j → s.eng.work.cands.getD j' none = none) : s.candSlots = [j] := by
  have hperm : s.candSlots.Perm [j] := by
    unfold State.candSlots
    rw [List.perm_ext_iff_of_nodup (slotsWhere_nodup _ _) (List.nodup_singleton j)]
    intro i
    rw [mem_slotsWhere, List.mem_singleton]
    refine ⟨fun ⟨a, ha, _⟩ => by_contra fun hij => ?_, fun h => ⟨k, by rw [h]; exact hk, rfl⟩⟩
    have := hj i hij
    rw [List.getD_eq_getElem?_getD, ha] at this
    cases this
  exact List.perm_singleton.mp hperm

/-- The one open candidate closes alone. -/
theorem closeCands_one (markers : Marker → MarkerFields) (how : PinEnd) (hk : s.eng.work.cands[j]? = some (some k))
    (hj : ∀ j', j' ≠ j → s.eng.work.cands.getD j' none = none) :
    closeCands markers how s.candSlots s = reportPinhole markers k how (dropCand j s) := by
  have horder : candAgeOrder s.eng.work.cands s.candSlots = [j] :=
    List.perm_singleton.mp (candSlots_one hk hj ▸ candAgeOrder_perm _ _)
  simp only [closeCands, horder, List.foldl_cons, List.foldl_nil, closeCand, entryAt_some.mpr hk]

/-- Once its one candidate has left the table is empty. -/
theorem dropCand_empty (hj : ∀ j', j' ≠ j → s.eng.work.cands.getD j' none = none) :
    ∀ o ∈ (dropCand j s).eng.work.cands, o = none := by
  intro o ho
  obtain ⟨i, hi⟩ := List.mem_iff_getElem?.mp ho
  rw [show (dropCand j s).eng.work.cands = s.eng.work.cands.set j none from rfl, List.getElem?_set] at hi
  split at hi
  · split at hi <;> cases hi
    rfl
  · rename_i hne
    have := hj i (Ne.symm hne)
    rwa [List.getD_eq_getElem?_getD, hi] at this

/-- The machine with a PINHOLE record appended and counted for its patch (R32). -/
def State.reported (s : State) (k : Candidate) (how : PinEnd) : State :=
  contribute (.pinhole k.patch) (append k.firstW (k.closeBody how) s)

/-- With room in the mark queue a close appends its record alone; the mark action is a late mark or is not. -/
theorem reportPinhole_room (markers : Marker → MarkerFields) (k : Candidate) (how : PinEnd) {s : State}
    (hroom : s.mark.queue.length < 32) : ∃ late : Bool,
      (reportPinhole markers k how s).list = s.list.push k.firstW (k.closeBody how) ∧
      (reportPinhole markers k how s).eng.contribs =
        s.eng.contribs ++ .pinhole k.patch :: (if late then [.lateMark k.patch] else []) ∧
      (k.target = none → (reportPinhole markers k how s).mark = s.mark ∧ late = false) ∧
      ∀ m, k.target = some m →
        reportPinhole markers k how s = handAction m (markers m) k.firstW k.patch (s.reported k how) ∧
        late = (s.mark.enter s.pos.w m (k.firstW + (markers m).offset) (markers m).width
          (markers m).spacing).2.isLate k.patch := by
  cases hm : k.target with
  | none =>
    have hr : reportPinhole markers k how s = s.reported k how := by simp only [reportPinhole, hm]; rfl
    rw [hr]
    exact ⟨false, rfl, rfl, fun _ => ⟨rfl, rfl⟩, nofun⟩
  | some m =>
    have hr : reportPinhole markers k how s = handAction m (markers m) k.firstW k.patch (s.reported k how) := by
      simp only [reportPinhole, hm]; rfl
    obtain ⟨hlist, -⟩ := handAction_room (s := s.reported k how) hroom m (markers m) k.firstW k.patch
    have hcounts := handAction_counts m (markers m) k.firstW k.patch (s.reported k how)
    rw [hr]
    refine ⟨_, hlist, hcounts.trans (List.append_assoc _ _ _), nofun, fun m' hm' => ?_⟩
    cases hm'
    exact ⟨rfl, rfl⟩

/-! ### Its count in the tally (R32, R33) -/

/-- A tally with one PINHOLE record counted, and its late mark. -/
theorem addAll_pinhole (q : Tally) (p : Nat) (late : Bool) :
    q.addAll (.pinhole p :: if late then [.lateMark p] else []) = { q with
      pinholes := if p = q.num then min (q.pinholes + 1) 65535 else q.pinholes
      lateMarks := if late = true ∧ p = q.num then min (q.lateMarks + 1) 65535 else q.lateMarks } := by
  by_cases hp : p = q.num <;> cases late <;>
    simp [Tally.addAll, Tally.add, Contribution.patch, hp, bump, maxCount]

theorem openedTally_uncoated {x : Slot} (h : x.zone.coated = false) (cs : List Contribution) :
    openedTally x cs = none := by
  simp [openedTally, Slot.tallied, h]

/-- A line that is not coated leaves no tally open. -/
theorem tallyStage_uncoated_work {x : Slot} (h : x.zone.coated = false) (v : State) :
    (tallyStage x v).eng.work = { v.eng.work with tally := none } := by
  cases ht : v.eng.work.tally with
  | none => rw [tallyStage_opens ht, openedTally_uncoated h]; rfl
  | some q => rw [tallyStage_closes ht (by simp [Slot.tallied, h]), openedTally_uncoated h]; rfl

/-- Settles O23: the stages that pass over the line, the close of the candidate, and the close of the tally. -/
theorem publishClosesCandidate : Obligations.PublishClosesCandidate := by
  intro i j k ln s h hzone hcontribs hk hj hroom
  have huncoated : ln.slot.zone.coated = false := by rcases hzone with h | h <;> rw [h] <;> rfl
  obtain ⟨late, hlist, hcs, hnone, hsome⟩ :=
    reportPinhole_room ln.copy.markerFields k .ordinary (s := dropCand j s) hroom
  have hwork := reportPinhole_tables ln.copy.markerFields k .ordinary (dropCand j s)
  have hruns := runStages_uncoated huncoated s
  rw [closeCands_one _ _ hk hj] at hruns
  generalize reportPinhole ln.copy.markerFields k .ordinary (dropCand j s) = v at hlist hcs hnone hsome hwork hruns
  have hcs' : v.eng.contribs = .pinhole k.patch :: if late then [.lateMark k.patch] else [] := by
    rw [hcs, show (dropCand j s).eng.contribs = [] from hcontribs]; rfl
  obtain ⟨t, ht, htlist, htpub, htmark, hfree⟩ := linePublish_runs h
  rw [hruns] at htlist
  rw [hruns, tallyStage_uncoated_work huncoated, hwork] at htpub
  rw [hruns, tallyStage_mark] at htmark
  have htally : v.eng.work.tally = s.eng.work.tally := by rw [hwork]; rfl
  refine ⟨t, late, _, ht, rfl, fun hq => ?_, fun q hq => ?_, ?_, by rw [htpub]; rfl, by rw [htpub]; rfl,
    by rw [htpub]; rfl, by rw [htpub], hfree, fun hm => ?_, fun m hm f hf hfree' hwidth hsorted => ?_⟩
  · rw [htlist, tallyStage_opens (htally.trans hq)]
    exact hlist
  · rw [htlist, tallyStage_closes (htally.trans hq) (by simp [Slot.tallied, huncoated]), hcs', addAll_pinhole]
    exact congrArg (fun l => DefectList.push l _ _) hlist
  · rw [htpub]
    exact dropCand_empty hj
  · rw [htmark]
    exact hnone hm
  · obtain ⟨hv, hlate⟩ := hsome m hm
    obtain ⟨start, sched, late', hlate', hahead, hdue, hperm, hstarts, hsched, hhand⟩ :=
      handAction_alone (s := (dropCand j s).reported k .ordinary) m f k.firstW k.patch hroom hfree' hwidth hsorted
    have hmarker : ln.copy.markerFields m = f := by rw [hf]; cases m <;> rfl
    rw [hmarker] at hv hlate
    obtain rfl : late = late' := hlate.trans hlate'.symm
    rw [htmark, hv, hhand]
    exact ⟨start, hahead, hdue, hperm, hstarts, congrArg Scheduler.nextRank hsched, congrArg Scheduler.late hsched,
      (congrArg Scheduler.merges hsched).trans rfl⟩

end Sys2Proof.Machine
end

section
/-! SUPPORT. Frames on a wire (R35 to R39): what a receiver between two frames ends with a frame's bytes, good or bad,
and what the reader of head bodies gives back. -/

namespace Sys2Proof.Machine

/-! ### Storing escaped bytes (R36) -/

theorem store_kept (limit : Nat) (r : Reception) (b : Byte) :
    (r.store limit b).isOpen = r.isOpen ∧ (r.store limit b).escape = r.escape ∧ (r.store limit b).begun = true ∧
      (r.malformed = true → (r.store limit b).malformed = true) := by
  unfold Reception.store; split <;> simp

/-- The length of what is stored, until the limit is passed. -/
theorem store_within (limit : Nat) (r : Reception) (b : Byte) :
    (r.store limit b).stored.length = r.stored.length + 1 ∧ (r.store limit b).stored.length ≤ limit ∨
      (r.store limit b).malformed = true := by
  unfold Reception.store; split
  · left; simp; omega
  · exact .inr rfl

/-- Bytes that end no frame leave what follows to the receiver after them. -/
theorem feedAll_append_of_none {limit : Nat} {r r' : Reception} {as : List Byte} (h : r.feedAll limit as = (r', []))
    (bs : List Byte) : r.feedAll limit (as ++ bs) = r'.feedAll limit bs := by
  simp [feedAll_append, h]

/-- An open receiver with no escape byte held stores the byte that an escaped byte stands for. -/
theorem feedAll_escapeByte_store {limit : Nat} {r : Reception} (ho : r.isOpen = true) (he : r.escape = false)
    (b : Byte) : r.feedAll limit (escapeByte b) = (r.store limit b, []) := by
  obtain ⟨o, begun, stored, escape, mal⟩ := r
  obtain rfl : o = true := ho
  obtain rfl : escape = false := he
  by_cases h1 : b = 0xB2#8
  · subst h1
    simp [escapeByte, Reception.feedAll, Reception.feed, Reception.store]
  · by_cases h2 : b = 0xB5#8
    · subst h2; simp [escapeByte, Reception.feedAll, Reception.feed, Reception.store]
    · simp [escapeByte, Reception.feedAll, Reception.feed, h1, h2]

theorem feedAll_escapeBytes_store {limit : Nat} (bs : List Byte) : ∀ {r : Reception}, r.isOpen = true →
    r.escape = false → r.feedAll limit (escapeBytes bs) = (bs.foldl (Reception.store limit) r, []) := by
  induction bs with
  | nil => intros; rfl
  | cons b bs ih =>
    intro r ho he
    obtain ⟨ho', he', -⟩ := store_kept limit r b
    rw [show escapeBytes (b :: bs) = escapeByte b ++ escapeBytes bs from rfl,
      feedAll_append_of_none (feedAll_escapeByte_store ho he b)]
    exact ih (ho'.trans ho) (he'.trans he)

theorem foldl_store_kept (limit : Nat) (bs : List Byte) : ∀ r : Reception,
    (bs.foldl (Reception.store limit) r).isOpen = r.isOpen ∧ (bs.foldl (Reception.store limit) r).escape = r.escape ∧
      (r.begun = true ∨ bs ≠ [] → (bs.foldl (Reception.store limit) r).begun = true) ∧
      (r.malformed = true → (bs.foldl (Reception.store limit) r).malformed = true) := by
  induction bs with
  | nil => intro r; simp
  | cons b bs ih =>
    intro r
    obtain ⟨ho, he, hb, hm⟩ := store_kept limit r b
    obtain ⟨ho', he', hb', hm'⟩ := ih (r.store limit b)
    exact ⟨ho'.trans ho, he'.trans he, fun _ => hb' (.inl hb), fun h => hm' (hm h)⟩

/-- More bytes than the limit leaves room for make the frame malformed. -/
theorem foldl_store_beyond (limit : Nat) (bs : List Byte) : ∀ r : Reception, r.stored.length ≤ limit →
    limit < r.stored.length + bs.length → (bs.foldl (Reception.store limit) r).malformed = true := by
  induction bs with
  | nil => intro r h h'; simp at h'; omega
  | cons b bs ih =>
    intro r h h'
    rcases store_within limit r b with ⟨hl, hle⟩ | hm
    · exact ih _ hle (by rw [List.length_cons] at h'; omega)
    · obtain ⟨-, -, -, hkept⟩ := foldl_store_kept limit bs (r.store limit b)
      exact hkept hm

/-! ### One frame at a receiver between two frames (R36, R37) -/

/-- At a receiver between two frames the bytes and a closing delimiter end one frame: what it stored, and whether it is
malformed. -/
def ClosesAs (limit : Nat) (bytes stored : List Byte) (malformed : Bool) : Prop :=
  ∀ r : Reception, r = .shut ∨ r = .fresh →
    r.feedAll limit (bytes ++ delimiter) = (.fresh, [.closed stored malformed])

/-- A frame whose bytes leave the receiver open, with a byte received and no escape byte held, is closed by the
delimiter. -/
theorem closesAs_of_feedAll {limit : Nat} {bs : List Byte} {r : Reception}
    (h : Reception.fresh.feedAll limit bs = (r, [])) (ho : r.isOpen = true) (he : r.escape = false)
    (hb : r.begun = true) : ClosesAs limit (0xB2#8 :: bs) r.stored r.malformed := by
  have hclose : r.feedAll limit delimiter = (.fresh, [.closed r.stored r.malformed]) := by
    simp [delimiter, Reception.feedAll, Reception.feed, ho, he, hb]
  intro r₀ h₀
  have hopens : r₀.feedAll limit (0xB2#8 :: (bs ++ delimiter)) = Reception.fresh.feedAll limit (bs ++ delimiter) := by
    rcases h₀ with rfl | rfl <;> exact feedAll_cons_none rfl _
  rw [List.cons_append, hopens, feedAll_append_of_none h, hclose]

/-- Escaped bytes within the limit are what the receiver stores. -/
theorem escapeBytes_closes {limit : Nat} {stored : List Byte} (hpos : 1 ≤ stored.length)
    (hle : stored.length ≤ limit) : ClosesAs limit (0xB2#8 :: escapeBytes stored) stored false := by
  have hfeed := feedAll_escapeBytes limit false stored false [] (by simpa using hle)
  have hne : stored.isEmpty = false := by rw [List.isEmpty_eq_false_iff, ← List.length_pos_iff]; omega
  rw [hne] at hfeed
  exact closesAs_of_feedAll hfeed rfl rfl rfl

/-- What a sender puts on a wire is what the receiver stores. -/
theorem sentBytes_closes {limit : Nat} {body : List Byte} (h : body.length + 2 ≤ limit) :
    ClosesAs limit (sentBytes body) (withCrc body) false :=
  escapeBytes_closes (by rw [withCrc_length]; omega) (by rwa [withCrc_length])

theorem intactBody_malformed (stored : List Byte) : intactBody stored true = none := rfl

theorem intactBody_short {stored : List Byte} (h : stored.length < 3) (mal : Bool) : intactBody stored mal = none := by
  simp [intactBody, h]

/-- A stored body before two bytes that are not its CRC is not intact. -/
theorem intactBody_otherCrc {body : List Byte} {hi lo : Byte}
    (h : 256 * hi.toNat + lo.toNat ≠ (crc body).toNat) (mal : Bool) : intactBody (body ++ [hi, lo]) mal = none := by
  have hcrc : ofBe [hi, lo] = 256 * hi.toNat + lo.toNat := by simp [ofBe]; omega
  simp [intactBody, hcrc, h]

/-- Escaped bytes beyond the limit close as a malformed frame. -/
theorem long_closes {limit : Nat} {stored : List Byte} (h : limit < stored.length) :
    ∃ kept, ClosesAs limit (0xB2#8 :: escapeBytes stored) kept true := by
  obtain ⟨ho, he, hb, -⟩ := foldl_store_kept limit stored .fresh
  have hne : stored ≠ [] := by rintro rfl; simp at h
  have hm := foldl_store_beyond limit stored .fresh (Nat.zero_le _) (by simpa [Reception.fresh] using h)
  exact ⟨_, hm ▸ closesAs_of_feedAll (feedAll_escapeBytes_store stored rfl rfl) ho he (hb (.inr hne))⟩

/-- An escape byte before a byte it may not stand before closes as a malformed frame. -/
theorem badEscape_closes {limit : Nat} (before after : List Byte) {b : Byte} (h1 : b ≠ 0xB2#8)
    (h2 : b ≠ 0x82#8) (h3 : b ≠ 0x85#8) :
    ∃ kept, ClosesAs limit (0xB2#8 :: (escapeBytes before ++ [0xB5#8, b] ++ escapeBytes after)) kept true := by
  obtain ⟨ho, he, -⟩ := foldl_store_kept limit before .fresh
  generalize hr : before.foldl (Reception.store limit) .fresh = r at ho he
  have hbefore := feedAll_escapeBytes_store (limit := limit) before (r := .fresh) rfl rfl
  have hescape : r.feedAll limit [0xB5#8, b] = ({ r with escape := false, begun := true, malformed := true }, []) := by
    simp [Reception.feedAll, Reception.feed, ho, he, h1, h2, h3, Reception.fresh]
  obtain ⟨ho', he', hb', hm'⟩ :=
    foldl_store_kept limit after { r with escape := false, begun := true, malformed := true }
  refine ⟨_, hm' rfl ▸ closesAs_of_feedAll ?_ (ho'.trans ho) he' (hb' (.inl rfl))⟩
  rw [List.append_assoc, feedAll_append_of_none (hbefore.trans (by rw [hr])), feedAll_append_of_none hescape]
  exact feedAll_escapeBytes_store after ho rfl

/-- Bytes that are bad on the wire close as a frame that is not intact. -/
theorem badOnWire_closes {limit : Nat} {bytes : List Byte} (h : BadOnWire limit bytes) :
    ∃ stored mal, ClosesAs limit bytes stored mal ∧ intactBody stored mal = none := by
  cases h with
  | crc body hi lo h1 h2 h3 =>
    exact ⟨_, _, escapeBytes_closes (by simp) (by simpa using h2), intactBody_otherCrc h3 _⟩
  | short stored h1 h2 =>
    by_cases hlong : limit < stored.length
    · obtain ⟨kept, hk⟩ := long_closes hlong
      exact ⟨kept, true, hk, intactBody_malformed kept⟩
    · exact ⟨_, _, escapeBytes_closes h1 (by omega), intactBody_short h2 _⟩
  | long stored h =>
    obtain ⟨kept, hk⟩ := long_closes h
    exact ⟨kept, true, hk, intactBody_malformed kept⟩
  | escape before after b h1 h2 h3 =>
    obtain ⟨kept, hk⟩ := badEscape_closes before after h1 h2 h3
    exact ⟨kept, true, hk, intactBody_malformed kept⟩

/-! ### Head bodies (R38, R39) -/

theorem packCells_length : ∀ values : List Nat, (packCells values).length = (3 * values.length + 1) / 2
  | [] => rfl
  | [_] => by simp [packCells]
  | _ :: _ :: rest => by
    simp only [packCells, List.length_cons, packCells_length rest]; omega

/-- Packed cell values are read back. -/
theorem unpackCells_packCells : ∀ values : List Nat, (∀ v ∈ values, v ≤ 4095) →
    unpackCells values.length (packCells values) = values
  | [], _ => rfl
  | [a], h => by
    have ha : a ≤ 4095 := h a (by simp)
    simp only [packCells, List.length_singleton, unpackCells, BitVec.toNat_ofNat]
    congr 1; omega
  | a :: b :: rest, h => by
    have ha : a ≤ 4095 := h a (by simp)
    have hb : b ≤ 4095 := h b (by simp)
    simp only [packCells, List.length_cons, unpackCells, BitVec.toNat_ofNat]
    rw [unpackCells_packCells rest fun v hv => h v (by simp [hv])]
    congr 1
    · omega
    · congr 1; omega

theorem idleBody_length (id : Nat) : (idleBody id).length = 3 := rfl

theorem lineBody_length (id : Nat) (tag : BitVec 16) (status : Byte) (values : List Nat) :
    (lineBody id tag status values).length = 8 + (3 * values.length + 1) / 2 := by
  simp [lineBody, packCells_length]; omega

/-- The fields of a LINE body stand at their offsets. -/
theorem lineBody_parts (id : Nat) (tag : BitVec 16) (status : Byte) (values : List Nat) :
    (lineBody id tag status values).head? = some 1#8 ∧ ((lineBody id tag status values).drop 1).take 2 = be 2 id ∧
      ((lineBody id tag status values).drop 3).take 2 = be 2 tag.toNat ∧
      (lineBody id tag status values).getD 5 0 = status ∧
      ((lineBody id tag status values).drop 6).take 2 = be 2 values.length ∧
      (lineBody id tag status values).drop 8 = packCells values :=
  ⟨rfl, rfl, rfl, rfl, rfl, rfl⟩

theorem readHeadBody_idleBody {id : Nat} (h1 : 1 ≤ id) (h2 : id ≤ 65535) :
    readHeadBody (idleBody id) = some (.idle id) := by
  have hid : ofBe (((idleBody id).drop 1).take 2) = id := ofBe_be (n := 2) (by omega)
  have hne : id ≠ 0 := by omega
  simp only [readHeadBody, hid, hne, idleBody_length, show (idleBody id).head? = some 2#8 from rfl, if_true, if_false]

theorem readHeadBody_lineBody {id : Nat} (h1 : 1 ≤ id) (h2 : id ≤ 65535) (tag : BitVec 16) (status : Byte)
    {values : List Nat} (hpos : 1 ≤ values.length) (hle : values.length ≤ 512) (hv : ∀ v ∈ values, v ≤ 4095) :
    readHeadBody (lineBody id tag status values) =
      some (.line id tag (status.getLsbD 0) values.length values) := by
  obtain ⟨phead, pid, ptag, pstatus, pcount, pcells⟩ := lineBody_parts id tag status values
  have hid : ofBe (be 2 id) = id := ofBe_be (by omega)
  have htag : ofBe (be 2 tag.toNat) = tag.toNat := ofBe_be tag.isLt
  have hcount : ofBe (be 2 values.length) = values.length := ofBe_be (by omega)
  have hne : id ≠ 0 := by omega
  have htype : (some 1#8 : Option Byte) ≠ some 2#8 := by decide
  simp only [readHeadBody, phead, pid, ptag, pstatus, pcount, pcells, hid, htag, hcount, hne, htype, lineBody_length,
    hpos, hle, unpackCells_packCells values hv, BitVec.ofNat_toNat, BitVec.setWidth_eq, and_self, if_true, if_false]

/-- Settles O17: what the sender escapes the receiver stores, and the offsets of the two bodies are the reader's. -/
theorem framesReadBack : Obligations.FramesReadBack := by
  refine ⟨fun limit body hpos hle => ?_, fun id h1 h2 => ⟨readHeadBody_idleBody h1 h2, ?_⟩⟩
  · have hcloses := sentBytes_closes hle
    exact ⟨hcloses _ (.inl rfl), hcloses _ (.inr rfl), intactBody_withCrc hpos⟩
  · exact fun tag status values hn hle hv => readHeadBody_lineBody h1 h2 tag status hn hle hv

end Sys2Proof.Machine
end

section
/-! SUPPORT. Frames at a head link (R36, R40): how the link judges what a receiver ends, and what a good frame does to
its run, its lock and the reset requests (R42 to R44, R95). -/

namespace Sys2Proof.Machine

variable {s : State} {h : HeadNo}

/-! ### Bytes at a link (R36, R41) -/

@[simp] theorem State.withLink_self (s : State) (h : HeadNo) : s.withLink h (s.links.get h) = s := by
  simp [State.withLink]

@[simp] theorem State.withLink_withLink (s : State) (h : HeadNo) (k l : Link) :
    (s.withLink h k).withLink h l = s.withLink h l := by
  simp [State.withLink]

/-- The machine with the frame at a link's receiver ended: a new, still empty one is open (R36). -/
def State.frameEnded (s : State) (h : HeadNo) : State := s.withLink h { s.links.get h with rx := Reception.fresh }

theorem frameEnded_link (s : State) (h : HeadNo) :
    (s.frameEnded h).links.get h = { s.links.get h with rx := Reception.fresh } := Quad.get_set_self _ _ _

theorem headBytes_nil (h : HeadNo) (s : State) : headBytes h [] s = s := by
  unfold headBytes
  dsimp only
  split
  · rfl
  · exact State.withLink_self s h

/-- Bytes that end one frame leave it to be judged or counted. -/
theorem headBytes_one {bytes : List Byte} {e : FrameEnd} (hup : (s.links.get h).state ≠ .down)
    (hfeed : (s.links.get h).rx.feedAll headLimit bytes = (.fresh, [e])) :
    headBytes h bytes s = headFrameEnd h (s.frameEnded h) e := by
  simp only [headBytes, if_neg hup, hfeed]
  rfl

theorem headFrame_closed {bytes stored : List Byte} {mal : Bool} (hup : (s.links.get h).state ≠ .down)
    (hrx : (s.links.get h).rx = .shut ∨ (s.links.get h).rx = .fresh) (hc : ClosesAs 778 bytes stored mal) :
    exec (.headFrame h bytes) s = .next (headFrameEnd h (s.frameEnded h) (.closed stored mal)) :=
  congrArg Host.Outcome.next (headBytes_one hup (hc _ hrx))

/-- The abort sequence ends the frame in reception (R36). -/
theorem feedAll_abort (limit : Nat) {r : Reception} (ho : r.isOpen = true) (he : r.escape = false) :
    r.feedAll limit abortSequence = (.fresh, [.aborted]) := by
  simp [abortSequence, Reception.feedAll, Reception.feed, ho, he]

/-! ### Judging (R40) -/

theorem identityFails_iff (s : State) (h : HeadNo) (id : Nat) :
    identityFails (s.rcp.active.heads.get h) ((s.frameEnded h).links.get h) id = true ↔ s.otherHead h id := by
  rw [frameEnded_link]
  simp only [identityFails, State.otherHead, Bool.or_eq_true, Bool.and_eq_true, bne_iff_ne, beq_iff_eq, ne_comm]

/-- A head that the entry does not exclude, and that a LOCKED link has learned, passes the identity test. -/
theorem not_otherHead {id : Nat}
    (he : (s.rcp.active.heads.get h).expectedId = 0 ∨ (s.rcp.active.heads.get h).expectedId = id)
    (hl : (s.links.get h).state = .locked → (s.links.get h).learned = id) : ¬ s.otherHead h id := by
  rintro (⟨he0, hne⟩ | ⟨hs, hne⟩)
  · exact he.elim he0 hne
  · exact hne (hl hs)

theorem countFails_line {e : HeadEntry} {id : Nat} {tag : BitVec 16} {illum : Bool} {n : Nat} {values : List Nat}
    (hn : e.enabled = 1 → e.l0 + e.n ≤ n) : countFails e (.line id tag illum n values) = false := by
  simpa [countFails] using hn

theorem headFrameEnd_good {stored : List Byte} {mal : Bool} {f : HeadFrame}
    (hv : judge (s.rcp.active.heads.get h) (s.links.get h) stored mal = .good f) :
    headFrameEnd h s (.closed stored mal) = goodFrame h f s := by
  simp only [headFrameEnd, hv]

theorem headFrameEnd_bad {stored : List Byte} {mal mismatch : Bool}
    (hv : judge (s.rcp.active.heads.get h) (s.links.get h) stored mal = .bad mismatch) :
    headFrameEnd h s (.closed stored mal) = badFrame h mismatch s := by
  simp only [headFrameEnd, hv]

theorem judge_notIntact {stored : List Byte} {mal : Bool} (hi : intactBody stored mal = none) (e : HeadEntry)
    (k : Link) : judge e k stored mal = .bad false := by
  simp only [judge, hi]

section
variable {body : List Byte} (hpos : 1 ≤ body.length) (e : HeadEntry) (k : Link)
include hpos

theorem judge_malformed (hr : readHeadBody body = none) : judge e k (withCrc body) false = .bad false := by
  simp only [judge, intactBody_withCrc hpos, hr]

variable {e k} {f : HeadFrame} (hr : readHeadBody body = some f)
include hr

theorem judge_otherHead (hid : identityFails e k f.id = true) : judge e k (withCrc body) false = .bad true := by
  simp only [judge, intactBody_withCrc hpos, hr, hid, if_true]

theorem judge_sameHead (hid : ¬ identityFails e k f.id = true) :
    judge e k (withCrc body) false = if countFails e f then .bad false else .good f := by
  simp only [judge, intactBody_withCrc hpos, hr, if_neg hid]

end

/-- What the judge says of a body that the definition of a head frame excludes (R38, R39). -/
theorem readHeadBody_malformed {body : List Byte} (hm : headBodyMalformed body) : readHeadBody body = none := by
  unfold readHeadBody
  dsimp only
  rcases hm with h0 | ⟨h1, h2⟩ | ⟨h2, hlen⟩ | ⟨h1, hn⟩
  · rw [if_pos h0]
  · replace h1 : body.head? ≠ some 1#8 := h1
    replace h2 : body.head? ≠ some 2#8 := h2
    rw [if_neg h2, if_neg h1, ite_self]
  · replace h2 : body.head? = some 2#8 := h2
    rw [if_pos h2, if_neg hlen, ite_self]
  · replace h1 : body.head? = some 1#8 := h1
    have htype : body.head? ≠ some 2#8 := by rw [h1]; decide
    rw [if_neg htype, if_pos h1, ite_eq_left_iff]
    exact fun _ => if_neg (by omega)

/-- A head's body reads as a frame of that head, within the link's length limit. -/
theorem headBodyOf_reads {id : Nat} {body : List Byte} (hb : headBodyOf id body) :
    ∃ f, readHeadBody body = some f ∧ f.id = id ∧ 1 ≤ body.length ∧ body.length + 2 ≤ 778 := by
  obtain ⟨h1, h2, rfl | ⟨tag, status, values, hn1, hn2, hv, rfl⟩⟩ := hb
  · exact ⟨_, readHeadBody_idleBody h1 h2, rfl, by simp [idleBody_length], by simp [idleBody_length]⟩
  · exact ⟨_, readHeadBody_lineBody h1 h2 tag status hn1 hn2 hv, rfl, by rw [lineBody_length]; omega,
      by rw [lineBody_length]; omega⟩

/-- A sent frame that passes the identity test and the cell count test is good. -/
theorem headFrame_good {body : List Byte} {f : HeadFrame} (hup : (s.links.get h).state ≠ .down)
    (hrx : (s.links.get h).rx = .shut ∨ (s.links.get h).rx = .fresh) (hr : readHeadBody body = some f)
    (hpos : 1 ≤ body.length) (hle : body.length + 2 ≤ 778) (hid : ¬ s.otherHead h f.id)
    (hc : countFails (s.rcp.active.heads.get h) f = false) :
    exec (.headFrame h (sentBytes body)) s = .next (goodFrame h f (s.frameEnded h)) := by
  have hj := judge_sameHead hpos hr (mt (identityFails_iff s h f.id).mp hid)
  rw [hc] at hj
  rw [headFrame_closed hup hrx (sentBytes_closes hle), headFrameEnd_good hj]

/-- Every bad frame is judged bad, as an ID mismatch or not. -/
theorem headFrame_bad {bytes : List Byte} {mismatch : Bool} (hup : (s.links.get h).state ≠ .down)
    (hrx : (s.links.get h).rx = .shut ∨ (s.links.get h).rx = .fresh) (hbad : s.badHeadFrame h bytes mismatch) :
    exec (.headFrame h bytes) s = .next (badFrame h mismatch (s.frameEnded h)) := by
  have hclosed : ∀ {stored : List Byte} {mal : Bool}, ClosesAs 778 bytes stored mal →
      judge (s.rcp.active.heads.get h) ((s.frameEnded h).links.get h) stored mal = .bad mismatch →
      exec (.headFrame h bytes) s = .next (badFrame h mismatch (s.frameEnded h)) := by
    intro stored mal hc hj
    rw [headFrame_closed hup hrx hc, headFrameEnd_bad hj]
  rcases hbad with ⟨rfl, hwire⟩ | ⟨rfl, body, hpos, hle, hm, rfl⟩ | ⟨rfl, id, body, hof, hother, rfl⟩ |
    ⟨rfl, id, tag, status, values, h1, h2, hn1, hn2, hv, hsame, hen, hfew, rfl⟩
  · obtain ⟨stored, mal, hc, hi⟩ := badOnWire_closes hwire
    exact hclosed hc (judge_notIntact hi _ _)
  · exact hclosed (sentBytes_closes (by omega)) (judge_malformed hpos _ _ (readHeadBody_malformed hm))
  · obtain ⟨f, hr, rfl, hpos, hle⟩ := headBodyOf_reads hof
    exact hclosed (sentBytes_closes hle) (judge_otherHead hpos hr ((identityFails_iff s h _).mpr hother))
  · have hlen := lineBody_length id tag status values
    have hcount : countFails (s.rcp.active.heads.get h)
        (.line id tag (status.getLsbD 0) values.length values) = true := by
      simp [countFails, hen, hfew]
    have hj := judge_sameHead (by omega) (readHeadBody_lineBody h1 h2 tag status hn1 hn2 hv)
      (mt (identityFails_iff s h id).mp hsame)
    rw [hcount] at hj
    exact hclosed (sentBytes_closes (by omega)) hj

/-! ### A good frame (R42, R43, R44) -/

section
variable {k : Link} {f : HeadFrame} {id : Nat}

/-- A good frame in HUNT that is not the fourth in a row raises or starts the run. -/
theorem goodFrame_runs (hs : k.state = .hunt) (hrun : k.good < 3 ∨ k.runId ≠ f.id) :
    goodFrame h f (s.withLink h k) = s.withLink h { k with
      runId := f.id, good := if k.good ≠ 0 ∧ k.runId = f.id then k.good + 1 else 1 } := by
  have hfew : ¬ 4 ≤ if k.good ≠ 0 ∧ k.runId = f.id then k.good + 1 else 1 := by split <;> omega
  simp only [goodFrame, State.withLink_links, Quad.get_set_self, hs, if_neg hfew, State.withLink_withLink]

/-- The fourth good frame in a row with one head id locks the link. -/
theorem goodFrame_locks (hs : k.state = .hunt) (hgood : k.good = 3) (hrun : k.runId = f.id) :
    goodFrame h f (s.withLink h k) = lockLink h f.id (s.withLink h { k with good := 4 }) := by
  simp [goodFrame, hs, hgood, ← hrun]

theorem goodFrame_locked (hs : k.state = .locked) :
    goodFrame h f (s.withLink h k) = deliver h f (s.withLink h { k with bad := 0 }) := by
  simp only [goodFrame, State.withLink_links, Quad.get_set_self, hs, State.withLink_withLink]

/-- A link locks on its first head, or on the head it had learned. -/
theorem lockLink_known (hl : k.learned = 0 ∨ k.learned = id) :
    lockLink h id (s.withLink h k) = append s.pos.w (.event .headLocked h.val)
      (s.withLink h { k with state := .locked, bad := 0, learned := id }) := by
  simp only [lockLink, State.withLink_links, Quad.get_set_self, if_pos hl, State.withLink_withLink]
  rfl

/-- The reset requests once the head at a link has changed (R95): a head that is not enabled has no cells to reset. -/
def State.resetsOnChange (s : State) (h : HeadNo) : List ResetRequest :=
  if (s.rcp.active.heads.get h).enabled = 1 then
    requestHeadReset h ((s.rcp.active.heads.get h).g0, (s.rcp.active.heads.get h).n) s.eng.resets
  else s.eng.resets

/-- A link locks on another head than it had learned: the head has changed. -/
theorem lockLink_changed (h0 : k.learned ≠ 0) (hl : k.learned ≠ id) :
    lockLink h id (s.withLink h k) =
      append s.pos.w (.event .headChanged h.val) (append s.pos.w (.event .headLocked h.val)
        { s.withLink h { k with state := .locked, bad := 0, learned := id } with
          eng := { s.eng with resets := s.resetsOnChange h } }) := by
  simp only [lockLink, State.withLink_links, Quad.get_set_self, if_neg (not_or.mpr ⟨h0, hl⟩), State.withLink_withLink,
    appendEvent_rcp, State.withLink_rcp, State.resetsOnChange]
  split <;> rfl

end

/-! ### The reset request of a changed head (R95) -/

/-- Without a request that covers it or one of the same head, the request is entered last. -/
theorem requestHeadReset_last (cells : Nat × Nat) : ∀ {rs : List ResetRequest}, .full ∉ rs →
    (∀ cs, .head h cs ∉ rs) → requestHeadReset h cells rs = rs ++ [.head h [cells]]
  | [], _, _ => rfl
  | .full :: _, hfull, _ => absurd (List.mem_cons_self ..) hfull
  | .head h' cs :: rest, hfull, hnone => by
    have hne : h' ≠ h := by rintro rfl; exact hnone cs (List.mem_cons_self ..)
    rw [requestHeadReset, if_neg hne, requestHeadReset_last cells (fun hm => hfull (List.mem_cons_of_mem _ hm))
      fun cs hm => hnone cs (List.mem_cons_of_mem _ hm)]
    rfl

/-- The request joins the head's entry. -/
theorem requestHeadReset_joins (cells : Nat × Nat) (cs : List (Nat × Nat)) (after : List ResetRequest) :
    ∀ {before : List ResetRequest}, .full ∉ before → (∀ x, .head h x ∉ before) →
      requestHeadReset h cells (before ++ .head h cs :: after) = before ++ .head h (cs ++ [cells]) :: after
  | [], _, _ => if_pos rfl
  | .full :: _, hfull, _ => absurd (List.mem_cons_self ..) hfull
  | .head h' x :: rest, hfull, hnone => by
    have hne : h' ≠ h := by rintro rfl; exact hnone x (List.mem_cons_self ..)
    rw [List.cons_append, requestHeadReset, if_neg hne, requestHeadReset_joins cells cs after
      (fun hm => hfull (List.mem_cons_of_mem _ hm)) fun x hm => hnone x (List.mem_cons_of_mem _ hm)]
    rfl

/-- Settles O13: the frame is judged good, and then raises the run, locks the link or clears the bad run. -/
theorem goodFrameAtLink : Obligations.GoodFrameAtLink := by
  intro h id body s h1 h2 hrx hexp hbody
  obtain ⟨f, hr, hfid, hpos, hle, hc⟩ : ∃ f, readHeadBody body = some f ∧ f.id = id ∧ 1 ≤ body.length ∧
      body.length + 2 ≤ 778 ∧ countFails (s.rcp.active.heads.get h) f = false := by
    rcases hbody with rfl | ⟨tag, status, values, hn1, hn2, hv, hcells, rfl⟩
    · exact ⟨_, readHeadBody_idleBody h1 h2, rfl, by simp [idleBody_length], by simp [idleBody_length], rfl⟩
    · refine ⟨_, readHeadBody_lineBody h1 h2 tag status hn1 hn2 hv, rfl, by rw [lineBody_length]; omega,
        by rw [lineBody_length]; omega, countFails_line hcells⟩
  have hhunt : (s.links.get h).state = .hunt →
      exec (.headFrame h (sentBytes body)) s = .next (goodFrame h f (s.frameEnded h)) := by
    intro hs
    have hsame : ¬ s.otherHead h f.id := not_otherHead (by rwa [hfid]) fun hl => by rw [hs] at hl; cases hl
    exact headFrame_good (by rw [hs]; decide) hrx hr hpos hle hsame hc
  refine ⟨fun hs hgood hrun => ?_, fun hs hrun => ?_, fun hs hl hidle => ?_⟩
  · have hlock : goodFrame h f (s.frameEnded h) =
        lockLink h id (s.withLink h { s.links.get h with rx := .fresh, good := 4 }) :=
      hfid ▸ goodFrame_locks hs hgood (hrun.trans hfid.symm)
    rw [hhunt hs, hlock]
    refine ⟨fun hl => ?_, fun h0 hl => ⟨s.resetsOnChange h, ?_, ?_, fun hen hfull => ⟨?_, ?_⟩⟩⟩
    · exact congrArg Host.Outcome.next (lockLink_known hl)
    · exact congrArg Host.Outcome.next (lockLink_changed h0 hl)
    · rintro (hen | hfull)
      · exact if_neg hen
      · rw [State.resetsOnChange, hfull]
        exact ite_self _
    · intro hnone
      rw [State.resetsOnChange, if_pos hen]
      exact requestHeadReset_last _ hfull hnone
    · intro before after cells hnone heq
      rw [State.resetsOnChange, if_pos hen, heq]
      exact requestHeadReset_joins _ cells after (fun hm => hfull (by rw [heq]; simp [hm])) hnone
  · subst hfid
    rw [hhunt hs]
    exact congrArg Host.Outcome.next (goodFrame_runs hs hrun)
  · subst hidle
    obtain rfl : .idle id = f := Option.some.inj ((readHeadBody_idleBody h1 h2).symm.trans hr)
    rw [headFrame_good (by rw [hs]; decide) hrx hr hpos hle (not_otherHead hexp fun _ => hl) hc]
    exact congrArg Host.Outcome.next (goodFrame_locked hs)

end Sys2Proof.Machine
end

section
/-! SUPPORT. Bad and aborted frames (R40, R43, R45) and the ways a link leaves LOCKED (R41, R46, R47), with what the
OPEN slots lose with the head (R59). -/

namespace Sys2Proof.Machine

variable {s : State} {h : HeadNo}

/-! ### The slots that lose a head (R58, R59) -/

/-- A slot without a head, after its completion test: the head is in none of the three sets. -/
theorem without_completed_eq (x : Slot) (h : HeadNo) : (x.without h).completed = { x with
    state := (x.without h).completed.state
    expected := x.expected.set h false, received := x.received.set h false, absent := x.absent.set h false } := by
  conv_lhs => rw [completed_eq]
  rw [completed_eq]
  rfl

/-- An OPEN slot without a head is complete when the other heads are. -/
theorem without_completed_ready {x : Slot} (hx : x.state = .opened) (h : HeadNo) :
    (x.without h).completed.state = .ready ↔ ∀ k, k ≠ h → (x.received.get k || x.absent.get k) = x.expected.get k := by
  rw [(completed_opened (x := x.without h) hx).2]
  refine forall_congr' fun k => ?_
  by_cases hk : k = h <;> simp [Slot.without, Quad.get_set, hk]

section
variable {i : Fin 4} (c : LostCause)

theorem headLost_slot_closed (hx : (s.asm.slots.get i).state ≠ .opened) :
    (headLost h c s).asm.slots.get i = s.asm.slots.get i := by
  simp [headLost, headLostAtSlots, hx]

theorem headLost_slot_opened (hx : (s.asm.slots.get i).state = .opened) :
    (headLost h c s).asm.slots.get i = ((s.asm.slots.get i).without h).completed := by
  simp [headLost, headLostAtSlots, hx]

/-- A slot still OPEN after the loss expects the head no more. -/
theorem headLost_slot_expects (hx : ((headLost h c s).asm.slots.get i).state = .opened) :
    ((headLost h c s).asm.slots.get i).expected.get h = false := by
  by_cases ho : (s.asm.slots.get i).state = .opened
  · rw [headLost_slot_opened c ho, without_completed_eq]
    exact Quad.get_set_self _ _ _
  · rw [headLost_slot_closed c ho] at hx
    exact absurd hx ho

end

/-! ### An aborted frame and a bad frame (R36, R40, R43, R45) -/

section
variable {k : Link} {mismatch : Bool}

/-- An aborted frame is counted, and nothing else changes. -/
theorem headFrameEnd_aborted :
    headFrameEnd h (s.withLink h k) .aborted = s.withLink h { k with aborted := bump k.aborted } := by
  simp only [headFrameEnd, State.withLink_links, Quad.get_set_self, State.withLink_withLink]

/-- A bad frame in HUNT that is no ID mismatch, or not the first of its episode, clears the good run. -/
theorem badFrame_hunt (hs : k.state = .hunt) (hm : mismatch = false ∨ k.mismatchReported = true) :
    badFrame h mismatch (s.withLink h k) = s.withLink h { k.countBad mismatch with good := 0 } := by
  have hold : ¬ (mismatch = true ∧ (k.countBad mismatch).mismatchReported = false) := by
    rintro ⟨h1, h2⟩
    rcases hm with hm | hm
    · rw [hm] at h1; cases h1
    · rw [show (k.countBad mismatch).mismatchReported = k.mismatchReported from rfl, hm] at h2; cases h2
  simp only [badFrame, State.withLink_links, Quad.get_set_self, show (k.countBad mismatch).state = .hunt from hs,
    if_neg hold, State.withLink_withLink]

/-- The first ID mismatch of a HUNT episode is reported. -/
theorem badFrame_reports (hs : k.state = .hunt) (hr : k.mismatchReported = false) :
    badFrame h true (s.withLink h k) = append s.pos.w (.event .headMismatch h.val)
      (s.withLink h { k.countBad true with good := 0, mismatchReported := true }) := by
  simp only [badFrame, State.withLink_links, Quad.get_set_self, show (k.countBad true).state = .hunt from hs,
    show (k.countBad true).mismatchReported = false from hr, and_self, if_true, State.withLink_withLink]
  rfl

/-- A bad frame in LOCKED that is not the third in a row raises the bad run. -/
theorem badFrame_raises (hs : k.state = .locked) (hb : k.bad < 2) :
    badFrame h mismatch (s.withLink h k) = s.withLink h { k.countBad mismatch with bad := k.bad + 1 } := by
  have hfew : ¬ 3 ≤ (k.countBad mismatch).bad + 1 := by
    rw [show (k.countBad mismatch).bad = k.bad from rfl]; omega
  simp only [badFrame, State.withLink_links, Quad.get_set_self, show (k.countBad mismatch).state = .locked from hs,
    if_neg hfew, State.withLink_withLink]
  rfl

/-- The third bad frame in a row takes the link to HUNT. -/
theorem badFrame_unlocks (hs : k.state = .locked) (hb : k.bad = 2) :
    badFrame h mismatch (s.withLink h k) =
      headLost h .badFrames (s.withLink h { k.countBad mismatch with bad := 3 }.hunt) := by
  have hthird : 3 ≤ (k.countBad mismatch).bad + 1 := by
    rw [show (k.countBad mismatch).bad = k.bad from rfl]; omega
  simp only [badFrame, State.withLink_links, Quad.get_set_self, show (k.countBad mismatch).state = .locked from hs,
    if_pos hthird, State.withLink_withLink]

end

/-- Settles O14: the abort at the receiver, and the bad frame by the link's state and its runs. -/
theorem badAndAbortedFrames : Obligations.BadAndAbortedFrames := by
  intro h s
  refine ⟨fun hup ho he => ?_, fun hrx bytes mismatch hbad => ?_⟩
  · exact congrArg Host.Outcome.next ((headBytes_one hup (feedAll_abort 778 ho he)).trans headFrameEnd_aborted)
  · have hexec : ∀ {t : State}, (s.links.get h).state ≠ .down → badFrame h mismatch (s.frameEnded h) = t →
        exec (.headFrame h bytes) s = .next t := fun hup ht => ht ▸ headFrame_bad hup hrx hbad
    refine ⟨_, rfl, fun hs hm => hexec (by rw [hs]; decide) (badFrame_hunt hs hm), fun hs hm hr => ?_,
      fun hs hb => hexec (by rw [hs]; decide) (badFrame_raises hs hb), fun hs hb => ?_⟩
    · subst hm
      exact hexec (by rw [hs]; decide) (badFrame_reports hs hr)
    · refine ⟨_, hexec (by rw [hs]; decide) (badFrame_unlocks hs hb), ?_⟩
      generalize hk : Link.hunt _ = k
      have hlink : (headLost h .badFrames (s.withLink h k)).links.get h = k := Quad.get_set_self _ _ _
      rw [hlink, ← hk]
      exact ⟨rfl, rfl, rfl, rfl, rfl, rfl, fun j hj => Quad.get_set_of_ne _ _ hj, rfl,
        fun i hi => headLost_slot_expects .badFrames hi⟩

/-! ### Carrier (R41, R46) -/

theorem dropped_eq (k : Link) : k.dropped = { k with
    state := .down, rx := ⟨false, false, [], false, false⟩, good := 0, runId := 0, bad := 0
    aborted := if k.rx.isOpen = true ∧ k.rx.begun = true then min (k.aborted + 1) 65535 else k.aborted } := by
  simp only [Link.dropped, Bool.and_eq_true, bump_eq]
  rfl

theorem carrierGained_down (hs : (s.links.get h).state = .down) :
    exec (.carrierGained h) s = .next (s.withLink h { s.links.get h with rx := Reception.shut }.hunt) :=
  congrArg Host.Outcome.next (if_pos hs)

theorem carrierLost_hunt (hs : (s.links.get h).state = .hunt) :
    exec (.carrierLost h []) s = .next (s.withLink h (s.links.get h).dropped) := by
  simp only [exec, execCarrierLost, headBytes_nil, hs]

theorem carrierLost_locked (hs : (s.links.get h).state = .locked) :
    exec (.carrierLost h []) s = .next (headLost h .carrier (s.withLink h (s.links.get h).dropped)) := by
  simp only [exec, execCarrierLost, headBytes_nil, hs]

/-- Settles O12: what carrier does to the link, and what the loss of a LOCKED head does to the slots. -/
theorem carrierMovesLink : Obligations.CarrierMovesLink := by
  intro h s
  refine ⟨carrierGained_down, fun hs => ?_, fun hs => ⟨_, carrierLost_locked hs, ?_, rfl,
    fun i hx => headLost_slot_closed .carrier hx, fun i hx => ?_, rfl, rfl, rfl, rfl, rfl, rfl⟩⟩
  · rw [carrierLost_hunt hs, dropped_eq]; rfl
  · rw [dropped_eq]; rfl
  · have hslot := headLost_slot_opened (h := h) (s := s.withLink h (s.links.get h).dropped) .carrier hx
    obtain ⟨hstate, hready⟩ := completed_opened (x := (s.asm.slots.get i).without h) hx
    exact ⟨{ (s.asm.slots.get i).without h with state := ((s.asm.slots.get i).without h).completed.state },
      hslot.trans (without_completed_eq _ h), rfl, rfl, rfl, hstate, hready⟩

/-! ### RESYNC_HEAD (R47) -/

/-- Settles O49: the command runs `resyncLink` on the head it names. -/
theorem resyncHeadUnlocks : Obligations.ResyncHeadUnlocks := by
  intro p tag head s hp
  have hexec : exec (.resyncHead p tag head) s = .next ((cmdResyncHead head s).1.answering p 0x50 tag
      (cmdResyncHead head s).2.status.num (cmdResyncHead head s).2.payload) :=
    congrArg Host.Outcome.next (submit_ready hp .resyncHead tag [head] _)
  refine ⟨fun hr => by rw [hexec, cmdResyncHead, if_pos hr]; rfl, fun h hh => ?_⟩
  have hrun : cmdResyncHead head s = (resyncLink h s, .ok []) := by
    rw [cmdResyncHead, if_neg (by have := h.isLt; omega), ← hh]
    simp [headNo]
  rw [hexec, hrun]
  refine ⟨fun hs => ?_, fun hs => ?_, fun hs => ?_⟩
  · simp only [resyncLink, hs]; rfl
  · simp only [resyncLink, hs, Link.hunt]; rfl
  · have hlost : resyncLink h s = headLost h .resync (s.withLink h (s.links.get h).hunt) := by
      simp only [resyncLink, hs]
    rw [hlost]
    refine ⟨_, rfl, rfl, rfl, fun i hx => headLost_slot_closed .resync hx, fun i hx => ⟨_, _, rfl, rfl, ?_⟩, rfl, rfl,
      rfl, rfl, rfl, rfl, rfl⟩
    have hslot := headLost_slot_opened (h := h) (s := s.withLink h (s.links.get h).hunt) .resync hx
    rw [hslot]
    refine ⟨?_, without_completed_ready hx h⟩
    unfold Slot.completed
    split
    · exact .inr rfl
    · exact .inl rfl

end Sys2Proof.Machine
end

section
/-! SUPPORT. A line packet at the assembler (R55 to R58): the slot it finds, and what it leaves of the slot and of the
head's counters. -/

namespace Sys2Proof.Machine

variable {s : State} {i : Fin 4} {k : Packet}

/-! ### The slot of a tag (R55) -/

theorem openSlotFor_absent {tag : BitVec 16}
    (hnone : ∀ j, (s.asm.slots.get j).state = .opened → (s.asm.slots.get j).line ≠ tag) :
    s.openSlotFor tag = none :=
  List.find?_eq_none.mpr fun j _ => by simpa using hnone j

/-- The one OPEN slot of a tag is the one found. -/
theorem openSlotFor_unique {tag : BitVec 16} (ho : (s.asm.slots.get i).state = .opened)
    (hl : (s.asm.slots.get i).line = tag)
    (hone : ∀ j, (s.asm.slots.get j).state = .opened → (s.asm.slots.get j).line = tag → j = i) :
    s.openSlotFor tag = some i := by
  cases hf : s.openSlotFor tag with
  | none => exact absurd hl (openSlotFor_none hf i ho)
  | some j =>
    obtain ⟨hjo, hjl⟩ := openSlotFor_some hf
    rw [hone j hjo hjl]

/-! ### The packet (R55 to R58) -/

theorem takePacket_noSlot (hf : s.openSlotFor k.tag = none) : takePacket k s = countLate k.head s := by
  simp only [takePacket, hf]

section
variable (hf : s.openSlotFor k.tag = some i)
include hf

theorem takePacket_unexpected (he : (s.asm.slots.get i).expected.get k.head = false) :
    takePacket k s = countLate k.head s := by
  simp only [takePacket, hf, he, Bool.not_false, if_true]

variable (he : (s.asm.slots.get i).expected.get k.head = true)
include he

theorem takePacket_duplicate (hd : (s.asm.slots.get i).received.get k.head = true ∨
      (s.asm.slots.get i).absent.get k.head = true) :
    takePacket k s = { s with asm := { s.asm with duplicate := s.asm.duplicate.modify k.head bump } } := by
  simp only [takePacket, hf, he, Bool.not_true, Bool.false_eq_true, if_false, Bool.or_eq_true, if_pos hd]

theorem takePacket_accepted (hr : (s.asm.slots.get i).received.get k.head = false)
    (ha : (s.asm.slots.get i).absent.get k.head = false) : takePacket k s = acceptPacket i k s := by
  simp only [takePacket, hf, he, hr, ha, Bool.not_true, Bool.or_false, Bool.false_eq_true, if_false]

end

/-- The assembler with an accepted packet counted whose cells are kept out (R57). -/
def Assembler.countRefused (a : Assembler) (e : HeadEntry) (k : Packet) : Assembler :=
  if k.illumFault then { a with illum := a.illum.modify k.head bump }
  else if k.count < e.l0 + e.n then { a with short := a.short.modify k.head bump }
  else a

theorem countRefused_refused {a : Assembler} {e : HeadEntry} (hc : k.illumFault = true ∨ k.count < e.l0 + e.n) :
    a.countRefused e k = if k.illumFault then { a with illum := a.illum.modify k.head bump }
      else { a with short := a.short.modify k.head bump } := by
  unfold Assembler.countRefused
  split
  · rfl
  · exact if_pos (hc.resolve_left ‹_›)

theorem countRefused_placed {a : Assembler} {e : HeadEntry} (hi : k.illumFault = false)
    (hc : e.l0 + e.n ≤ k.count) : a.countRefused e k = a := by
  simp [Assembler.countRefused, hi, hc]

theorem acceptPacket_eq {e : HeadEntry} (he : (s.copyOf (s.asm.slots.get i).copy).heads.get k.head = e) :
    acceptPacket i k s = { s with asm := { s.asm.countRefused e k with
      slots := s.asm.slots.set i ((s.asm.slots.get i).accept e k) } } := by
  subst he
  unfold acceptPacket Assembler.countRefused
  dsimp only
  split
  · rfl
  · split <;> rfl

/-! ### The slot after the packet (R56, R57, R58) -/

section
variable (x : Slot) {e : HeadEntry}

/-- The completion test follows an accepted packet. -/
theorem accept_completes {x : Slot} (hx : x.state = .opened) (e : HeadEntry) (k : Packet) :
    ((x.accept e k).state = .opened ∨ (x.accept e k).state = .ready) ∧
      ((x.accept e k).state = .ready ↔
        ∀ j, ((x.accept e k).received.get j || (x.accept e k).absent.get j) = (x.accept e k).expected.get j) := by
  have htest : ∀ y : Slot, y.state = .opened → (y.completed.state = .opened ∨ y.completed.state = .ready) ∧
      (y.completed.state = .ready ↔
        ∀ j, (y.completed.received.get j || y.completed.absent.get j) = y.completed.expected.get j) := by
    intro y hy
    obtain ⟨hstate, hready⟩ := completed_opened hy
    refine ⟨hstate, hready.trans ?_⟩
    rw [completed_eq]
  unfold Slot.accept
  split <;> exact htest _ hx

theorem accept_refused (hc : k.illumFault = true ∨ k.count < e.l0 + e.n) :
    x.accept e k = { x with state := (x.accept e k).state, absent := x.absent.set k.head true } := by
  conv_lhs => rw [accept_eq]
  simp only [if_pos hc]

theorem accept_placed (hi : k.illumFault = false) (hc : e.l0 + e.n ≤ k.count) :
    (x.accept e k).cells = placeCells x.cells e.g0 ((k.values.drop e.l0).take e.n) ∧
      x.accept e k = { x with
        state := (x.accept e k).state, cells := (x.accept e k).cells, received := x.received.set k.head true } := by
  have hnot : ¬ (k.illumFault = true ∨ k.count < e.l0 + e.n) := by rw [hi]; simp; omega
  have hcells : (x.accept e k).cells = placeCells x.cells e.g0 ((k.values.drop e.l0).take e.n) := by
    rw [accept_eq]; exact if_neg hnot
  refine ⟨hcells, ?_⟩
  rw [hcells]
  conv_lhs => rw [accept_eq]
  simp only [if_neg hnot]

end

/-- Cells l0 onwards of a packet that has them all stand at cells g0 onwards of the line, and nowhere else. -/
theorem placeCells_stretch {cells values : List Nat} {l0 n g0 : Nat} (hv : l0 + n ≤ values.length)
    (hg : g0 + n ≤ cells.length) (c : Nat) :
    (placeCells cells g0 ((values.drop l0).take n)).getD c 0 =
      if g0 ≤ c ∧ c < g0 + n then values.getD (l0 + (c - g0)) 0 else cells.getD c 0 := by
  have hlen : ((values.drop l0).take n).length = n := by simp; omega
  simp only [List.getD_eq_getElem?_getD]
  rw [placeCells_getElem? _ _ _ (by rw [hlen]; exact hg), hlen]
  split
  · rw [List.getElem?_take_of_lt (by omega), List.getElem?_drop]
  · rfl

/-- The packet of a LINE frame (R48). -/
abbrev linePacket (h : HeadNo) (tag : BitVec 16) (status : Byte) (values : List Nat) : Packet :=
  ⟨h, tag, status.getLsbD 0, values.length, values⟩

/-- Settles O16: the good frame hands its packet to the assembler, which finds it late, a duplicate or accepted. -/
theorem lineFrameDelivered : Obligations.LineFrameDelivered := by
  intro h id tag status values s h1 h2 hn1 hn2 hv hs hl hrx hexp hcells
  have hlen := lineBody_length id tag status values
  have hexec : exec (.headFrame h (sentBytes (lineBody id tag status values))) s =
      .next (takePacket (linePacket h tag status values)
        (s.withLink h { s.links.get h with rx := Reception.fresh, bad := 0 })) :=
    (headFrame_good (by rw [hs]; decide) hrx (readHeadBody_lineBody h1 h2 tag status hn1 hn2 hv) (by omega) (by omega)
      (not_otherHead hexp fun _ => hl) (countFails_line hcells)).trans
      (congrArg Host.Outcome.next (goodFrame_locked hs))
  rw [hexec]
  refine ⟨fun asm => { s with
    links := s.links.set h { s.links.get h with rx := Reception.fresh, bad := 0 }, asm := asm }, fun _ => rfl,
    fun hnone => congrArg Host.Outcome.next (takePacket_noSlot (openSlotFor_absent hnone)), fun i ho htag hone => ?_⟩
  have hfind : (s.withLink h { s.links.get h with rx := Reception.fresh, bad := 0 }).openSlotFor tag = some i :=
    openSlotFor_unique ho htag hone
  refine ⟨fun he => congrArg Host.Outcome.next (takePacket_unexpected hfind he),
    fun he hd => congrArg Host.Outcome.next (takePacket_duplicate hfind he hd), fun e he hr ha hx hcopy hfit => ?_⟩
  have hentry : (s.copyOf (s.asm.slots.get i).copy).heads.get h = e := by
    rcases hcopy with ⟨hc, rfl⟩ | ⟨hc, r, hret, rfl⟩
    · rw [hc]; rfl
    · rw [hc, State.copyOf, hret]; rfl
  obtain ⟨hstate, hready⟩ := accept_completes ho e (linePacket h tag status values)
  refine ⟨(s.asm.slots.get i).accept e (linePacket h tag status values),
    s.asm.countRefused e (linePacket h tag status values),
    congrArg Host.Outcome.next ((takePacket_accepted hfind he hr ha).trans (acceptPacket_eq hentry)), hstate, hready,
    fun hc => ⟨accept_refused _ hc, countRefused_refused hc⟩, fun hi hc => ?_⟩
  obtain ⟨hplaced, hslot⟩ := accept_placed (s.asm.slots.get i) (k := linePacket h tag status values) hi hc
  refine ⟨hslot, countRefused_placed hi hc, accept_length hx e hfit _, fun c _ => ?_⟩
  rw [hplaced]
  exact placeCells_stretch hc (by rw [hx]; exact hfit) c

end Sys2Proof.Machine
end

section
/-! SUPPORT. Frames at a station port (R172 to R176): which frames it counts, which it answers without running a
command, and which are commands. -/

namespace Sys2Proof.Machine

variable {s : State} {p : PortNo}

/-! ### Bytes at a port (R36, R173, R174) -/

@[simp] theorem State.withPort_self (s : State) (p : PortNo) : s.withPort p (s.ports.get p) = s := by
  simp [State.withPort]

@[simp] theorem State.withPort_withPort (s : State) (p : PortNo) (x y : Port) :
    (s.withPort p x).withPort p y = s.withPort p y := by
  simp [State.withPort]

/-- The machine with the frame at a port's receiver ended: a new, still empty one is open (R36). -/
def State.portFrameEnded (s : State) (p : PortNo) : State :=
  s.withPort p { s.ports.get p with rx := Reception.fresh }

theorem stationBytes_nil (p : PortNo) (s : State) : stationBytes p [] s = s := State.withPort_self s p

/-- Bytes that end one frame leave it to be judged or counted. -/
theorem stationBytes_one {bytes : List Byte} {e : FrameEnd}
    (hfeed : (s.ports.get p).rx.feedAll stationLimit bytes = (.fresh, [e])) :
    stationBytes p bytes s = stationFrameEnd p (s.portFrameEnded p) e := by
  simp only [stationBytes, hfeed]
  rfl

theorem stationFrame_closed {bytes stored : List Byte} {mal : Bool}
    (hrx : (s.ports.get p).rx = .shut ∨ (s.ports.get p).rx = .fresh) (hc : ClosesAs 1202 bytes stored mal) :
    exec (.stationFrame p bytes) s = .next (stationFrameEnd p (s.portFrameEnded p) (.closed stored mal)) :=
  congrArg Host.Outcome.next (stationBytes_one (hc _ hrx))

theorem stationFrameEnd_aborted_withPort (x : Port) :
    stationFrameEnd p (s.withPort p x) .aborted = s.withPort p { x with aborted := bump x.aborted } := by
  simp [stationFrameEnd]

theorem countBadFrame_withPort (x : Port) :
    countBadFrame p (s.withPort p x) = s.withPort p { x with badFrames := bump x.badFrames } := by
  simp [countBadFrame]

/-! ### Judging (R173) -/

theorem stationFrameEnd_notIntact {stored : List Byte} {mal : Bool} (hi : intactBody stored mal = none) :
    stationFrameEnd p s (.closed stored mal) = countBadFrame p s := by
  simp only [stationFrameEnd, hi]

/-- An intact body too short for a code, a tag and a length is a bad frame. -/
theorem stationFrameEnd_short {body : List Byte} (hpos : 1 ≤ body.length) (h : body.length < 4) :
    stationFrameEnd p s (.closed (withCrc body) false) = countBadFrame p s := by
  simp only [stationFrameEnd, intactBody_withCrc hpos, if_pos h]

/-- A sent frame with a code, a tag and a length is a good frame. -/
theorem stationFrame_good {body : List Byte} (hrx : (s.ports.get p).rx = .shut ∨ (s.ports.get p).rx = .fresh)
    (h4 : 4 ≤ body.length) (hle : body.length ≤ 1200) :
    exec (.stationFrame p (sentBytes body)) s = .next (acceptBody p body (s.portFrameEnded p)) := by
  rw [stationFrame_closed hrx (sentBytes_closes (by omega))]
  simp only [stationFrameEnd, intactBody_withCrc (Nat.le_trans (by decide) h4), if_neg (Nat.not_lt.mpr h4)]

/-! ### A good frame (R175, R176) -/

/-- The good frame of a command is its row: it is taken, held or lost. -/
theorem acceptBody_command {k : Command} {tag : Byte} {payload : List Byte} (hlen : payload.length < 65536)
    (hf : k.lengthFits payload.length = true) :
    acceptBody p (commandBody k.code tag payload) s = submit p k tag payload (runCommand p k payload) s := by
  unfold acceptBody submit
  rw [takeBody_command p k tag payload s hlen hf]

/-- A free port takes a good frame at once. -/
theorem acceptBody_ready (hready : s.ready p) (body : List Byte) : acceptBody p body s = takeBody p body s :=
  if_pos (by rw [hready]; rfl)

section
variable {code tag hi lo : Byte} {payload : List Byte}

theorem frameBody_parts : byteAt (code :: tag :: hi :: lo :: payload) 0 = code ∧
    byteAt (code :: tag :: hi :: lo :: payload) 1 = tag ∧ (code :: tag :: hi :: lo :: payload).drop 4 = payload ∧
    ofBe (((code :: tag :: hi :: lo :: payload).drop 2).take 2) = 256 * hi.toNat + lo.toNat := by
  refine ⟨rfl, rfl, rfl, ?_⟩
  simp [ofBe]; omega

/-- A body with an unknown code is answered UNKNOWN. -/
theorem takeBody_unknown (hcode : commandOf code = none) :
    takeBody p (code :: tag :: hi :: lo :: payload) s = s.answering p code tag 10 [] := by
  obtain ⟨pcode, ptag, -⟩ := frameBody_parts (code := code) (tag := tag) (hi := hi) (lo := lo) (payload := payload)
  simp only [takeBody, pcode, ptag, hcode, answer_eq]
  rfl

/-- A body with a wrong length field, or with a payload of another length than the command's, is answered LENGTH. -/
theorem takeBody_length {k : Command} (hcode : commandOf code = some k)
    (h : 256 * hi.toNat + lo.toNat ≠ payload.length ∨ k.lengthFits payload.length = false) :
    takeBody p (code :: tag :: hi :: lo :: payload) s = s.answering p code tag 9 [] := by
  obtain ⟨pcode, ptag, ppayload, plength⟩ :=
    frameBody_parts (code := code) (tag := tag) (hi := hi) (lo := lo) (payload := payload)
  rcases h with hfield | hfits
  · simp only [takeBody, pcode, ptag, ppayload, plength, hcode, if_pos hfield, answer_eq]
    rfl
  · simp only [takeBody, pcode, ptag, ppayload, plength, hcode, hfits, Bool.not_false, if_true, ite_self, answer_eq]
    rfl

end

/-! ### The command index with its payload lengths (R177, R178) -/

/-- The codes of the commands with a fixed payload length, each with that length. -/
def fixedLengths : List (Byte × Nat) :=
  (allCommands.filter (· ≠ .stageWrite)).map fun k => (k.code, k.payloadLength)

theorem mem_fixedLengths {code : Byte} {n : Nat} :
    (code, n) ∈ fixedLengths ↔ ∃ k : Command, k ≠ .stageWrite ∧ k.code = code ∧ k.payloadLength = n := by
  have hall : ∀ k : Command, k ∈ allCommands := fun k => by cases k <;> decide
  simp [fixedLengths, hall]

theorem lengthFits_fixed {k : Command} (hk : k ≠ .stageWrite) (n : Nat) :
    k.lengthFits n = (n == k.payloadLength) := by
  unfold Command.lengthFits
  split
  · exact absurd rfl hk
  · rfl

/-- Settles O43: the sent bytes close as the command's good frame, which is dealt with as its row is. -/
theorem stationFrameIsCommand : Obligations.StationFrameIsCommand := by
  intro c f s hc hlen hrx
  obtain ⟨k, hcode, hfits, hexec⟩ := exec_command hc (s.portFrameEnded f.port)
  have hbody : f.body = commandBody k.code f.tag f.payload := by rw [← hcode]; rfl
  have hsize : f.body.length = 4 + f.payload.length := by simp [HostFrame.body]; omega
  rw [stationFrame_good hrx (by omega) (by omega), hbody, acceptBody_command (by omega) (hfits (by omega))]
  exact hexec.symm

/-- Settles O44: bad frames and short bodies, the frames answered without a command, the abort and the timeout. -/
theorem stationFrameJudged : Obligations.StationFrameJudged := by
  intro p s
  refine ⟨fun hrx => ⟨s.portFrameEnded p, rfl, fun bytes hbad => ?_, ?_⟩, fun ho he => ?_, fun ho hst => ?_⟩
  · rcases hbad with hwire | ⟨body, hpos, hshort, rfl⟩
    · obtain ⟨stored, mal, hc, hi⟩ := badOnWire_closes hwire
      rw [stationFrame_closed hrx hc, stationFrameEnd_notIntact hi]
      exact congrArg Host.Outcome.next (countBadFrame_withPort _)
    · rw [stationFrame_closed hrx (sentBytes_closes (by omega)), stationFrameEnd_short hpos hshort]
      exact congrArg Host.Outcome.next (countBadFrame_withPort _)
  · intro code tag hi lo payload lengths hready hlen hlengths
    replace hlengths : lengths = fixedLengths := hlengths.trans (by decide)
    subst hlengths
    have hfree : (s.portFrameEnded p).ready p := by
      simpa [State.ready, State.portFrameEnded] using hready
    rw [stationFrame_good hrx (by simp) (by simp; omega), acceptBody_ready hfree]
    refine ⟨fun hwrite hother => ?_, fun hknown hfield => ?_, fun hfield hwrong => ?_⟩
    · have hnone : commandOf code = none := commandOf_none.mpr fun k hk => by
        by_cases hw : k = .stageWrite
        · subst hw; exact hwrite hk.symm
        · exact hother _ (mem_fixedLengths.mpr ⟨k, hw, hk, rfl⟩)
      rw [takeBody_unknown hnone]
    · obtain ⟨k, rfl⟩ : ∃ k : Command, k.code = code := by
        rcases hknown with rfl | ⟨n, hn⟩
        · exact ⟨.stageWrite, rfl⟩
        · obtain ⟨k, -, hk, -⟩ := mem_fixedLengths.mp hn
          exact ⟨k, hk⟩
      rw [takeBody_length (commandOf_code k) (.inl hfield)]
    · obtain ⟨k, rfl, hfits⟩ : ∃ k : Command, k.code = code ∧ k.lengthFits payload.length = false := by
        rcases hwrong with ⟨rfl, hshort⟩ | ⟨n, hn, hne⟩
        · exact ⟨.stageWrite, rfl, by simpa [Command.lengthFits] using hshort⟩
        · obtain ⟨k, hk, hcode, rfl⟩ := mem_fixedLengths.mp hn
          exact ⟨k, hcode, by rw [lengthFits_fixed hk]; simpa using hne⟩
      rw [takeBody_length (commandOf_code k) (.inr hfits)]
  · exact congrArg Host.Outcome.next
      ((stationBytes_one (feedAll_abort 1202 ho he)).trans (stationFrameEnd_aborted_withPort _))
  · have htimed : (s.ports.get p).rx.timed = true := by simp [Reception.timed, ho, hst]
    refine congrArg Host.Outcome.next ((congrArg (expireFrame p) (stationBytes_nil p s)).trans ?_)
    exact if_pos htimed

end Sys2Proof.Machine
end

section
/-! SUPPORT. The slots' sets and states (R52, R53), which every step keeps (O55): in its place a slot's sets stay in
order, and the engine alone sets a slot IN_WORK, when none is. -/

namespace Sys2Proof.Machine

/-! ### A slot in its place -/

/-- The slot expects no head. -/
abbrev Slot.expectsNone (x : Slot) : Prop := ∀ h, x.expected.get h = false

/-- `y` stands in the place of `x`, and the engine has not taken it since: its sets stay in order, it expects nothing
when FREE, and it is not IN_WORK unless `x` was. -/
structure SlotFollows (x y : Slot) : Prop where
  sets : x.setsOk → y.setsOk
  free : (x.state = .free → x.expectsNone) → y.state = .free → y.expectsNone
  inWork : y.state = .inWork → x.state = .inWork

theorem SlotFollows.same (x : Slot) : SlotFollows x x := ⟨id, id, id⟩

theorem SlotFollows.trans {x y z : Slot} (h : SlotFollows x y) (k : SlotFollows y z) : SlotFollows x z :=
  ⟨fun hx => k.sets (h.sets hx), fun hx => k.free (h.free hx), fun hz => h.inWork (k.inWork hz)⟩

/-- A link event turns no slot FREE or IN_WORK. -/
theorem SlotStep.follows {x y : Slot} (h : SlotStep x y) : SlotFollows x y := by
  refine ⟨h.sets, fun hx hy => ?_, fun hy => ?_⟩
  all_goals rcases h.state with hs | ⟨-, hs⟩
  · have hfree : x.state = .free := hs.symm.trans hy
    rw [h.closed (by rw [hfree]; decide)]
    exact hx hfree
  · rw [hs] at hy; cases hy
  · exact hs.symm.trans hy
  · rw [hs] at hy; cases hy

theorem freed_follows (x : Slot) : SlotFollows x x.freed :=
  ⟨fun _ => freed_setsOk x, fun _ _ _ => Quad.get_fill _ _, nofun⟩

theorem stopped_follows (x : Slot) : SlotFollows x x.stopped := by
  unfold Slot.stopped
  split
  · exact freed_follows x
  · exact .same x

theorem forced_follows (n : BitVec 16) (x : Slot) : SlotFollows x (if x.stale n then x.forcedReady else x) := by
  split
  · exact ⟨forcedReady_setsOk, fun _ => nofun, nofun⟩
  · exact .same x

/-- A swap changes the copy that a slot refers to, and nothing else of it (R168). -/
theorem retired_follows (x : Slot) : SlotFollows x (if x.copy = .active then { x with copy := .retiring } else x) := by
  split <;> exact ⟨id, id, id⟩

/-- A line opens with nothing received and nothing absent, OPEN or READY (R54, R58). -/
theorem lineSlot_follows (i : Fin 4) (s : State) : SlotFollows (s.asm.slots.get i) (s.lineSlot i) := by
  have hstate : (s.lineSlot i).state = .opened ∨ (s.lineSlot i).state = .ready := by
    rw [lineSlot_eq]
    dsimp only
    split
    · exact .inl rfl
    · exact .inr rfl
  refine ⟨fun _ h => ?_, fun _ hfree => ?_, fun hwork => ?_⟩
  · rw [lineSlot_eq]
    simp
  · rcases hstate with hs | hs <;> rw [hs] at hfree <;> cases hfree
  · rcases hstate with hs | hs <;> rw [hs] at hwork <;> cases hwork

/-! ### The four slots -/

/-- Every slot of `t` stands in the place of that of `s`, and the engine has taken none. -/
def SlotsFollow (s t : State) : Prop := ∀ i, SlotFollows (s.asm.slots.get i) (t.asm.slots.get i)

theorem SlotsFollow.trans {s t u : State} (h : SlotsFollow s t) (k : SlotsFollow t u) : SlotsFollow s u :=
  fun i => (h i).trans (k i)

theorem SlotsFollow.of_asm {s t : State} (h : t.asm = s.asm) : SlotsFollow s t := fun i => by
  rw [h]; exact .same _

theorem SlotsFollow.rfl' (s : State) : SlotsFollow s s := .of_asm rfl

/-- Work that starts from a machine with the same assembler. -/
theorem SlotsFollow.behind {s u t : State} (k : SlotsFollow u t) (h : u.asm = s.asm) : SlotsFollow s t :=
  (SlotsFollow.of_asm h).trans k

theorem SlotsFollow.map {s t : State} {f : Slot → Slot} (hf : ∀ x, SlotFollows x (f x))
    (h : t.asm.slots = s.asm.slots.map f) : SlotsFollow s t := fun i => by
  rw [h, Quad.get_map]; exact hf _

theorem SlotsFollow.set {s t : State} {i : Fin 4} {x : Slot} (hx : SlotFollows (s.asm.slots.get i) x)
    (h : t.asm.slots = s.asm.slots.set i x) : SlotsFollow s t := fun j => by
  rw [h, Quad.get_set]
  split
  · rename_i hj; rw [hj]; exact hx
  · exact .same _

/-- The slots' condition is kept from `s` to `t` (R52, R53). -/
def KeepsSlots (s t : State) : Prop := s.slotsOk → t.slotsOk

theorem SlotsFollow.keeps {s t : State} (h : SlotsFollow s t) : KeepsSlots s t := fun ⟨hsets, hfree, hone⟩ =>
  ⟨fun i => (h i).sets (hsets i), fun i => (h i).free (hfree i),
    fun i j hi hj => hone i j ((h i).inWork hi) ((h j).inWork hj)⟩

/-! ### Swaps, triggers, stops and counts (R8, R60, R64, R168) -/

theorem takeSwap_follows (s : State) : SlotsFollow s (takeSwap s) := by
  cases hp : s.rcp.pending with
  | none => exact .of_asm (by simp [takeSwap, hp])
  | some c => exact .map retired_follows (by rw [takeSwap_some hp]; rfl)

theorem swapPoint_follows (s : State) : SlotsFollow s (swapPoint s) := by
  unfold swapPoint
  split
  · exact (takeSwap_follows s).trans (.of_asm rfl)
  · exact .rfl' s

theorem takeTrigger_follows (s : State) : SlotsFollow s (takeTrigger s) := by
  have hswap : SlotsFollow s (if s.triggerSwaps then takeSwap s else s) := by
    split
    · exact takeSwap_follows s
    · exact .rfl' s
  refine hswap.trans ?_
  unfold takeTrigger
  dsimp only
  generalize (if s.triggerSwaps then takeSwap s else s) = u
  refine SlotsFollow.trans (t := forceSlots u) (.map (forced_follows u.trig.n) rfl) ?_
  cases (forceSlots u).freeSlotNo with
  | some i => exact .set (lineSlot_follows i _) (by dsimp only; rw [openLine_eq])
  | none => exact .of_asm rfl

theorem triggerWork_follows (s : State) : SlotsFollow s (triggerWork s) := by
  unfold triggerWork
  split
  · exact takeTrigger_follows s
  · exact .rfl' s

theorem beginStop_follows (n : Nat) (s : State) : SlotsFollow s (beginStop n s) := by
  obtain ⟨-, hasm, -⟩ := beginStop_control n s
  exact .map stopped_follows (by rw [hasm])

theorem positionLimit_follows (s : State) : SlotsFollow s (positionLimit s) := by
  unfold positionLimit
  split
  · exact (beginStop_follows _ _).behind rfl
  · exact .of_asm rfl

theorem freePlace_follows (p : State × Bool) : SlotsFollow p.1 (freePlace p).1 := by
  unfold freePlace
  extract_lets u
  have htrigger : SlotsFollow p.1 u := by
    rcases nowOrLater_cases p.1.triggerDue (p.1.trackerDue || p.2) triggerWork p.1 with ⟨n, h⟩ | ⟨-, n, h⟩
    · exact .of_asm (by rw [show u = _ from h])
    · rw [show u = _ from h]
      exact (triggerWork_follows _).behind rfl
  clear_value u
  refine htrigger.trans ?_
  split
  · unfold drawChoice
    cases Config.orderChoice u.freeCount
    · exact .of_asm rfl
    · exact (positionLimit_follows _).behind rfl
  · split
    · exact positionLimit_follows u
    · exact .rfl' u

theorem TrackerWork.follows {s t : State} (h : TrackerWork s t) : SlotsFollow s t := by
  unfold TrackerWork at h
  exact .of_asm (by rw [h])

theorem coatToGapWork_follows (s : State) : SlotsFollow s (coatToGapWork s) := by
  unfold coatToGapWork
  split
  · exact swapPoint_follows s
  · exact .rfl' s

theorem countWork_follows (limit : Bool) (s : State) : SlotsFollow s (countWork limit s) := by
  unfold countWork
  extract_lets p1 p2 p3 p4 s5
  have h1 : SlotsFollow s p1.1 := freePlace_follows (s, limit)
  have h2 : SlotsFollow p1.1 p2.1 := (coatToGapWork_follows _).trans (freePlace_follows (_, _))
  have h3 : SlotsFollow p2.1 p3.1 := (missMarks_tracker _ _).follows.trans (freePlace_follows (_, _))
  have h4 : SlotsFollow p3.1 p4.1 := (popWork_tracker _).follows.trans (freePlace_follows (_, _))
  have h5 : SlotsFollow p4.1 s5 := by
    unfold s5
    split
    · exact positionLimit_follows _
    · exact .rfl' _
  exact (((h1.trans h2).trans h3).trans (h4.trans h5)).trans (triggerWork_follows _)

theorem forwardCount_follows (s : State) : SlotsFollow s (forwardCount s) := by
  unfold forwardCount
  dsimp only
  split
  · exact .of_asm rfl
  · split
    · exact (countWork_follows _ _).behind rfl
    · exact .of_asm rfl

theorem backwardCount_asm (s : State) : (backwardCount s).asm = s.asm := by
  unfold backwardCount
  dsimp only
  split
  · rfl
  · split <;> rfl

theorem encoderTransition_follows (a b : Bool) {s t : State} (h : exec (.encoderTransition a b) s = .next t) :
    SlotsFollow s t := by
  cases h
  split
  · exact .rfl' s
  · split
    · exact (forwardCount_follows _).behind rfl
    · split
      · exact .of_asm (backwardCount_asm _)
      · exact .of_asm rfl

/-- A mark edge works on the tracker alone (R18). -/
theorem takeEdge_tracker (s : State) : TrackerWork s (takeEdge s) := by
  have hpushPop : ∀ pos err kind (u : State), TrackerWork s u → TrackerWork s (popWork (pushStart pos err kind u)) :=
    fun pos err kind u hu => (hu.trans (pushStart_tracker pos err kind u)).trans (popWork_tracker _)
  have hacquire : TrackerWork s (acquire s) := by
    unfold acquire
    dsimp only
    split
    · exact hpushPop _ _ _ _ rfl
    · rfl
  have hedge : TrackerWork s (edgeInTrack s) := by
    unfold edgeInTrack
    dsimp only
    split
    · rfl
    · exact hpushPop _ _ _ _ rfl
  unfold takeEdge
  split
  · rfl
  · cases s.trk.mode
    case off | continuous => rfl
    case seek | lost => dsimp only; split; exacts [rfl, hacquire]
    case track => dsimp only; split; exacts [rfl, hedge]

/-! ### The station commands -/

theorem restartSilence_asm (p : PortNo) (s : State) : (restartSilence p s).asm = s.asm := by
  unfold restartSilence; split <;> rfl

/-- ARM, DISARM, COMMIT and RESYNC_HEAD alone reach the assembler. -/
theorem runCommand_asm {c : Command} (hc : c ∉ [.arm, .disarm, .commit, .resyncHead]) (p : PortNo)
    (payload : List Byte) (s : State) : (runCommand p c payload s).1.asm = s.asm := by
  have hs := restartSilence_asm p s
  cases c <;> simp only [runCommand]
  case arm | disarm | commit | resyncHead => simp at hc
  case ident | status | readCandidates | readStreaks => rfl
  case forceMark =>
    unfold cmdForceMark
    split
    · rfl
    · dsimp only; rw [enterAction_frame]
  case claimEdit =>
    unfold cmdClaimEdit
    split
    · rfl
    · split
      · exact hs
      · rfl
  case stageWrite | stageRead | cancelPending =>
    simp only [cmdStageWrite, cmdStageRead, cmdCancelPending]
    repeat' split
    all_goals exact hs
  case ackAttn | endService | resetPosition | releaseEdit | activeRead | fetch | seek | subscribe | readCells =>
    simp only [cmdAckAttn, cmdEndService, cmdResetPosition, cmdReleaseEdit, cmdActiveRead, cmdFetch, cmdSeek,
      cmdSubscribe, cmdReadCells]
    split <;> rfl

theorem LinkWork.follows {h : HeadNo} {s t : State} (k : LinkWork h s t) : SlotsFollow s t :=
  fun i => (k.slots i).follows

theorem armRun_follows (p : PortNo) (s : State) : SlotsFollow s (armRun p s) := by
  unfold armRun
  extract_lets rcp s1 trig s2 s3
  have h3 : SlotsFollow s s3 := (takeTrigger_follows s2).behind rfl
  split
  · exact h3.trans (positionLimit_follows _)
  · exact h3

theorem runCommand_follows (p : PortNo) (c : Command) (payload : List Byte) (s : State) :
    SlotsFollow s (runCommand p c payload s).1 := by
  have hs : SlotsFollow s (restartSilence p s) := .of_asm (restartSilence_asm p s)
  cases c
  case arm =>
    simp only [runCommand, cmdArm]
    split
    · exact .rfl' s
    · split
      · exact .rfl' s
      · exact armRun_follows p s
  case disarm =>
    simp only [runCommand, cmdDisarm]
    split
    · exact beginStop_follows _ s
    · exact .rfl' s
  case commit =>
    simp only [runCommand, cmdCommit]
    split
    · exact hs
    · split
      · exact hs
      · split
        · exact hs
        · split
          · exact (swapPoint_follows _).behind (restartSilence_asm p s)
          · exact hs
  case resyncHead =>
    simp only [runCommand, cmdResyncHead]
    split
    · exact .rfl' s
    · exact (resyncLink_work _ s).follows
  all_goals exact .of_asm (runCommand_asm (by decide) p payload s)

theorem keepsSlots_stationRel : StationRel KeepsSlots where
  same _ := id
  trans _ _ _ h k hs := k (h hs)
  port s p x _ := (SlotsFollow.of_asm (t := s.withPort p x) rfl).keeps
  command s p c payload := (runCommand_follows p c payload s).keeps

/-! ### The links and the engine's steps -/

theorem carrierLost_follows (h : HeadNo) (bytes : List Byte) {s t : State}
    (ht : exec (.carrierLost h bytes) s = .next t) : SlotsFollow s t := by
  have hb := (headBytes_work h bytes s).follows
  cases ht
  dsimp only
  split
  · exact hb
  · exact hb
  · exact hb.trans ((headLost_work _ _ _).follows.behind rfl)

theorem workedFrom_asm (ln : Line) (s : State) (φ : LineProgress) : (workedFrom ln s φ).asm = s.asm := by
  obtain ⟨cells, h⟩ := workedFrom_eq ln s φ
  rw [h]; rfl

theorem advanceLine_asm (i : Fin 4) (s : State) : (advanceLine i s).asm = s.asm := by
  obtain ⟨v, hv, h⟩ := advanceLine_work i s
  rw [h]; exact hv.asm.trans (workedFrom_asm _ _ _)

/-- The slot of the line published is freed, and the others stay (R62). -/
theorem publishLine_follows (i : Fin 4) (s : State) : SlotsFollow s (publishLine i s) := by
  obtain ⟨v, hv, h⟩ := publishLine_work i s
  have hasm : v.asm = s.asm := hv.asm.trans (workedFrom_asm _ _ _)
  refine .set (freed_follows _) (i := i) ?_
  rw [h, freeSlot_eq, ← hasm]

theorem completeStop_follows (s : State) : SlotsFollow s (completeStop s) := by
  obtain ⟨v, hv, h⟩ := completeStop_work s
  rw [h]
  exact (swapPoint_follows _).behind hv.asm

/-- The engine takes a line when none is in work, from a READY slot (R61). -/
theorem takeable_some {s : State} {i : Fin 4} (h : s.takeable = some i) :
    (s.asm.slots.get i).state = .ready ∧ ∀ j, (s.asm.slots.get j).state ≠ .inWork := by
  unfold State.takeable at h
  split at h
  · cases h
  · rename_i hnone
    split at h
    · cases h
    · split at h
      · rename_i hready
        cases h
        exact ⟨hready, slotInWork_none.mp (by simpa using hnone)⟩
      · cases h

theorem takeLine_asm (i : Fin 4) (s : State) : (takeLine i s).asm =
    { s.asm with slots := s.asm.slots.set i { s.asm.slots.get i with state := .inWork } } := by
  obtain ⟨v, hv, h⟩ := takeLine_work i s
  rw [h]; exact hv.asm

/-- The slot taken is the one slot IN_WORK (R53, R61). -/
theorem takeLine_keeps {s : State} {i : Fin 4} (h : s.takeable = some i) : KeepsSlots s (takeLine i s) := by
  obtain ⟨-, hnone⟩ := takeable_some h
  rintro ⟨hsets, hfree, -⟩
  have hget : ∀ j, (takeLine i s).asm.slots.get j =
      if j = i then { s.asm.slots.get i with state := .inWork } else s.asm.slots.get j := fun j => by
    rw [takeLine_asm, Quad.get_set]
  have hwork : ∀ j, ((takeLine i s).asm.slots.get j).state = .inWork → j = i := fun j hj => by
    by_contra hne
    rw [hget, if_neg hne] at hj
    exact hnone j hj
  refine ⟨fun j => ?_, fun j hj => ?_, fun j k hj hk => (hwork j hj).trans (hwork k hk).symm⟩
  · rw [hget]
    split
    · exact hsets i
    · exact hsets j
  · rw [hget] at hj ⊢
    split at hj
    · cases hj
    · rename_i hne
      rw [if_neg hne]
      exact hfree j hj

theorem exec_keepsSlots (c : Instr) (s t : State) (h : exec c s = .next t) : KeepsSlots s t := by
  refine exec_induct keepsSlots_stationRel (reset := ?_) (encoder := ?_) (edge := fun s => ?_) (gained := ?_)
    (lost := ?_) (head := ?_) (take := ?_) (publish := ?_) (stop := ?_) (expiry := ?_) c s t h
  · intro a b k s t h
    cases h
    exact fun _ => reset_slotsOk
  · exact fun a b s t h => (encoderTransition_follows a b h).keeps
  · exact (takeEdge_tracker s).follows.keeps
  · intro k s t h
    cases h
    refine SlotsFollow.keeps (.of_asm ?_)
    dsimp only
    split <;> rfl
  · exact fun k bytes s t h => (carrierLost_follows k bytes h).keeps
  · exact fun k bytes s => (headBytes_work k bytes s).follows.keeps
  · exact fun s i h => takeLine_keeps h
  · exact fun s i _ => (publishLine_follows i s).keeps
  · exact fun s _ _ => (completeStop_follows s).keeps
  · intro s t h
    cases h
    refine SlotsFollow.keeps (.of_asm ?_)
    split <;> rfl

/-- Settles O55, by the kinds of steps: ENGINE_TAKE_LINE takes a slot when none is IN_WORK, and every other step leaves
each slot in its place. -/
theorem slotsKept : Obligations.SlotsKept :=
  step_keeps (fun _ _ h => h) (fun c s t h => exec_keepsSlots c s t h)
    fun s i _ => (SlotsFollow.of_asm (advanceLine_asm i s)).keeps

end Sys2Proof.Machine
end

section
/-! SUPPORT. The engine takes a line (O19): which slot (R61), and what the requested reset and the geometry reset do to
the cell records, the streaks and the candidates (R94, R95, R110, R130). -/

namespace Sys2Proof.Machine

variable {s t u v : State} {i : Fin 4} {r : Recipe} {w : Nat} {reason : CloseReason}
variable {covered ended touched : Nat → Prop} {cut : Candidate → Prop} {xs ys : List (Nat × RecordBody)}

/-! ### The slot taken (R61) -/

/-- The slot is the oldest of the occupied ones (R61). -/
abbrev State.isOldest (s : State) (i : Fin 4) : Prop :=
  ∀ j, j ≠ i → (s.asm.slots.get j).state ≠ .free → (s.asm.slots.get i).rank < (s.asm.slots.get j).rank

theorem takeable_ready (hready : (s.asm.slots.get i).state = .ready) (hnone : ∀ j, (s.asm.slots.get j).state ≠ .inWork)
    (hold : s.isOldest i) : s.takeable = some i := by
  simp [State.takeable, slotInWork_none.mpr hnone, oldestSlot_eq (by rw [hready]; decide) hold, hready]

theorem takeable_busy (hwork : (s.asm.slots.get i).state = .inWork) : s.takeable = none := by
  have hsome : s.slotInWork.isSome = true := by
    rw [Option.isSome_iff_ne_none]
    exact fun h => slotInWork_none.mp h i hwork
  simp [State.takeable, hsome]

theorem takeable_waits (hopen : (s.asm.slots.get i).state = .opened) (hold : s.isOldest i) : s.takeable = none := by
  simp [State.takeable, oldestSlot_eq (by rw [hopen]; decide) hold, hopen]

theorem engineTakeLine_takes (h : s.takeable = some i) : exec .engineTakeLine s = .next (takeLine i s) := by
  show Host.Outcome.next _ = _
  rw [h]

theorem engineTakeLine_idles (h : s.takeable = none) : exec .engineTakeLine s = .next s := by
  show Host.Outcome.next _ = _
  rw [h]

/-! ### The resets in order (R94) -/

/-- The machine with the slot IN_WORK and the requested resets made, for a line of the copy `r`. -/
def requestsApplied (i : Fin 4) (r : Recipe) (s : State) : State :=
  s.eng.resets.foldl (applyRequest r.markerFields (s.asm.slots.get i).w) (takenFrom i s)

/-- The machine with the geometry reset made, if one is due, for a line of the copy `r` at `w`. -/
def geometryApplied (k : Option KeptSections) (r : Recipe) (w : Nat) (s : State) : State :=
  if geometryMoved k r then applyGeometry r.markerFields w s else s

theorem takeLine_eq (h : s.copyOf (s.asm.slots.get i).copy = r) :
    takeLine i s =
      let v := geometryApplied s.eng.kept r (s.asm.slots.get i).w (requestsApplied i r s)
      { v with eng := { v.eng with kept := some (keptOf r) } } := by
  subst h; rfl

theorem requestsApplied_work (i : Fin 4) (r : Recipe) (s : State) :
    EngineWork (takenFrom i s) (requestsApplied i r s) :=
  .foldl (applyRequest_work _ _) _ _

theorem geometryApplied_work (k : Option KeptSections) (r : Recipe) (w : Nat) (s : State) :
    EngineWork s (geometryApplied k r w s) := by
  unfold geometryApplied
  split
  · exact applyGeometry_work _ _ s
  · exact .same s

/-- HEADS or LANES differ from those kept (R77). -/
theorem geometryMoved_iff {k : Option KeptSections} :
    geometryMoved k r = true ↔ ∃ x, k = some x ∧ (x.heads ≠ r.heads ∨ x.lanes ≠ r.lanes) := by
  cases k <;> simp [geometryMoved]

/-! ### No reset, and the full reset of an ARM (R94, R95) -/

theorem geometryApplied_unmoved {k : Option KeptSections}
    (h : ∀ x, k = some x → x.heads = r.heads ∧ x.lanes = r.lanes) :
    geometryApplied k r w s = s := by
  refine if_neg fun hm => ?_
  obtain ⟨x, hx, hne⟩ := geometryMoved_iff.mp hm
  obtain ⟨hheads, hlanes⟩ := h x hx
  rcases hne with hne | hne
  · exact hne hheads
  · exact hne hlanes

theorem takenFrom_unrequested (i : Fin 4) (h : s.eng.resets = []) :
    takenFrom i s = { s with
      asm := { s.asm with slots := s.asm.slots.set i { s.asm.slots.get i with state := .inWork } }
      eng := { s.eng with contribs := [], progress := .begun } } := by
  simp [takenFrom, State.withSlot, h]

/-- On empty tables a full reset resets every record and closes nothing. -/
theorem applyRequest_full (markers : Marker → MarkerFields) (hs : ∀ o ∈ s.eng.work.streaks, o = none)
    (hc : ∀ o ∈ s.eng.work.cands, o = none) :
    applyRequest markers w s .full =
      s.withWork { s.eng.work with cells := s.eng.work.cells.map fun _ => CellRec.blank } := by
  have hcells : resetCells ResetRequest.full.covers s.eng.work.cells =
      s.eng.work.cells.map fun _ => CellRec.blank := by
    refine List.ext_getElem? fun c => ?_
    rw [resetCells_get, List.getElem?_map]
    rfl
  simp only [applyRequest, applyReset, State.streakSlots, slotsWhere_none _ _ hs, slotsWhere_none _ _ hc,
    List.filter_nil, closeStreaks, closeCands, streakAgeOrder, candAgeOrder, List.insertionSort_nil, List.foldl_nil,
    hcells]

/-! ### A reset with its closes (R94, R110, R130) -/

/-- From `s` to `t` the records of the cells `covered` are reset, the streaks in the slots `ended` close at `w` and lose
their members, and the candidates `cut` close with CUT; the appends are `xs`, and the other records, streaks and
candidates stay. -/
structure ResetDone (covered ended : Nat → Prop) (cut : Candidate → Prop) (reason : CloseReason) (w : Nat) (s t : State)
    (xs : List (Nat × RecordBody)) : Prop where
  list : t.list = s.list.pushAll xs
  closedStreaks : ∀ (j : Nat) (st : Streak), s.eng.work.streaks[j]? = some (some st) → ended j →
    (w, st.closeBody reason 0) ∈ xs ∧ t.eng.work.streaks[j]? = some none
  streaks : ∀ j : Nat, ¬ ended j → t.eng.work.streaks[j]? = s.eng.work.streaks[j]?
  closedCands : ∀ (j : Nat) (k : Candidate), s.eng.work.cands[j]? = some (some k) → cut k →
    (k.firstW, k.closeBody .cut) ∈ xs ∧ t.eng.work.cands[j]? = some none
  cands : ∀ j : Nat, (∀ k, s.eng.work.cands[j]? = some (some k) → ¬ cut k) →
    t.eng.work.cands[j]? = s.eng.work.cands[j]?
  blank : ∀ (c : Nat) (q : CellRec), s.eng.work.cells[c]? = some q → covered c →
    t.eng.work.cells[c]? = some CellRec.blank
  cleared : ∀ (c : Nat) (q : CellRec), s.eng.work.cells[c]? = some q → ¬ covered c →
    (∃ j, ended j ∧ q.member = some j) → t.eng.work.cells[c]? = some { q with member := none }
  cells : ∀ (c : Nat) (q : CellRec), s.eng.work.cells[c]? = some q → ¬ covered c →
    (∀ j, ended j → q.member ≠ some j) → t.eng.work.cells[c]? = some q

/-- No reset. -/
theorem ResetDone.idle (s : State) (hcov : ∀ c, ¬ covered c) (hend : ∀ j, ¬ ended j) (hcut : ∀ k, ¬ cut k) :
    ResetDone covered ended cut reason w s s [] where
  list := rfl
  closedStreaks j _ _ hj := absurd hj (hend j)
  streaks _ _ := rfl
  closedCands _ k _ hk := absurd hk (hcut k)
  cands _ _ := rfl
  blank c _ _ hc := absurd hc (hcov c)
  cleared _ _ _ _ hj := hj.elim fun j hj => absurd hj.1 (hend j)
  cells _ _ hq _ _ := hq

/-- A reset takes no cell record away. -/
theorem ResetDone.cell (h : ResetDone covered ended cut reason w s t xs) {c : Nat} {q : CellRec}
    (hq : s.eng.work.cells[c]? = some q) : ∃ q', t.eng.work.cells[c]? = some q' := by
  by_cases hc : covered c
  · exact ⟨_, h.blank c q hq hc⟩
  · by_cases hj : ∃ j, ended j ∧ q.member = some j
    · exact ⟨_, h.cleared c q hq hc hj⟩
    · exact ⟨_, h.cells c q hq hc fun j he hm => hj ⟨j, he, hm⟩⟩

theorem applyReset_done (markers : Marker → MarkerFields) {covers : Nat → Bool} {streaks cands : List Nat}
    (hs : streaks.Nodup) (hc : cands.Nodup) (hcov : ∀ c, covers c = true ↔ covered c)
    (hopen : ∀ j ∈ streaks, ∃ st, s.eng.work.streaks[j]? = some (some st)) (hend : ∀ j, j ∈ streaks ↔ ended j)
    (hcut : ∀ j, j ∈ cands ↔ ∃ k, s.eng.work.cands[j]? = some (some k) ∧ cut k) :
    ∃ xs, ResetDone covered ended cut reason w s (applyReset markers reason w covers streaks cands s) xs := by
  obtain ⟨t, xs, rfl, hlist, hclosed, hstays, hcandClosed, hleft, hcells⟩ :=
    applyReset_spec markers reason w covers hs hc s
  have hclear : ∀ c, ¬ covered c → covers c = false := fun c h =>
    Bool.eq_false_iff.mpr fun h' => h ((hcov c).mp h')
  refine ⟨xs, hlist, fun j st hst hj => hclosed j ((hend j).mpr hj) st hst,
    fun j hj => hstays j fun hm => hj ((hend j).mp hm),
    fun j k hk hck => hcandClosed j ((hcut j).mpr ⟨k, hk, hck⟩) k hk, fun j hj => hleft j fun hm => ?_,
    fun c q hq hcc => ?_, fun c q hq hcc hm => ?_, fun c q hq hcc hm => ?_⟩
  · obtain ⟨k, hk, hck⟩ := (hcut j).mp hm
    exact hj k hk hck
  all_goals obtain ⟨q', hq', hblank, hcleared, hkept⟩ := hcells c q hq
  · rw [hq', hblank ((hcov c).mpr hcc)]
  · obtain ⟨j, hj, hqj⟩ := hm
    have hj' := (hend j).mpr hj
    rw [hq', hcleared (hclear c hcc) ⟨j, hj', hqj, hopen j hj'⟩]
  · rw [hq', hkept (hclear c hcc) fun j hj _ _ => hm j ((hend j).mp hj)]

/-! ### The requested reset (R94, R95) -/

/-- The slot holds a streak with a member among the cells (R130). -/
abbrev State.memberAmong (s : State) (covered : Nat → Prop) (j : Nat) : Prop :=
  (∃ st, s.eng.work.streaks[j]? = some (some st)) ∧
    ∃ c q, covered c ∧ s.eng.work.cells[c]? = some q ∧ q.member = some j

/-- The candidate's hull reaches into the cells (R110). -/
abbrev Candidate.reaches (covered : Nat → Prop) (k : Candidate) : Prop := ∃ c, covered c ∧ k.hullL ≤ c ∧ c ≤ k.hullR

theorem covers_head (h : HeadNo) (cells : List (Nat × Nat)) (c : Nat) :
    (ResetRequest.head h cells).covers c = true ↔ ∃ x ∈ cells, x.1 ≤ c ∧ c < x.1 + x.2 := by
  simp [ResetRequest.covers]

section
variable {covers : Nat → Bool} (hcov : ∀ c, covers c = true ↔ covered c)
include hcov

theorem streakTouched_iff (cells : List CellRec) (j : Nat) :
    streakTouched covers cells j = true ↔ ∃ c q, covered c ∧ cells[c]? = some q ∧ q.member = some j := by
  simp only [streakTouched, List.any_eq_true, Bool.and_eq_true, beq_iff_eq, hcov]
  constructor
  · rintro ⟨⟨q, c⟩, hx, hm, hc⟩
    exact ⟨c, q, hc, List.mk_mem_zipIdx_iff_getElem?.mp hx, hm⟩
  · rintro ⟨c, q, hc, hq, hm⟩
    exact ⟨(q, c), List.mk_mem_zipIdx_iff_getElem?.mpr hq, hm, hc⟩

theorem touched_iff (k : Candidate) : k.touched covers = true ↔ k.reaches covered := by
  simp only [Candidate.touched, List.any_eq_true, List.mem_range, hcov]
  constructor
  · rintro ⟨j, hj, hc⟩
    exact ⟨k.hullL + j, hc, by omega, by omega⟩
  · rintro ⟨c, hc, hl, hr⟩
    exact ⟨c - k.hullL, by omega, by rwa [Nat.add_sub_cancel' hl]⟩

end

theorem mem_streakSlots (j : Nat) : j ∈ s.streakSlots ↔ ∃ st, s.eng.work.streaks[j]? = some (some st) := by
  simp [State.streakSlots, mem_slotsWhere]

theorem applyRequest_done (markers : Marker → MarkerFields) {q : ResetRequest}
    (hcov : ∀ c, q.covers c = true ↔ covered c) (htouched : ∀ j, touched j ↔ s.memberAmong covered j) :
    ∃ xs, ResetDone covered touched (Candidate.reaches covered) .reset w s (applyRequest markers w s q) xs := by
  refine applyReset_done markers ((slotsWhere_nodup _ _).filter _) (slotsWhere_nodup _ _) hcov (fun j hj => ?_)
    (fun j => ?_) fun j => ?_
  · exact (mem_streakSlots j).mp (List.mem_filter.mp hj).1
  · rw [List.mem_filter, mem_streakSlots, streakTouched_iff hcov, htouched]
  · simp only [mem_slotsWhere, touched_iff hcov]

/-- No request, or one. -/
theorem requestsApplied_done (r : Recipe)
    (h : s.eng.resets = [] ∧ (∀ c, ¬ covered c) ∨ s.eng.resets = [.full] ∧ (∀ c, covered c) ∨
      ∃ h cells, s.eng.resets = [.head h cells] ∧ ∀ c, covered c ↔ ∃ x ∈ cells, x.1 ≤ c ∧ c < x.1 + x.2)
    (htouched : ∀ j, touched j ↔ s.memberAmong covered j) :
    ∃ xs, ResetDone covered touched (Candidate.reaches covered) .reset (s.asm.slots.get i).w (takenFrom i s)
      (requestsApplied i r s) xs := by
  unfold requestsApplied
  rcases h with ⟨hresets, hno⟩ | ⟨hresets, hall⟩ | ⟨h, cells, hresets, hcov⟩ <;> rw [hresets]
  · refine ⟨[], .idle _ hno (fun j hj => ?_) fun k hk => ?_⟩
    · obtain ⟨-, c, q, hc, -⟩ := (htouched j).mp hj
      exact hno c hc
    · obtain ⟨c, hc, -⟩ := hk
      exact hno c hc
  · exact applyRequest_done _ (q := .full) (fun c => ⟨fun _ => hall c, fun _ => rfl⟩) htouched
  · exact applyRequest_done _ (fun c => (covers_head h cells c).trans (hcov c).symm) htouched

/-! ### The geometry reset (R94) -/

theorem geometry_done (k : Option KeptSections) (r : Recipe) (w : Nat) (s : State) :
    ∃ xs, ResetDone (fun _ => geometryMoved k r = true)
      (fun j => geometryMoved k r = true ∧ ∃ st, s.eng.work.streaks[j]? = some (some st))
      (fun _ => geometryMoved k r = true) .recipe w s (geometryApplied k r w s) xs := by
  unfold geometryApplied
  split
  · rename_i hm
    refine applyReset_done _ (slotsWhere_nodup _ _) (slotsWhere_nodup _ _) (fun _ => by simp [hm])
      (fun j => (mem_streakSlots j).mp) (fun j => ?_) fun j => ?_
    · simp [mem_streakSlots, hm]
    · simp [State.candSlots, mem_slotsWhere, hm]
  · rename_i hm
    exact ⟨[], .idle s (fun _ => hm) (fun _ hj => hm hj.1) fun _ => hm⟩

/-! ### The two resets together -/

section
variable {moved : Prop} (h : ResetDone covered ended cut .reset w s u xs)
  (k : ResetDone (fun _ => moved) (fun j => moved ∧ ∃ st, u.eng.work.streaks[j]? = some (some st)) (fun _ => moved)
    .recipe w u v ys)
include h k

theorem ResetDone.both_list : v.list = s.list.pushAll (xs ++ ys) := by
  rw [k.list, h.list, pushAll_append]

theorem ResetDone.both_cell {c : Nat} {old : CellRec} (hold : s.eng.work.cells[c]? = some old) :
    ∃ new, v.eng.work.cells[c]? = some new ∧ (covered c ∨ moved → new = CellRec.blank) ∧
      (¬ covered c → ¬ moved → ((∃ j, ended j ∧ old.member = some j) → new = { old with member := none }) ∧
        ((∀ j, ended j → old.member ≠ some j) → new = old)) := by
  obtain ⟨q, hq⟩ := h.cell hold
  by_cases hm : moved
  · exact ⟨_, k.blank c q hq hm, fun _ => rfl, fun _ hn => absurd hm hn⟩
  · have hto : ∀ {new}, u.eng.work.cells[c]? = some new → q = new := fun hnew =>
      Option.some.inj (hq.symm.trans hnew)
    refine ⟨q, k.cells c q hq hm fun j hj => absurd hj.1 hm, fun hc => ?_, fun hc _ => ⟨fun hj => ?_, fun hj => ?_⟩⟩
    · exact hto (h.blank c old hold (hc.resolve_right hm))
    · exact hto (h.cleared c old hold hc hj)
    · exact hto (h.cells c old hold hc hj)

theorem ResetDone.both_streak {j : Nat} {st : Streak} (hst : s.eng.work.streaks[j]? = some (some st)) :
    (ended j → (w, st.closeRecord .reset 0) ∈ xs ++ ys ∧ v.eng.work.streaks[j]? = some none) ∧
      (¬ ended j → moved → (w, st.closeRecord .recipe 0) ∈ xs ++ ys ∧ v.eng.work.streaks[j]? = some none) ∧
      (¬ ended j → ¬ moved → v.eng.work.streaks[j]? = some (some st)) := by
  refine ⟨fun hj => ?_, fun hj hm => ?_, fun hj hm => ?_⟩
  · obtain ⟨hrecord, hempty⟩ := h.closedStreaks j st hst hj
    refine ⟨List.mem_append_left _ hrecord, ?_⟩
    rw [k.streaks j, hempty]
    rintro ⟨-, st', hst'⟩
    rw [hempty] at hst'
    cases hst'
  · have hst' := (h.streaks j hj).trans hst
    obtain ⟨hrecord, hempty⟩ := k.closedStreaks j st hst' ⟨hm, st, hst'⟩
    exact ⟨List.mem_append_right _ hrecord, hempty⟩
  · rw [k.streaks j fun hj' => hm hj'.1, h.streaks j hj, hst]

theorem ResetDone.both_cand {j : Nat} {g : Candidate} (hg : s.eng.work.cands[j]? = some (some g)) :
    (cut g ∨ moved → (g.firstW, g.record false false true) ∈ xs ++ ys ∧ v.eng.work.cands[j]? = some none) ∧
      (¬ cut g → ¬ moved → v.eng.work.cands[j]? = some (some g)) := by
  have hstays : ¬ cut g → u.eng.work.cands[j]? = some (some g) := fun hn => by
    rw [h.cands j, hg]
    intro g' hg'
    rw [hg] at hg'
    cases hg'
    exact hn
  refine ⟨fun hc => ?_, fun hn hm => ?_⟩
  · by_cases hcut : cut g
    · obtain ⟨hrecord, hempty⟩ := h.closedCands j g hg hcut
      refine ⟨List.mem_append_left _ hrecord, ?_⟩
      rw [k.cands j, hempty]
      intro g' hg'
      rw [hempty] at hg'
      cases hg'
    · obtain ⟨hrecord, hempty⟩ := k.closedCands j g (hstays hcut) (hc.resolve_left hcut)
      exact ⟨List.mem_append_right _ hrecord, hempty⟩
  · rw [k.cands j fun _ _ => hm, hstays hn]

end

/-! ### The three parts of the statement -/

/-- Settles O19: the slot taken is the oldest, and the line's requested reset and its geometry reset follow each
other. -/
theorem engineTakesLine : Obligations.EngineTakesLine := by
  intro s
  refine ⟨fun i r hready hnone hold hcopy hkept => ⟨fun hresets => ?_, fun hresets hstreaks hcands => ?_⟩,
    fun i r covered touched hready hnone hold hcopy hresets htouched => ?_, fun hidle => ?_⟩
  · rw [engineTakeLine_takes (takeable_ready hready hnone hold), takeLine_eq (copyOf_eq hcopy),
      geometryApplied_unmoved hkept, requestsApplied, hresets, List.foldl_nil, takenFrom_unrequested i hresets]
    rfl
  · rw [engineTakeLine_takes (takeable_ready hready hnone hold), takeLine_eq (copyOf_eq hcopy),
      geometryApplied_unmoved hkept, requestsApplied, hresets, List.foldl_cons, List.foldl_nil,
      applyRequest_full (s := takenFrom i s) _ hstreaks hcands]
    rfl
  · have htake : exec .engineTakeLine s = .next (takeLine i s) :=
      engineTakeLine_takes (takeable_ready hready hnone hold)
    rw [takeLine_eq (copyOf_eq hcopy)] at htake
    have hwork := (requestsApplied_work i r s).trans (geometryApplied_work s.eng.kept r (s.asm.slots.get i).w _)
    obtain ⟨xs, hrequest⟩ := requestsApplied_done (i := i) r hresets htouched
    obtain ⟨ys, hgeometry⟩ := geometry_done s.eng.kept r (s.asm.slots.get i).w (requestsApplied i r s)
    refine ⟨_, xs ++ ys, geometryMoved s.eng.kept r = true, htake, geometryMoved_iff, hwork.asm, hwork.resets, rfl,
      hwork.progress, hwork.pub, (hrequest.both_list hgeometry :),
      fun c old hold => (hrequest.both_cell hgeometry hold :), fun j st hst => (hrequest.both_streak hgeometry hst :),
      fun j g hg => ?_⟩
    obtain ⟨hclosed, hstays⟩ := hrequest.both_cand hgeometry hg
    refine ⟨hclosed, fun hout => hstays ?_⟩
    rintro ⟨c, hc, hl, hr⟩
    rcases hout c hc with hlt | hlt <;> omega
  · rcases hidle with ⟨i, hi⟩ | ⟨i, hi | hi, hold⟩
    · exact engineTakeLine_idles (takeable_busy hi)
    · exact engineTakeLine_idles (takeable_waits hi hold)
    · exact engineTakeLine_idles (takeable_busy hi)

end Sys2Proof.Machine
end

section
/-! SUPPORT. The engine's own steps (R77, R78, O20): one piece of work appends one record of the line at most, leaves
what is to be published as it was, and after finitely many pieces none is left. -/

namespace Sys2Proof.Machine

variable {s t u : State} {i : Fin 4} {ln : Line}

/-! ### Work that appends nothing, and work that appends one record -/

/-- `t` comes from `s` by work that appends no record and hands no mark action on. -/
structure Silent (s t : State) : Prop where
  list : t.list = s.list
  mark : t.mark = s.mark
  ports : t.ports = s.ports
  pos : t.pos = s.pos

theorem Silent.same (s : State) : Silent s s := ⟨rfl, rfl, rfl, rfl⟩

theorem Silent.trans (h : Silent s t) (k : Silent t u) : Silent s u :=
  ⟨k.list.trans h.list, k.mark.trans h.mark, k.ports.trans h.ports, k.pos.trans h.pos⟩

theorem Silent.withWork (s : State) (x : EngineTables) : Silent s (s.withWork x) := ⟨rfl, rfl, rfl, rfl⟩

theorem Silent.foldl {α : Type} {f : State → α → State} (h : ∀ s a, Silent s (f s a)) (as : List α) :
    ∀ s, Silent s (as.foldl f s) := by
  induction as with
  | nil => exact fun s => .same s
  | cons a as ih => exact fun s => (h s a).trans (ih _)

/-- `t` comes from `s` by appending `xs`, one record at most, and `ys`, a MARK_QUEUE_FULL of its mark action. -/
structure OneRecord (s t : State) (xs ys : List (Nat × RecordBody)) : Prop where
  list : t.list = s.list.pushAll (xs ++ ys)
  one : xs.length ≤ 1
  behind : ys.length ≤ xs.length
  full : ∀ y ∈ ys, ∃ m, y = (s.pos.w, .event .markQueueFull m)
  silent : xs = [] → t.mark = s.mark ∧ t.ports = s.ports

/-- `t` comes from `s` by work that appends one record at most, and a MARK_QUEUE_FULL of its mark action behind it. -/
def AppendsOne (s t : State) : Prop := ∃ xs ys, OneRecord s t xs ys

theorem AppendsOne.of_silent (h : Silent s t) : AppendsOne s t :=
  ⟨[], [], h.list, by simp, le_rfl, by simp, fun _ => ⟨h.mark, h.ports⟩⟩

theorem AppendsOne.append (w : Nat) (b : RecordBody) (s : State) : AppendsOne s (append w b s) :=
  ⟨[(w, b)], [], rfl, by simp, by simp, by simp, by simp⟩

/-- Work that appends nothing, and then work that appends one record. -/
theorem AppendsOne.after (h : Silent s t) (k : AppendsOne t u) : AppendsOne s u := by
  obtain ⟨xs, ys, hlist, hone, hbehind, hfull, hsilent⟩ := k
  refine ⟨xs, ys, h.list ▸ hlist, hone, hbehind, h.pos ▸ hfull, fun hxs => ?_⟩
  obtain ⟨hmark, hports⟩ := hsilent hxs
  exact ⟨hmark.trans h.mark, hports.trans h.ports⟩

/-- A mark action appends a MARK_QUEUE_FULL at most (R155). -/
theorem handAction_full (m : Marker) (f : MarkerFields) (r patch : Nat) (s : State) :
    ∃ ys, (handAction m f r patch s).list = s.list.pushAll ys ∧ ys.length ≤ 1 ∧
      ∀ y ∈ ys, ∃ n, y = (s.pos.w, .event .markQueueFull n) := by
  rw [handAction_frame, enterAction_eq]
  dsimp only
  split
  · exact ⟨[(s.pos.w, .event .markQueueFull m.num)], rfl, by simp, by simp⟩
  · exact ⟨[], rfl, by simp, by simp⟩

/-- A record counted for its patch, and its mark action handed on when it has a target (R32, R151). -/
theorem AppendsOne.reported (target : Option Marker) (f : Marker → MarkerFields) (w r patch : Nat) (b : RecordBody)
    (c : Contribution) (s : State) :
    AppendsOne s (match target with
      | some m => handAction m (f m) r patch (contribute c (Machine.append w b s))
      | none => contribute c (Machine.append w b s)) := by
  cases target with
  | none => exact ⟨[(w, b)], [], rfl, by simp, by simp, by simp, by simp⟩
  | some m =>
    obtain ⟨ys, hlist, hlen, hfull⟩ := handAction_full m (f m) r patch (contribute c (Machine.append w b s))
    exact ⟨[(w, b)], ys, hlist, by simp, hlen, hfull, by simp⟩

/-! ### The pieces of stage 3 (R123 to R127) -/

theorem extendStreak_silent (next : Nat) (s : State) (c : Component (Nat × Polarity)) :
    Silent s (extendStreak next s c) := by
  unfold extendStreak
  dsimp only
  split
  · exact .same s
  · split
    exacts [.same s, .withWork s _]

theorem beginStreaks_silent (ln : Line) (outs : List CellResult) (s : State) :
    Silent s (beginStreaks ln outs s).2 := by
  unfold beginStreaks
  split
  · exact (Silent.withWork s _).trans (Silent.foldl (extendStreak_silent _) _ _)
  · exact .same s

theorem closeStreakAs_one (st : Streak) (i : Nat) (reason : CloseReason) (into w : Nat) (s : State) :
    AppendsOne s (closeStreakAs st i reason into w s) := .after (.withWork s _) (.append _ _ _)

theorem closeStreak_one (i : Nat) (reason : CloseReason) (w : Nat) (s : State) :
    AppendsOne s (closeStreak i reason w s) := by
  unfold closeStreak
  split
  exacts [closeStreakAs_one _ _ _ _ _ s, .of_silent (.same s)]

theorem settleStreak_one (w i : Nat) (was : Option Streak) (f : StreakFate) (s : State) :
    AppendsOne s (settleStreak w i was f s) := by
  cases f with
  | merged into =>
    cases was
    exacts [.of_silent (.same s), closeStreakAs_one _ _ _ _ _ s]
  | decays => exact closeStreak_one _ _ _ s
  | held =>
    simp only [settleStreak]
    split
    exacts [.of_silent (.withWork s _), .of_silent (.same s)]
  | extended => exact .of_silent (.same s)

theorem openStreak_one (ln : Line) (r : Run (Nat × Polarity)) (i : Nat) (s : State) :
    AppendsOne s (openStreak ln r i s) :=
  .after (.withWork s _) (.reported (ln.copy.markTarget r.key.1 r.profile) ln.copy.markerFields _ _ _ _ _ _)

theorem refuseStreak_one (ln : Line) (r : Run (Nat × Polarity)) (s : State) : AppendsOne s (refuseStreak ln r s) := by
  unfold refuseStreak
  dsimp only
  split
  exacts [.of_silent (.withWork s _), .after (.withWork s _) (.append _ _ _)]

theorem runStreakItem_one (ln : Line) (s : State) (x : StreakItem) : AppendsOne s (runStreakItem ln s x) := by
  cases x with
  | fate slot was f => exact settleStreak_one _ _ _ _ s
  | run r =>
    simp only [runStreakItem, loneStreakRun]
    split
    exacts [openStreak_one ln r _ s, refuseStreak_one ln r s]

/-! ### The pieces of stages 4 and 5 (R31 to R33, R101 to R108) -/

theorem reportPinhole_one (markers : Marker → MarkerFields) (k : Candidate) (how : PinEnd) (s : State) :
    AppendsOne s (reportPinhole markers k how s) := .reported k.target markers _ _ _ _ _ s

theorem closeCand_one (markers : Marker → MarkerFields) (how : PinEnd) (s : State) (j : Nat) :
    AppendsOne s (closeCand markers how s j) := by
  unfold closeCand
  split
  exacts [.after (.withWork s _) (reportPinhole_one _ _ _ _), .of_silent (.same s)]

theorem settleCand_one (markers : Marker → MarkerFields) (j : Nat) (f : CandFate) (s : State) :
    AppendsOne s (settleCand markers j f s) := by
  cases f with
  | long => exact closeCand_one _ _ s j
  | closes => exact closeCand_one _ _ s j
  | held =>
    simp only [settleCand]
    split
    exacts [.of_silent (.withWork s _), .of_silent (.same s)]
  | stays => exact .of_silent (.same s)

theorem openCand_one (ln : Line) (r : Run Nat) (j : Nat) (s : State) : AppendsOne s (openCand ln r j s) := by
  unfold openCand
  dsimp only
  split
  exacts [.after (.withWork s _) (closeCand_one _ _ _ _), .of_silent (.withWork s _)]

theorem splitNotice_one (ln : Line) (r : Run Nat) (s : State) : AppendsOne s (splitNotice ln r s) := by
  unfold splitNotice
  dsimp only
  split
  exacts [.of_silent (.withWork s _), .after (.withWork s _) (.append _ _ _)]

/-- A run with no room in the table takes two pieces: its CANDIDATE_TABLE_FULL and its SPLIT record (R108). -/
theorem advancePinItem_one (ln : Line) (s : State) (x : PinItem) (rest : List PinItem) :
    AppendsOne s (advancePinItem ln s x rest).2 := by
  cases x with
  | fate slot f => exact settleCand_one _ _ _ s
  | report r => exact reportPinhole_one _ _ _ s
  | run r =>
    unfold advancePinItem
    cases hroom : emptySlot s.eng.work.cands with
    | none => exact splitNotice_one ln r s
    | some j =>
      show AppendsOne s (lonePinholeRun ln s r)
      simp only [lonePinholeRun, hroom]
      exact openCand_one ln r j s

theorem extendCand_silent (ln : Line) (t0 : List (Option Candidate)) (s : State) (c : Component Nat) :
    Silent s (extendCand ln t0 s c) := by
  unfold extendCand
  split
  · exact .same s
  · split
    · exact .same s
    · exact (Silent.foldl (fun s j => .withWork s _) _ s).trans (.withWork _ _)

theorem beginPinholes_silent (ln : Line) (outs : List CellResult) (s : State) :
    Silent s (beginPinholes ln outs s).2 := by
  unfold beginPinholes
  split
  exacts [Silent.foldl (extendCand_silent ln _) _ s, .same s]

theorem tallyStage_one (x : Slot) (s : State) : AppendsOne s (tallyStage x s) := by
  have hentered : ∀ o, Silent s (s.entered o) := fun o => ⟨rfl, rfl, rfl, rfl⟩
  cases htally : s.eng.work.tally with
  | none =>
    rw [tallyStage_opens htally]
    exact .of_silent (hentered _)
  | some q =>
    by_cases hx : x.tallied = true ∧ q.num = x.patchNum
    · rw [tallyStage_extends htally hx.1 hx.2]
      exact .of_silent (hentered _)
    · rw [tallyStage_closes htally fun ht hq => hx ⟨ht, hq⟩]
      exact .after (hentered _) (.append _ _ _)

/-- A piece of the line operation appends one record at most (R78). -/
theorem advance_one (ln : Line) (s : State) (φ : LineProgress) : AppendsOne s (advance ln s φ).2 := by
  cases φ with
  | begun => exact .of_silent ((Silent.withWork s _).trans (beginStreaks_silent ln _ _))
  | streaks outs items =>
    cases items
    exacts [.of_silent (.same s), runStreakItem_one ln s _]
  | closes outs slots =>
    cases slots
    exacts [.of_silent (beginPinholes_silent ln outs s), closeCand_one _ _ s _]
  | pinholes items =>
    cases items
    exacts [tallyStage_one _ s, advancePinItem_one ln s _ _]
  | ended => exact .of_silent (.same s)

/-! ### A step on the empty queue -/

theorem linePublish_eq (h : s.slotInWork = some i) : exec .linePublish s = .next (publishLine i s) := by
  show Host.Outcome.next _ = _
  rw [h]

theorem idle_eq (h : s.slotInWork = some i) : idle s = advanceLine i s := by
  unfold idle
  rw [h]

theorem step_idle (h : s.pending = []) : step s = .next (idle s) := by
  unfold step
  rw [h]

/-- The engine's work changes its tables and contributions, the list with the ports, and the scheduler alone. -/
theorem EngineWork.frame (h : EngineWork s t) : t = { s with
    list := t.list, mark := t.mark, ports := t.ports
    eng := { s.eng with work := t.eng.work, contribs := t.eng.contribs } } := by
  obtain ⟨pos, trig, trk, links, asm, eng, list, mark, rcp, ports, freeCount, pending⟩ := t
  obtain ⟨work, pub, lastLine, kept, resets, contribs, progress⟩ := eng
  obtain ⟨-, hpos, htrig, htrk, hlinks, hasm, hrcp, hfree, hpending, hpub, hlast, hkept, hresets, hprogress, -⟩ := h
  simp only at hpos htrig htrk hlinks hasm hrcp hfree hpending hpub hlast hkept hresets hprogress
  subst hpos htrig htrk hlinks hasm hrcp hfree hpending hpub hlast hkept hresets hprogress
  rfl

/-- A piece of work on the line changes besides how far the line has come. -/
theorem advanceLine_frame (i : Fin 4) (s : State) : advanceLine i s = { s with
    list := (advanceLine i s).list, mark := (advanceLine i s).mark, ports := (advanceLine i s).ports
    eng := { s.eng with
      work := (advanceLine i s).eng.work, contribs := (advanceLine i s).eng.contribs
      progress := (advanceLine i s).eng.progress } } := by
  obtain ⟨v, hv, h⟩ := advanceLine_work i s
  obtain ⟨cells, hfrom⟩ := workedFrom_eq (s.lineOf i) (s.atProgress .begun) s.eng.progress
  rw [hfrom] at hv
  rw [h]
  exact congrArg (State.atProgress · _) hv.frame

theorem advanceLine_slotInWork (i : Fin 4) (s : State) : (advanceLine i s).slotInWork = s.slotInWork := by
  rw [advanceLine_frame]; rfl

theorem advanceLine_one (i : Fin 4) (s : State) : AppendsOne s (advanceLine i s) := by
  obtain ⟨xs, ys, h⟩ := advance_one (s.lineOf i) (s.atProgress .begun) s.eng.progress
  exact ⟨xs, ys, h.list, h.one, h.behind, h.full, h.silent⟩

/-- A piece of work leaves what its port has received, holds, answers and counts. -/
theorem advanceLine_port (i : Fin 4) (s : State) (p : PortNo) :
    (advanceLine i s).ports.get p = { s.ports.get p with
      cursor := ((advanceLine i s).ports.get p).cursor, skipped := ((advanceLine i s).ports.get p).skipped
      causes := ((advanceLine i s).ports.get p).causes, atn := ((advanceLine i s).ports.get p).atn } := by
  obtain ⟨v, hv, h⟩ := advanceLine_work i s
  obtain ⟨cells, hfrom⟩ := workedFrom_eq (s.lineOf i) (s.atProgress .begun) s.eng.progress
  rw [hfrom] at hv
  rw [h]
  exact hv.appends.port p

/-- LINE_PUBLISH after a piece of work does what it would have done before (R77, R78). -/
theorem publishLine_advanceLine (i : Fin 4) (s : State) : publishLine i (advanceLine i s) = publishLine i s := by
  obtain ⟨cells, hfrom⟩ := workedFrom_eq (s.lineOf i) (s.atProgress .begun) s.eng.progress
  have hwork := advance_work (s.lineOf i) (s.atProgress .begun) s.eng.progress
  have hrest := finish_advance (s.lineOf i) (s.atProgress .begun) s.eng.progress
  rw [hfrom] at hwork
  have hmoved : advanceLine i s = (advance (s.lineOf i) (s.atProgress .begun) s.eng.progress).2.atProgress
    (advance (s.lineOf i) (s.atProgress .begun) s.eng.progress).1 := rfl
  generalize advance (s.lineOf i) (s.atProgress .begun) s.eng.progress = y at hwork hrest hmoved
  obtain ⟨φ, v⟩ := y
  have hasm : v.asm = s.asm := hwork.asm
  have hline : (v.atProgress φ).lineOf i = s.lineOf i := by
    show (⟨v.asm.slots.get i, _⟩ : Line) = _
    simp only [State.lineOf, State.copyOf, State.atProgress, hasm, show v.rcp = s.rcp from hwork.rcp]
  have hback : (v.atProgress φ).atProgress .begun = v := atProgress_self (s := v) hwork.progress
  have hbegun : (v.atProgress φ).eng.progress = φ := rfl
  rw [hmoved]
  unfold publishLine
  rw [hline, hback, hbegun, hrest, show (v.atProgress φ).asm = s.asm from hasm]

/-- Of a line whose stages have ended LINE_PUBLISH appends nothing and publishes the tables as they stand. -/
theorem publishLine_ended (i : Fin 4) (h : s.eng.progress = .ended) :
    (publishLine i s).list = s.list ∧ (publishLine i s).mark = s.mark ∧ (publishLine i s).eng.pub = s.eng.work := by
  unfold publishLine
  rw [h, freeSlot_eq]
  exact ⟨rfl, rfl, rfl⟩

/-! ### The engine comes to the end of the line -/

/-- How many pieces a piece of stage 4 may still be cut into: a run with no room leaves its SPLIT record (R108). -/
def PinItem.pieces : PinItem → Nat
  | .fate _ _ => 1
  | .run _ => 2
  | .report _ => 1

/-- What is left of the line operation: the part it is in, and the pieces left of that part. -/
def LineProgress.left : LineProgress → ℕ ×ₗ ℕ
  | .begun => toLex (4, 0)
  | .streaks _ items => toLex (3, items.length)
  | .closes _ slots => toLex (2, slots.length)
  | .pinholes items => toLex (1, (items.map PinItem.pieces).sum)
  | .ended => toLex (0, 0)

theorem advancePinItem_left (ln : Line) (s : State) (x : PinItem) (rest : List PinItem) :
    ((advancePinItem ln s x rest).1.map PinItem.pieces).sum < ((x :: rest).map PinItem.pieces).sum := by
  cases x with
  | fate slot f => simp [advancePinItem, PinItem.pieces]
  | report r => simp [advancePinItem, PinItem.pieces]
  | run r => cases hroom : emptySlot s.eng.work.cands <;> simp [advancePinItem, hroom, PinItem.pieces]

/-- Every piece of work leaves less of the line operation. -/
theorem advance_left (ln : Line) (s : State) {φ : LineProgress} (h : φ ≠ .ended) :
    (advance ln s φ).1.left < φ.left := by
  cases φ with
  | begun => simp [advance, LineProgress.left, Prod.Lex.toLex_lt_toLex]
  | streaks outs items => cases items <;> simp [advance, LineProgress.left, Prod.Lex.toLex_lt_toLex]
  | closes outs slots => cases slots <;> simp [advance, LineProgress.left, Prod.Lex.toLex_lt_toLex]
  | pinholes items =>
    cases items with
    | nil => simp [advance, LineProgress.left, Prod.Lex.toLex_lt_toLex]
    | cons x items =>
      exact Prod.Lex.toLex_lt_toLex.mpr (.inr ⟨rfl, advancePinItem_left ln s x items⟩)
  | ended => exact absurd rfl h

/-- After finitely many pieces of work the line waits to be published. -/
theorem idle_ends (h : s.slotInWork = some i) : ∃ n, (idle^[n] s).eng.progress = .ended := by
  generalize hleft : s.eng.progress.left = x
  induction x using WellFoundedLT.induction generalizing s with
  | ind x ih =>
    by_cases hend : s.eng.progress = .ended
    · exact ⟨0, hend⟩
    · have hless : (idle s).eng.progress.left < x := by
        rw [idle_eq h, ← hleft]
        exact advance_left (s.lineOf i) (s.atProgress .begun) hend
      have hslot : (idle s).slotInWork = some i := by
        rw [idle_eq h, advanceLine_slotInWork, h]
      obtain ⟨n, hn⟩ := ih _ hless hslot rfl
      exact ⟨n + 1, hn⟩

/-- With no command waiting and a line in work, so it stays while the engine goes on. -/
theorem idle_iterate_keeps (hpending : s.pending = []) (h : s.slotInWork = some i) (n : Nat) :
    (idle^[n] s).pending = [] ∧ (idle^[n] s).slotInWork = some i := by
  induction n with
  | zero => exact ⟨hpending, h⟩
  | succ n ih =>
    obtain ⟨hp, hi⟩ := ih
    rw [Function.iterate_succ_apply', idle_eq hi, advanceLine_slotInWork]
    exact ⟨by rw [advanceLine_frame]; exact hp, hi⟩

theorem step_idle_iterate (hpending : s.pending = []) (h : s.slotInWork = some i) (n : Nat) :
    step (idle^[n] s) = .next (idle^[n + 1] s) := by
  rw [Function.iterate_succ_apply']
  exact step_idle (idle_iterate_keeps hpending h n).1

/-- Settles O20: one piece of work, and that the pieces come to an end. -/
theorem engineAdvances : Obligations.EngineAdvances := by
  intro i s hpending hwork hnone
  have hslot : s.slotInWork = some i := slotInWork_eq hwork hnone
  refine ⟨?_, ?_⟩
  · obtain ⟨xs, ys, hlist, hone, hbehind, hfull, hsilent⟩ := advanceLine_one i s
    refine ⟨advanceLine i s, xs, ys, by rw [step_idle hpending, idle_eq hslot], ?_, hlist, hone, hbehind, hfull,
      hsilent, advanceLine_port i s, advanceLine_frame i s⟩
    rw [linePublish_eq hslot, linePublish_eq (by rw [advanceLine_slotInWork, hslot]), publishLine_advanceLine]
  · obtain ⟨n, hn⟩ := idle_ends hslot
    refine ⟨n, fun k => idle^[k] s, rfl, step_idle_iterate hpending hslot, fun v hv => ?_⟩
    rw [linePublish_eq (idle_iterate_keeps hpending hslot n).2] at hv
    cases hv
    exact publishLine_ended i hn

end Sys2Proof.Machine
end

section
/-! SUPPORT. LINE_PUBLISH of a GAP or UNKNOWN line with no candidate open (R33, R62, R72, R79, O21): stage 5 closes the
tally, the tables are published, and the slot is freed with a retiring copy that only it referred to. -/

namespace Sys2Proof.Machine

variable {s : State} {i : Fin 4} {ln : Line}

/-- With no candidate open none closes. -/
theorem closeCands_empty (markers : Marker → MarkerFields) (how : PinEnd) (h : ∀ o ∈ s.eng.work.cands, o = none) :
    closeCands markers how s.candSlots s = s := by
  rw [State.candSlots, slotsWhere_none _ _ h]
  rfl

/-- The slot freed: a retiring copy stays while another slot refers to it (R62, R169). -/
theorem freeSlot_retiring (i : Fin 4) (s : State) : freeSlot i s = { s with
    asm := { s.asm with slots := s.asm.slots.set i (s.asm.slots.get i).freed }
    rcp := { s.rcp with
      retiring := if ∃ j, j ≠ i ∧ (s.asm.slots.get j).copy = .retiring then s.rcp.retiring else none } } := by
  have hothers : (s.withSlot i (s.asm.slots.get i).freed).references .retiring = 0 ↔
      ¬ ∃ j, j ≠ i ∧ (s.asm.slots.get j).copy = .retiring := by
    rw [references_eq_zero]
    refine not_congr (exists_congr fun j => ?_)
    show ((s.asm.slots.set i (s.asm.slots.get i).freed).get j).copy = .retiring ↔ _
    rw [Quad.get_set]
    by_cases hj : j = i <;> simp [hj, Slot.freed]
  unfold freeSlot
  rw [discardRetiring_eq]
  simp only [hothers, ite_not]
  rfl

/-- Without contributions entering them changes nothing. -/
theorem entered_none (h : s.eng.contribs = []) (o : Option Tally) : s.entered o = s.withTally o := by
  unfold State.entered
  rw [← h]

/-- Stage 5 alone works on a line that is not coated, with no candidate open (R72, R82, R120). -/
theorem runStages_tally (h : ln.slot.zone.coated = false) (hcands : ∀ o ∈ s.eng.work.cands, o = none) :
    runStages ln s = tallyStage ln.slot s := by
  rw [runStages_uncoated h, closeCands_empty _ _ hcands]

/-- Settles O21: stage 5 opens no tally and closes an open one; the rest is the publishing. -/
theorem publishUncoated : Obligations.PublishUncoated := by
  intro i s hwork hnone hbegun hzone hcands hcontribs
  have huncoated : (s.asm.slots.get i).zone.coated = false := by rcases hzone with h | h <;> rw [h] <;> rfl
  have hpublish : exec .linePublish s = .next (freeSlot i { publishTables (tallyStage (s.asm.slots.get i) s) with
      eng := { (publishTables (tallyStage (s.asm.slots.get i) s)).eng with
        lastLine := some ((s.asm.slots.get i).line, (s.asm.slots.get i).w) } }) := by
    rw [linePublish_eq (slotInWork_eq hwork hnone), publishLine_begun i hbegun,
      runStages_tally (ln := s.lineOf i) huncoated hcands]
    rfl
  refine ⟨_, rfl, fun htally => ?_, fun q htally => ?_⟩
  · rw [hpublish, tallyStage_opens htally, openedTally_uncoated huncoated, entered_none hcontribs,
      freeSlot_retiring]
    rfl
  · rw [hpublish, tallyStage_closes htally (by simp [Slot.tallied, huncoated]), openedTally_uncoated huncoated,
      entered_none hcontribs, hcontribs, freeSlot_retiring]
    rfl

end Sys2Proof.Machine
end

section
/-! SUPPORT. The published record of one cell of a coated line (R69 to R74, R82 to R91, O22): what stages 1 and 2 make
of it and hand on, and that the later stages change its membership alone. -/

namespace Sys2Proof.Machine

variable {s t u : State} {ln : Line} {c l : Nat} {r : CellRec}

/-! ### Stages 3 to 5 (R92, R123, R126) -/

/-- The records of `t` are those of `s` but for their membership. -/
def MembersMoved (s t : State) : Prop :=
  ∀ (c : Nat) (q : CellRec), s.eng.work.cells[c]? = some q → ∃ m, t.eng.work.cells[c]? = some { q with member := m }

theorem MembersMoved.of_cells (h : t.eng.work.cells = s.eng.work.cells) : MembersMoved s t :=
  fun _ q hq => ⟨q.member, h ▸ hq⟩

theorem MembersMoved.trans (h : MembersMoved s t) (k : MembersMoved t u) : MembersMoved s u := fun c q hq => by
  obtain ⟨m, hm⟩ := h c q hq
  obtain ⟨m', hm'⟩ := k c _ hm
  exact ⟨m', hm'⟩

theorem MembersMoved.foldl {α : Type} {f : State → α → State} (h : ∀ s a, MembersMoved s (f s a)) (as : List α) :
    ∀ s, MembersMoved s (as.foldl f s) := by
  induction as with
  | nil => exact fun s => .of_cells rfl
  | cons a as ih => exact fun s => (h s a).trans (ih _)

theorem dropStreak_moves (i : Nat) (s : State) : MembersMoved s (dropStreak i s) := fun c q hq => by
  show ∃ m, (clearMembers i s.eng.work.cells)[c]? = _
  rw [clearMembers_get, hq, Option.map_some]
  split
  exacts [⟨none, rfl⟩, ⟨q.member, rfl⟩]

theorem closeStreakAs_moves (st : Streak) (i : Nat) (reason : CloseReason) (into w : Nat) (s : State) :
    MembersMoved s (closeStreakAs st i reason into w s) := dropStreak_moves i s

theorem extendStreak_moves (next : Nat) (s : State) (k : Component (Nat × Polarity)) :
    MembersMoved s (extendStreak next s k) := by
  unfold extendStreak
  dsimp only
  split
  · exact .of_cells rfl
  · rename_i i _
    split
    · exact .of_cells rfl
    · intro c q hq
      show ∃ m, (setMembers i k s.eng.work.cells)[c]? = _
      rw [setMembers_get, hq, Option.map_some]
      split
      · exact ⟨some i, rfl⟩
      · split
        exacts [⟨none, rfl⟩, ⟨q.member, rfl⟩]

theorem settleStreak_moves (w i : Nat) (was : Option Streak) (f : StreakFate) (s : State) :
    MembersMoved s (settleStreak w i was f s) := by
  cases f with
  | merged into =>
    cases was
    exacts [.of_cells rfl, closeStreakAs_moves _ _ _ _ _ s]
  | decays =>
    simp only [settleStreak, closeStreak]
    split
    exacts [closeStreakAs_moves _ _ _ _ _ s, .of_cells rfl]
  | held =>
    simp only [settleStreak]
    split <;> exact .of_cells rfl
  | extended => exact .of_cells rfl

theorem openStreak_moves (ln : Line) (r : Run (Nat × Polarity)) (i : Nat) (s : State) :
    MembersMoved s (openStreak ln r i s) := by
  have hcells : (openStreak ln r i s).eng.work.cells = joinMembers i r s.eng.work.cells := by
    unfold openStreak
    dsimp only
    split
    · rw [handAction_tables]; rfl
    · rfl
  intro c q hq
  rw [hcells, joinMembers, List.getElem?_map, List.getElem?_zipIdx, hq]
  simp only [Option.map_some]
  split
  exacts [⟨some i, rfl⟩, ⟨q.member, rfl⟩]

theorem runStreakItem_moves (ln : Line) (s : State) (y : StreakItem) : MembersMoved s (runStreakItem ln s y) := by
  cases y with
  | fate slot was f => exact settleStreak_moves _ _ _ _ s
  | run r =>
    simp only [runStreakItem, loneStreakRun]
    split
    · exact openStreak_moves ln r _ s
    · refine .of_cells ?_
      unfold refuseStreak
      dsimp only
      split <;> rfl

theorem streakStage_moves (ln : Line) (outs : List CellResult) (s : State) :
    MembersMoved s (streakStage ln outs s) := by
  have hbegin : MembersMoved s (beginStreaks ln outs s).2 := by
    unfold beginStreaks
    split
    · exact MembersMoved.trans (t := s.withWork { s.eng.work with
        streaks := s.eng.work.streaks.map fun o => o.map (Streak.onPatch ln.slot.patchNum) }) (.of_cells rfl)
        (MembersMoved.foldl (extendStreak_moves _) _ _)
    · exact .of_cells rfl
  exact hbegin.trans (MembersMoved.foldl (runStreakItem_moves ln) _ _)

/-- What stages 1 and 2 made of a cell the line leaves with its membership alone changed. -/
theorem runStages_cell {old : CellRec} (h : s.eng.work.cells[c]? = some old) :
    ∃ m, (runStages ln s).eng.work.cells[c]? =
      some { (ln.workCell c old (ln.slot.cells.getD c 0)).1 with member := m } := by
  have hstage : (cellStages ln s).2.eng.work.cells[c]? = some (ln.workCell c old (ln.slot.cells.getD c 0)).1 := by
    rw [cellStages_eq]
    show ((ln.workCells 0 s.eng.work.cells ln.slot.cells).map Prod.fst)[c]? = _
    rw [List.getElem?_map, workCells_getElem ln _ 0 _ c old h, Nat.zero_add]
    rfl
  obtain ⟨m, hm⟩ := streakStage_moves ln (cellStages ln s).1 _ c _ hstage
  have hpinholes := pinholeStage_noStreak ln (cellStages ln s).1
    (streakStage ln (cellStages ln s).1 (cellStages ln s).2)
  have hkept := congrArg EngineTables.cells (hpinholes.trans (tallyStage_noStreak ln.slot _)).work
  exact ⟨m, (congrArg (·[c]?) hkept).trans hm⟩

/-! ### The arithmetic of a judging line (R84, R87 to R91) -/

theorem deviation_eq (b16 x : Nat) : deviation b16 x = (x : Int) - (b16 : Int) / 16 := rfl

/-- Adaptation is the floor quotient itself: it never falls below 0 (R89). -/
theorem adapt_eq (b16 x k : Nat) : (adapt b16 x k : Int) = b16 + (16 * (x : Int) - b16) / 2 ^ k := by
  have hpow : (0 : Int) < 2 ^ k := by positivity
  have hge : -(b16 : Int) ≤ (16 * (x : Int) - b16) / 2 ^ k := by
    rw [Int.le_ediv_iff_mul_le hpow]
    nlinarith
  exact Int.toNat_of_nonneg (by omega)

theorem frozenBy_iff (p : Profile) (d : Int) (x : Nat) : frozenBy p d x = true ↔ (p.tp : Int) ≤ d ∨ x = 4095 := by
  simp [frozenBy]

theorem judgedBaseline_eq (p : Profile) (b16 : Nat) (d : Int) (x : Nat) :
    (judgedBaseline p b16 d x : Int) = if (p.tp : Int) ≤ d ∨ x = 4095 then (b16 : Int)
      else if (p.ts : Int) ≤ d ∨ d ≤ -(p.ts : Int) then b16 + (16 * (x : Int) - b16) / 2 ^ min (p.k + 4) 14
      else b16 + (16 * (x : Int) - b16) / 2 ^ p.k := by
  have hslow : p.ts ≤ d.natAbs ↔ (p.ts : Int) ≤ d ∨ d ≤ -(p.ts : Int) := by omega
  simp only [judgedBaseline, frozenBy_iff, hslow]
  split
  · rfl
  · split <;> exact adapt_eq _ _ _

theorem moveCounter_eq (v : Int) (ts : Nat) (d : Int) :
    moveCounter v (streakInput ts d) = if (ts : Int) ≤ d then (if 0 ≤ v then min (v + 1) 4095 else 1)
      else if d ≤ -(ts : Int) then (if v ≤ 0 then max (v - 1) (-4095) else -1)
      else if 0 < v then v - 1 else if v < 0 then v + 1 else 0 := by
  unfold streakInput
  split
  · rfl
  · split <;> rfl

/-! ### The record worked (R83, R85, R88, R91) -/

theorem worked_seeds (h : r.seeded = false) (p : Profile) (x : Nat) :
    r.worked p x = { r with seeded := true, b16 := 16 * x, warm := p.warm } := by
  simp [CellRec.worked, h]

theorem worked_warms (h : r.seeded = true) (hw : 0 < r.warm) (p : Profile) (x : Nat) :
    r.worked p x = { r with b16 := adapt r.b16 x p.k, warm := r.warm - 1 } := by
  simp [CellRec.worked, h, hw]

theorem worked_judges (h : r.seeded = true) (hw : r.warm = 0) (p : Profile) (x : Nat) :
    r.worked p x = { r with
      b16 := judgedBaseline p r.b16 (deviation r.b16 x) x
      s := if p.streakEnable ≠ 1 then 0 else moveCounter r.s (streakInput p.ts (deviation r.b16 x))
      member := if p.streakEnable ≠ 1 then none else r.member } := by
  by_cases hs : p.streakEnable = 1 <;> simp [CellRec.worked, h, hw, hs]

/-! ### Stages 1 and 2 at one cell (R69 to R74) -/

theorem delivered_iff (y : Slot) (copy : Recipe) (c : Nat) :
    y.delivered copy c = true ↔ ∃ h, y.received.get h = true ∧ (copy.heads.get h).enabled = 1 ∧
      (copy.heads.get h).g0 ≤ c ∧ c < (copy.heads.get h).g0 + (copy.heads.get h).n := by
  simp only [Slot.delivered, List.any_eq_true, HeadEntry.feeds, Bool.and_eq_true, beq_iff_eq, decide_eq_true_eq,
    and_assoc]
  exact exists_congr fun h => and_iff_right (by fin_cases h <;> simp)

theorem inBand_iff (e : LaneEntry) (c : Nat) :
    e.inBand c = true ↔ c - e.first < e.guard ∨ e.last - c < e.guard := by
  simp [LaneEntry.inBand]

theorem workCell_value (ln : Line) (c : Nat) (r : CellRec) (x : Nat) : (ln.workCell c r x).2.x = x := by
  unfold Line.workCell
  dsimp only
  split <;> rfl

theorem workCell_margin (h : ln.copy.laneOf c = none) (r : CellRec) (x : Nat) :
    ln.workCell c r x = (r, ⟨.margin, 0, 0, false, 0, x, false⟩) := by
  simp [Line.workCell, Line.classOf, h]

theorem workCell_absent (h : ln.copy.laneOf c = some l) (hd : ln.slot.delivered ln.copy c = false) (r : CellRec)
    (x : Nat) : ln.workCell c r x = (r, ⟨.absent, l, 0, false, 0, x, false⟩) := by
  simp [Line.workCell, Line.classOf, h, hd]

/-- The profile of a delivered cell of a lane (R73). -/
def Line.profileAt (ln : Line) (l c : Nat) : Nat :=
  profileIndex (ln.copy.lane l).base ((ln.copy.lane l).inBand c) ln.slot.zone.hasLead ln.slot.zone.hasTrail

theorem workCell_delivered (hz : ln.slot.zone.coated = true) (h : ln.copy.laneOf c = some l)
    (hd : ln.slot.delivered ln.copy c = true) (r : CellRec) (x : Nat) :
    ln.workCell c r x = (r.worked (ln.copy.profile (ln.profileAt l c)) x,
      { cls := if (ln.copy.lane l).inBand c then .edge else .inner
        lane := l, profile := ln.profileAt l c, judged := r.seeded && r.warm == 0
        d := if r.seeded then deviation r.b16 x else 0, x := x
        pin := (r.seeded && r.warm == 0) && (ln.copy.profile (ln.profileAt l c)).pinEnable == 1 &&
          frozenBy (ln.copy.profile (ln.profileAt l c)) (if r.seeded then deviation r.b16 x else 0) x }) := by
  have hinner : (CellClass.inner == CellClass.edge) = false := rfl
  cases hb : (ln.copy.lane l).inBand c <;> simp [Line.workCell, Line.classOf, Line.profileAt, h, hd, hz, hb, hinner]

/-- Settles O22: the cell's class gives what stages 1 and 2 do with its record, and the later stages leave it so. -/
theorem publishedCells : Obligations.PublishedCells := by
  intro i ln s c h hcoated hshape hcells _ _ _
  obtain ⟨hnone, hsome⟩ := laneOf_spec ln.copy hshape.1 c
  have hget : s.eng.work.cells[c]? = some s.eng.work.cells[c] := List.getElem?_eq_getElem hcells
  generalize s.eng.work.cells[c] = old at hget
  obtain ⟨t, ht, -, hpub, -⟩ := linePublish_runs h
  obtain ⟨m, hm⟩ := runStages_cell (ln := ln) hget
  have hstage := workCells_getElem ln _ 0 ln.slot.cells c old hget
  rw [Nat.zero_add] at hstage
  generalize ln.slot.cells.getD c 0 = x at hstage hm
  refine ⟨t, old, _, (ln.workCell c old x).1, (ln.workCell c old x).2, x, ln.slot.delivered ln.copy c, ht, hget,
    (by rw [hpub]; exact hm), rfl, hstage, workCell_value _ _ _ _, rfl, delivered_iff _ _ _, fun hout => ?_,
    fun l hl hen hfirst hlast hlow => ?_⟩
  · have hlane : ln.copy.laneOf c = none := hnone.mpr fun l hl => (LaneEntry.holds_not _ _).mpr (hout l hl)
    rw [workCell_margin hlane]
    exact ⟨rfl, rfl, rfl, rfl⟩
  · have hlane : ln.copy.laneOf c = some l := (hsome l).mpr
      ⟨hl, (LaneEntry.holds_iff _ _).mpr ⟨hen, hfirst, hlast⟩, fun k hk => (LaneEntry.holds_not _ _).mpr (hlow k hk)⟩
    cases hd : ln.slot.delivered ln.copy c with
    | false =>
      rw [workCell_absent hlane hd]
      exact ⟨rfl, fun _ => ⟨rfl, rfl, rfl, rfl⟩, nofun⟩
    | true =>
      rw [workCell_delivered hcoated hlane hd]
      refine ⟨rfl, nofun, fun _ => ⟨(ln.copy.lane l).inBand c, _, inBand_iff _ _, rfl, rfl, rfl, ?_,
        fun hseeded => ?_, ?_, fun hseeded => worked_seeds hseeded _ _, fun hseeded hwarm => ?_, fun hjudged => ?_⟩⟩
      · simp
      · exact if_pos hseeded
      · simp [frozenBy_iff, and_assoc]
      · rw [worked_warms hseeded hwarm]
        exact ⟨adapt_eq _ _ _, rfl⟩
      · obtain ⟨hseeded, hwarm⟩ : old.seeded = true ∧ old.warm = 0 := by simpa using hjudged
        rw [worked_judges hseeded hwarm, if_pos hseeded]
        exact ⟨judgedBaseline_eq _ _ _ _, by rw [moveCounter_eq], rfl⟩

end Sys2Proof.Machine
end

section
/-! SUPPORT. Adaptation (R89, R90, O30): one step stands still, rises or falls by the distance to sixteen times the cell
value, and under a steady value the baseline settles. -/

namespace Sys2Proof.Machine

/-! ### One step of adaptation (R89) -/

/-- A baseline less than 2^k sixteenths under sixteen times the value stands still. -/
theorem adapt_stands {b x k : Nat} (hle : b ≤ 16 * x) (hlt : 16 * x < b + 2 ^ k) : adapt b x k = b := by
  have hpow : ((2 ^ k : Nat) : Int) = 2 ^ k := by push_cast; rfl
  have hzero : (16 * (x : Int) - b) / 2 ^ k = 0 := Int.ediv_eq_zero_of_lt (by omega) (by omega)
  have h := adapt_eq b x k
  omega

/-- A baseline further under sixteen times the value rises. -/
theorem lt_adapt {b x k : Nat} (h : b + 2 ^ k ≤ 16 * x) : b < adapt b x k := by
  have hpow : ((2 ^ k : Nat) : Int) = 2 ^ k := by push_cast; rfl
  have hone : 1 ≤ (16 * (x : Int) - b) / 2 ^ k := by
    rw [Int.le_ediv_iff_mul_le (by positivity)]
    omega
  have h := adapt_eq b x k
  omega

/-- A baseline above sixteen times the value falls. -/
theorem adapt_lt {b x k : Nat} (h : 16 * x < b) : adapt b x k < b := by
  have hneg : (16 * (x : Int) - b) / 2 ^ k < 0 := Int.ediv_neg_of_neg_of_pos (by omega) (by positivity)
  have h := adapt_eq b x k
  omega

/-! ### A steady value (R90) -/

/-- From above the baseline is at sixteen times the value after as many steps as it lay above it. -/
theorem adapt_settles_above (x k n : Nat) : ∀ b, 16 * x ≤ b → b ≤ 16 * x + n →
    ∀ m, n ≤ m → (fun y => adapt y x k)^[m] b = 16 * x := by
  have hfix : adapt (16 * x) x k = 16 * x := adapt_stands le_rfl (Nat.lt_add_of_pos_right (Nat.two_pow_pos k))
  induction n with
  | zero =>
    intro b hlo hhi m _
    obtain rfl : b = 16 * x := by omega
    exact Function.iterate_fixed hfix m
  | succ n ih =>
    intro b hlo hhi m hm
    obtain ⟨m, rfl⟩ : ∃ j, m = j + 1 := ⟨m - 1, by omega⟩
    rw [Function.iterate_succ_apply]
    obtain ⟨hmin, -⟩ := adapt_bounds b x k
    have hfall : b = 16 * x ∨ adapt b x k < b := (Nat.eq_or_lt_of_le hlo).imp Eq.symm adapt_lt
    refine ih _ (by omega) ?_ m (by omega)
    rcases hfall with rfl | hfall
    · rw [hfix]; omega
    · omega

/-- From below the baseline comes to stand within 2^k − 1 sixteenths under, after at most as many steps as it lay
below. -/
theorem adapt_settles_below (x k n : Nat) : ∀ b, b ≤ 16 * x → 16 * x ≤ b + n →
    ∃ c, (∀ m, n ≤ m → (fun y => adapt y x k)^[m] b = c) ∧ c ≤ 16 * x ∧ 16 * x < c + 2 ^ k := by
  have hpos := Nat.two_pow_pos k
  have hstands : ∀ b, b ≤ 16 * x → 16 * x < b + 2 ^ k → ∀ m, (fun y => adapt y x k)^[m] b = b :=
    fun b hle hlt => Function.iterate_fixed (adapt_stands hle hlt)
  induction n with
  | zero => exact fun b hle hge => ⟨b, fun m _ => hstands b hle (by omega) m, hle, by omega⟩
  | succ n ih =>
    intro b hle hge
    by_cases hnear : 16 * x < b + 2 ^ k
    · exact ⟨b, fun m _ => hstands b hle hnear m, hle, hnear⟩
    · have hrise : b < adapt b x k := lt_adapt (by omega)
      obtain ⟨-, hmax⟩ := adapt_bounds b x k
      obtain ⟨c, hc, hrange⟩ := ih (adapt b x k) (by omega) (by omega)
      refine ⟨c, fun m hm => ?_, hrange⟩
      obtain ⟨m, rfl⟩ : ∃ j, m = j + 1 := ⟨m - 1, by omega⟩
      rw [Function.iterate_succ_apply]
      exact hc m (by omega)

/-- Settles O30: the floor quotient and its bounds, then an induction on the distance to sixteen times the value. -/
theorem adaptationSettles : Obligations.AdaptationSettles := by
  intro b x k
  obtain ⟨hmin, hmax⟩ := adapt_bounds b x k
  refine ⟨adapt_eq b x k, hmin, hmax, fun hge => ?_, fun hle => ?_⟩
  · exact ⟨b - 16 * x, adapt_settles_above x k _ b hge (by omega)⟩
  · exact ⟨16 * x - b, adapt_settles_below x k _ b hle (by omega)⟩

end Sys2Proof.Machine
end

section
/-! SUPPORT. The published tables as the reading commands answer them (R97, R114, R135, R178, O48): where an entry
stands in a table's bytes, the fields of each entry, and what the three commands come to. -/

namespace Sys2Proof.Machine

/-! ### The entries of a table (R178) -/

/-- The entry in slot `j` of a table stands behind those of the occupied slots before it. -/
theorem tableBytes_at {α : Type} (g : Nat → α → List Byte) (n : Nat) (hg : ∀ i x, (g i x).length = n)
    (t : List (Option α)) : ∀ i j x, t[j]? = some (some x) →
      ((tableBytes g i t).drop (n * (t.take j).countP Option.isSome)).take n = g (i + j) x := by
  induction t with
  | nil => simp
  | cons o t ih =>
    intro i j x hx
    cases j with
    | zero =>
      obtain rfl : o = some x := by simpa using hx
      simpa [tableBytes] using List.take_left' (hg i x)
    | succ j =>
      have hrest := ih (i + 1) j x (by simpa using hx)
      rw [show i + 1 + j = i + (j + 1) by omega] at hrest
      cases o with
      | none => simpa [tableBytes] using hrest
      | some y =>
        have hbehind : n * ((some y :: t).take (j + 1)).countP Option.isSome =
            (g i y).length + n * (t.take j).countP Option.isSome := by
          simp [hg, Nat.mul_add, Nat.add_comm]
        rw [hbehind, tableBytes, List.drop_length_add_append]
        exact hrest

theorem candBytes_length (i : Nat) (k : Candidate) : (candBytes i k).length = 30 := by
  simp [candBytes, bitsByte_length]

theorem streakBytes_length (i : Nat) (st : Streak) : (streakBytes i st).length = 35 := by
  simp [streakBytes, boolByte]

theorem boolByte_eq (b : Bool) : boolByte b = [if b then 1 else 0] := by cases b <;> rfl

theorem lastLineBytes_eq (o : Option (BitVec 16 × Nat)) : lastLineBytes o = match o with
    | none => [0, 0, 0, 0, 0, 0, 0]
    | some x => [1] ++ be 2 x.1.toNat ++ be 4 x.2 := by cases o <;> rfl

/-- A cell record with its fields in their order (R97, R178). -/
theorem cellBytes_eq (c : Nat) (r : CellRec) : cellBytes c r = be 2 c ++ be 1 (if r.seeded then 1 else 0) ++
    be 2 r.b16 ++ be 2 (r.s % 65536).toNat ++ be 1 r.warm ++
    be 1 (match r.member with | none => 255 | some k => k) := by
  cases hm : r.member <;> simp [cellBytes, boolByte, signedWord, hm]

/-- A candidate with its fields in their order, the five flags as bits of one byte (R114, R178). -/
theorem candBytes_eq (j : Nat) (k : Candidate) : candBytes j k =
    be 1 j ++ be 1 k.lane ++ be 4 k.patch ++ be 4 k.firstW ++ be 4 k.lastW ++ be 1 k.lines ++ be 2 k.hullL ++
      be 2 k.hullR ++ be 2 k.extL ++ be 2 k.extR ++ be 2 k.area ++ be 2 k.peak ++ be 1 k.profile ++
      be 1 (match k.target with | none => 0 | some .mk0 => 1 | some .mk1 => 2) ++
      be 1 ((if k.sat then 1 else 0) + (if k.edge then 2 else 0) + (if k.lead then 4 else 0) +
        (if k.trail then 8 else 0) + (if k.held then 16 else 0)) := by
  have htarget : targetNum k.target = match k.target with | none => 0 | some .mk0 => 1 | some .mk1 => 2 := by
    rcases k.target with _ | _ | _ <;> rfl
  have hflags : ∀ a b c d e : Bool, bitsByte [a, b, c, d, e] = be 1 ((if a then 1 else 0) + (if b then 2 else 0) +
      (if c then 4 else 0) + (if d then 8 else 0) + (if e then 16 else 0)) := by decide
  rw [candBytes, htarget, hflags]

/-- A streak with its fields in their order (R135, R178). -/
theorem streakBytes_eq (j : Nat) (st : Streak) : streakBytes j st =
    be 1 j ++ be 4 st.openSeq ++ be 1 (match st.pol with | .light => 0 | .dark => 1) ++ be 1 st.lane ++
      be 1 st.profile ++ be 2 st.extL ++ be 2 st.extR ++ be 4 st.openW ++ be 4 st.openPatch ++ be 4 st.curPatch ++
      be 2 st.lines ++ be 2 st.patches ++ be 2 st.peak ++ be 2 st.wideL ++ be 2 st.wideR ++
      be 1 (if st.held then 1 else 0) := by
  cases h : st.pol <;> simp [streakBytes, h, Polarity.num, boolByte]

/-! ### The three commands -/

/-- A cell range out of 1..64 or past cell 2047 is refused (R97). -/
theorem readCells_refused {p : PortNo} {s : State} (h : s.ready p) (tag : Byte) {first : BitVec 16} {count : Byte}
    (hbad : count.toNat = 0 ∨ 64 < count.toNat ∨ 2048 < first.toNat + count.toNat) :
    exec (.readCells p tag first count) s = .next (s.answering p 0x40 tag 8 []) := by
  have hrun : cmdReadCells first count s = (s, .plain .range) := if_pos (by omega)
  refine congrArg Host.Outcome.next ((submit_ready h .readCells tag _ (cmdReadCells first count)).trans ?_)
  rw [hrun]; rfl

/-- A cell range in its bounds is answered from the published file (R79, R97). -/
theorem readCells_answers {p : PortNo} {s : State} (h : s.ready p) (tag : Byte) {first : BitVec 16} {count : Byte}
    (hlo : 1 ≤ count.toNat) (hhi : count.toNat ≤ 64) (hend : first.toNat + count.toNat ≤ 2048) :
    exec (.readCells p tag first count) s = .next (s.answering p 0x40 tag 0 (lastLineBytes s.eng.lastLine ++
      cellsBytes first.toNat ((s.eng.pub.cells.drop first.toNat).take count.toNat))) := by
  have hrun : cmdReadCells first count s = (s, .ok (lastLineBytes s.eng.lastLine ++
      cellsBytes first.toNat ((s.eng.pub.cells.drop first.toNat).take count.toNat))) := if_neg (by omega)
  refine congrArg Host.Outcome.next ((submit_ready h .readCells tag _ (cmdReadCells first count)).trans ?_)
  rw [hrun]; rfl

theorem readCandidates_answers {p : PortNo} {s : State} (h : s.ready p) (tag : Byte) :
    exec (.readCandidates p tag) s = .next (s.answering p 0x41 tag 0 (lastLineBytes s.eng.lastLine ++
      boolByte s.eng.pub.candLatch ++ be 1 (occupied s.eng.pub.cands) ++ tableBytes candBytes 0 s.eng.pub.cands)) :=
  congrArg Host.Outcome.next (submit_ready h .readCandidates tag _ cmdReadCandidates)

theorem readStreaks_answers {p : PortNo} {s : State} (h : s.ready p) (tag : Byte) :
    exec (.readStreaks p tag) s = .next (s.answering p 0x42 tag 0 (lastLineBytes s.eng.lastLine ++
      boolByte s.eng.pub.streakLatch ++ be 1 (occupied s.eng.pub.streaks) ++
      tableBytes streakBytes 0 s.eng.pub.streaks)) :=
  congrArg Host.Outcome.next (submit_ready h .readStreaks tag _ cmdReadStreaks)

/-- Settles O48: each table's bytes are its entries in order, each entry of one length. -/
theorem tablesReadPublished : Obligations.TablesReadPublished := by
  intro p tag count first s h
  refine ⟨lastLineBytes s.eng.lastLine, lastLineBytes_eq _, lastLineBytes_length _, readCells_refused h tag,
    fun hlo hhi hend hsize => ⟨_, readCells_answers h tag hlo hhi hend, ?_, fun i r hi hr => ?_⟩,
    ⟨tableBytes candBytes 0 s.eng.pub.cands, ?_, tableBytes_length _ 30 candBytes_length _ 0, fun j k hk => ?_⟩,
    tableBytes streakBytes 0 s.eng.pub.streaks, ?_, tableBytes_length _ 35 streakBytes_length _ 0, fun j st hst => ?_⟩
  · rw [cellsBytes_length, List.length_take, List.length_drop, hsize]
    omega
  · rw [cellsBytes_at _ _ i r (by rw [List.getElem?_take_of_lt hi, List.getElem?_drop, hr])]
    exact cellBytes_eq _ r
  · rw [readCandidates_answers h, boolByte_eq]; rfl
  · rw [tableBytes_at _ 30 candBytes_length _ 0 j k hk, Nat.zero_add]
    exact candBytes_eq j k
  · rw [readStreaks_answers h, boolByte_eq]; rfl
  · rw [tableBytes_at _ 35 streakBytes_length _ 0 j st hst, Nat.zero_add]
    exact streakBytes_eq j st

end Sys2Proof.Machine
end

section
/-! SUPPORT. The tables and the cell values (R52, R81, R89, R91, R100, R118), whose sizes and ranges every step keeps
(O58): packets and a power-on reset alone write cell values into a slot, and the engine's work, an ARM, a publication
and a power-on reset alone change the tables. -/

namespace Sys2Proof.Machine

/-- The condition of the tables and cell values is kept from `s` to `t`. -/
def KeepsCells (s t : State) : Prop := s.cellsOk → t.cellsOk

theorem KeepsCells.trans {s t u : State} (h : KeepsCells s t) (k : KeepsCells t u) : KeepsCells s u :=
  fun hs => k (h hs)

/-! ### Steps that leave the tables and the cell values -/

/-- The cell values of each slot. -/
def State.slotCells (s : State) : Fin 4 → List Nat := fun i => (s.asm.slots.get i).cells

theorem slotCells_of_asm {s t : State} (h : t.asm = s.asm) : t.slotCells = s.slotCells := by
  unfold State.slotCells; rw [h]

/-- `t` has the tables and the cell values of `s`. -/
structure SameCells (s t : State) : Prop where
  work : t.eng.work = s.eng.work
  pub : t.eng.pub = s.eng.pub
  slots : t.slotCells = s.slotCells

theorem SameCells.of_parts {s t : State} (heng : t.eng = s.eng) (hasm : t.asm = s.asm) : SameCells s t :=
  ⟨by rw [heng], by rw [heng], slotCells_of_asm hasm⟩

theorem SameCells.same (s : State) : SameCells s s := .of_parts rfl rfl

/-- Work that starts from a machine with the same engine and assembler. -/
theorem SameCells.behind {s u t : State} (k : SameCells u t) (heng : u.eng = s.eng) (hasm : u.asm = s.asm) :
    SameCells s t :=
  have h := SameCells.of_parts heng hasm
  ⟨k.work.trans h.work, k.pub.trans h.pub, k.slots.trans h.slots⟩

theorem SameCells.keeps {s t : State} (h : SameCells s t) : KeepsCells s t := by
  rintro ⟨hwork, hpub, hsize, hcells, hpcells, hvalues⟩
  have hget : ∀ i, (t.asm.slots.get i).cells = (s.asm.slots.get i).cells := congrFun h.slots
  refine ⟨?_, ?_, fun i => ?_, ?_, ?_, fun i => ?_⟩
  · rw [h.work]; exact hwork
  · rw [h.pub]; exact hpub
  · rw [hget]; exact hsize i
  · rw [h.work]; exact hcells
  · rw [h.pub]; exact hpcells
  · rw [hget]; exact hvalues i

theorem WebWork.sameCells {s t : State} (h : WebWork s t) (hslots : t.slotCells = s.slotCells) : SameCells s t :=
  ⟨by rw [h.eng], by rw [h.eng], hslots⟩

/-! ### The cell values of the slots at swaps, triggers, stops and counts (R8, R60, R64, R168) -/

theorem slotCells_of_map {s t : State} {f : Slot → Slot} (hf : ∀ x, (f x).cells = x.cells)
    (h : t.asm.slots = s.asm.slots.map f) : t.slotCells = s.slotCells := by
  funext i
  show (t.asm.slots.get i).cells = _
  rw [h, Quad.get_map, hf]; rfl

theorem slotCells_of_set {s t : State} {i : Fin 4} {x : Slot} (hx : x.cells = s.slotCells i)
    (h : t.asm.slots = s.asm.slots.set i x) : t.slotCells = s.slotCells := by
  funext j
  show (t.asm.slots.get j).cells = _
  rw [h, Quad.get_set]
  split
  · rename_i hj; rw [hj, hx]
  · rfl

theorem retired_cells (x : Slot) : (if x.copy = .active then { x with copy := .retiring } else x).cells = x.cells := by
  split <;> rfl

theorem forced_cells (n : BitVec 16) (x : Slot) : (if x.stale n then x.forcedReady else x).cells = x.cells := by
  split <;> rfl

theorem stopped_cells (x : Slot) : x.stopped.cells = x.cells := by
  unfold Slot.stopped; split <;> rfl

@[simp] theorem takeSwap_slotCells (s : State) : (takeSwap s).slotCells = s.slotCells := by
  cases hp : s.rcp.pending with
  | none => simp [takeSwap, hp]
  | some c => exact slotCells_of_map retired_cells (by rw [takeSwap_some hp]; rfl)

@[simp] theorem swapPoint_slotCells (s : State) : (swapPoint s).slotCells = s.slotCells := by
  unfold swapPoint
  split
  · exact takeSwap_slotCells s
  · rfl

theorem swapPoint_same (s : State) : SameCells s (swapPoint s) :=
  (swapPoint_web s).sameCells (swapPoint_slotCells s)

@[simp] theorem forceSlots_slotCells (s : State) : (forceSlots s).slotCells = s.slotCells :=
  slotCells_of_map (forced_cells s.trig.n) rfl

/-- A line opens on the cell values that its slot held (R52). -/
@[simp] theorem openLine_slotCells (i : Fin 4) (s : State) : (openLine i s).slotCells = s.slotCells :=
  slotCells_of_set (x := s.lineSlot i) (by rw [lineSlot_eq]; rfl) (by rw [openLine_eq])

@[simp] theorem takeTrigger_slotCells (s : State) : (takeTrigger s).slotCells = s.slotCells := by
  have hswap : (if s.triggerSwaps then takeSwap s else s).slotCells = s.slotCells := by
    split
    · exact takeSwap_slotCells s
    · rfl
  refine Eq.trans ?_ hswap
  unfold takeTrigger
  dsimp only
  generalize (if s.triggerSwaps then takeSwap s else s) = u
  refine Eq.trans ?_ (forceSlots_slotCells u)
  cases (forceSlots u).freeSlotNo with
  | some i => exact openLine_slotCells i _
  | none => rfl

@[simp] theorem triggerWork_slotCells (s : State) : (triggerWork s).slotCells = s.slotCells := by
  unfold triggerWork
  split
  · exact takeTrigger_slotCells s
  · rfl

@[simp] theorem beginStop_slotCells (n : Nat) (s : State) : (beginStop n s).slotCells = s.slotCells := by
  obtain ⟨-, hasm, -⟩ := beginStop_control n s
  exact slotCells_of_map stopped_cells (by rw [hasm])

@[simp] theorem positionLimit_slotCells (s : State) : (positionLimit s).slotCells = s.slotCells := by
  unfold positionLimit
  split
  · exact beginStop_slotCells _ _
  · rfl

@[simp] theorem freePlace_slotCells (p : State × Bool) : (freePlace p).1.slotCells = p.1.slotCells := by
  unfold freePlace
  extract_lets u
  have htrigger : u.slotCells = p.1.slotCells := by
    rcases nowOrLater_cases p.1.triggerDue (p.1.trackerDue || p.2) triggerWork p.1 with ⟨n, h⟩ | ⟨-, n, h⟩
    · exact slotCells_of_asm (by rw [show u = _ from h])
    · rw [show u = _ from h]
      exact triggerWork_slotCells _
  clear_value u
  refine Eq.trans ?_ htrigger
  split
  · unfold drawChoice
    cases Config.orderChoice u.freeCount
    · rfl
    · exact positionLimit_slotCells _
  · split
    · exact positionLimit_slotCells u
    · rfl

theorem TrackerWork.slotCells {s t : State} (h : TrackerWork s t) : t.slotCells = s.slotCells := by
  unfold TrackerWork at h
  exact slotCells_of_asm (by rw [h])

@[simp] theorem coatToGapWork_slotCells (s : State) : (coatToGapWork s).slotCells = s.slotCells := by
  unfold coatToGapWork
  split
  · exact swapPoint_slotCells s
  · rfl

@[simp] theorem countWork_slotCells (limit : Bool) (s : State) : (countWork limit s).slotCells = s.slotCells := by
  have hmiss : ∀ u, (missWork u).slotCells = u.slotCells := fun u => (missMarks_tracker _ u).slotCells
  have hpop : ∀ u, (popWork u).slotCells = u.slotCells := fun u => (popWork_tracker u).slotCells
  unfold countWork
  dsimp only
  rw [triggerWork_slotCells]
  split <;> simp [hmiss, hpop]

theorem forwardCount_same (s : State) : SameCells s (forwardCount s) := by
  unfold forwardCount
  dsimp only
  split
  · exact .of_parts rfl rfl
  · split
    · exact ((countWork_web _ _).sameCells (countWork_slotCells _ _)).behind rfl rfl
    · exact .of_parts rfl rfl

theorem backwardCount_same (s : State) : SameCells s (backwardCount s) := by
  unfold backwardCount
  dsimp only
  split
  · exact .of_parts rfl rfl
  · split <;> exact .of_parts rfl rfl

theorem encoderTransition_same (a b : Bool) {s t : State} (h : exec (.encoderTransition a b) s = .next t) :
    SameCells s t := by
  cases h
  split
  · exact .same s
  · split
    · exact (forwardCount_same _).behind rfl rfl
    · split
      · exact (backwardCount_same _).behind rfl rfl
      · exact .of_parts rfl rfl

/-! ### The station commands -/

/-- ARM empties both tables in their sizes and leaves the cell records (R95, R170). -/
theorem armed_keepsCells (s : State) : KeepsCells s { s with eng := s.eng.armed } := by
  rintro ⟨⟨hsize, hstreaks, hcands⟩, hrest⟩
  exact ⟨⟨hsize, by simpa [Engine.armed] using hstreaks, by simpa [Engine.armed] using hcands⟩, hrest⟩

theorem armRun_keepsCells (p : PortNo) (s : State) : KeepsCells s (armRun p s) := by
  unfold armRun
  extract_lets rcp s1 trig s2 s3
  have h3 : SameCells s2 s3 := (takeTrigger_web s2).sameCells (takeTrigger_slotCells s2)
  refine KeepsCells.trans (t := s3) (KeepsCells.trans (t := s2) (armed_keepsCells s) h3.keeps) ?_
  split
  · exact ((positionLimit_web s3).sameCells (positionLimit_slotCells s3)).keeps
  · exact id

theorem restartSilence_eng (p : PortNo) (s : State) : (restartSilence p s).eng = s.eng := by
  unfold restartSilence; split <;> rfl

/-- ARM, DISARM, COMMIT and RESYNC_HEAD apart, no station command reaches the engine. -/
theorem runCommand_eng {c : Command} (hc : c ∉ [.arm, .disarm, .commit, .resyncHead]) (p : PortNo)
    (payload : List Byte) (s : State) : (runCommand p c payload s).1.eng = s.eng := by
  have hs := restartSilence_eng p s
  cases c <;> simp only [runCommand]
  case arm | disarm | commit | resyncHead => simp at hc
  case ident | status | readCandidates | readStreaks => rfl
  case forceMark =>
    unfold cmdForceMark
    split
    · rfl
    · dsimp only; rw [enterAction_frame]
  case claimEdit =>
    unfold cmdClaimEdit
    split
    · rfl
    · split
      · exact hs
      · rfl
  case stageWrite | stageRead | cancelPending =>
    simp only [cmdStageWrite, cmdStageRead, cmdCancelPending]
    repeat' split
    all_goals exact hs
  case ackAttn | endService | resetPosition | releaseEdit | activeRead | fetch | seek | subscribe | readCells =>
    simp only [cmdAckAttn, cmdEndService, cmdResetPosition, cmdReleaseEdit, cmdActiveRead, cmdFetch, cmdSeek,
      cmdSubscribe, cmdReadCells]
    split <;> rfl

theorem headLost_slotCells (h : HeadNo) (c : LostCause) (s : State) : (headLost h c s).slotCells = s.slotCells :=
  slotCells_of_map (fun x => withoutHead_cells x h) rfl

theorem resyncLink_same (h : HeadNo) (s : State) : SameCells s (resyncLink h s) := by
  refine ⟨(resyncLink_work h s).work, (resyncLink_work h s).pub, ?_⟩
  unfold resyncLink
  dsimp only
  split
  · rfl
  · rfl
  · exact headLost_slotCells _ _ _

theorem runCommand_keepsCells (p : PortNo) (c : Command) (payload : List Byte) (s : State) :
    KeepsCells s (runCommand p c payload s).1 := by
  have heng := restartSilence_eng p s
  have hasm := restartSilence_asm p s
  have hs : KeepsCells s (restartSilence p s) := (SameCells.of_parts heng hasm).keeps
  cases c
  case arm =>
    simp only [runCommand, cmdArm]
    split
    · exact id
    · split
      · exact id
      · exact armRun_keepsCells p s
  case disarm =>
    simp only [runCommand, cmdDisarm]
    split
    · exact ((beginStop_web _ s).sameCells (beginStop_slotCells _ s)).keeps
    · exact id
  case commit =>
    simp only [runCommand, cmdCommit]
    split
    · exact hs
    · split
      · exact hs
      · split
        · exact hs
        · split
          · refine SameCells.keeps (SameCells.behind (swapPoint_same _) ?_ ?_)
            exacts [heng, hasm]
          · exact hs
  case resyncHead =>
    simp only [runCommand, cmdResyncHead]
    split
    · exact id
    · exact (resyncLink_same _ s).keeps
  all_goals
    exact (SameCells.of_parts (runCommand_eng (by decide) p payload s) (runCommand_asm (by decide) p payload s)).keeps

theorem keepsCells_stationRel : StationRel KeepsCells where
  same _ := id
  trans _ _ _ := KeepsCells.trans
  port _ _ _ _ := id
  command s p c payload := runCommand_keepsCells p c payload s

/-! ### The head links (R50, R56) -/

theorem firstAt_none {α : Type} {bad : α → Bool} {xs : List α} : ∀ {i : Nat}, firstAt bad i xs = none →
    ∀ x ∈ xs, bad x = false := by
  induction xs with
  | nil => simp
  | cons x xs ih =>
    intro i h
    cases hb : bad x with
    | true => simp [firstAt, hb] at h
    | false => exact List.forall_mem_cons.mpr ⟨hb, ih (by simpa [firstAt, hb] using h)⟩

theorem headEntry_fits {e : HeadEntry} (h : e.inRange = true) : e.g0 + e.n ≤ 2048 := by
  simp only [HeadEntry.inRange, within, Bool.and_eq_true, decide_eq_true_eq] at h
  omega

/-- A copy that passes its checks has its stitch entries within the 2048 cells (R50, R165). -/
theorem valid_headsFit {r : Recipe} (h : r.valid = true) (k : HeadNo) :
    (r.heads.get k).g0 + (r.heads.get k).n ≤ 2048 := by
  have hnone : r.fails .headsRange = none := by
    have hall : ∀ d ∈ allDetails, r.fails d = none := by
      simpa [Recipe.valid, Recipe.firstFault, List.findSome?_eq_none_iff] using h
    exact hall _ (by decide)
  have hrange := firstAt_none hnone (r.heads.get k) ((Quad.mem_toList _ _).mpr ⟨k, rfl⟩)
  exact headEntry_fits (by simpa using hrange)

/-- Every copy a slot can refer to passes its checks, so its stitch entries fit. -/
theorem recipesOk_headsFit {s : State} (h : s.recipesOk) : s.headsFit := by
  obtain ⟨⟨-, hactive⟩, -, hretiring, -⟩ := h
  intro c k
  cases c with
  | none | active => exact valid_headsFit hactive k
  | retiring =>
    cases hr : s.rcp.retiring with
    | none => simpa [State.copyOf, hr] using valid_headsFit hactive k
    | some r => simpa [State.copyOf, hr] using valid_headsFit (hretiring r hr).2 k

/-- Events at a link keep the condition while the stitch entries fit: packets write 12-bit values within the cells. -/
theorem LinkWork.keepsCells {h : HeadNo} {s t : State} (k : LinkWork h s t) (hfit : s.headsFit) : KeepsCells s t := by
  rintro ⟨hwork, hpub, hsize, hcells, hpcells, hvalues⟩
  refine ⟨?_, ?_, k.sizes hfit hsize, ?_, ?_, fun i => (k.slots i).cells (hvalues i)⟩
  · rw [k.work]; exact hwork
  · rw [k.pub]; exact hpub
  · rw [k.work]; exact hcells
  · rw [k.pub]; exact hpcells

theorem carrierLost_keepsCells (h : HeadNo) (bytes : List Byte) {s t : State} (hfit : s.headsFit)
    (ht : exec (.carrierLost h bytes) s = .next t) : KeepsCells s t := by
  have hb := (headBytes_work h bytes s).keepsCells hfit
  cases ht
  dsimp only
  split
  · exact hb
  · exact hb
  · refine hb.trans (SameCells.keeps ⟨(headLost_work _ _ _).work, (headLost_work _ _ _).pub, ?_⟩)
    exact headLost_slotCells _ _ _

/-! ### The engine's steps -/

/-- The engine's work keeps its tables in their sizes and the records in their ranges. -/
theorem EngineWork.keepsCells {s t : State} (h : EngineWork s t) : KeepsCells s t := by
  rintro ⟨⟨hsize, hstreaks, hcands⟩, hpub, hslots, hcells, hpcells, hvalues⟩
  refine ⟨⟨h.size.trans hsize, h.streaks.trans hstreaks, h.cands.trans hcands⟩, ?_, ?_, h.cells hcells, ?_, ?_⟩
  · rw [h.pub]; exact hpub
  · rw [h.asm]; exact hslots
  · rw [h.pub]; exact hpcells
  · rw [h.asm]; exact hvalues

/-- Stages 1 and 2 on the line in a slot keep the records in their ranges, as the slot's values are 12 bits wide. -/
theorem workedFrom_keepsCells (i : Fin 4) (s : State) (φ : LineProgress) :
    KeepsCells s (workedFrom (s.lineOf i) (s.atProgress .begun) φ) := by
  rintro ⟨⟨hsize, hstreaks, hcands⟩, hpub, hslots, hcells, hpcells, hvalues⟩
  have hlength := workedFrom_length (s.lineOf i) (s.atProgress .begun) φ
  have hrange := workedFrom_inRange (s.lineOf i) (s.atProgress .begun) φ (hvalues i) hcells
  obtain ⟨cells, h⟩ := workedFrom_eq (s.lineOf i) (s.atProgress .begun) φ
  rw [h] at hlength hrange ⊢
  exact ⟨⟨hlength.trans hsize, hstreaks, hcands⟩, hpub, hslots, hrange, hpcells, hvalues⟩

theorem advanceLine_keepsCells (i : Fin 4) (s : State) : KeepsCells s (advanceLine i s) := by
  obtain ⟨v, hv, h⟩ := advanceLine_work i s
  rw [h]
  exact (workedFrom_keepsCells i s _).trans hv.keepsCells

/-- A publication makes the tables in work the published ones (R79). -/
theorem published_keepsCells {s t : State} (hwork : t.eng.work = s.eng.work) (hpub : t.eng.pub = s.eng.work)
    (hasm : t.asm = s.asm) : KeepsCells s t := by
  rintro ⟨hsizes, -, hslots, hcells, -, hvalues⟩
  unfold State.cellsOk
  rw [hwork, hpub, hasm]
  exact ⟨hsizes, hsizes, hslots, hcells, hcells, hvalues⟩

theorem freeSlot_same (i : Fin 4) (s : State) : SameCells s (freeSlot i s) := by
  rw [freeSlot_eq]
  exact ⟨rfl, rfl, slotCells_of_set (i := i) (x := (s.asm.slots.get i).freed) rfl rfl⟩

theorem publishLine_keepsCells (i : Fin 4) (s : State) : KeepsCells s (publishLine i s) := by
  obtain ⟨v, hv, h⟩ := publishLine_work i s
  rw [h]
  refine KeepsCells.trans ?_ (freeSlot_same i _).keeps
  exact ((workedFrom_keepsCells i s _).trans hv.keepsCells).trans (published_keepsCells rfl rfl rfl)

theorem takenFrom_same (i : Fin 4) (s : State) : SameCells s (takenFrom i s) :=
  ⟨rfl, rfl, slotCells_of_set (i := i) (x := { s.asm.slots.get i with state := .inWork }) rfl rfl⟩

theorem takeLine_keepsCells (i : Fin 4) (s : State) : KeepsCells s (takeLine i s) := by
  obtain ⟨v, hv, h⟩ := takeLine_work i s
  rw [h]
  exact (takenFrom_same i s).keeps.trans hv.keepsCells

theorem completeStop_keepsCells (s : State) : KeepsCells s (completeStop s) := by
  obtain ⟨v, hv, h⟩ := completeStop_work s
  rw [h]
  refine KeepsCells.trans ?_ (swapPoint_same _).keeps
  exact hv.keepsCells.trans (published_keepsCells rfl rfl rfl)

/-! ### Every step -/

theorem powerOnReset_cellsOk (a b : Bool) (k : Quad Bool) {s t : State}
    (h : exec (.powerOnReset a b k) s = .next t) : t.cellsOk := by
  cases h
  exact reset_cellsOk

/-- Every command keeps the condition while the stitch entries fit. The stitch entries are those before the command, so
this is no relation that chains: the steps at a station port and at a link are taken apart here. -/
theorem exec_keepsCells {c : Instr} {s t : State} (hfit : s.headsFit) (h : exec c s = .next t) : KeepsCells s t := by
  cases hp : stationPort c with
  | some p => exact keepsCells_stationRel.step hp h
  | none =>
    cases c <;> simp only [stationPort, reduceCtorEq] at hp
    case powerOnReset a b k => exact fun _ => powerOnReset_cellsOk a b k h
    case encoderTransition a b => exact (encoderTransition_same a b h).keeps
    case carrierLost k bytes => exact carrierLost_keepsCells k bytes hfit h
    case markEdge =>
      cases h
      split
      · exact ((takeEdge_web s).sameCells (takeEdge_tracker s).slotCells).keeps
      · exact id
    case headFrame | headFrameAbort =>
      cases h
      exact (headBytes_work _ _ s).keepsCells hfit
    case engineTakeLine =>
      cases h
      split
      · exact takeLine_keepsCells _ s
      · exact id
    case linePublish =>
      cases h
      split
      · exact publishLine_keepsCells _ s
      · exact id
    case stopComplete =>
      cases h
      split
      · exact completeStop_keepsCells s
      · exact id
    case carrierGained =>
      cases h
      dsimp only
      split <;> exact SameCells.keeps (.of_parts rfl rfl)
    case editExpiry =>
      cases h
      split <;> exact SameCells.keeps (.of_parts rfl rfl)

/-- Settles O58, by the kinds of steps: packets write within the cells, the engine's work keeps sizes and ranges, and
every other step leaves the tables and the cell values. -/
theorem cellsKept : Obligations.CellsKept := by
  intro s t hcells hrecipes h
  have hfit := recipesOk_headsFit hrecipes
  cases hq : s.pending with
  | nil =>
    rw [step_idle hq] at h
    cases h
    unfold idle
    split
    · exact advanceLine_keepsCells _ s hcells
    · exact hcells
  | cons c rest =>
    have hexec : exec c { s with pending := rest } = .next t := by rw [← h, step, hq]
    exact exec_keepsCells (s := { s with pending := rest }) hfit hexec hcells

end Sys2Proof.Machine
end

section
/-! SUPPORT. The runs of a line (R98, R99, R116, R117, O24): what a run gathers from its cells, and that the runs found
from left to right are the maximal stretches of one key. -/

namespace Sys2Proof.Machine

variable {κ : Type}

/-! ### What a run gathers (R99, R117) -/

/-- One of the run's cells has a property. -/
def Run.someCell (r : Run κ) (cells : List (CellRec × CellResult)) (P : CellRec × CellResult → Prop) : Prop :=
  ∃ i x, r.left ≤ i ∧ i ≤ r.right ∧ cells[i]? = some x ∧ P x

/-- The run lies within the cells, its peak and flags are those of its own cells, and its profile index is that of the
left one. -/
structure Run.Gathers (r : Run κ) (cells : List (CellRec × CellResult)) : Prop where
  ordered : r.left ≤ r.right
  inside : r.right < cells.length
  bound : ∀ i x, r.left ≤ i → i ≤ r.right → cells[i]? = some x → x.2.d.natAbs ≤ r.peak
  attained : r.someCell cells fun x => x.2.d.natAbs = r.peak
  sat_iff : r.sat = true ↔ r.someCell cells fun x => x.2.x = 4095
  edge_iff : r.edge = true ↔ r.someCell cells fun x => x.2.cls = .edge
  leftmost : ∃ x, cells[r.left]? = some x ∧ r.profile = x.2.profile

/-- What is read from a list with one element more. -/
theorem getElem?_snoc_iff {α : Type} {l : List α} {a b : α} {i : Nat} :
    (l ++ [a])[i]? = some b ↔ l[i]? = some b ∨ i = l.length ∧ a = b := by
  rcases Nat.lt_trichotomy i l.length with h | rfl | h
  · rw [List.getElem?_append_left h]
    simp [Nat.ne_of_lt h]
  · simp
  · rw [List.getElem?_eq_none (by simp; omega), List.getElem?_eq_none (by omega)]
    simp [Nat.ne_of_gt h]

section

variable {r : Run κ} {pre : List (CellRec × CellResult)} {c : CellRec × CellResult}
  {P : CellRec × CellResult → Prop}

/-- Cells to the right of a run are none of its own. -/
theorem Run.someCell_snoc (h : r.right < pre.length) : r.someCell (pre ++ [c]) P ↔ r.someCell pre P := by
  refine exists_congr fun i => exists_congr fun x => and_congr_right fun _ => and_congr_right fun hi => ?_
  rw [List.getElem?_append_left (by omega)]

/-- The one cell of a run of one cell. -/
theorem Run.someCell_single (k : κ) : (Run.single k pre.length c.2).someCell (pre ++ [c]) P ↔ P c := by
  constructor
  · rintro ⟨i, x, h1, h2, hx, hP⟩
    obtain rfl : i = pre.length := Nat.le_antisymm h2 h1
    rw [List.getElem?_concat_length] at hx
    cases hx
    exact hP
  · exact fun hP => ⟨pre.length, c, le_rfl, le_rfl, List.getElem?_concat_length, hP⟩

/-- The cells of a run that takes the next cell. -/
theorem Run.someCell_grow (hle : r.left ≤ pre.length) (h : r.right + 1 = pre.length) :
    (r.grow pre.length c.2).someCell (pre ++ [c]) P ↔ r.someCell pre P ∨ P c := by
  constructor
  · rintro ⟨i, x, h1, -, hx, hP⟩
    rcases getElem?_snoc_iff.1 hx with hx | ⟨-, rfl⟩
    · have hlt := (List.getElem?_eq_some_iff.1 hx).1
      exact .inl ⟨i, x, h1, by omega, hx, hP⟩
    · exact .inr hP
  · rintro (⟨i, x, h1, h2, hx, hP⟩ | hP)
    · refine ⟨i, x, h1, ?_, getElem?_snoc_iff.2 (.inl hx), hP⟩
      change i ≤ pre.length
      omega
    · exact ⟨pre.length, c, hle, le_rfl, List.getElem?_concat_length, hP⟩

/-- A run gathers from its own cells alone. -/
theorem Run.Gathers.snoc (h : r.Gathers pre) (c : CellRec × CellResult) : r.Gathers (pre ++ [c]) where
  ordered := h.ordered
  inside := by rw [List.length_append]; exact Nat.lt_add_right _ h.inside
  bound i x h1 h2 hx := by
    have := h.inside
    rw [List.getElem?_append_left (by omega)] at hx
    exact h.bound i x h1 h2 hx
  attained := (Run.someCell_snoc h.inside).2 h.attained
  sat_iff := h.sat_iff.trans (Run.someCell_snoc h.inside).symm
  edge_iff := h.edge_iff.trans (Run.someCell_snoc h.inside).symm
  leftmost := h.leftmost.imp fun _ hx => ⟨getElem?_snoc_iff.2 (.inl hx.1), hx.2⟩

theorem Run.gathers_single (k : κ) (pre : List (CellRec × CellResult)) (c : CellRec × CellResult) :
    (Run.single k pre.length c.2).Gathers (pre ++ [c]) where
  ordered := le_rfl
  inside := by simp [Run.single]
  bound i x h1 h2 hx := by
    obtain rfl : i = pre.length := Nat.le_antisymm h2 h1
    rw [List.getElem?_concat_length] at hx
    cases hx
    exact le_rfl
  attained := (Run.someCell_single k).2 rfl
  sat_iff := by rw [Run.someCell_single]; exact beq_iff_eq
  edge_iff := by rw [Run.someCell_single]; exact beq_iff_eq
  leftmost := ⟨c, List.getElem?_concat_length, rfl⟩

theorem Run.Gathers.grow (h : r.Gathers pre) (hr : r.right + 1 = pre.length) (c : CellRec × CellResult) :
    (r.grow pre.length c.2).Gathers (pre ++ [c]) := by
  have hle : r.left ≤ pre.length := by have := h.ordered; omega
  refine ⟨hle, by simp [Run.grow], fun i x h1 _ hx => ?_, (Run.someCell_grow hle hr).2 ?_, ?_, ?_,
    h.leftmost.imp fun _ hx => ⟨getElem?_snoc_iff.2 (.inl hx.1), hx.2⟩⟩
  · rcases getElem?_snoc_iff.1 hx with hx | ⟨-, rfl⟩
    · have hlt := (List.getElem?_eq_some_iff.1 hx).1
      exact le_max_of_le_left (h.bound i x h1 (by omega) hx)
    · exact le_max_right ..
  · rcases le_total c.2.d.natAbs r.peak with hp | hp
    · obtain ⟨i, x, h1, h2, hx, hd⟩ := h.attained
      exact .inl ⟨i, x, h1, h2, hx, hd.trans (max_eq_left hp).symm⟩
    · exact .inr (max_eq_right hp).symm
  · rw [Run.someCell_grow hle hr, ← h.sat_iff]
    simp [Run.grow]
  · rw [Run.someCell_grow hle hr, ← h.edge_iff]
    simp [Run.grow]

end

/-! ### The runs are maximal (R99, R117) -/

/-- The runs are the maximal stretches of the cells with one key, in order. -/
structure RunsOf (key : CellRec → CellResult → Option κ) (cells : List (CellRec × CellResult))
    (rs : List (Run κ)) : Prop where
  covers : ∀ i x, cells[i]? = some x → ∀ k, key x.1 x.2 = some k ↔ ∃ r ∈ rs, r.key = k ∧ r.left ≤ i ∧ i ≤ r.right
  gathers : ∀ r ∈ rs, r.Gathers cells
  apart : rs.Pairwise fun r q => r.right < q.left ∧ (r.key = q.key → r.right + 1 < q.left)

section

variable {key : CellRec → CellResult → Option κ} {pre : List (CellRec × CellResult)} {c : CellRec × CellResult}
  {rs : List (Run κ)}

/-- A cell without a key adds nothing. -/
theorem RunsOf.skip (h : RunsOf key pre rs) (hc : key c.1 c.2 = none) : RunsOf key (pre ++ [c]) rs := by
  refine ⟨fun i x hx k => ?_, fun r hr => (h.gathers r hr).snoc c, h.apart⟩
  rcases getElem?_snoc_iff.1 hx with hx | ⟨rfl, rfl⟩
  · exact h.covers i x hx k
  · rw [hc]
    refine ⟨by simp, fun ⟨r, hr, _, _, hi⟩ => ?_⟩
    have := (h.gathers r hr).inside
    omega

/-- A cell whose key is not that of a run that ends beside it begins a run. -/
theorem RunsOf.start {k : κ} (h : RunsOf key pre rs) (hc : key c.1 c.2 = some k)
    (hk : ∀ r ∈ rs, r.right + 1 = pre.length → r.key ≠ k) :
    RunsOf key (pre ++ [c]) (rs ++ [Run.single k pre.length c.2]) := by
  refine ⟨fun i x hx k' => ?_, fun r hr => ?_, List.pairwise_append.2 ⟨h.apart, List.pairwise_singleton _ _, ?_⟩⟩
  · simp only [List.mem_append, List.mem_singleton, or_and_right, exists_or, exists_eq_left]
    rcases getElem?_snoc_iff.1 hx with hx | ⟨rfl, rfl⟩
    · rw [h.covers i x hx k', or_iff_left]
      rintro ⟨-, hi, -⟩
      exact absurd (List.getElem?_eq_some_iff.1 hx).1 (Nat.not_lt.2 hi)
    · rw [hc, Option.some_inj, or_iff_right]
      · exact ⟨fun e => ⟨e, le_rfl, le_rfl⟩, fun e => e.1⟩
      · rintro ⟨r, hr, -, -, hi⟩
        exact absurd (h.gathers r hr).inside (Nat.not_lt.2 hi)
  · rcases List.mem_append.1 hr with hr | hr
    · exact (h.gathers r hr).snoc c
    · rw [List.mem_singleton.1 hr]
      exact Run.gathers_single k pre c
  · intro r hr q hq
    rw [List.mem_singleton.1 hq]
    refine ⟨(h.gathers r hr).inside, fun e => ?_⟩
    exact Nat.lt_of_le_of_ne (h.gathers r hr).inside fun hn => hk r hr hn e

/-- A cell of the key of the run beside it joins that run. -/
theorem RunsOf.extend {run : Run κ} (h : RunsOf key pre (rs ++ [run])) (hr : run.right + 1 = pre.length)
    (hc : key c.1 c.2 = some run.key) : RunsOf key (pre ++ [c]) (rs ++ [run.grow pre.length c.2]) := by
  obtain ⟨hapart, -, hlast⟩ := List.pairwise_append.1 h.apart
  have hrun : run.Gathers pre := h.gathers run (List.mem_append_right _ (List.mem_singleton_self _))
  refine ⟨fun i x hx k => ?_, fun r hr' => ?_, List.pairwise_append.2 ⟨hapart, List.pairwise_singleton _ _, ?_⟩⟩
  · have hcov := h.covers i x
    simp only [List.mem_append, List.mem_singleton, or_and_right, exists_or, exists_eq_left] at hcov ⊢
    rcases getElem?_snoc_iff.1 hx with hx | ⟨rfl, rfl⟩
    · have hlt := (List.getElem?_eq_some_iff.1 hx).1
      have hend : i ≤ run.right ↔ i ≤ pre.length := by omega
      rw [hcov hx k, hend]
      rfl
    · rw [hc, Option.some_inj, or_iff_right]
      · exact ⟨fun e => ⟨e, by have := hrun.ordered; change run.left ≤ _; omega, le_rfl⟩, fun e => e.1⟩
      · rintro ⟨r, hr', -, -, hi⟩
        exact absurd (h.gathers r (List.mem_append_left _ hr')).inside (Nat.not_lt.2 hi)
  · rcases List.mem_append.1 hr' with hr' | hr'
    · exact (h.gathers r (List.mem_append_left _ hr')).snoc c
    · rw [List.mem_singleton.1 hr']
      exact hrun.grow hr c
  · intro r hr' q hq
    rw [List.mem_singleton.1 hq]
    exact hlast r hr' run (List.mem_singleton_self _)

/-- From a cell on, with the run begun at its left (if there is one), the runs found complete those of the cells
before it. -/
theorem RunsOf.runsFrom [DecidableEq κ] : ∀ (rest pre : List (CellRec × CellResult)) (done : List (Run κ))
    (cur : Option (Run κ)), RunsOf key pre (done ++ cur.toList) →
    (∀ run ∈ cur, run.right + 1 = pre.length) → (cur = none → ∀ r ∈ done, r.right + 1 ≠ pre.length) →
    RunsOf key (pre ++ rest) (done ++ Machine.runsFrom key pre.length cur rest)
  | [], pre, done, cur, h, _, _ => by simpa [Machine.runsFrom] using h
  | c :: rest, pre, done, cur, h, hcur, hnone => by
    obtain ⟨q, o⟩ := c
    have hnext := RunsOf.runsFrom rest (pre ++ [(q, o)])
    have hlen : (pre ++ [(q, o)]).length = pre.length + 1 := by simp
    have hone : pre ++ (q, o) :: rest = pre ++ [(q, o)] ++ rest := by simp
    rw [hone]
    simp only [hlen] at hnext
    unfold Machine.runsFrom
    split
    next hkey =>
      rw [← List.append_assoc]
      refine hnext _ none (by simpa using h.skip hkey) (by simp) fun _ r hr => ?_
      have := (h.gathers r hr).inside
      omega
    next k hkey =>
      rw [Option.toList_none, List.append_nil] at h
      exact hnext done _ (h.start hkey fun r hr hn => absurd hn (hnone rfl r hr)) (by simp [Run.single]) (by simp)
    next k run hkey =>
      have hrun : run.right + 1 = pre.length := hcur run rfl
      split
      next e =>
        subst e
        exact hnext done _ (h.extend hrun hkey) (by simp [Run.grow]) (by simp)
      next hne =>
        rw [List.append_cons done]
        refine hnext (done ++ [run]) (some (Run.single k pre.length o)) (h.start hkey fun r hr hn => ?_)
          (by simp [Run.single]) (by simp)
        rcases List.mem_append.1 hr with hr | hr
        · have hlt := (List.pairwise_append.1 h.apart).2.2 r hr run (List.mem_singleton_self _)
          have hle := (h.gathers run (List.mem_append_right _ (List.mem_singleton_self _))).ordered
          omega
        · rw [List.mem_singleton.1 hr]
          exact hne

end

/-- The runs of a line are the maximal stretches of one key. -/
theorem runsFrom_runsOf [DecidableEq κ] (key : CellRec → CellResult → Option κ)
    (cells : List (CellRec × CellResult)) : RunsOf key cells (runsFrom key 0 none cells) := by
  have hempty : RunsOf key [] ([] : List (Run κ)) := ⟨by simp, by simp, .nil⟩
  simpa using RunsOf.runsFrom cells [] [] none hempty (by simp) (by simp)

/-! ### The keys (R98, R116) -/

/-- The polarity of the streak a cell is a member of. -/
theorem memberPolarity_eq_some {t : List (Option Streak)} {r : CellRec} {pol : Polarity} :
    memberPolarity t r = some pol ↔ ∃ j st, r.member = some j ∧ t[j]? = some (some st) ∧ st.pol = pol := by
  unfold memberPolarity
  cases hm : r.member with
  | none => simp
  | some j => simp [entryAt_some]

section

variable {copy : Recipe} {t : List (Option Streak)} {r : CellRec} {o : CellResult} {p : Profile}

/-- Only a judged, streak-enabled cell is hot, and for LIGHT before DARK. -/
theorem hotPolarity_eq (hp : p = copy.profile o.profile) : hotPolarity copy t r o =
    if o.judged = true ∧ p.streakEnable = 1 then
      if (p.lOpen : Int) ≤ r.s ∨ (p.lClose : Int) ≤ r.s ∧ memberPolarity t r = some .light then some .light
      else if r.s ≤ -(p.lOpen : Int) ∨ r.s ≤ -(p.lClose : Int) ∧ memberPolarity t r = some .dark then some .dark
      else none
    else none := by
  subst hp
  unfold hotPolarity
  by_cases hj : o.judged = true <;> simp [hj, and_comm]

/-- When a cell is hot for LIGHT. -/
theorem hotPolarity_light (hp : p = copy.profile o.profile) : hotPolarity copy t r o = some .light ↔
    o.judged = true ∧ p.streakEnable = 1 ∧
      ((p.lOpen : Int) ≤ r.s ∨ (p.lClose : Int) ≤ r.s ∧ memberPolarity t r = some .light) := by
  rw [hotPolarity_eq hp, Option.ite_none_right_eq_some, and_assoc]
  refine and_congr_right fun _ => and_congr_right fun _ => ?_
  split
  next h => simp [h]
  next h => split <;> simp [h]

/-- When a cell is hot for DARK: it is then not hot for LIGHT, since both levels are at least 1. -/
theorem hotPolarity_dark (hp : p = copy.profile o.profile) (hopen : 1 ≤ p.lOpen) (hclose : 1 ≤ p.lClose) :
    hotPolarity copy t r o = some .dark ↔ o.judged = true ∧ p.streakEnable = 1 ∧
      (r.s ≤ -(p.lOpen : Int) ∨ r.s ≤ -(p.lClose : Int) ∧ memberPolarity t r = some .dark) := by
  rw [hotPolarity_eq hp, Option.ite_none_right_eq_some, and_assoc]
  refine and_congr_right fun _ => and_congr_right fun _ => ?_
  split
  next h =>
    refine iff_of_false (by simp) ?_
    omega
  next => rw [Option.ite_none_right_eq_some, and_iff_left rfl]

end

/-- The lane of a pinhole cell. -/
theorem pinholeKey_eq_some {t : List (Option Streak)} {r : CellRec} {o : CellResult} {k : Nat} :
    (if isPinholeCell t r o then some o.lane else none) = some k ↔
      k = o.lane ∧ o.pin = true ∧ ∀ j st, r.member = some j → t[j]? = some (some st) → st.pol ≠ .light := by
  have hmember : memberPolarity t r ≠ some .light ↔
      ∀ j st, r.member = some j → t[j]? = some (some st) → st.pol ≠ .light := by
    rw [Ne, memberPolarity_eq_some]
    simp only [not_exists, not_and]
  rw [← hmember, isPinholeCell]
  simp only [Option.ite_none_right_eq_some, Bool.and_eq_true, bne_iff_ne, Option.some_inj]
  exact ⟨fun ⟨h, e⟩ => ⟨e.symm, h⟩, fun ⟨e, h⟩ => ⟨h, e.symm⟩⟩

/-- Settles O24: the runs are found from left to right, and each cell either begins a run, joins the one beside it, or
belongs to none; the keys are those of R98 and R116. -/
theorem runsMaximal : Obligations.RunsMaximal := by
  refine ⟨fun κ _ key cells => ?_, fun copy t cells => ⟨⟨_, rfl, fun r o p hp hopen hclose => ?_⟩, _, rfl,
    fun r o k => pinholeKey_eq_some⟩⟩
  · obtain ⟨hcovers, hgathers, hapart⟩ := runsFrom_runsOf key cells
    refine ⟨hcovers, fun r hr => ?_, hapart⟩
    obtain ⟨hle, hlt, hbound, hattained, hsat, hedge, hleft⟩ := hgathers r hr
    exact ⟨hle, hlt, hbound, hattained, hsat, hedge, hleft⟩
  · have hkey : ∀ pol, ((hotPolarity copy t r o).map fun pol => (o.lane, pol)) = some (o.lane, pol) ↔
        hotPolarity copy t r o = some pol := fun pol => by simp
    refine ⟨?_, ?_, fun k hk => ?_⟩
    · rw [hkey, hotPolarity_light hp, memberPolarity_eq_some]
    · rw [hkey, hotPolarity_dark hp hopen hclose, memberPolarity_eq_some]
    · obtain ⟨pol, -, rfl⟩ := Option.map_eq_some_iff.1 hk
      rfl

end Sys2Proof.Machine
end

section
/-! SUPPORT. What a line does to the candidate or the streak it extends (R103, R104, R123, O26): hulls and peaks are the
least and the largest of what they gather. -/

namespace Sys2Proof.Machine

/-! ### The least and the largest -/

section

variable {α β γ : Type} [LinearOrder γ]

/-- The least of a start and the values of a list: it is at most each of them, and one of them. -/
theorem foldl_min_spec (f : α → γ) : ∀ (l : List α) (b : γ),
    l.foldl (fun acc a => min acc (f a)) b ≤ b ∧ (∀ a ∈ l, l.foldl (fun acc a => min acc (f a)) b ≤ f a) ∧
      (l.foldl (fun acc a => min acc (f a)) b = b ∨ ∃ a ∈ l, f a = l.foldl (fun acc a => min acc (f a)) b)
  | [], b => by simp
  | a :: l, b => by
    obtain ⟨hb, hl, hat⟩ := foldl_min_spec f l (min b (f a))
    rw [List.foldl_cons, List.forall_mem_cons]
    refine ⟨hb.trans (min_le_left ..), ⟨hb.trans (min_le_right ..), hl⟩, ?_⟩
    rcases hat with h | ⟨y, hy, h⟩
    · rcases min_choice b (f a) with hm | hm
      · exact .inl (h.trans hm)
      · exact .inr ⟨a, List.mem_cons_self .., (h.trans hm).symm⟩
    · exact .inr ⟨y, List.mem_cons_of_mem _ hy, h⟩

/-- The largest of a start and the values of a list is the least in the reversed order. -/
theorem foldl_max_spec (f : α → γ) (l : List α) (b : γ) :
    b ≤ l.foldl (fun acc a => max acc (f a)) b ∧ (∀ a ∈ l, f a ≤ l.foldl (fun acc a => max acc (f a)) b) ∧
      (l.foldl (fun acc a => max acc (f a)) b = b ∨ ∃ a ∈ l, f a = l.foldl (fun acc a => max acc (f a)) b) :=
  foldl_min_spec (γ := γᵒᵈ) f l b

/-- The least of a start and the values of two lists, taken one list after the other. -/
theorem foldl_min_two (f : α → γ) (g : β → γ) (l : List α) (m : List β) (b : γ) :
    ∃ x, x = m.foldl (fun acc y => min acc (g y)) (l.foldl (fun acc a => min acc (f a)) b) ∧
      x ≤ b ∧ (∀ a ∈ l, x ≤ f a) ∧ (∀ y ∈ m, x ≤ g y) ∧ (x = b ∨ (∃ a ∈ l, f a = x) ∨ ∃ y ∈ m, g y = x) := by
  obtain ⟨hb, hl, hat⟩ := foldl_min_spec f l b
  obtain ⟨hc, hm, hbt⟩ := foldl_min_spec g m (l.foldl (fun acc a => min acc (f a)) b)
  refine ⟨_, rfl, hc.trans hb, fun a ha => hc.trans (hl a ha), hm, ?_⟩
  rcases hbt with h | h
  · rw [h]
    exact hat.imp_right .inl
  · exact .inr (.inr h)

/-- The largest of a start and the values of two lists is the least in the reversed order. -/
theorem foldl_max_two (f : α → γ) (g : β → γ) (l : List α) (m : List β) (b : γ) :
    ∃ x, x = m.foldl (fun acc y => max acc (g y)) (l.foldl (fun acc a => max acc (f a)) b) ∧
      b ≤ x ∧ (∀ a ∈ l, f a ≤ x) ∧ (∀ y ∈ m, g y ≤ x) ∧ (x = b ∨ (∃ a ∈ l, f a = x) ∨ ∃ y ∈ m, g y = x) :=
  foldl_min_two (γ := γᵒᵈ) f g l m b

end

/-- The extent of runs, started from one of them, is their hull: it holds them all, and its ends are ends of theirs. -/
theorem extent_isHull {κ : Type} (r : Run κ) (rest : List (Run κ)) :
    (∀ q ∈ r :: rest, hullLeft r.left (r :: rest) ≤ q.left ∧ q.right ≤ hullRight r.right (r :: rest)) ∧
      (∃ q ∈ r :: rest, q.left = hullLeft r.left (r :: rest)) ∧
      ∃ q ∈ r :: rest, q.right = hullRight r.right (r :: rest) := by
  obtain ⟨-, hl, hlat⟩ := foldl_min_spec Run.left (r :: rest) r.left
  obtain ⟨-, hr, hrat⟩ := foldl_max_spec Run.right (r :: rest) r.right
  refine ⟨fun q hq => ⟨hl q hq, hr q hq⟩, hlat.elim (fun h => ?_) id, hrat.elim (fun h => ?_) id⟩
  · exact ⟨r, List.mem_cons_self .., h.symm⟩
  · exact ⟨r, List.mem_cons_self .., h.symm⟩

/-! ### The statement -/

/-- Settles O26, from the fields of an extended candidate and streak as folds over the runs and the absorbed. -/
theorem extensionHulls : Obligations.ExtensionHulls := by
  refine ⟨fun k w trail runs absorbed hruns => ?_, fun st runs hruns => ?_⟩
  · obtain ⟨r, rest, rfl⟩ := List.exists_cons_of_ne_nil hruns
    obtain ⟨hext, hextL, hextR⟩ := extent_isHull r rest
    obtain ⟨hullL, eL, hLk, hLruns, hLabs, hLat⟩ :=
      foldl_min_two Run.left Candidate.hullL (r :: rest) absorbed k.hullL
    obtain ⟨hullR, eR, hRk, hRruns, hRabs, hRat⟩ :=
      foldl_max_two Run.right Candidate.hullR (r :: rest) absorbed k.hullR
    obtain ⟨peak, eP, hPk, hPruns, hPabs, hPat⟩ :=
      foldl_max_two Run.peak Candidate.peak (r :: rest) absorbed k.peak
    subst eL eR eP
    refine ⟨_, rfl, rfl, rfl, rfl, rfl, rfl, rfl, rfl, hext, hextL, hextR, hLk, hRk,
      fun q hq => ⟨hLruns q hq, hRruns q hq⟩, fun y hy => ⟨hLabs y hy, hRabs y hy⟩, hLat, hRat, rfl,
      hPk, hPruns, hPabs, hPat, ?_, ?_, ?_, ?_, ?_⟩
    all_goals simp only [Candidate.extended, Bool.or_eq_true, List.any_eq_true, or_assoc]
  · obtain ⟨r, rest, rfl⟩ := List.exists_cons_of_ne_nil hruns
    obtain ⟨hext, hextL, hextR⟩ := extent_isHull r rest
    obtain ⟨hPk, hPruns, hPat⟩ := foldl_max_spec Run.peak (r :: rest) st.peak
    refine ⟨_, rfl, rfl, rfl, rfl, rfl, rfl, rfl, rfl, rfl, rfl, rfl, hext, hextL, hextR, hPk, hPruns, hPat,
      fun h => ?_, fun h => ?_⟩
    · exact ⟨if_pos (decide_eq_true h), if_pos (decide_eq_true h)⟩
    · have hno := mt of_decide_eq_true (Nat.not_lt.2 h)
      exact ⟨if_neg hno, if_neg hno⟩

end Sys2Proof.Machine
end

section
/-! SUPPORT. Steps 1 to 3 of stage 4 on a coated line (R102 to R106): the components of candidates and runs, and what
the line leaves of the candidates open before it. -/

namespace Sys2Proof.Machine

/-! ### The components with a candidate (R102) -/

/-- The slots of the candidates that a run matches. -/
def candSlotsOf (t : List (Option Candidate)) (r : Run Nat) : List Nat := slotsWhere (fun k => k.matchedBy r) t

/-- The components with a candidate. -/
def candComps (t : List (Option Candidate)) (runs : List (Run Nat)) : List (Component Nat) :=
  (componentsOf (candSlotsOf t) runs).filter fun c => !c.slots.isEmpty

/-- The runs that match no candidate. -/
def loneRuns (t : List (Option Candidate)) (runs : List (Run Nat)) : List (Run Nat) :=
  runs.filter fun r => (candSlotsOf t r).isEmpty

section

variable {t : List (Option Candidate)} {runs : List (Run Nat)} {r : Run Nat} {c : Component Nat} {i j : Nat}
  {k : Candidate}

theorem mem_candSlotsOf : i ∈ candSlotsOf t r ↔ ∃ k, t[i]? = some (some k) ∧ k.met r := by
  simp only [candSlotsOf, mem_slotsWhere, Candidate.matchedBy_iff]

theorem candSlotsOf_isEmpty : (candSlotsOf t r).isEmpty = true ↔ ∀ k, some k ∈ t → ¬ k.met r := by
  rw [List.isEmpty_iff, List.eq_nil_iff_forall_not_mem]
  constructor
  · intro h k hk hm
    obtain ⟨i, hi⟩ := List.mem_iff_getElem?.1 hk
    exact h i (mem_candSlotsOf.2 ⟨k, hi, hm⟩)
  · intro h i hi
    obtain ⟨k, hk, hm⟩ := mem_candSlotsOf.1 hi
    exact h k (List.mem_of_getElem? hk) hm

theorem mem_loneRuns : r ∈ loneRuns t runs ↔ r ∈ runs ∧ ∀ k, some k ∈ t → ¬ k.met r := by
  rw [loneRuns, List.mem_filter, candSlotsOf_isEmpty]

/-- With no candidate open every run is a lone run. -/
theorem loneRuns_empty (h : ∀ o ∈ t, o = none) : loneRuns t runs = runs :=
  List.filter_eq_self.2 fun _ _ => candSlotsOf_isEmpty.2 fun k hk => by cases h _ hk

theorem mem_candComps : c ∈ candComps t runs ↔ c ∈ componentsOf (candSlotsOf t) runs ∧ c.slots ≠ [] := by
  rw [candComps, List.mem_filter, Bool.not_eq_true', ← Bool.not_eq_true, List.isEmpty_iff]

theorem candComps_apart (t : List (Option Candidate)) (runs : List (Run Nat)) :
    (candComps t runs).Pairwise fun c d => ∀ i ∈ c.slots, i ∉ d.slots :=
  (componentsOf_spec (candSlotsOf t) runs).apart.sublist List.filter_sublist

/-- Two components that share a slot are one. -/
theorem candComps_eq_of_slot {d : Component Nat} (hc : c ∈ candComps t runs) (hd : d ∈ candComps t runs)
    (hi : i ∈ c.slots) (hi' : i ∈ d.slots) : c = d :=
  (componentsOf_spec (candSlotsOf t) runs).eq_of_slot (mem_candComps.1 hc).1 (mem_candComps.1 hd).1 hi hi'

/-- A slot of a component holds a candidate that one of the component's runs matches. -/
theorem candComps_slot (hc : c ∈ candComps t runs) (hi : i ∈ c.slots) :
    ∃ r ∈ c.runs, r ∈ runs ∧ ∃ k, t[i]? = some (some k) ∧ k.met r := by
  have hspec := componentsOf_spec (candSlotsOf t) runs
  have hmem := (mem_candComps.1 hc).1
  obtain ⟨r, hr, hir⟩ := (hspec.slots c hmem i).1 hi
  exact ⟨r, hr, (hspec.mem r).2 ⟨c, hmem, hr⟩, mem_candSlotsOf.1 hir⟩

theorem candComps_runs_ne_nil (hc : c ∈ candComps t runs) : c.runs ≠ [] := by
  obtain ⟨i, hi⟩ := List.exists_mem_of_ne_nil _ (mem_candComps.1 hc).2
  obtain ⟨r, hr, -⟩ := candComps_slot hc hi
  exact List.ne_nil_of_mem hr

/-- A run and a candidate that match lie in one component. -/
theorem candComps_of_met (hr : r ∈ runs) (hj : t[j]? = some (some k)) (hm : k.met r) :
    ∃ c ∈ candComps t runs, r ∈ c.runs ∧ j ∈ c.slots := by
  have hspec := componentsOf_spec (candSlotsOf t) runs
  obtain ⟨c, hc, hrc⟩ := (hspec.mem r).1 hr
  have hjc : j ∈ c.slots := (hspec.slots c hc j).2 ⟨r, hrc, mem_candSlotsOf.2 ⟨k, hj, hm⟩⟩
  exact ⟨c, mem_candComps.2 ⟨hc, List.ne_nil_of_mem hjc⟩, hrc, hjc⟩

/-- A candidate lies in no component exactly when no run matches it. -/
theorem candComps_unmatched (hj : t[j]? = some (some k)) :
    (∀ c ∈ candComps t runs, j ∉ c.slots) ↔ ∀ r ∈ runs, ¬ k.met r := by
  constructor
  · intro h r hr hm
    obtain ⟨c, hc, -, hjc⟩ := candComps_of_met hr hj hm
    exact h c hc hjc
  · intro h c hc hjc
    obtain ⟨r, -, hr, k', hk', hm⟩ := candComps_slot hc hjc
    rw [hj] at hk'
    cases hk'
    exact h r hr hm

/-- When no run matches two candidates, every component has one candidate. -/
theorem candComps_single (hone : ∀ r ∈ runs, ∀ (j k : Nat) (a b : Candidate), t[j]? = some (some a) →
    t[k]? = some (some b) → a.met r → b.met r → j = k) (hc : c ∈ candComps t runs) (hi : i ∈ c.slots)
    (hj : j ∈ c.slots) : i = j := by
  refine ((componentsOf_spec (candSlotsOf t) runs).closed (· = i) ?_ c (mem_candComps.1 hc).1 i hi rfl j hj).symm
  rintro r hr l hl rfl m hm
  obtain ⟨a, ha, har⟩ := mem_candSlotsOf.1 hl
  obtain ⟨b, hb, hbr⟩ := mem_candSlotsOf.1 hm
  exact hone r hr m l b a hb ha hbr har

/-- The age of a candidate in the table. -/
theorem firstWAt_eq (h : t[i]? = some (some k)) : firstWAt t i = k.firstW := by
  rw [firstWAt, entryAt_some.2 h]; rfl

/-- The oldest candidate of a component, which all others of the component come after in age order. -/
theorem candComps_survivor (hc : c ∈ candComps t runs) : ∃ j k, candSurvivor t c.slots = some j ∧ j ∈ c.slots ∧
    t[j]? = some (some k) ∧ ∀ l ∈ c.slots, l ≠ j → ∀ a, t[l]? = some (some a) →
      k.firstW < a.firstW ∨ k.firstW = a.firstW ∧ j < l := by
  obtain ⟨j, hj, hjc, holdest⟩ := candSurvivor_spec (t := t) (mem_candComps.1 hc).2
  obtain ⟨-, -, -, k, hk, -⟩ := candComps_slot hc hjc
  refine ⟨j, k, hj, hjc, hk, fun l hl hne a ha => ?_⟩
  have h := holdest l hl
  rw [firstWAt_eq hk, firstWAt_eq ha] at h
  omega

end

/-! ### Step 2: the survivors extended (R103, R104) -/

/-- The survivor of a component as the line leaves it: extended by the component's runs, the other candidates of the
component absorbed. -/
def joinedCand (ln : Line) (t : List (Option Candidate)) (c : Component Nat) (j : Nat) (k : Candidate) : Candidate :=
  k.extended ln.slot.w ln.slot.zone.hasTrail c.runs ((c.slots.filter fun l => l != j).filterMap (entryAt t))

theorem extended_lines (k : Candidate) (w : Nat) (trail : Bool) {runs : List (Run Nat)} (absorbed : List Candidate)
    (h : runs ≠ []) : (k.extended w trail runs absorbed).lines = k.lines + 1 := by
  obtain ⟨r, rest, rfl⟩ := List.exists_cons_of_ne_nil h
  rfl

theorem extended_firstW (k : Candidate) (w : Nat) (trail : Bool) (runs : List (Run Nat)) (absorbed : List Candidate) :
    (k.extended w trail runs absorbed).firstW = k.firstW := by
  cases runs <;> rfl

/-- Step 2 leads from `s` to `u`. -/
structure Joined (ln : Line) (runs : List (Run Nat)) (s u : State) : Prop where
  frame : u = s.withWork { s.eng.work with cands := u.eng.work.cands, candLatch := u.eng.work.candLatch }
  survivor : ∀ c ∈ candComps s.eng.work.cands runs, ∀ j k, candSurvivor s.eng.work.cands c.slots = some j →
    s.eng.work.cands[j]? = some (some k) →
    u.eng.work.cands[j]? = some (some (joinedCand ln s.eng.work.cands c j k))
  absorbed : ∀ c ∈ candComps s.eng.work.cands runs, ∀ j, candSurvivor s.eng.work.cands c.slots = some j →
    ∀ l ∈ c.slots, l ≠ j → u.eng.work.cands[l]? = some none
  apart : ∀ l, (∀ c ∈ candComps s.eng.work.cands runs, l ∉ c.slots) →
    u.eng.work.cands[l]? = s.eng.work.cands[l]?
  latch : (∀ c ∈ candComps s.eng.work.cands runs, ∀ l ∈ c.slots, ∀ l' ∈ c.slots, l = l') →
    u.eng.work.candLatch = s.eng.work.candLatch
  size : u.eng.work.cands.length = s.eng.work.cands.length

theorem extendCands_joined (ln : Line) (runs : List (Run Nat)) (s : State) :
    Joined ln runs s ((candComps s.eng.work.cands runs).foldl (extendCand ln s.eng.work.cands) s) := by
  obtain ⟨u, hu, hframe, hjoin, hapart, hlatch⟩ := extendCands_fold ln s.eng.work.cands
    (candComps s.eng.work.cands runs) s (candComps_apart _ _) fun c hc => ⟨(mem_candComps.1 hc).2, fun i hi => by
      obtain ⟨-, -, -, k, hk, -⟩ := candComps_slot hc hi
      exact ⟨(List.getElem?_eq_some_iff.1 hk).1, k, hk⟩⟩
  rw [hu]
  refine ⟨hframe, fun c hc j k hj hk => (hjoin c hc j k hj hk).1, fun c hc j hj => ?_, hapart, hlatch,
    hu ▸ (EngineWork.foldl (extendCand_work ln _) _ s).cands⟩
  obtain ⟨j', k, hj', -, hk, -⟩ := candComps_survivor hc
  rw [hj] at hj'
  cases hj'
  exact (hjoin c hc j k hj hk).2

/-- A candidate that step 2 leaves open is the survivor of its component, or one that no run matches, as it was. -/
theorem Joined.cases {ln : Line} {runs : List (Run Nat)} {s u : State} (h : Joined ln runs s u) {i : Nat}
    {x : Candidate} (hx : u.eng.work.cands[i]? = some (some x)) :
    (∃ c ∈ candComps s.eng.work.cands runs, i ∈ c.slots ∧ candSurvivor s.eng.work.cands c.slots = some i ∧
        ∃ k, s.eng.work.cands[i]? = some (some k) ∧ x = joinedCand ln s.eng.work.cands c i k) ∨
      (∀ c ∈ candComps s.eng.work.cands runs, i ∉ c.slots) ∧ s.eng.work.cands[i]? = some (some x) := by
  by_cases hin : ∃ c ∈ candComps s.eng.work.cands runs, i ∈ c.slots
  · obtain ⟨c, hc, hi⟩ := hin
    obtain ⟨j, k, hj, -, hk, -⟩ := candComps_survivor hc
    by_cases hij : i = j
    · subst hij
      rw [h.survivor c hc i k hj hk] at hx
      cases hx
      exact .inl ⟨c, hc, hi, hj, k, hk, rfl⟩
    · rw [h.absorbed c hc j hj i hi hij] at hx
      cases hx
  · have hno : ∀ c ∈ candComps s.eng.work.cands runs, i ∉ c.slots := fun c hc hi => hin ⟨c, hc, hi⟩
    exact .inr ⟨hno, (h.apart i hno).symm.trans hx⟩

/-! ### Step 3: the fates (R105, R106) -/

section

variable {pmax i : Nat} {t : List (Option Candidate)} {comps : List (Component Nat)} {outs : List CellResult}
  {x : Candidate}

theorem candFate_matched (hx : t[i]? = some (some x)) (h : ∃ c ∈ comps, i ∈ c.slots) :
    candFate pmax t comps outs i = if pmax ≤ x.lines then .long else .stays := by
  have hany : (comps.any fun c => c.slots.contains i) = true := by simpa using h
  unfold candFate
  rw [entryAt_some.2 hx]
  exact if_pos hany

theorem candFate_unmatched (hx : t[i]? = some (some x)) (h : ∀ c ∈ comps, i ∉ c.slots) :
    candFate pmax t comps outs i = if extentAbsent outs x.extL x.extR then .held else .closes := by
  have hany : ¬ (comps.any fun c => c.slots.contains i) = true := by simpa using h
  unfold candFate
  rw [entryAt_some.2 hx]
  exact if_neg hany

end

/-- Steps 2 and 3 lead from `s` to `u` and append `ys`: what becomes of the candidates open before the line. -/
structure Tracked (ln : Line) (outs : List CellResult) (runs : List (Run Nat)) (s u : State)
    (ys : List (Nat × RecordBody)) : Prop where
  list : u.list = s.list.pushAll ys
  work : u.eng.work = { s.eng.work with cands := u.eng.work.cands, candLatch := u.eng.work.candLatch }
  size : u.eng.work.cands.length = s.eng.work.cands.length
  empty : ∀ i : Nat, s.eng.work.cands[i]? = some none → u.eng.work.cands[i]? = some none
  held : ∀ (j : Nat) (k : Candidate), s.eng.work.cands[j]? = some (some k) → (∀ r ∈ runs, ¬ k.met r) →
    extentAbsent outs k.extL k.extR = true → u.eng.work.cands[j]? = some (some { k with held := true })
  closes : ∀ (j : Nat) (k : Candidate), s.eng.work.cands[j]? = some (some k) → (∀ r ∈ runs, ¬ k.met r) →
    extentAbsent outs k.extL k.extR = false →
    (k.firstW, k.closeBody .ordinary) ∈ ys ∧ u.eng.work.cands[j]? = some none
  stays : ∀ c ∈ candComps s.eng.work.cands runs, ∀ j k, candSurvivor s.eng.work.cands c.slots = some j →
    s.eng.work.cands[j]? = some (some k) → k.lines + 1 < ln.copy.pmax →
    u.eng.work.cands[j]? = some (some (joinedCand ln s.eng.work.cands c j k))
  long : ∀ c ∈ candComps s.eng.work.cands runs, ∀ j k, candSurvivor s.eng.work.cands c.slots = some j →
    s.eng.work.cands[j]? = some (some k) → ln.copy.pmax ≤ k.lines + 1 →
    (k.firstW, (joinedCand ln s.eng.work.cands c j k).closeBody .long) ∈ ys ∧ u.eng.work.cands[j]? = some none
  absorbed : ∀ c ∈ candComps s.eng.work.cands runs, ∀ j, candSurvivor s.eng.work.cands c.slots = some j →
    ∀ l ∈ c.slots, l ≠ j → u.eng.work.cands[l]? = some none
  latch : (∀ c ∈ candComps s.eng.work.cands runs, ∀ l ∈ c.slots, ∀ l' ∈ c.slots, l = l') →
    (∀ k, some k ∈ s.eng.work.cands →
      ((∀ r ∈ runs, ¬ k.met r) → extentAbsent outs k.extL k.extR = true) ∧ k.lines + 1 < ln.copy.pmax) →
    u.eng.work.candLatch = s.eng.work.candLatch
  pinholes : ∀ x ∈ ys, ∀ b, x.2 = .pinhole b →
    (∃ k, some k ∈ s.eng.work.cands ∧ (∀ r ∈ runs, ¬ k.met r) ∧ x = (k.firstW, k.closeBody .ordinary)) ∨
    ∃ c ∈ candComps s.eng.work.cands runs, ∃ j k, candSurvivor s.eng.work.cands c.slots = some j ∧
      s.eng.work.cands[j]? = some (some k) ∧ ln.copy.pmax ≤ k.lines + 1 ∧
      x = (k.firstW, (joinedCand ln s.eng.work.cands c j k).closeBody .long)

theorem joinedCand_lines (ln : Line) {t : List (Option Candidate)} {runs : List (Run Nat)} {c : Component Nat}
    (hc : c ∈ candComps t runs) (j : Nat) (k : Candidate) : (joinedCand ln t c j k).lines = k.lines + 1 :=
  extended_lines _ _ _ _ (candComps_runs_ne_nil hc)

theorem joinedCand_firstW (ln : Line) (t : List (Option Candidate)) (c : Component Nat) (j : Nat) (k : Candidate) :
    (joinedCand ln t c j k).firstW = k.firstW := extended_firstW _ _ _ _ _

/-- Step 3 after step 2: every candidate still open meets its fate. -/
theorem Joined.tracked {ln : Line} {runs : List (Run Nat)} {s u : State} (h : Joined ln runs s u)
    (outs : List CellResult) {order : List Nat}
    (horder : order.Perm (slotsWhere (fun _ => true) u.eng.work.cands)) :
    ∃ v ys, order.foldl (fun v i => settleCand ln.copy.markerFields i
        (candFate ln.copy.pmax u.eng.work.cands (candComps s.eng.work.cands runs) outs i) v) u = v ∧
      Tracked ln outs runs s v ys := by
  obtain ⟨v, ys, hv, hlist, hwork, hlong, hcloses, hheld, hother, hlatch, hpin⟩ := settleCands_fold
    ln.copy.markerFields (candFate ln.copy.pmax u.eng.work.cands (candComps s.eng.work.cands runs) outs) order u
    (horder.nodup_iff.2 (slotsWhere_nodup _ _))
  have hopen : ∀ {i x}, u.eng.work.cands[i]? = some (some x) → i ∈ order := fun hx =>
    horder.mem_iff.2 ((mem_slotsWhere _ _ _).2 ⟨_, hx, rfl⟩)
  have hgone : ∀ {i : Nat}, u.eng.work.cands[i]? = some none → v.eng.work.cands[i]? = some none := fun {i} hi => by
    rw [hother i (.inl fun hmem => ?_), hi]
    obtain ⟨x, hx, -⟩ := (mem_slotsWhere _ _ _).1 (horder.mem_iff.1 hmem)
    rw [hi] at hx
    cases hx
  -- what step 2 leaves of a candidate that no run matches, and its fate
  have hsame : ∀ {j k}, s.eng.work.cands[j]? = some (some k) → (∀ r ∈ runs, ¬ k.met r) →
      u.eng.work.cands[j]? = some (some k) ∧
        candFate ln.copy.pmax u.eng.work.cands (candComps s.eng.work.cands runs) outs j =
          if extentAbsent outs k.extL k.extR then .held else .closes := fun {j k} hk hno => by
    have hnot := (candComps_unmatched hk).2 hno
    have hu := (h.apart j hnot).trans hk
    exact ⟨hu, candFate_unmatched hu hnot⟩
  -- and of the survivor of a component
  have hjoined : ∀ {c}, c ∈ candComps s.eng.work.cands runs → ∀ {j k},
      candSurvivor s.eng.work.cands c.slots = some j → s.eng.work.cands[j]? = some (some k) →
      u.eng.work.cands[j]? = some (some (joinedCand ln s.eng.work.cands c j k)) ∧
        candFate ln.copy.pmax u.eng.work.cands (candComps s.eng.work.cands runs) outs j =
          if ln.copy.pmax ≤ k.lines + 1 then .long else .stays := fun {c} hc {j k} hj hk => by
    have hu := h.survivor c hc j k hj hk
    obtain ⟨j', -, hj', hjc, -⟩ := candComps_survivor hc
    rw [hj] at hj'
    cases hj'
    rw [candFate_matched hu ⟨c, hc, hjc⟩, joinedCand_lines ln hc]
    exact ⟨hu, rfl⟩
  have hsize : v.eng.work.cands.length = s.eng.work.cands.length := by
    rw [← hv, (EngineWork.foldl (fun v i => settleCand_work _ i _ v) order u).cands, h.size]
  refine ⟨v, ys, hv, ?_, ?_, hsize, fun i hi => ?_, fun j k hk hno habs => ?_, fun j k hk hno habs => ?_,
    fun c hc j k hj hk hlt => ?_, fun c hc j k hj hk hle => ?_, fun c hc j hj l hl hne => ?_, fun hone hall => ?_,
    fun x hx b hb => ?_⟩
  · rw [hlist, h.frame]; rfl
  · rw [hwork, h.frame]; rfl
  · refine hgone ((h.apart i fun c hc hic => ?_).trans hi)
    obtain ⟨-, -, -, k, hk, -⟩ := candComps_slot hc hic
    rw [hi] at hk
    cases hk
  · obtain ⟨hu, hf⟩ := hsame hk hno
    exact hheld j (hopen hu) k (hf.trans (if_pos habs)) hu
  · obtain ⟨hu, hf⟩ := hsame hk hno
    exact hcloses j (hopen hu) k (hf.trans (if_neg (by rw [habs]; decide))) hu
  · obtain ⟨hu, hf⟩ := hjoined hc hj hk
    exact (hother j (.inr (hf.trans (if_neg (Nat.not_le.2 hlt))))).trans hu
  · obtain ⟨hu, hf⟩ := hjoined hc hj hk
    have hl := hlong j (hopen hu) _ (hf.trans (if_pos hle)) hu
    rwa [joinedCand_firstW] at hl
  · exact hgone (h.absorbed c hc j hj l hl hne)
  · rw [hlatch fun i hi => ?_, h.latch hone]
    obtain ⟨x, hx, -⟩ := (mem_slotsWhere _ _ _).1 (horder.mem_iff.1 hi)
    rcases h.cases hx with ⟨c, hc, -, hsurv, k, hk, -⟩ | ⟨hnot, hx'⟩
    · have hlt := (hall k (List.mem_of_getElem? hk)).2
      exact .inr ((hjoined hc hsurv hk).2.trans (if_neg (Nat.not_le.2 hlt)))
    · have hno := (candComps_unmatched hx').1 hnot
      exact .inl ((hsame hx' hno).2.trans (if_pos ((hall x (List.mem_of_getElem? hx')).1 hno)))
  · obtain ⟨i, -, y, hy, hfate⟩ := hpin x hx b hb
    rcases h.cases hy with ⟨c, hc, -, hsurv, k, hk, rfl⟩ | ⟨hnot, hy'⟩
    · rw [(hjoined hc hsurv hk).2] at hfate
      refine .inr ⟨c, hc, i, k, hsurv, hk, ?_⟩
      rw [joinedCand_firstW] at hfate
      split at hfate
      next hle => exact ⟨hle, by simpa using hfate⟩
      next => simp at hfate
    · have hno := (candComps_unmatched hy').1 hnot
      rw [(hsame hy' hno).2] at hfate
      refine .inl ⟨y, List.mem_of_getElem? hy', hno, ?_⟩
      split at hfate
      next => simp at hfate
      next => simpa using hfate

end Sys2Proof.Machine
end

section
/-! SUPPORT. Stage 4 of a coated line as a whole (R101 to R109, O28): the closes of another patch and the lone runs around
steps 2 and 3, and the records and the table that LINE_PUBLISH ends with. -/

namespace Sys2Proof.Machine

/-! ### Step 4 and the closes of another patch (R101, R107, R108) -/

/-- Steps 1 to 4 on a coated line: what becomes of the candidates open before it, and then the lone runs. -/
theorem pinholeLine_tracked {ln : Line} (hcoated : ln.slot.zone.coated = true) (outs : List CellResult) (s : State)
    {runs : List (Run Nat)} (hruns : runs = pinholeRuns s.eng.work.streaks (s.eng.work.cells.zip outs)) :
    ∃ u ys, Tracked ln outs runs s u ys ∧
      pinholeLine ln outs s = (loneRuns s.eng.work.cands runs).foldl (lonePinholeRun ln) u := by
  subst hruns
  obtain ⟨u, ys, hu, htracked⟩ := (extendCands_joined ln _ s).tracked outs (candAgeOrder_perm _ _)
  refine ⟨u, ys, htracked, ?_⟩
  rw [pinholeLine_eq hcoated, ← hu]
  rfl

/-- The open candidates all close, each with its record. -/
theorem closeCands_all (markers : Marker → MarkerFields) (s : State) :
    ∃ u ys, closeCands markers .ordinary s.candSlots s = u ∧ u.list = s.list.pushAll ys ∧
      u.eng.work = { s.eng.work with cands := u.eng.work.cands, candLatch := u.eng.work.candLatch } ∧
      u.eng.work.cands.length = s.eng.work.cands.length ∧ (∀ o ∈ u.eng.work.cands, o = none) ∧
      (∀ k, some k ∈ s.eng.work.cands → (k.firstW, k.closeBody .ordinary) ∈ ys) ∧
      ∀ x ∈ ys, ∀ b, x.2 = .pinhole b → ∃ k, some k ∈ s.eng.work.cands ∧ x = (k.firstW, k.closeBody .ordinary) := by
  have hperm := candAgeOrder_perm s.eng.work.cands s.candSlots
  have hopen : ∀ {i k}, s.eng.work.cands[i]? = some (some k) → i ∈ candAgeOrder s.eng.work.cands s.candSlots :=
    fun hk => hperm.mem_iff.2 ((mem_slotsWhere _ _ _).2 ⟨_, hk, rfl⟩)
  obtain ⟨u, ys, hu, hlist, hwork, -, hcloses, -, hother, -, hpin⟩ := settleCands_fold markers (fun _ => .closes)
    (candAgeOrder s.eng.work.cands s.candSlots) s (hperm.nodup_iff.2 (slotsWhere_nodup _ _))
  have hsize : u.eng.work.cands.length = s.eng.work.cands.length :=
    hu ▸ (EngineWork.foldl (fun v i => settleCand_work markers i .closes v) _ s).cands
  refine ⟨u, ys, hu, hlist, hwork, hsize, fun o ho => ?_, fun k hk => ?_, fun x hx b hb => ?_⟩
  · obtain ⟨i, hi⟩ := List.mem_iff_getElem?.1 ho
    by_cases hmem : i ∈ candAgeOrder s.eng.work.cands s.candSlots
    · obtain ⟨k, hk, -⟩ := (mem_slotsWhere _ _ _).1 (hperm.mem_iff.1 hmem)
      rw [(hcloses i hmem k rfl hk).2] at hi
      exact (Option.some_inj.1 hi).symm
    · rw [hother i (.inl hmem)] at hi
      cases o with
      | none => rfl
      | some k => exact absurd (hopen hi) hmem
  · obtain ⟨i, hi⟩ := List.mem_iff_getElem?.1 hk
    exact (hcloses i (hopen hi) k rfl hi).1
  · obtain ⟨i, -, k, hk, hfate⟩ := hpin x hx b hb
    exact ⟨k, List.mem_of_getElem? hk, by simpa using hfate⟩

/-- The candidate that a lone run opens, in the model and in the statements alike. -/
theorem newCand_eq_ofRun (ln : Line) (r : Run Nat) : newCand ln r = Candidate.ofRun ln r := by
  unfold newCand Candidate.ofRun
  rw [markTarget_aim]
  rfl

/-! ### Stage 4 within LINE_PUBLISH (R77, R78, R109) -/

/-- LINE_PUBLISH leads from `s` to `t`, with `v` the machine before stage 4: what stands before stage 4 and after it
appends no PINHOLE record and leaves the candidates alone. -/
structure AroundStage4 (ln : Line) (outs : List CellResult) (s v t : State)
    (before after : List (Nat × RecordBody)) : Prop where
  listBefore : v.list = s.list.pushAll before
  candsBefore : v.eng.work.cands = s.eng.work.cands
  latchBefore : v.eng.work.candLatch = s.eng.work.candLatch
  splitsBefore : v.eng.work.splits = s.eng.work.splits
  listAfter : t.list = (pinholeStage ln outs v).list.pushAll after
  cands : t.eng.pub.cands = (pinholeStage ln outs v).eng.work.cands
  latch : t.eng.pub.candLatch = (pinholeStage ln outs v).eng.work.candLatch
  splits : t.eng.pub.splits = (pinholeStage ln outs v).eng.work.splits
  streaks : t.eng.pub.streaks = v.eng.work.streaks
  cells : t.eng.pub.cells = v.eng.work.cells
  quietBefore : ∀ x ∈ before, ∀ b, x.2 ≠ .pinhole b
  quietAfter : ∀ x ∈ after, ∀ b, x.2 ≠ .pinhole b

/-- The results of stages 1 and 2 that a line hands on to the later stages. -/
def Line.results (ln : Line) (s : State) : List CellResult :=
  (ln.workCells 0 s.eng.work.cells ln.slot.cells).map Prod.snd

theorem linePublish_aroundStage4 {i : Fin 4} {ln : Line} {s : State} (h : s.lineInWork i ln) :
    ∃ t v before after, exec .linePublish s = .next t ∧ AroundStage4 ln (ln.results s) s v t before after := by
  obtain ⟨t, hexec, hlist, hpub⟩ := linePublish_answers h
  let v := streakStage ln (ln.results s) (cellStages ln s).2
  let w := pinholeStage ln (ln.results s) v
  obtain ⟨⟨before, hbefore, hquiet⟩, hcands, hlatch, hsplits⟩ : NoCandWork s v :=
    NoCandWork.trans (t := (cellStages ln s).2) ⟨⟨[], rfl, by simp⟩, rfl, rfl, rfl⟩ (streakStage_noCand ln _ _)
  obtain ⟨⟨after, hafter, hquiet'⟩, hcands', hlatch', hsplits'⟩ : NoCandWork w (tallyStage ln.slot w) :=
    tallyStage_noCand ln.slot w
  have hwork := ((pinholeStage_noStreak ln (ln.results s) v).trans (tallyStage_noStreak ln.slot w)).work
  have hruns : runStages ln s = tallyStage ln.slot w := rfl
  rw [hruns] at hlist hpub
  refine ⟨t, v, before, after, hexec, hbefore, hcands, hlatch, hsplits, hlist.trans hafter, ?_, ?_, ?_, ?_, ?_, hquiet,
    hquiet'⟩
  · rw [hpub]; exact hcands'
  · rw [hpub]; exact hlatch'
  · rw [hpub]; exact hsplits'
  · rw [hpub, hwork]
  · rw [hpub, hwork]

/-- The lone runs lead from `u` to the published tables of `t` and append `zs` (R107, R108). -/
structure LoneRunsDone (ln : Line) (lone : List (Run Nat)) (u t : State) (zs : List (Nat × RecordBody)) : Prop where
  keeps : ∀ (j : Nat) (k : Candidate), u.eng.work.cands[j]? = some (some k) → t.eng.pub.cands[j]? = some (some k)
  fills : ∀ j : Nat, u.eng.work.cands[j]? = some none → t.leftByCandidate ln j
  room : lone.length ≤ u.eng.work.cands.count none → t.eng.pub.splits = u.eng.work.splits ∧ ∀ r ∈ lone,
    (1 < ln.copy.pmax → ∃ j : Nat, t.eng.pub.cands[j]? = some (some (Candidate.ofRun ln r))) ∧
    (ln.copy.pmax ≤ 1 → (ln.slot.w, (Candidate.ofRun ln r).record true false false) ∈ zs)
  full : (∀ o ∈ u.eng.work.cands, o ≠ none) →
    (lone ≠ [] → t.eng.pub.splits = min (u.eng.work.splits + lone.length) 65535) ∧
    (t.eng.pub.candLatch = true ↔ u.eng.work.candLatch = true ∨ lone ≠ []) ∧
    (∀ r ∈ lone, (ln.slot.w, (Candidate.ofRun ln r).record false true false) ∈ zs) ∧
    ∀ r more, lone = r :: more → u.eng.work.candLatch = false →
      (ln.slot.w, .event .candidateTableFull r.key) ∈ zs
  pinholes : ∀ x ∈ zs, ∀ b, x.2 = .pinhole b → ∃ r ∈ lone,
    ln.copy.pmax ≤ 1 ∧ x = (ln.slot.w, (Candidate.ofRun ln r).record true false false) ∨
      u.eng.work.cands.count none < lone.length ∧ x = (ln.slot.w, (Candidate.ofRun ln r).record false true false)

section

variable {ln : Line} {outs : List CellResult} {s v t : State} {before after ys : List (Nat × RecordBody)}

/-- The line's records: those of stage 4 stand between the others. -/
theorem AroundStage4.list (h : AroundStage4 ln outs s v t before after)
    (hw : (pinholeStage ln outs v).list = v.list.pushAll ys) : t.list = s.list.pushAll (before ++ ys ++ after) := by
  rw [h.listAfter, hw, h.listBefore, pushAll_append, pushAll_append]

/-- The line's PINHOLE records are those of stage 4. -/
theorem AroundStage4.pinhole_mem (h : AroundStage4 ln outs s v t before after) {x : Nat × RecordBody}
    (hx : x ∈ before ++ ys ++ after) {b : PinholeBody} (hb : x.2 = .pinhole b) : x ∈ ys := by
  rcases List.mem_append.1 hx with hx | hx
  · rcases List.mem_append.1 hx with hx | hx
    · exact absurd hb (h.quietBefore x hx b)
    · exact hx
  · exact absurd hb (h.quietAfter x hx b)

theorem AroundStage4.loneRunsDone (h : AroundStage4 ln outs s v t before after) {lone : List (Run Nat)} {u : State}
    (hw : pinholeStage ln outs v = lone.foldl (lonePinholeRun ln) u) :
    ∃ zs, (pinholeStage ln outs v).list = u.list.pushAll zs ∧ LoneRunsDone ln lone u t zs := by
  obtain ⟨w, zs, hw', hlist, -, hkeeps, hfills, hroom, hfull, hpin⟩ := lonePinholeRuns_fold ln lone u
  obtain rfl : pinholeStage ln outs v = w := hw.trans hw'
  simp only [newCand_eq_ofRun, ← h.cands, ← h.latch, ← h.splits] at hkeeps hfills hroom hfull hpin
  exact ⟨zs, hlist, hkeeps, hfills, hroom, fun hall => (hfull hall).2, hpin⟩

end

/-! ### A line of another patch (R101) -/

theorem otherPatch_iff {s : State} {patch : Nat} :
    s.otherPatch patch = true ↔ ∃ k, some k ∈ s.eng.work.cands ∧ k.patch ≠ patch := by
  unfold State.otherPatch
  rw [List.any_eq_true]
  constructor
  · rintro ⟨_ | k, hk, hp⟩
    · cases hp
    · exact ⟨k, hk, by simpa using hp⟩
  · rintro ⟨k, hk, hp⟩
    exact ⟨some k, hk, by simpa using hp⟩

/-- When the candidates are of another patch, they all close, and every run meets an empty table. -/
theorem AroundStage4.otherPatch {ln : Line} {outs : List CellResult} {s v t : State}
    {before after : List (Nat × RecordBody)} (h : AroundStage4 ln outs s v t before after)
    (hcoated : ln.slot.zone.coated = true) (hother : v.otherPatch ln.slot.patchNum = true) {runs : List (Run Nat)}
    (hruns : runs = pinholeRuns v.eng.work.streaks (v.eng.work.cells.zip outs)) :
    ∃ u cs ys zs, t.list = s.list.pushAll (before ++ (cs ++ ys ++ zs) ++ after) ∧ LoneRunsDone ln runs u t zs ∧
      u.eng.work.splits = v.eng.work.splits ∧ u.eng.work.cands.length = v.eng.work.cands.length ∧
      (∀ o ∈ u.eng.work.cands, o = none) ∧ (∀ x ∈ ys, ∀ b, x.2 ≠ .pinhole b) ∧
      (∀ k, some k ∈ v.eng.work.cands → (k.firstW, k.record false false false) ∈ cs) ∧
      ∀ x ∈ cs, ∀ b, x.2 = .pinhole b →
        ∃ k, some k ∈ v.eng.work.cands ∧ x = (k.firstW, k.record false false false) := by
  obtain ⟨u₀, cs, hu₀, hlist₀, hwork₀, hsize₀, hempty₀, hcloses, hpin⟩ :=
    closeCands_all ln.copy.markerFields v
  have hw : pinholeStage ln outs v = pinholeLine ln outs u₀ := by
    rw [pinholeStage_coated hcoated, if_pos hother, hu₀]
  obtain ⟨u, ys, htracked, hline⟩ := pinholeLine_tracked hcoated outs u₀ (runs := runs) (by rw [hwork₀]; exact hruns)
  rw [loneRuns_empty hempty₀] at hline
  obtain ⟨zs, hlist, hdone⟩ := h.loneRunsDone (hw.trans hline)
  refine ⟨u, cs, ys, zs, h.list ?_, hdone, by rw [htracked.work, hwork₀], htracked.size.trans hsize₀, fun o ho => ?_,
    fun x hx b hb => ?_, hcloses, hpin⟩
  · rw [hlist, htracked.list, hlist₀, pushAll_append, pushAll_append]
  · obtain ⟨i, hi⟩ := List.mem_iff_getElem?.1 ho
    have hlt : i < u₀.eng.work.cands.length := htracked.size ▸ (List.getElem?_eq_some_iff.1 hi).1
    have hnone := List.getElem?_eq_getElem hlt
    rw [hempty₀ _ (List.getElem_mem hlt)] at hnone
    rw [htracked.empty i hnone] at hi
    exact (Option.some_inj.1 hi).symm
  · rcases htracked.pinholes x hx b hb with ⟨k, hk, -⟩ | ⟨c, -, j, k, -, hk, -⟩
    · cases hempty₀ _ hk
    · cases hempty₀ _ (List.mem_of_getElem? hk)

/-! ### A line of the candidates' patch (R102 to R108) -/

/-- When no candidate is of another patch, steps 2 and 3 and the lone runs are all of stage 4. -/
theorem AroundStage4.samePatch {ln : Line} {outs : List CellResult} {s v t : State}
    {before after : List (Nat × RecordBody)} (h : AroundStage4 ln outs s v t before after)
    (hcoated : ln.slot.zone.coated = true) (hsame : ¬ v.otherPatch ln.slot.patchNum = true) {runs : List (Run Nat)}
    (hruns : runs = pinholeRuns v.eng.work.streaks (v.eng.work.cells.zip outs)) :
    ∃ u ys zs, t.list = s.list.pushAll (before ++ (ys ++ zs) ++ after) ∧ Tracked ln outs runs v u ys ∧
      LoneRunsDone ln (loneRuns v.eng.work.cands runs) u t zs := by
  obtain ⟨u, ys, htracked, hline⟩ := pinholeLine_tracked hcoated outs v hruns
  have hstage : pinholeStage ln outs v = pinholeLine ln outs v := by
    rw [pinholeStage_coated hcoated, if_neg hsame]
  obtain ⟨zs, hlist, hdone⟩ := h.loneRunsDone (hstage.trans hline)
  rw [htracked.list, ← pushAll_append] at hlist
  exact ⟨u, ys, zs, h.list hlist, htracked, hdone⟩

section

variable {ln : Line} {outs : List CellResult} {runs lone : List (Run Nat)} {s u t : State}
  {ys zs : List (Nat × RecordBody)} {j : Nat} {k : Candidate}

/-- A candidate that no run matches is held or closes (R106). -/
theorem Tracked.unmatched (h : Tracked ln outs runs s u ys) (hdone : LoneRunsDone ln lone u t zs)
    (hk : s.eng.work.cands[j]? = some (some k)) (hno : ∀ r ∈ runs, ¬ k.met r) :
    (extentAbsent outs k.extL k.extR = true → t.eng.pub.cands[j]? = some (some { k with held := true })) ∧
    (¬ extentAbsent outs k.extL k.extR = true →
      (k.firstW, k.record false false false) ∈ ys ∧ t.leftByCandidate ln j) := by
  refine ⟨fun habs => hdone.keeps j _ (h.held j k hk hno habs), fun habs => ?_⟩
  obtain ⟨hrec, hgone⟩ := h.closes j k hk hno (Bool.not_eq_true _ ▸ habs)
  exact ⟨hrec, hdone.fills j hgone⟩

/-- Of the candidates that a run joins, when no run joins them to others, the oldest is the survivor of their
component, whose slots are theirs. -/
theorem candComps_of_closed {cands : List (Option Candidate)} {r₀ : Run Nat} (hk : cands[j]? = some (some k))
    (hr₀ : r₀ ∈ runs) (hm : k.met r₀)
    (hclosed : ∀ r ∈ runs, ∀ a b, some a ∈ cands → some b ∈ cands → a.met r → b.met r → a.met r₀ → b.met r₀)
    (holdest : ∀ l a, l ≠ j → cands[l]? = some (some a) → a.met r₀ →
      k.firstW < a.firstW ∨ k.firstW = a.firstW ∧ j < l) :
    ∃ c ∈ candComps cands runs, candSurvivor cands c.slots = some j ∧
      (∀ l, l ∈ c.slots ↔ ∃ a, cands[l]? = some (some a) ∧ a.met r₀) ∧
      ∀ r, r ∈ c.runs ↔ r ∈ runs ∧ ∃ a, some a ∈ cands ∧ a.met r₀ ∧ a.met r := by
  have hspec := componentsOf_spec (candSlotsOf cands) runs
  obtain ⟨c, hc, hne, hslots, hcruns⟩ := hspec.of_closed hr₀ (List.ne_nil_of_mem (mem_candSlotsOf.2 ⟨k, hk, hm⟩))
    fun r hr i hi hi₀ l hl => by
      obtain ⟨a, ha, har⟩ := mem_candSlotsOf.1 hi
      obtain ⟨a', ha', ha₀⟩ := mem_candSlotsOf.1 hi₀
      obtain ⟨b, hb, hbr⟩ := mem_candSlotsOf.1 hl
      rw [ha] at ha'
      cases ha'
      exact mem_candSlotsOf.2 ⟨b, hb,
        hclosed r hr a b (List.mem_of_getElem? ha) (List.mem_of_getElem? hb) har hbr ha₀⟩
  have hmem : c ∈ candComps cands runs := mem_candComps.2 ⟨hc, hne⟩
  simp only [mem_candSlotsOf] at hslots hcruns
  refine ⟨c, hmem, ?_, hslots, fun r => (hcruns r).trans (and_congr_right fun _ => ?_)⟩
  · obtain ⟨j', k', hj', hj'c, hk', holdest'⟩ := candComps_survivor hmem
    rw [hj', Option.some_inj]
    by_contra hne'
    obtain ⟨a, ha, ham⟩ := (hslots j').1 hj'c
    rw [hk'] at ha
    cases ha
    have h1 := holdest j' k' hne' hk' ham
    have h2 := holdest' j ((hslots j).2 ⟨k, hk, hm⟩) (Ne.symm hne') k hk
    omega
  · constructor
    · rintro ⟨i, ⟨a, ha, ha₀⟩, a', ha', har⟩
      rw [ha] at ha'
      cases ha'
      exact ⟨a, List.mem_of_getElem? ha, ha₀, har⟩
    · rintro ⟨a, ha, ha₀, har⟩
      obtain ⟨i, hi⟩ := List.mem_iff_getElem?.1 ha
      exact ⟨i, ⟨a, hi, ha₀⟩, a, hi, har⟩

theorem candComps_runs_nodup {cands : List (Option Candidate)} (hn : runs.Nodup) {c : Component Nat}
    (hc : c ∈ candComps cands runs) : c.runs.Nodup :=
  (componentsOf_spec (candSlotsOf cands) runs).runsNodup hn c (mem_candComps.1 hc).1

theorem candComps_slots_nodup {cands : List (Option Candidate)} {c : Component Nat}
    (hc : c ∈ candComps cands runs) : c.slots.Nodup :=
  (componentsOf_spec (candSlotsOf cands) runs).nodup (fun _ _ => slotsWhere_nodup _ _) c (mem_candComps.1 hc).1

/-- The survivor of a component stays, extended, or closes LONG; the others of the component leave the table (R103,
R105). -/
theorem Tracked.survivor (h : Tracked ln outs runs s u ys) (hdone : LoneRunsDone ln lone u t zs) {c : Component Nat}
    (hc : c ∈ candComps s.eng.work.cands runs) (hj : candSurvivor s.eng.work.cands c.slots = some j)
    (hk : s.eng.work.cands[j]? = some (some k)) {x : Candidate} (hx : x = joinedCand ln s.eng.work.cands c j k) :
    (x.lines < ln.copy.pmax → t.eng.pub.cands[j]? = some (some x)) ∧
    (ln.copy.pmax ≤ x.lines → (x.firstW, x.record true false false) ∈ ys ∧ t.leftByCandidate ln j) ∧
    ∀ l ∈ c.slots, l ≠ j → t.leftByCandidate ln l := by
  subst hx
  rw [joinedCand_lines ln hc, joinedCand_firstW]
  refine ⟨fun hlt => hdone.keeps j _ (h.stays c hc j k hj hk hlt), fun hle => ?_,
    fun l hl hne => hdone.fills l (h.absorbed c hc j hj l hl hne)⟩
  obtain ⟨hrec, hgone⟩ := h.long c hc j k hj hk hle
  exact ⟨hrec, hdone.fills j hgone⟩

/-- The line's PINHOLE records for the candidates open before it: an ordinary close of one that no run matches, or a
LONG close of one that is the oldest of those it shares a run with. -/
theorem Tracked.pinhole_cases (h : Tracked ln outs runs s u ys) {x : Nat × RecordBody} (hx : x ∈ ys) {b : PinholeBody}
    (hb : x.2 = .pinhole b) :
    (∃ k, some k ∈ s.eng.work.cands ∧ (∀ r ∈ runs, ¬ k.met r) ∧ x = (k.firstW, k.record false false false)) ∨
    ∃ (j : Nat) (k : Candidate) (m : List (Run Nat)) (absorbed : List Candidate) (y : Candidate),
      s.eng.work.cands[j]? = some (some k) ∧ (∃ r ∈ runs, k.met r) ∧ ln.copy.pmax ≤ k.lines + 1 ∧
      (∀ (l : Nat) (a : Candidate), l ≠ j → s.eng.work.cands[l]? = some (some a) →
        (∃ r ∈ runs, k.met r ∧ a.met r) → k.firstW < a.firstW ∨ k.firstW = a.firstW ∧ j < l) ∧
      y = k.extended ln.slot.w ln.slot.zone.hasTrail m absorbed ∧ x = (k.firstW, y.record true false false) := by
  refine (h.pinholes x hx b hb).imp_right ?_
  rintro ⟨c, hc, j, k, hj, hk, hle, rfl⟩
  obtain ⟨j', k', hj', hjc, hk', holdest⟩ := candComps_survivor hc
  rw [hj] at hj'
  cases hj'
  rw [hk] at hk'
  cases hk'
  obtain ⟨r, -, hr, k', hk', hm⟩ := candComps_slot hc hjc
  rw [hk] at hk'
  cases hk'
  refine ⟨j, k, _, _, _, hk, ⟨r, hr, hm⟩, hle, fun l a hne ha hshare => ?_, rfl, rfl⟩
  obtain ⟨q, hq, hkq, haq⟩ := hshare
  obtain ⟨d, hd, hqd, hld⟩ := candComps_of_met hq ha haq
  have hjd : j ∈ d.slots := ((componentsOf_spec (candSlotsOf s.eng.work.cands) runs).slots d (mem_candComps.1 hd).1 j).2
    ⟨q, hqd, mem_candSlotsOf.2 ⟨k, hk, hkq⟩⟩
  obtain rfl := candComps_eq_of_slot hc hd hjc hjd
  exact holdest l hld hne a ha

/-- A full table stays full when every candidate is held or extended alone below PMAX. -/
theorem Tracked.stays_full (h : Tracked ln outs runs s u ys) (hfull : ∀ o ∈ s.eng.work.cands, o ≠ none)
    (hall : ∀ k, some k ∈ s.eng.work.cands →
      ((∀ r ∈ runs, ¬ k.met r) → extentAbsent outs k.extL k.extR = true) ∧ k.lines + 1 < ln.copy.pmax)
    (hone : ∀ c ∈ candComps s.eng.work.cands runs, ∀ l ∈ c.slots, ∀ l' ∈ c.slots, l = l') :
    ∀ o ∈ u.eng.work.cands, o ≠ none := by
  rintro _ ho rfl
  obtain ⟨i, hi⟩ := List.mem_iff_getElem?.1 ho
  have hlt : i < s.eng.work.cands.length := h.size ▸ (List.getElem?_eq_some_iff.1 hi).1
  obtain ⟨k, hk⟩ := Option.ne_none_iff_exists'.1 (hfull _ (List.getElem_mem hlt))
  have hget : s.eng.work.cands[i]? = some (some k) := (List.getElem?_eq_getElem hlt).trans (congrArg some hk)
  obtain ⟨hheld, hlines⟩ := hall k (List.mem_of_getElem? hget)
  by_cases hno : ∀ r ∈ runs, ¬ k.met r
  · rw [h.held i k hget hno (hheld hno)] at hi
    cases hi
  · push Not at hno
    obtain ⟨r, hr, hm⟩ := hno
    obtain ⟨c, hc, -, hic⟩ := candComps_of_met hr hget hm
    obtain ⟨j, -, hj, hjc, -⟩ := candComps_survivor hc
    obtain rfl := hone c hc i hic j hjc
    rw [h.stays c hc i k hj hget hlines] at hi
    cases hi

/-- A full table in which every candidate is held or extended alone below PMAX: each lone run is SPLIT and counted, and
the first sets the latch (R108). -/
theorem Tracked.full (h : Tracked ln outs runs s u ys) (hdone : LoneRunsDone ln lone u t zs)
    (hfull : ∀ o ∈ s.eng.work.cands, o ≠ none)
    (hall : ∀ k, some k ∈ s.eng.work.cands →
      ((∀ r ∈ runs, ¬ k.met r) → extentAbsent outs k.extL k.extR = true) ∧ k.lines + 1 < ln.copy.pmax)
    (hone : ∀ r ∈ runs, ∀ (j k : Nat) (a b : Candidate), s.eng.work.cands[j]? = some (some a) →
      s.eng.work.cands[k]? = some (some b) → a.met r → b.met r → j = k) :
    (lone ≠ [] → t.eng.pub.splits = min (s.eng.work.splits + lone.length) 65535) ∧
    (t.eng.pub.candLatch = true ↔ s.eng.work.candLatch = true ∨ lone ≠ []) ∧
    (∀ r ∈ lone, (ln.slot.w, (Candidate.ofRun ln r).record false true false) ∈ zs) ∧
    ∀ r more, lone = r :: more → s.eng.work.candLatch = false →
      (ln.slot.w, .event .candidateTableFull r.key) ∈ zs := by
  have hsingle : ∀ c ∈ candComps s.eng.work.cands runs, ∀ l ∈ c.slots, ∀ l' ∈ c.slots, l = l' :=
    fun c hc l hl l' hl' => candComps_single hone hc hl hl'
  have hsplits : u.eng.work.splits = s.eng.work.splits := by rw [h.work]
  rw [← h.latch hsingle hall, ← hsplits]
  exact hdone.full (h.stays_full hfull hall hsingle)

end

/-! ### The statement -/

/-- The runs of a line stand apart, so that no two are the same. -/
theorem pinholeRuns_nodup (t : List (Option Streak)) (cells : List (CellRec × CellResult)) :
    (pinholeRuns t cells).Nodup := by
  obtain ⟨-, hgathers, hapart⟩ : RunsOf _ cells (pinholeRuns t cells) := runsFrom_runsOf _ cells
  refine hapart.imp_of_mem ?_
  rintro r _ hr - hlt rfl
  exact absurd hlt.1 (Nat.not_lt.2 (hgathers r hr).ordered)

/-- Settles O28: on a line of another patch the closes and the lone runs are all of stage 4; else each candidate is
unmatched, the oldest of its component, or absorbed. -/
theorem candidatesOnLine : Obligations.CandidatesOnLine := by
  intro i ln s hin hshape hcoated
  obtain ⟨t, v, before, after, hexec, haround⟩ := linePublish_aroundStage4 hin
  have hruns : pinholeRuns t.eng.pub.streaks
        (t.eng.pub.cells.zip ((ln.workCells 0 s.eng.work.cells ln.slot.cells).map Prod.snd)) =
      pinholeRuns v.eng.work.streaks (v.eng.work.cells.zip (ln.results s)) := by
    rw [haround.streaks, haround.cells]
    rfl
  have habsent : ∀ k : Candidate, extentAbsent (ln.results s) k.extL k.extR = true ↔
      ∃ c, k.extL ≤ c ∧ c ≤ k.extR ∧ c < s.eng.work.cells.length ∧ ln.unseen c :=
    fun k => extentAbsent_iff ln hshape _ _ _ _
  have hnodup := pinholeRuns_nodup v.eng.work.streaks (v.eng.work.cells.zip (ln.results s))
  rw [← haround.candsBefore, ← haround.latchBefore, ← haround.splitsBefore]
  by_cases hother : ∃ k, some k ∈ v.eng.work.cands ∧ k.patch ≠ ln.slot.patchNum
  · obtain ⟨u, cs, ys, zs, hlist, hdone, hsplits, hsize, hempty, hys, hcloses, hpin⟩ :=
      haround.otherPatch hcoated (otherPatch_iff.2 hother) hruns
    have hcount : u.eng.work.cands.count none = v.eng.work.cands.length := by
      rw [← hsize]
      exact List.count_eq_length.2 fun o ho => (hempty o ho).symm
    refine ⟨t, _, _, hexec, hlist, rfl, fun _ => ⟨fun j k hk => ⟨?_, ?_⟩, fun x hx b hb => ?_, fun hle => ?_⟩,
      fun hsame => ?_⟩
    · have hrec := hcloses k (List.mem_of_getElem? hk)
      simp only [List.mem_append, hrec, true_or, or_true]
    · have hlt : j < u.eng.work.cands.length := hsize ▸ (List.getElem?_eq_some_iff.1 hk).1
      refine hdone.fills j ?_
      rw [List.getElem?_eq_getElem hlt, hempty _ (List.getElem_mem hlt)]
    · have hx' := haround.pinhole_mem hx hb
      rw [List.mem_append, List.mem_append] at hx'
      rcases hx' with (hx' | hx') | hx'
      · exact .inl (hpin x hx' b hb)
      · exact absurd hb (hys x hx' b)
      · rw [← hcount]
        exact .inr (hdone.pinholes x hx' b hb)
    · obtain ⟨hs, hopen⟩ := hdone.room (hcount ▸ hle)
      refine ⟨hs.trans hsplits, fun r hr => ⟨(hopen r hr).1, fun hp => ?_⟩⟩
      have hrec := (hopen r hr).2 hp
      simp only [List.mem_append, hrec, true_or, or_true]
    · obtain ⟨k, hk, hne⟩ := hother
      exact absurd (hsame k hk) hne
  · obtain ⟨u, ys, zs, hlist, htracked, hdone⟩ :=
      haround.samePatch hcoated (mt otherPatch_iff.1 hother) hruns
    have hsub : ∀ {x}, x ∈ ys → x ∈ before ++ (ys ++ zs) ++ after := fun hx => by
      simp only [List.mem_append, hx, true_or, or_true]
    have hsub' : ∀ {x}, x ∈ zs → x ∈ before ++ (ys ++ zs) ++ after := fun hx => by
      simp only [List.mem_append, hx, true_or, or_true]
    rw [← hruns] at hnodup
    refine ⟨t, _, _, hexec, hlist, rfl, fun h => absurd h hother,
      fun _ => ⟨fun j k hk hno => ?_, fun j k r₀ hk hr₀ hm hclosed holdest => ?_, fun lone hlone hmem => ?_⟩⟩
    · obtain ⟨hheld, hgone⟩ := htracked.unmatched hdone hk hno
      refine ⟨fun h => hheld ((habsent k).2 h), fun h => ?_⟩
      obtain ⟨hrec, hleft⟩ := hgone fun habs => by
        obtain ⟨c, h1, h2, h3, h4⟩ := (habsent k).1 habs
        exact h c h1 h2 h3 h4
      exact ⟨hsub hrec, hleft⟩
    · obtain ⟨c, hc, hj, hslots, hcruns⟩ := candComps_of_closed hk hr₀ hm hclosed holdest
      obtain ⟨hstays, hlong, hleft⟩ := htracked.survivor hdone hc hj hk rfl
      refine ⟨c.runs, c.slots.filter fun l => l != j, _, candComps_runs_nodup hnodup hc, hcruns,
        (candComps_slots_nodup hc).filter _, fun l => ?_, rfl, hstays, fun hle => ?_, fun l hl => ?_⟩
      · rw [List.mem_filter, bne_iff_ne, hslots, and_comm]
      · exact ⟨hsub (hlong hle).1, (hlong hle).2⟩
      · obtain ⟨hlc, hne⟩ := List.mem_filter.1 hl
        exact hleft l hlc (bne_iff_ne.1 hne)
    · obtain rfl : lone = loneRuns v.eng.work.cands _ := filter_of_sublist hnodup _ hlone fun r => by
        rw [hmem, candSlotsOf_isEmpty]
      have hcount := count_none_le htracked.size htracked.empty
      refine ⟨fun x hx b hb => ?_, fun hle => ?_, fun hfull hall hone => ?_⟩
      · rcases List.mem_append.1 (haround.pinhole_mem hx hb) with hx' | hx'
        · exact (htracked.pinhole_cases hx' hb).imp_right .inl
        · obtain ⟨r, hr, h⟩ := hdone.pinholes x hx' b hb
          exact .inr (.inr ⟨r, hr, h.imp_right fun h => ⟨hcount.trans_lt h.1, h.2⟩⟩)
      · obtain ⟨hs, hopen⟩ := hdone.room (hle.trans hcount)
        exact ⟨hs.trans (by rw [htracked.work]), fun r hr => ⟨(hopen r hr).1, fun hp => hsub' ((hopen r hr).2 hp)⟩⟩
      · obtain ⟨hsplits, hlatch, hsplit, hnotice⟩ := htracked.full hdone hfull
          (fun k hk => ⟨fun hno => (habsent k).2 ((hall k hk).1 hno), (hall k hk).2⟩) hone
        exact ⟨hsplits, hlatch, fun r hr => hsub' (hsplit r hr), fun r more he hl => hsub' (hnotice r more he hl)⟩

end Sys2Proof.Machine
end

section
/-! SUPPORT. A lone streak run (R126, R127, R132, R134, O25): the streak it opens in the lowest empty slot, with its
mark action, or its refusal. -/

namespace Sys2Proof.Machine

/-- The lowest empty slot is the one below which every slot is occupied. -/
theorem emptySlot_eq_some {α : Type} {t : List (Option α)} {i : Nat} (hi : t[i]? = some none)
    (hlow : ∀ j, j < i → t.getD j none ≠ none) : emptySlot t = some i := by
  obtain ⟨hlt, hnone⟩ := List.getElem?_eq_some_iff.1 hi
  refine List.findIdx?_eq_some_iff_getElem.2 ⟨hlt, by rw [hnone]; rfl, fun j hj hempty => ?_⟩
  refine hlow j hj ?_
  rw [List.getD_eq_getElem _ _ (hj.trans hlt)]
  exact Option.isNone_iff_eq_none.1 hempty

section

variable (ln : Line) (r : Run (Nat × Polarity)) (i : Nat) (s : State)

/-- The machine with the streak of a lone run in slot `i`, its record appended and counted, before the record's mark
action is handed on (R126, R132). -/
def State.withStreakOpened : State :=
  append ln.slot.w (openRecord ln r).2 { s with eng := { s.eng with
    contribs := s.eng.contribs ++ [.streakOpen ln.slot.patchNum]
    work := { s.eng.work with
      cells := joinMembers i r s.eng.work.cells
      streaks := s.eng.work.streaks.set i (some (newStreak ln.slot.w ln.slot.patchNum s.list.next r)) } } }

/-- Without a mark target the record and its count are all of the opening (R134). -/
theorem openStreak_unmarked (h : ln.aim r.key.1 r.profile = none) :
    openStreak ln r i s = s.withStreakOpened ln r i := by
  rw [← markTarget_aim] at h
  simp only [openStreak, h]
  rfl

/-- With a mark target the record's mark action follows (R134). -/
theorem openStreak_marked {m : Marker} (h : ln.aim r.key.1 r.profile = some m) :
    openStreak ln r i s =
      handAction m (ln.copy.markerFields m) ln.slot.w ln.slot.patchNum (s.withStreakOpened ln r i) := by
  rw [← markTarget_aim] at h
  simp only [openStreak, h]
  rfl

end

theorem joinMembers_length (i : Nat) (r : Run (Nat × Polarity)) (cells : List CellRec) :
    (joinMembers i r cells).length = cells.length := by
  rw [joinMembers, List.length_map, List.length_zipIdx]

/-- Which profiles and lanes leave a defect without a mark target. -/
theorem aim_eq_none {ln : Line} {lane profile : Nat} : ln.aim lane profile = none ↔
    (ln.copy.profile profile).markEnable ≠ 1 ∨ ((ln.copy.lane lane).marker ≠ 1 ∧ (ln.copy.lane lane).marker ≠ 2) := by
  unfold Line.aim
  split_ifs <;> simp_all

/-- Settles O25: the lowest empty slot takes the streak, its record's mark action following if there is a target; with
no empty slot the run is refused. -/
theorem loneRunOpensStreak : Obligations.LoneRunOpensStreak := by
  intro ln r s
  refine ⟨fun i hi hlow => ?_, fun hfull => ⟨_, rfl, ?_⟩⟩
  · have hopen : loneStreakRun ln s r = openStreak ln r i s := by
      simp only [loneStreakRun, emptySlot_eq_some hi hlow]
    refine ⟨joinMembers i r s.eng.work.cells, s.withStreakOpened ln r i, joinMembers_length _ _ _, fun c old hc => ?_,
      rfl, fun hnone => ?_, fun m f henable hlane hroom halone hwidth hsorted => ?_⟩
    · rw [joinMembers_get, hc]
      rfl
    · rw [hopen, openStreak_unmarked _ _ _ _ (aim_eq_none.2 hnone)]
    · have htarget : ln.aim r.key.1 r.profile = some m ∧ ln.copy.markerFields m = f := by
        obtain ⟨hmarker, rfl, rfl⟩ | ⟨hmarker, rfl, rfl⟩ := hlane <;>
          exact ⟨by simp [Line.aim, henable, hmarker], rfl⟩
      obtain ⟨haim, rfl⟩ := htarget
      obtain ⟨start, k, late, -, hahead, hdue, hperm, hstarts, hk, hhand⟩ :=
        handAction_alone (s := s.withStreakOpened ln r i) m (ln.copy.markerFields m) ln.slot.w ln.slot.patchNum
          hroom halone hwidth hsorted
      exact ⟨start, k, late, hahead, hdue, hperm, hstarts, hk, by rw [hopen, openStreak_marked _ _ _ _ haim, hhand]⟩
  · simp only [loneStreakRun, emptySlot_none_iff.2 hfull]
    rfl

end Sys2Proof.Machine
end

section
/-! SUPPORT. Steps 1 to 4 of stage 3 on a coated line (R121 to R125): the components of streaks and runs, and what the
line leaves of the streaks open before it. -/

namespace Sys2Proof.Machine

/-! ### The components with a streak (R122) -/

/-- The slots of the streaks that a run matches. -/
def streakSlotsOf (t : List (Option Streak)) (r : Run (Nat × Polarity)) : List Nat :=
  slotsWhere (fun st => st.matchedBy r) t

/-- The components with a streak. -/
def streakComps (t : List (Option Streak)) (runs : List (Run (Nat × Polarity))) : List (Component (Nat × Polarity)) :=
  (componentsOf (streakSlotsOf t) runs).filter fun c => !c.slots.isEmpty

/-- The runs that match no streak. -/
def unmatchedRuns (t : List (Option Streak)) (runs : List (Run (Nat × Polarity))) : List (Run (Nat × Polarity)) :=
  runs.filter fun r => (streakSlotsOf t r).isEmpty

section

variable {next i j : Nat} {t : List (Option Streak)} {runs : List (Run (Nat × Polarity))} {r : Run (Nat × Polarity)}
  {c : Component (Nat × Polarity)} {st : Streak}

theorem mem_streakSlotsOf : i ∈ streakSlotsOf t r ↔ ∃ st, t[i]? = some (some st) ∧ st.met r := by
  simp only [streakSlotsOf, mem_slotsWhere, Streak.matchedBy_iff]

/-- A run matches an occupied slot exactly when it matches the slot's streak. -/
theorem mem_streakSlotsOf_of_get (h : t[i]? = some (some st)) : i ∈ streakSlotsOf t r ↔ st.met r := by
  simp [mem_streakSlotsOf, h]

theorem streakSlotsOf_isEmpty : (streakSlotsOf t r).isEmpty = true ↔ ∀ st, some st ∈ t → ¬ st.met r := by
  rw [List.isEmpty_iff, List.eq_nil_iff_forall_not_mem]
  constructor
  · intro h st hst hm
    obtain ⟨i, hi⟩ := List.mem_iff_getElem?.1 hst
    exact h i ((mem_streakSlotsOf_of_get hi).2 hm)
  · intro h i hi
    obtain ⟨st, hst, hm⟩ := mem_streakSlotsOf.1 hi
    exact h st (List.mem_of_getElem? hst) hm

theorem mem_streakComps : c ∈ streakComps t runs ↔ c ∈ componentsOf (streakSlotsOf t) runs ∧ c.slots ≠ [] := by
  rw [streakComps, List.mem_filter, Bool.not_eq_true', ← Bool.not_eq_true, List.isEmpty_iff]

theorem streakComps_apart (t : List (Option Streak)) (runs : List (Run (Nat × Polarity))) :
    (streakComps t runs).Pairwise fun c d => ∀ i ∈ c.slots, i ∉ d.slots :=
  (componentsOf_spec (streakSlotsOf t) runs).apart.sublist List.filter_sublist

/-- Two components that share a slot are one. -/
theorem streakComps_eq_of_slot {d : Component (Nat × Polarity)} (hc : c ∈ streakComps t runs)
    (hd : d ∈ streakComps t runs) (hi : i ∈ c.slots) (hi' : i ∈ d.slots) : c = d :=
  (componentsOf_spec (streakSlotsOf t) runs).eq_of_slot (mem_streakComps.1 hc).1 (mem_streakComps.1 hd).1 hi hi'

/-- A slot of a component holds a streak that one of the component's runs matches. -/
theorem streakComps_slot (hc : c ∈ streakComps t runs) (hi : i ∈ c.slots) :
    ∃ r ∈ runs, ∃ st, t[i]? = some (some st) ∧ st.met r := by
  have hspec := componentsOf_spec (streakSlotsOf t) runs
  have hmem := (mem_streakComps.1 hc).1
  obtain ⟨r, hr, hir⟩ := (hspec.slots c hmem i).1 hi
  exact ⟨r, (hspec.mem r).2 ⟨c, hmem, hr⟩, mem_streakSlotsOf.1 hir⟩

/-- A run and a streak that match lie in one component. -/
theorem streakComps_of_met (hr : r ∈ runs) (hj : t[j]? = some (some st)) (hm : st.met r) :
    ∃ c ∈ streakComps t runs, j ∈ c.slots := by
  have hspec := componentsOf_spec (streakSlotsOf t) runs
  obtain ⟨c, hc, hrc⟩ := (hspec.mem r).1 hr
  have hjc : j ∈ c.slots := (hspec.slots c hc j).2 ⟨r, hrc, (mem_streakSlotsOf_of_get hj).2 hm⟩
  exact ⟨c, mem_streakComps.2 ⟨hc, List.ne_nil_of_mem hjc⟩, hjc⟩

/-- A streak lies in no component exactly when no run matches it. -/
theorem streakComps_unmatched (hj : t[j]? = some (some st)) :
    (∀ c ∈ streakComps t runs, j ∉ c.slots) ↔ ∀ r ∈ runs, ¬ st.met r := by
  constructor
  · intro h r hr hm
    obtain ⟨c, hc, hjc⟩ := streakComps_of_met hr hj hm
    exact h c hc hjc
  · intro h c hc hjc
    obtain ⟨r, hr, st', hst', hm⟩ := streakComps_slot hc hjc
    rw [hj] at hst'
    cases hst'
    exact h r hr hm

/-- When no run matches two streaks, every component has one streak. -/
theorem streakComps_single (hone : ∀ r ∈ runs, ∀ (j k : Nat) (a b : Streak), t[j]? = some (some a) →
    t[k]? = some (some b) → a.met r → b.met r → j = k) (hc : c ∈ streakComps t runs) (hi : i ∈ c.slots)
    (hj : j ∈ c.slots) : j = i := by
  refine (componentsOf_spec (streakSlotsOf t) runs).closed (· = i) ?_ c (mem_streakComps.1 hc).1 i hi rfl j hj
  rintro r hr l hl rfl m hm
  obtain ⟨a, ha, har⟩ := mem_streakSlotsOf.1 hl
  obtain ⟨b, hb, hbr⟩ := mem_streakSlotsOf.1 hm
  exact hone r hr m l b a hb ha hbr har

/-- Runs that stand apart share no cell from one component to the next. -/
theorem streakComps_runs_apart (hruns : runs.Pairwise fun r q => r.right < q.left) :
    (streakComps t runs).Pairwise fun c d => ∀ r ∈ c.runs, ∀ q ∈ d.runs, ∀ x : Nat,
      r.left ≤ x → x ≤ r.right → q.left ≤ x → x ≤ q.right → False := by
  have hspec := componentsOf_spec (streakSlotsOf t) runs
  refine (streakComps_apart t runs).imp_of_mem ?_
  intro c d hc hd hcd r hr q hq x h1 h2 h3 h4
  obtain ⟨hc, hne⟩ := mem_streakComps.1 hc
  have hd := (mem_streakComps.1 hd).1
  have hrq : r ≠ q := by
    rintro rfl
    obtain ⟨i, hi⟩ := List.exists_mem_of_ne_nil _ (hspec.matched c hc hne r hr)
    exact hcd i ((hspec.slots c hc i).2 ⟨r, hr, hi⟩) ((hspec.slots d hd i).2 ⟨r, hq, hi⟩)
  rcases pairwise_of_ne hruns ((hspec.mem r).2 ⟨c, hc, hr⟩) ((hspec.mem q).2 ⟨d, hd, hq⟩) hrq with h | h <;> omega

/-- The distance of the streak in a slot. -/
theorem distanceAt_eq (h : t[i]? = some (some st)) : distanceAt next t i = streakDistance next st.openSeq := by
  rw [distanceAt, entryAt_some.2 h]

theorem survivorOf_mem {slots : List Nat} (h : survivorOf next t slots = some j) : j ∈ slots :=
  (streakAgeOrder_perm next t slots).mem_iff.1 (List.mem_of_mem_head? h)

/-- A component has an oldest streak, behind which no other of the component lies farther (R119). -/
theorem streakComps_survivor (next : Nat) (hc : c ∈ streakComps t runs) : ∃ j st,
    survivorOf next t c.slots = some j ∧ j ∈ c.slots ∧ t[j]? = some (some st) ∧
      ∀ k ∈ c.slots, ∀ a, t[k]? = some (some a) →
        streakDistance next a.openSeq ≤ streakDistance next st.openSeq := by
  obtain ⟨j, hj, hjc, holdest⟩ := survivorOf_spec (next := next) (t := t) (mem_streakComps.1 hc).2
  obtain ⟨-, -, st, hst, -⟩ := streakComps_slot hc hjc
  refine ⟨j, st, hj, hjc, hst, fun k hk a ha => ?_⟩
  rw [← distanceAt_eq ha, ← distanceAt_eq hst]
  exact holdest k hk

/-- Of the streaks that a run joins, when no run joins them to others, the oldest is the survivor of their component,
whose slots are theirs. -/
theorem streakComps_of_closed {r₀ : Run (Nat × Polarity)} (hj : t[j]? = some (some st)) (hr₀ : r₀ ∈ runs)
    (hm : st.met r₀)
    (hclosed : ∀ r ∈ runs, ∀ a b, some a ∈ t → some b ∈ t → a.met r → b.met r → a.met r₀ → b.met r₀)
    (holdest : ∀ k a, k ≠ j → t[k]? = some (some a) → a.met r₀ →
      streakDistance next a.openSeq < streakDistance next st.openSeq) :
    ∃ c ∈ streakComps t runs, survivorOf next t c.slots = some j ∧
      (∀ k a, t[k]? = some (some a) → a.met r₀ → k ∈ c.slots) ∧
      ∀ r, r ∈ c.runs ↔ r ∈ runs ∧ ∃ a, some a ∈ t ∧ a.met r₀ ∧ a.met r := by
  obtain ⟨c, hc, hne, hslots, hcruns⟩ := (componentsOf_spec (streakSlotsOf t) runs).of_closed hr₀
    (List.ne_nil_of_mem ((mem_streakSlotsOf_of_get hj).2 hm)) fun r hr i hi hi₀ l hl => by
      obtain ⟨a, ha, har⟩ := mem_streakSlotsOf.1 hi
      obtain ⟨b, hb, hbr⟩ := mem_streakSlotsOf.1 hl
      have ha₀ := (mem_streakSlotsOf_of_get ha).1 hi₀
      exact (mem_streakSlotsOf_of_get hb).2
        (hclosed r hr a b (List.mem_of_getElem? ha) (List.mem_of_getElem? hb) har hbr ha₀)
  have hmem : c ∈ streakComps t runs := mem_streakComps.2 ⟨hc, hne⟩
  have hin : ∀ k a, t[k]? = some (some a) → a.met r₀ → k ∈ c.slots :=
    fun k a ha ham => (hslots k).2 ((mem_streakSlotsOf_of_get ha).2 ham)
  refine ⟨c, hmem, ?_, hin, fun r => (hcruns r).trans (and_congr_right fun _ => ⟨?_, ?_⟩)⟩
  · obtain ⟨j', a, hj', hj'c, ha, hle⟩ := streakComps_survivor next hmem
    rw [hj', Option.some_inj]
    by_contra hne'
    have hlt := holdest j' a hne' ha ((mem_streakSlotsOf_of_get ha).1 ((hslots j').1 hj'c))
    exact absurd (hle j (hin j st hj hm) st hj) (Nat.not_le.2 hlt)
  · rintro ⟨i, hi₀, hi⟩
    obtain ⟨a, ha, har⟩ := mem_streakSlotsOf.1 hi
    exact ⟨a, List.mem_of_getElem? ha, (mem_streakSlotsOf_of_get ha).1 hi₀, har⟩
  · rintro ⟨a, ha, ha₀, har⟩
    obtain ⟨i, hi⟩ := List.mem_iff_getElem?.1 ha
    exact ⟨i, (mem_streakSlotsOf_of_get hi).2 ha₀, (mem_streakSlotsOf_of_get hi).2 har⟩

end

/-! ### Steps 1 to 3: the patch update and the extension (R121, R123) -/

/-- The streaks with their patches brought up to date for a line of the given patch (R121). -/
def State.patchedStreaks (s : State) (patch : Nat) : List (Option Streak) :=
  s.eng.work.streaks.map fun o => o.map (Streak.onPatch patch)

section

variable {s : State} {patch i : Nat} {a : Streak}

theorem patchedStreaks_length (s : State) (patch : Nat) :
    (s.patchedStreaks patch).length = s.eng.work.streaks.length := List.length_map _

theorem patchedStreaks_open (h : s.eng.work.streaks[i]? = some (some a)) :
    (s.patchedStreaks patch)[i]? = some (some (a.onPatch patch)) := by
  rw [State.patchedStreaks, List.getElem?_map, h]; rfl

theorem patchedStreaks_empty (h : s.eng.work.streaks[i]? = some none) :
    (s.patchedStreaks patch)[i]? = some none := by
  rw [State.patchedStreaks, List.getElem?_map, h]; rfl

/-- The patch update leaves what a run is matched by. -/
theorem met_onPatch {r : Run (Nat × Polarity)} : (a.onPatch patch).met r ↔ a.met r := by
  unfold Streak.onPatch
  split <;> rfl

end

/-- Steps 1 to 3 lead from `s` to `u`, with `t` the streaks after the patch update: the oldest streak of each component
is extended, and its members are exactly the cells of the component's runs. -/
structure StreaksExtended (next : Nat) (runs : List (Run (Nat × Polarity))) (t : List (Option Streak))
    (s u : State) : Prop where
  frame : u = s.withWork { s.eng.work with streaks := u.eng.work.streaks, cells := u.eng.work.cells }
  streaks : u.eng.work.streaks.length = t.length
  survivor : ∀ c ∈ streakComps t runs, ∀ j st, survivorOf next t c.slots = some j → t[j]? = some (some st) →
    u.eng.work.streaks[j]? = some (some (st.extended c.runs))
  apart : ∀ j, (∀ c ∈ streakComps t runs, j ∉ c.slots) → u.eng.work.streaks[j]? = t[j]?
  members : ∀ c ∈ streakComps t runs, ∀ j, survivorOf next t c.slots = some j →
    ∀ (x : Nat) (q : CellRec), u.eng.work.cells[x]? = some q →
      (q.member = some j ↔ ∃ r ∈ c.runs, r.left ≤ x ∧ x ≤ r.right)

theorem extendStreaks_extended (next : Nat) {runs : List (Run (Nat × Polarity))}
    (hruns : runs.Pairwise fun r q => r.right < q.left) (t : List (Option Streak)) (s : State) :
    StreaksExtended next runs t s
      ((streakComps t runs).foldl (extendStreak next) (s.withWork { s.eng.work with streaks := t })) := by
  obtain ⟨u, hu, hframe, hsurvivor, hother, hcells⟩ := extendStreaks_fold next (streakComps t runs)
    (s.withWork { s.eng.work with streaks := t }) (streakComps_apart t runs)
    (fun c hc => ⟨(mem_streakComps.1 hc).2, fun i hi => by
      obtain ⟨-, -, st, hst, -⟩ := streakComps_slot hc hi
      exact ⟨st, hst⟩⟩) (streakComps_runs_apart hruns)
  have hwork := hu ▸ EngineWork.foldl (extendStreak_work next) (streakComps t runs)
    (s.withWork { s.eng.work with streaks := t })
  rw [hu]
  refine ⟨hframe, hwork.streaks, hsurvivor, fun j hj => hother j fun c hc h => hj c hc (survivorOf_mem h),
    fun c hc j hj x q hq => ⟨fun hmem => ?_, fun ⟨r, hr, hl, hle⟩ => ?_⟩⟩
  all_goals
    have hlt : x < s.eng.work.cells.length := hwork.size ▸ (List.getElem?_eq_some_iff.1 hq).1
    obtain ⟨hcovered, hclear⟩ := hcells x _ (List.getElem?_eq_getElem hlt)
  · by_cases hcov : ∃ d ∈ streakComps t runs, ∃ r ∈ d.runs, r.left ≤ x ∧ x ≤ r.right
    · obtain ⟨d, hd, r, hr, hl, hle⟩ := hcov
      obtain ⟨k, -, hk, hkd, -⟩ := streakComps_survivor next hd
      rw [hcovered d hd r hr hl hle k hk] at hq
      cases hq
      cases hmem
      obtain rfl := streakComps_eq_of_slot hc hd (survivorOf_mem hj) hkd
      exact ⟨r, hr, hl, hle⟩
    · obtain ⟨hnone, hkeep⟩ := hclear fun d hd r hr hl hle => hcov ⟨d, hd, r, hr, hl, hle⟩
      by_cases hold : ∃ d ∈ streakComps t runs, ∃ k ∈ d.slots, s.eng.work.cells[x].member = some k
      · rw [hnone hold] at hq
        cases hq
        cases hmem
      · rw [hkeep fun d hd k hk h => hold ⟨d, hd, k, hk, h⟩] at hq
        cases hq
        exact absurd ⟨c, hc, j, survivorOf_mem hj, hmem⟩ hold
  · rw [hcovered c hc r hr hl hle j hj] at hq
    cases hq
    rfl

/-! ### Step 4: the fates (R124, R125) -/

section

variable {next i j : Nat} {t : List (Option Streak)} {runs : List (Run (Nat × Polarity))}
  {c : Component (Nat × Polarity)} {outs : List CellResult} {st : Streak}

/-- A streak of a component is extended if it is the oldest, else merged into the oldest (R123, R124). -/
theorem streakFate_matched (hc : c ∈ streakComps t runs) (hi : i ∈ c.slots)
    (hj : survivorOf next t c.slots = some j) (hst : t[j]? = some (some st)) :
    streakFate next t (streakComps t runs) outs i = if j = i then .extended else .merged st.openSeq := by
  have hfind : (streakComps t runs).find? (fun c => c.slots.contains i) = some c := by
    obtain ⟨d, hd⟩ := Option.isSome_iff_exists.1
      (List.find?_isSome.2 ⟨c, hc, by simpa using hi⟩ :
        ((streakComps t runs).find? fun c => c.slots.contains i).isSome)
    have hid : i ∈ d.slots := by simpa using List.find?_some hd
    rw [hd, streakComps_eq_of_slot (List.mem_of_find?_eq_some hd) hc hid hi]
  simp only [streakFate, hfind, hj, entryAt_some.2 hst, Option.map_some, Option.getD_some]

/-- A streak of no component is held or decays (R125). -/
theorem streakFate_unmatched (hst : t[i]? = some (some st)) (h : ∀ c ∈ streakComps t runs, i ∉ c.slots) :
    streakFate next t (streakComps t runs) outs i =
      if extentAbsent outs st.extL st.extR then .held else .decays := by
  have hfind : (streakComps t runs).find? (fun c => c.slots.contains i) = none :=
    List.find?_eq_none.2 fun c hc => by simpa using h c hc
  simp only [streakFate, hfind, entryAt_some.2 hst]

/-- The survivor of a component is extended (R123). -/
theorem streakFate_survivor (hc : c ∈ streakComps t runs) (hj : survivorOf next t c.slots = some j)
    (hst : t[j]? = some (some st)) : streakFate next t (streakComps t runs) outs j = .extended := by
  rw [streakFate_matched hc (survivorOf_mem hj) hj hst, if_pos rfl]

/-- A streak stays open when it is held or extended alone. -/
theorem streakFate_stays (hone : ∀ c ∈ streakComps t runs, ∀ l ∈ c.slots, ∀ l' ∈ c.slots, l' = l)
    (hall : ∀ st, some st ∈ t → (∀ r ∈ runs, ¬ st.met r) → extentAbsent outs st.extL st.extR = true)
    (hst : t[i]? = some (some st)) : (streakFate next t (streakComps t runs) outs i).stays := by
  by_cases hno : ∀ r ∈ runs, ¬ st.met r
  · rw [streakFate_unmatched hst ((streakComps_unmatched hst).2 hno), if_pos (hall st (List.mem_of_getElem? hst) hno)]
    exact .inr rfl
  · push Not at hno
    obtain ⟨r, hr, hm⟩ := hno
    obtain ⟨c, hc, hic⟩ := streakComps_of_met hr hst hm
    obtain ⟨j, -, hj, hjc, -⟩ := streakComps_survivor next hc
    obtain rfl := hone c hc i hic j hjc
    exact .inl (streakFate_survivor hc hj hst)

end

/-- Steps 1 to 4 lead from `s` to `u` and append `ys`: what becomes of the streaks open before the line, which are `t`
after the patch update. -/
structure StreaksTracked (ln : Line) (outs : List CellResult) (runs : List (Run (Nat × Polarity)))
    (t : List (Option Streak)) (s u : State) (ys : List (Nat × RecordBody)) : Prop where
  list : u.list = s.list.pushAll ys
  closes : ∀ x ∈ ys, ∃ b, x.2 = .streakClose b
  refusals : u.eng.work.refusals = s.eng.work.refusals
  size : u.eng.work.streaks.length = t.length
  empty : ∀ i : Nat, t[i]? = some none → u.eng.work.streaks[i]? = some none
  held : ∀ (j : Nat) (st : Streak), t[j]? = some (some st) → (∀ r ∈ runs, ¬ st.met r) →
    extentAbsent outs st.extL st.extR = true → u.eng.work.streaks[j]? = some (some { st with held := true })
  decays : ∀ (j : Nat) (st : Streak), t[j]? = some (some st) → (∀ r ∈ runs, ¬ st.met r) →
    extentAbsent outs st.extL st.extR = false →
    (ln.slot.w, st.closeRecord .decay 0) ∈ ys ∧ u.eng.work.streaks[j]? = some none
  extended : ∀ c ∈ streakComps t runs, ∀ j st, survivorOf s.list.next t c.slots = some j → t[j]? = some (some st) →
    u.eng.work.streaks[j]? = some (some (st.extended c.runs))
  members : ∀ c ∈ streakComps t runs, ∀ j st, survivorOf s.list.next t c.slots = some j → t[j]? = some (some st) →
    ∀ (x : Nat) (q : CellRec), u.eng.work.cells[x]? = some q →
      (q.member = some j ↔ ∃ r ∈ c.runs, r.left ≤ x ∧ x ≤ r.right)
  merged : ∀ c ∈ streakComps t runs, ∀ j st, survivorOf s.list.next t c.slots = some j → t[j]? = some (some st) →
    ∀ k ∈ c.slots, k ≠ j → ∀ a, s.eng.work.streaks[k]? = some (some a) →
      (ln.slot.w, a.closeRecord .merged st.openSeq) ∈ ys ∧ u.eng.work.streaks[k]? = some none
  quiet : (∀ c ∈ streakComps t runs, ∀ l ∈ c.slots, ∀ l' ∈ c.slots, l' = l) →
    (∀ st, some st ∈ t → (∀ r ∈ runs, ¬ st.met r) → extentAbsent outs st.extL st.extR = true) →
    ys = [] ∧ u.eng.work.streakLatch = s.eng.work.streakLatch

/-- Step 4 after step 3: every streak meets its fate, and a close reports a merged one as before the patch update. -/
theorem StreaksExtended.tracked {ln : Line} {runs : List (Run (Nat × Polarity))} {s u : State}
    {t : List (Option Streak)} (h : StreaksExtended s.list.next runs t s u)
    (outs : List CellResult) {order : List Nat} (horder : order.Perm (slotsWhere (fun _ => true) t)) :
    ∃ v ys, order.foldl (fun v i => settleStreak ln.slot.w i (entryAt s.eng.work.streaks i)
        (streakFate s.list.next t (streakComps t runs) outs i) v) u = v ∧
      StreaksTracked ln outs runs t s v ys := by
  obtain ⟨hframe, hsize, hsurvivor, hapart, hmembers⟩ := h
  have hopen : ∀ {i}, i ∈ order ↔ ∃ st, t[i]? = some (some st) := fun {i} => by
    rw [horder.mem_iff, mem_slotsWhere]; simp
  obtain ⟨v, ys, hv, hlist, hcloses, hwork, hmerged, hdecays, hheld, hother, hcells, hquiet⟩ := settleStreaks_fold
    s.eng.work.streaks ln.slot.w (streakFate s.list.next t (streakComps t runs) outs) order u
    (horder.nodup_iff.2 (slotsWhere_nodup _ _)) fun i hi => by
      obtain ⟨st, hst⟩ := hopen.1 hi
      exact hsize ▸ (List.getElem?_eq_some_iff.1 hst).1
  have hfold := hv ▸ EngineWork.foldl (fun v i => settleStreak_work ln.slot.w i (entryAt s.eng.work.streaks i)
    (streakFate s.list.next t (streakComps t runs) outs i) v) order u
  -- what step 3 leaves of a streak that no run matches, and its fate
  have hsame : ∀ {j st}, t[j]? = some (some st) → (∀ r ∈ runs, ¬ st.met r) →
      u.eng.work.streaks[j]? = some (some st) ∧ streakFate s.list.next t (streakComps t runs) outs j =
        if extentAbsent outs st.extL st.extR then .held else .decays := fun {j st} hst hno => by
    have hnot := (streakComps_unmatched hst).2 hno
    exact ⟨(hapart j hnot).trans hst, streakFate_unmatched hst hnot⟩
  refine ⟨v, ys, hv, ?_, hcloses, ?_, hfold.streaks.trans hsize, fun i hi => ?_, fun j st hst hno habs => ?_,
    fun j st hst hno habs => ?_, fun c hc j st hj hst => ?_, fun c hc j st hj hst x q hq => ?_,
    fun c hc j st hj hst k hk hne a ha => ?_, fun hone hall => ?_⟩
  · rw [hlist, hframe]; rfl
  · rw [hwork, hframe]; rfl
  · have hclosed : ∀ {st}, t[i]? ≠ some (some st) := fun {st} => by rw [hi]; simp
    refine (hother i (.inl fun hmem => ?_)).trans ((hapart i fun c hc hic => ?_).trans hi)
    · obtain ⟨st, hst⟩ := hopen.1 hmem
      exact hclosed hst
    · obtain ⟨-, -, st, hst, -⟩ := streakComps_slot hc hic
      exact hclosed hst
  · obtain ⟨hu, hf⟩ := hsame hst hno
    exact hheld j (hopen.2 ⟨st, hst⟩) st (hf.trans (if_pos habs)) hu
  · obtain ⟨hu, hf⟩ := hsame hst hno
    exact hdecays j (hopen.2 ⟨st, hst⟩) st (hf.trans (if_neg (by rw [habs]; decide))) hu
  · rw [hother j (.inr (streakFate_survivor hc hj hst))]
    exact hsurvivor c hc j st hj hst
  · have hlt : x < u.eng.work.cells.length := hfold.size ▸ (List.getElem?_eq_some_iff.1 hq).1
    obtain ⟨q', hq', hiff⟩ := hcells x _ (List.getElem?_eq_getElem hlt)
    rw [hq] at hq'
    cases hq'
    rw [hiff j (.inr (.inl (streakFate_survivor hc hj hst)))]
    exact hmembers c hc j hj x _ (List.getElem?_eq_getElem hlt)
  · obtain ⟨-, -, b, hb, -⟩ := streakComps_slot hc hk
    refine hmerged k (hopen.2 ⟨b, hb⟩) st.openSeq a ?_ ha
    rw [streakFate_matched hc hk hj hst, if_neg (Ne.symm hne)]
  · obtain ⟨hys, hlatch⟩ := hquiet fun i hi => by
      obtain ⟨st, hst⟩ := hopen.1 hi
      exact streakFate_stays hone hall hst
    exact ⟨hys, hlatch.trans (by rw [hframe]; rfl)⟩

end Sys2Proof.Machine
end

section
/-! SUPPORT. Stage 3 of a coated line as a whole (R121 to R128, O27): the lone runs behind steps 1 to 4, and the records
and the table that LINE_PUBLISH ends with. -/

namespace Sys2Proof.Machine

/-! ### Stage 3 and its lone runs (R126 to R128) -/

/-- The runs of a line stand apart. -/
theorem streakRuns_apart (copy : Recipe) (t : List (Option Streak)) (cells : List (CellRec × CellResult)) :
    (streakRuns copy t cells).Pairwise (fun r q => r.right < q.left) ∧
      ∀ r ∈ streakRuns copy t cells, r.left ≤ r.right := by
  obtain ⟨-, hgathers, hapart⟩ : RunsOf _ cells (streakRuns copy t cells) := runsFrom_runsOf _ cells
  exact ⟨hapart.imp And.left, fun r hr => (hgathers r hr).ordered⟩

/-- Steps 1 to 5 on a coated line: what becomes of the streaks open before it, and then the lone runs. -/
theorem streakStage_tracked {ln : Line} (hcoated : ln.slot.zone.coated = true) (outs : List CellResult) (s : State)
    {t : List (Option Streak)} (ht : t = s.patchedStreaks ln.slot.patchNum) {runs : List (Run (Nat × Polarity))}
    (hruns : runs = streakRuns ln.copy t (s.eng.work.cells.zip outs)) :
    ∃ u ys, StreaksTracked ln outs runs t s u ys ∧
      streakStage ln outs s = (unmatchedRuns t runs).foldl (loneStreakRun ln) u := by
  have hapart : runs.Pairwise fun r q => r.right < q.left := hruns ▸ (streakRuns_apart _ _ _).1
  obtain ⟨u, ys, hu, htracked⟩ := (extendStreaks_extended s.list.next hapart t s).tracked (ln := ln) outs
    (streakAgeOrder_perm s.list.next t _)
  refine ⟨u, ys, htracked, ?_⟩
  rw [streakStage_eq hcoated, ← hu]
  subst hruns ht
  rfl

/-! ### Stage 3 within LINE_PUBLISH (R77, R78) -/

/-- LINE_PUBLISH leads from `s` to `t`, with `v` the machine before stage 3 and `w` the one after it: stages 1 and 2
write the records of the cells alone, and what comes after stage 3 appends no close of a streak and leaves the streaks
and the cells alone. -/
structure AroundStage3 (ln : Line) (s v w t : State) (after : List (Nat × RecordBody)) : Prop where
  stage : w = streakStage ln (ln.results s) v
  before : v = s.withWork { s.eng.work with cells := v.eng.work.cells }
  zipped : v.eng.work.cells.zip (ln.results s) = ln.workCells 0 s.eng.work.cells ln.slot.cells
  list : t.list = w.list.pushAll after
  quiet : ∀ x ∈ after, ∀ b, x.2 ≠ .streakClose b
  streaks : t.eng.pub.streaks = w.eng.work.streaks
  cells : t.eng.pub.cells = w.eng.work.cells
  latch : t.eng.pub.streakLatch = w.eng.work.streakLatch
  refusals : t.eng.pub.refusals = w.eng.work.refusals

theorem linePublish_aroundStage3 {i : Fin 4} {ln : Line} {s : State} (h : s.lineInWork i ln) :
    ∃ t v w after, exec .linePublish s = .next t ∧ AroundStage3 ln s v w t after := by
  obtain ⟨t, hexec, hlist, hpub⟩ := linePublish_answers h
  let w := streakStage ln (ln.results s) (cellStages ln s).2
  obtain ⟨⟨after, hafter, hquiet⟩, hwork⟩ := (pinholeStage_noStreak ln (ln.results s) w).trans
    (tallyStage_noStreak ln.slot (pinholeStage ln (ln.results s) w))
  have hruns : runStages ln s = tallyStage ln.slot (pinholeStage ln (ln.results s) w) := rfl
  rw [hruns] at hlist hpub
  refine ⟨t, (cellStages ln s).2, w, after, hexec, rfl, rfl, zip_fst_snd _, hlist.trans hafter, hquiet, ?_, ?_, ?_, ?_⟩
  all_goals rw [hpub, hwork]

/-- The lone runs lead from `u` to the published tables of `t` and append `zs` (R126, R127). -/
structure LoneStreaksDone (ln : Line) (lone : List (Run (Nat × Polarity))) (u t : State)
    (zs : List (Nat × RecordBody)) : Prop where
  quiet : ∀ x ∈ zs, ∀ b, x.2 ≠ .streakClose b
  keeps : ∀ (j : Nat) (st : Streak), u.eng.work.streaks[j]? = some (some st) →
    t.eng.pub.streaks[j]? = some (some st)
  fills : ∀ j : Nat, u.eng.work.streaks[j]? = some none → t.leftByStreak ln j
  cells : ∀ (x : Nat) (q : CellRec), t.eng.pub.cells[x]? = some q → ∃ q', u.eng.work.cells[x]? = some q' ∧
    (q = q' ∨ (∃ r ∈ lone, r.left ≤ x ∧ x ≤ r.right) ∧ ∃ i : Nat, q.member = some i ∧
      u.eng.work.streaks[i]? = some none)
  room : lone.length ≤ u.eng.work.streaks.count none → t.eng.pub.refusals = u.eng.work.refusals ∧
    ∀ r ∈ lone, ∃ j before after, zs = before ++ openRecord ln r :: after ∧
      t.eng.pub.streaks[j]? = some (some (newStreak ln.slot.w ln.slot.patchNum (u.list.pushAll before).next r)) ∧
      ∀ (x : Nat) (q : CellRec), r.left ≤ x → x ≤ r.right → t.eng.pub.cells[x]? = some q → q.member = some j
  full : (∀ o ∈ u.eng.work.streaks, o ≠ none) →
    (lone ≠ [] → t.eng.pub.refusals = min (u.eng.work.refusals + lone.length) 65535) ∧
    (t.eng.pub.streakLatch = true ↔ u.eng.work.streakLatch = true ∨ lone ≠ []) ∧
    ∀ r more, lone = r :: more → u.eng.work.streakLatch = false → (ln.slot.w, .event .streakTableFull r.key.1) ∈ zs

theorem AroundStage3.loneStreaksDone {ln : Line} {s v w t : State} {after : List (Nat × RecordBody)}
    (h : AroundStage3 ln s v w t after) {lone : List (Run (Nat × Polarity))} {u : State}
    (hw : w = lone.foldl (loneStreakRun ln) u) (hapart : lone.Pairwise fun r q => r.right < q.left)
    (hordered : ∀ r ∈ lone, r.left ≤ r.right) :
    ∃ zs, w.list = u.list.pushAll zs ∧ LoneStreaksDone ln lone u t zs := by
  obtain ⟨w', zs, hw', hlist, hquiet, -, hkeeps, hfills, hcells, hroom, hfull⟩ := loneStreakRuns_fold ln lone u
  obtain rfl : w = w' := hw.trans hw'
  have hsize : w.eng.work.cells.length = u.eng.work.cells.length :=
    hw ▸ (EngineWork.foldl (loneStreakRun_work ln) lone u).size
  simp only [← h.streaks, ← h.cells, ← h.latch, ← h.refusals] at hkeeps hfills hcells hroom hfull hsize
  refine ⟨zs, hlist, fun x hx => (hquiet x hx).1, hkeeps, hfills, fun x q hq => ?_,
    fun hle => hroom hle hapart hordered, fun hall => (hfull hall).2⟩
  have hlt : x < u.eng.work.cells.length := hsize ▸ (List.getElem?_eq_some_iff.1 hq).1
  obtain ⟨q', hq', hmember⟩ := hcells x _ (List.getElem?_eq_getElem hlt)
  rw [hq] at hq'
  cases hq'
  exact ⟨_, List.getElem?_eq_getElem hlt, hmember⟩

/-! ### The streaks open before the line, published (R123 to R125) -/

section

variable {ln : Line} {outs : List CellResult} {runs : List (Run (Nat × Polarity))} {streaks : List (Option Streak)}
  {s u t : State} {ys zs : List (Nat × RecordBody)} {j : Nat} {st : Streak}

theorem mem_unmatchedRuns {r : Run (Nat × Polarity)} :
    r ∈ unmatchedRuns streaks runs ↔ r ∈ runs ∧ ∀ st, some st ∈ streaks → ¬ st.met r := by
  rw [unmatchedRuns, List.mem_filter, streakSlotsOf_isEmpty]

/-- A streak that no run matches is held or closes (R125). -/
theorem StreaksTracked.unmatched (h : StreaksTracked ln outs runs streaks s u ys)
    (hdone : LoneStreaksDone ln (unmatchedRuns streaks runs) u t zs) (hst : streaks[j]? = some (some st))
    (hno : ∀ r ∈ runs, ¬ st.met r) :
    (extentAbsent outs st.extL st.extR = true → t.eng.pub.streaks[j]? = some (some { st with held := true })) ∧
    (¬ extentAbsent outs st.extL st.extR = true →
      (ln.slot.w, st.closeRecord .decay 0) ∈ ys ∧ t.leftByStreak ln j) := by
  refine ⟨fun habs => hdone.keeps j _ (h.held j st hst hno habs), fun habs => ?_⟩
  obtain ⟨hrec, hgone⟩ := h.decays j st hst hno (Bool.not_eq_true _ ▸ habs)
  exact ⟨hrec, hdone.fills j hgone⟩

/-- The survivor of a component is published extended, and its members are exactly the cells of the component's runs
(R123): the lone runs cover none of them. -/
theorem StreaksTracked.survivor (h : StreaksTracked ln outs runs streaks s u ys)
    (hdone : LoneStreaksDone ln (unmatchedRuns streaks runs) u t zs)
    (hapart : runs.Pairwise fun r q => r.right < q.left) {c : Component (Nat × Polarity)}
    (hc : c ∈ streakComps streaks runs) (hj : survivorOf s.list.next streaks c.slots = some j)
    (hst : streaks[j]? = some (some st)) (hcruns : ∀ r ∈ c.runs, r ∈ runs ∧ ∃ a, some a ∈ streaks ∧ a.met r) :
    t.eng.pub.streaks[j]? = some (some (st.extended c.runs)) ∧
      ∀ (x : Nat) (q : CellRec), t.eng.pub.cells[x]? = some q →
        (q.member = some j ↔ ∃ r ∈ c.runs, r.left ≤ x ∧ x ≤ r.right) := by
  have hext := h.extended c hc j st hj hst
  refine ⟨hdone.keeps j _ hext, fun x q hq => ?_⟩
  obtain ⟨q', hq', rfl | ⟨⟨l, hl, hlx⟩, i, hi, hempty⟩⟩ := hdone.cells x q hq
  · exact h.members c hc j st hj hst x _ hq'
  · refine iff_of_false (fun hmem => ?_) fun ⟨r, hr, hrx⟩ => ?_
    · obtain rfl : i = j := Option.some_inj.1 (hi.symm.trans hmem)
      rw [hext] at hempty
      cases hempty
    · obtain ⟨hr, a, ha, hm⟩ := hcruns r hr
      obtain ⟨hl, hno⟩ := mem_unmatchedRuns.1 hl
      have hne : r ≠ l := fun hrl => hno a ha (hrl ▸ hm)
      rcases pairwise_of_ne hapart hr hl hne with hlt | hlt <;> omega

/-- A full table stays full when every streak is held or extended alone. -/
theorem StreaksTracked.stays_full (h : StreaksTracked ln outs runs streaks s u ys) (hfull : ∀ o ∈ streaks, o ≠ none)
    (hall : ∀ st, some st ∈ streaks → (∀ r ∈ runs, ¬ st.met r) → extentAbsent outs st.extL st.extR = true)
    (hone : ∀ c ∈ streakComps streaks runs, ∀ l ∈ c.slots, ∀ l' ∈ c.slots, l' = l) :
    ∀ o ∈ u.eng.work.streaks, o ≠ none := by
  rintro _ ho rfl
  obtain ⟨i, hi⟩ := List.mem_iff_getElem?.1 ho
  have hlt : i < streaks.length := h.size ▸ (List.getElem?_eq_some_iff.1 hi).1
  obtain ⟨st, hst⟩ := Option.ne_none_iff_exists'.1 (hfull _ (List.getElem_mem hlt))
  have hget : streaks[i]? = some (some st) := (List.getElem?_eq_getElem hlt).trans (congrArg some hst)
  by_cases hno : ∀ r ∈ runs, ¬ st.met r
  · rw [h.held i st hget hno (hall st (List.mem_of_getElem? hget) hno)] at hi
    cases hi
  · push Not at hno
    obtain ⟨r, hr, hm⟩ := hno
    obtain ⟨c, hc, hic⟩ := streakComps_of_met hr hget hm
    obtain ⟨j, -, hj, hjc, -⟩ := streakComps_survivor s.list.next hc
    obtain rfl := hone c hc i hic j hjc
    rw [h.extended c hc j st hj hget] at hi
    cases hi

/-- A full table in which every streak is held or extended alone: nothing closes, each lone run is refused and counted,
and the first sets the latch (R127). -/
theorem StreaksTracked.full (h : StreaksTracked ln outs runs streaks s u ys) {lone : List (Run (Nat × Polarity))}
    (hdone : LoneStreaksDone ln lone u t zs) (hfull : ∀ o ∈ streaks, o ≠ none)
    (hall : ∀ st, some st ∈ streaks → (∀ r ∈ runs, ¬ st.met r) → extentAbsent outs st.extL st.extR = true)
    (hone : ∀ r ∈ runs, ∀ (j k : Nat) (a b : Streak), streaks[j]? = some (some a) → streaks[k]? = some (some b) →
      a.met r → b.met r → j = k) :
    ys = [] ∧ (lone ≠ [] → t.eng.pub.refusals = min (s.eng.work.refusals + lone.length) 65535) ∧
    (t.eng.pub.streakLatch = true ↔ s.eng.work.streakLatch = true ∨ lone ≠ []) ∧
    ∀ r more, lone = r :: more → s.eng.work.streakLatch = false →
      (ln.slot.w, .event .streakTableFull r.key.1) ∈ zs := by
  have hsingle : ∀ c ∈ streakComps streaks runs, ∀ l ∈ c.slots, ∀ l' ∈ c.slots, l' = l :=
    fun c hc l hl l' hl' => streakComps_single hone hc hl hl'
  obtain ⟨hys, hlatch⟩ := h.quiet hsingle hall
  rw [← hlatch, ← h.refusals]
  exact ⟨hys, hdone.full (h.stays_full hfull hall hsingle)⟩

end

/-! ### The statement -/

/-- Settles O27: each streak is unmatched, the oldest of its component, or merged, and the lone runs meet the table that
these leave. -/
theorem streaksOnLine : Obligations.StreaksOnLine := by
  intro i ln s streaks runs lone hin hshape hcoated hstreaks hruns hlone hmem
  obtain ⟨t, v, w, after, hexec, haround⟩ := linePublish_aroundStage3 hin
  have hpatched : streaks = v.patchedStreaks ln.slot.patchNum := by rw [hstreaks, haround.before]; rfl
  rw [← haround.zipped] at hruns
  obtain ⟨hapart, hordered⟩ := streakRuns_apart ln.copy streaks (v.eng.work.cells.zip (ln.results s))
  rw [← hruns] at hapart hordered
  have hnodup : runs.Nodup := hapart.imp_of_mem fun hr _ hlt hrq => by
    subst hrq
    exact absurd hlt (Nat.not_lt.2 (hordered _ hr))
  obtain rfl : lone = unmatchedRuns streaks runs := filter_of_sublist hnodup _ hlone fun r => by
    rw [hmem, streakSlotsOf_isEmpty]
  obtain ⟨u, ys, htracked, hstage⟩ := streakStage_tracked hcoated (ln.results s) v hpatched hruns
  obtain ⟨zs, hlist, hdone⟩ := haround.loneStreaksDone (haround.stage.trans hstage) (hapart.sublist hlone)
    fun r hr => hordered r (hlone.subset hr)
  have hstreak : v.eng.work.streaks = s.eng.work.streaks := by rw [haround.before]; rfl
  have hrefusals : v.eng.work.refusals = s.eng.work.refusals := by rw [haround.before]; rfl
  have hlatch : v.eng.work.streakLatch = s.eng.work.streakLatch := by rw [haround.before]; rfl
  have hvlist : v.list = s.list := by rw [haround.before]; rfl
  have hulist : u.list = s.list.pushAll ys := by rw [htracked.list, hvlist]
  have habsent : ∀ st : Streak, extentAbsent (ln.results s) st.extL st.extR = true ↔
      ∃ c, st.extL ≤ c ∧ c ≤ st.extR ∧ c < s.eng.work.cells.length ∧ ln.unseen c :=
    fun st => extentAbsent_iff ln hshape s.eng.work.cells ln.slot.cells st.extL st.extR
  refine ⟨t, ys, zs ++ after, hexec, ?_, htracked.closes, fun x hx => ?_, fun j st hst hno => ?_,
    fun j st r₀ hst hr₀ hm hclosed holdest => ?_, fun hle => ?_, fun hfull hall hone => ?_⟩
  · rw [haround.list, hlist, hulist, pushAll_append, pushAll_append]
  · exact (List.mem_append.1 hx).elim (hdone.quiet x) (haround.quiet x)
  · obtain ⟨hheld, hgone⟩ := htracked.unmatched hdone hst hno
    refine ⟨fun h => hheld ((habsent st).2 h), fun h => hgone fun habs => ?_⟩
    obtain ⟨c, h1, h2, h3, h4⟩ := (habsent st).1 habs
    exact h c h1 h2 h3 h4
  · obtain ⟨c, hc, hj, hslots, hcruns⟩ := streakComps_of_closed hst hr₀ hm hclosed holdest
    rw [← hvlist] at hj
    obtain ⟨hext, hmembers⟩ := htracked.survivor hdone hapart hc hj hst fun r hr => by
      obtain ⟨hr, a, ha, -, har⟩ := (hcruns r).1 hr
      exact ⟨hr, a, ha, har⟩
    refine ⟨⟨c.runs, hcruns, hext, hmembers⟩, fun k a hne ha ham => ?_⟩
    rw [← hstreak] at ha
    have hkc : k ∈ c.slots := hslots k _ (hpatched ▸ patchedStreaks_open ha) (met_onPatch.2 ham)
    obtain ⟨hrec, hgone⟩ := htracked.merged c hc j st hj hst k hkc hne a ha
    exact ⟨hrec, hdone.fills k hgone⟩
  · have hcount : s.eng.work.streaks.count none ≤ u.eng.work.streaks.count none := by
      refine count_none_le ?_ fun i hi => htracked.empty i ?_
      · rw [htracked.size, hpatched, patchedStreaks_length, hstreak]
      · rw [← hstreak] at hi
        exact hpatched ▸ patchedStreaks_empty hi
    obtain ⟨hsame, hopen⟩ := hdone.room (hle.trans hcount)
    refine ⟨hsame.trans (htracked.refusals.trans hrefusals), fun r hr => ?_⟩
    obtain ⟨j, before, rest, rfl, hnew, hmembers⟩ := hopen r hr
    rw [hulist, ← pushAll_append] at hnew
    exact ⟨j, before, rest ++ after, by rw [List.append_assoc]; rfl, hnew, hmembers⟩
  · obtain ⟨hys, hcount, hlatched, hnotice⟩ := htracked.full hdone hfull
      (fun st hst hno => (habsent st).2 (hall st hst hno)) hone
    rw [hrefusals] at hcount
    rw [hlatch] at hlatched hnotice
    exact ⟨hys, hcount, hlatched, fun r more he hl => List.mem_append_left _ (hnotice r more he hl)⟩

end Sys2Proof.Machine
end

section
/-! SUPPORT. What a step does to the defect list and to the ports' cursors (R141 to R143, O52): every step but a power-on
reset and five station commands comes to appends alone, of the five FETCH and SEEK alone move a cursor, and they leave
it on a retained record or on the next sequence number. -/

namespace Sys2Proof.Machine

/-! ### Steps that come to appends -/

/-- Appends that start from a machine with the same list and ports. -/
theorem Appends.behind {s u t : State} (k : Appends u t) (hlist : u.list = s.list) (hports : u.ports = s.ports) :
    Appends s t :=
  (Appends.same hlist hports).trans k

/-- Appends, and work that leaves the list and the ports. -/
theorem Appends.then {s u t : State} (h : Appends s u) (hlist : t.list = u.list) (hports : t.ports = u.ports) :
    Appends s t :=
  h.trans (.same hlist hports)

theorem restartSilence_appends (p : PortNo) (s : State) : Appends s (restartSilence p s) := by
  unfold restartSilence; split <;> exact .same rfl rfl

theorem armRun_appends (p : PortNo) (s : State) : Appends s (armRun p s) := by
  unfold armRun
  extract_lets rcp s1 trig s2 s3
  have h2 : Appends s s2 := .more _ _ (.rfl' s) rfl rfl
  have h3 : Appends s s3 := h2.trans (takeTrigger_web s2).appends
  split
  · exact h3.trans (positionLimit_web s3).appends
  · exact h3

theorem cmdCommit_appends (p : PortNo) (s : State) : Appends s (cmdCommit p s).1 := by
  have h := restartSilence_appends p s
  unfold cmdCommit
  dsimp only
  split
  · exact h
  · split
    · exact h
    · split
      · exact h
      · split
        · refine h.trans (Appends.behind (swapPoint_web _).appends ?_ ?_) <;> rfl
        · exact h.then rfl rfl

/-- Of the station commands those that read the list, set up its reading or serve attention change a port on their own;
the others do so by appends alone. -/
theorem runCommand_appends {c : Command} (hc : c ∉ [.ackAttn, .endService, .fetch, .seek, .subscribe]) (p : PortNo)
    (payload : List Byte) (s : State) : Appends s (runCommand p c payload s).1 := by
  have hs := restartSilence_appends p s
  cases c <;> simp only [runCommand]
  case ackAttn | endService | fetch | seek | subscribe => simp at hc
  case ident | status | readCandidates | readStreaks => exact .rfl' s
  case arm =>
    unfold cmdArm
    split
    · exact .rfl' s
    · split
      · exact .rfl' s
      · exact armRun_appends p s
  case disarm =>
    unfold cmdDisarm
    split
    · exact (beginStop_web _ s).appends
    · exact .rfl' s
  case commit => exact cmdCommit_appends p s
  case resyncHead =>
    unfold cmdResyncHead
    split
    · exact .rfl' s
    · exact (resyncLink_work _ s).appends
  case forceMark =>
    unfold cmdForceMark
    split
    · exact .rfl' s
    · exact enterAction_appends _ _ _ _ _ s
  case claimEdit =>
    unfold cmdClaimEdit
    split
    · exact .same rfl rfl
    · split
      · exact hs
      · exact .rfl' s
  case stageWrite | stageRead | cancelPending =>
    simp only [cmdStageWrite, cmdStageRead, cmdCancelPending]
    repeat' split
    all_goals exact hs.then rfl rfl
  case resetPosition | releaseEdit | activeRead | readCells =>
    simp only [cmdResetPosition, cmdReleaseEdit, cmdActiveRead, cmdReadCells]
    split <;> exact .same rfl rfl

theorem positionRose_appends (s : State) : Appends s (positionRose s) :=
  (countWork_web _ (settleMarks s)).appends.behind (settleMarks_list s) (settleMarks_ports s)

theorem forwardCount_appends (s : State) : Appends s (forwardCount s) := by
  unfold forwardCount
  dsimp only
  split
  · exact .same rfl rfl
  · split
    · exact (positionRose_appends _).behind rfl rfl
    · exact .same rfl rfl

theorem backwardCount_appends (s : State) : Appends s (backwardCount s) := by
  unfold backwardCount
  dsimp only
  split
  · exact .same rfl rfl
  · split
    · exact .same rfl rfl
    · exact .more _ _ (.rfl' s) rfl rfl

theorem encoderTransition_appends (a b : Bool) {s t : State} (h : exec (.encoderTransition a b) s = .next t) :
    Appends s t := by
  cases h
  split
  · exact .rfl' s
  · split
    · exact (forwardCount_appends _).behind rfl rfl
    · split
      · exact (backwardCount_appends _).behind rfl rfl
      · exact .same rfl rfl

theorem carrierLost_appends (h : HeadNo) (bytes : List Byte) {s t : State}
    (ht : exec (.carrierLost h bytes) s = .next t) : Appends s t := by
  have hb := (headBytes_work h bytes s).appends
  cases ht
  dsimp only
  split
  · exact hb
  · exact hb.then rfl rfl
  · exact hb.trans ((headLost_work _ _ _).appends.behind rfl rfl)

theorem takeLine_appends (i : Fin 4) (s : State) : Appends s (takeLine i s) := by
  obtain ⟨v, hv, h⟩ := takeLine_work i s
  rw [h]
  have htaken : Appends s v := hv.appends.behind rfl rfl
  exact htaken.then rfl rfl

/-- Stages 1 and 2 write cell records alone. -/
theorem workedFrom_appends (ln : Line) (s : State) (φ ψ : LineProgress) :
    Appends s (workedFrom ln (s.atProgress φ) ψ) := by
  obtain ⟨cells, h⟩ := workedFrom_eq ln (s.atProgress φ) ψ
  rw [h]
  exact .same rfl rfl

theorem advanceLine_appends (i : Fin 4) (s : State) : Appends s (advanceLine i s) := by
  obtain ⟨v, hv, h⟩ := advanceLine_work i s
  rw [h]
  exact ((workedFrom_appends _ s _ _).trans hv.appends).then rfl rfl

theorem publishLine_appends (i : Fin 4) (s : State) : Appends s (publishLine i s) := by
  obtain ⟨v, hv, h⟩ := publishLine_work i s
  rw [h, freeSlot_eq]
  exact ((workedFrom_appends _ s _ _).trans hv.appends).then rfl rfl

theorem completeStop_appends (s : State) : Appends s (completeStop s) := by
  obtain ⟨v, hv, h⟩ := completeStop_work s
  rw [h]
  refine hv.appends.trans (Appends.trans ?_ (swapPoint_web _).appends)
  exact .more _ _ (.rfl' v) rfl rfl

/-- A step that is neither a station port's nor a power-on reset comes to appends. -/
theorem exec_appends {c : Instr} (hp : stationPort c = none) (hr : ∀ a b k, c ≠ .powerOnReset a b k) {s t : State}
    (h : exec c s = .next t) : Appends s t := by
  cases c <;> simp only [stationPort, reduceCtorEq] at hp
  case powerOnReset => exact absurd rfl (hr _ _ _)
  case encoderTransition => exact encoderTransition_appends _ _ h
  case carrierLost => exact carrierLost_appends _ _ h
  all_goals cases h
  case markEdge => split; exacts [(takeEdge_web s).appends, .rfl' s]
  case carrierGained => dsimp only; split <;> exact .same rfl rfl
  case headFrame => exact (headBytes_work _ _ s).appends
  case headFrameAbort => exact (headBytes_work _ _ s).appends
  case engineTakeLine => split; exacts [takeLine_appends _ s, .rfl' s]
  case linePublish => split; exacts [publishLine_appends _ s, .rfl' s]
  case stopComplete => split; exacts [completeStop_appends s, .rfl' s]
  case editExpiry => split; exacts [.more _ _ (.same rfl rfl) rfl rfl, .rfl' s]

/-! ### Where FETCH and SEEK leave a cursor (R145, R147) -/

theorem cursorOk_cons {r : Record} {rs : List Record} {next c : Nat} (h : cursorOk ⟨rs, next⟩ c) :
    cursorOk ⟨r :: rs, next⟩ c :=
  h.imp_right fun ⟨q, hq, hc⟩ => ⟨q, List.mem_cons_of_mem _ hq, hc⟩

theorem cursorOk_firstSeq (rs : List Record) (next : Nat) : cursorOk ⟨rs, next⟩ (firstSeq rs next) := by
  cases rs with
  | nil => exact .inl rfl
  | cons r rs => exact .inr ⟨r, List.mem_cons_self .., rfl⟩

/-- Behind a retained record stands a retained record or the next sequence number. -/
theorem cursorOk_following {rs : List Record} {next : Nat} (h : inSequence rs next) {r : Record} (hr : r ∈ rs) :
    cursorOk ⟨rs, next⟩ (following r.seq) := by
  induction rs with
  | nil => simp at hr
  | cons q rs ih =>
    obtain ⟨-, -, hnext, hrest⟩ := h
    rcases List.mem_cons.mp hr with rfl | hr
    · rw [following_eq, ← hnext]
      exact cursorOk_cons (cursorOk_firstSeq rs next)
    · exact cursorOk_cons (ih hrest hr)

theorem mem_delivered {l : DefectList} {x : Port} {n : Nat} {r : Record} (h : r ∈ l.delivered x n) :
    r ∈ l.records :=
  (List.dropWhile_sublist _).mem (List.mem_filter.mp (List.mem_of_mem_take h)).1

theorem cursorAfter_cursorOk {l : DefectList} (h : inSequence l.records l.next) (x : Port) (n : Nat) :
    cursorOk l (l.cursorAfter x n) := by
  unfold DefectList.cursorAfter
  dsimp only
  split
  · rename_i r hr
    split
    · exact cursorOk_following h (mem_delivered (List.mem_of_getLast? hr))
    · exact .inl rfl
  · exact .inl rfl

theorem retained_iff {l : DefectList} {q : Nat} : l.retained q = true ↔ ∃ r ∈ l.records, r.seq = q := by
  simp [DefectList.retained]

theorem seekTarget_cursorOk {l : DefectList} {target : Byte} {seq : BitVec 32} {c : Nat}
    (h : seekTarget l target seq = some c) : cursorOk l c := by
  unfold seekTarget at h
  split at h
  · split at h
    · rename_i hseq
      cases h
      exact hseq.symm.imp_right retained_iff.mp
    · cases h
  · cases h
    obtain ⟨records, next⟩ := l
    cases records with
    | nil => exact .inl rfl
    | cons r rs => exact .inr ⟨r, List.mem_cons_self .., rfl⟩
  · cases h; exact .inl rfl
  · cases h

/-! ### Every step -/

/-- The condition of the list is kept from `s` to `t`. -/
def KeepsList (s t : State) : Prop := s.listOk → t.listOk

theorem Appends.keepsList {s t : State} (h : Appends s t) : KeepsList s t := h.listOk

/-- A port is replaced by one whose cursor stands on a retained record or the next sequence number. -/
theorem withPort_listOk {s : State} (h : s.listOk) {p : PortNo} {x : Port} (hx : cursorOk s.list x.cursor) :
    (s.withPort p x).listOk := by
  obtain ⟨hlength, hseq, hcursors⟩ := h
  refine ⟨hlength, hseq, fun q => ?_⟩
  rw [State.withPort_ports, Triple.get_set]
  split
  · exact hx
  · exact hcursors q

theorem State.listOk.cursorOk {s : State} (h : s.listOk) (p : PortNo) : cursorOk s.list (s.ports.get p).cursor := by
  obtain ⟨-, -, hcursors⟩ := h
  exact hcursors p

/-- A port is replaced by one with the same cursor. -/
theorem withPort_keepsList {s : State} {p : PortNo} {x : Port} (hx : x.cursor = (s.ports.get p).cursor) :
    KeepsList s (s.withPort p x) :=
  fun h => withPort_listOk h (hx ▸ h.cursorOk p)

theorem cmdFetch_keepsList (p : PortNo) (count : Byte) (s : State) : KeepsList s (cmdFetch p count s).1 := by
  unfold cmdFetch
  dsimp only
  split
  · exact id
  · intro h
    have ⟨_, hseq, _⟩ := h
    exact withPort_listOk h (cursorAfter_cursorOk hseq _ _)

theorem cmdSeek_keepsList (p : PortNo) (target : Byte) (seq : BitVec 32) (s : State) :
    KeepsList s (cmdSeek p target seq s).1 := by
  unfold cmdSeek
  split
  · exact id
  · rename_i c hc
    exact fun h => withPort_listOk h (seekTarget_cursorOk hc)

theorem cmdSubscribe_keepsList (p : PortNo) (classes : Byte) (watermark : BitVec 16) (enable : Byte) (s : State) :
    KeepsList s (cmdSubscribe p classes watermark enable s).1 := by
  unfold cmdSubscribe
  dsimp only
  split
  · exact id
  · split <;> exact withPort_keepsList rfl

theorem runCommand_keepsList (p : PortNo) (c : Command) (payload : List Byte) (s : State) :
    KeepsList s (runCommand p c payload s).1 := by
  cases c
  case fetch => exact cmdFetch_keepsList p _ s
  case seek => exact cmdSeek_keepsList p _ _ s
  case subscribe => exact cmdSubscribe_keepsList p _ _ _ s
  case ackAttn | endService =>
    simp only [runCommand, cmdAckAttn, cmdEndService]
    split
    · exact id
    · exact withPort_keepsList rfl
  all_goals exact (runCommand_appends (by decide) p payload s).keepsList

theorem keepsList_stationRel : StationRel KeepsList where
  same _ := id
  trans _ _ _ h k := k ∘ h
  port _ _ _ hx := withPort_keepsList hx.cursor
  command s p c payload := runCommand_keepsList p c payload s

theorem reset_listOk : State.reset.listOk := by
  obtain ⟨-, hlist, -⟩ := conditionsAtReset
  exact hlist

theorem exec_keepsList (c : Instr) (s t : State) (h : exec c s = .next t) : KeepsList s t := by
  cases hp : stationPort c with
  | some p => exact keepsList_stationRel.step hp h
  | none =>
    by_cases hr : ∃ a b k, c = .powerOnReset a b k
    · obtain ⟨a, b, k, rfl⟩ := hr
      cases h
      exact fun _ => listOk_congr rfl rfl reset_listOk
    · exact (exec_appends hp (fun a b k hc => hr ⟨a, b, k, hc⟩) h).keepsList

theorem step_keepsList : ∀ s t : State, s.listOk → step s = .next t → t.listOk :=
  step_keeps (fun _ _ h => h) exec_keepsList fun s i _ => (advanceLine_appends i s).keepsList

end Sys2Proof.Machine
end

section
/-! SUPPORT. An append at a port (R142 to R144, R181): the cursor and the skipped count at the record that leaves, the
causes that the new record and the unread count raise. -/

namespace Sys2Proof.Machine

/-! ### The unread count (R143) -/

/-- The class of a record kind (R137). -/
theorem takes_eq (k : ClassSet) (b : RecordBody) : k.takes b = match b with
    | .pinhole _ => k.pin
    | .streakOpen _ | .streakClose _ => k.streak
    | .patch _ => k.patch
    | .event _ _ => k.event := by cases b <;> rfl

theorem listFrom_eq (l : DefectList) (c : Nat) : l.from c = l.records.dropWhile fun r => decide (r.seq ≠ c) := by
  have htest : (fun r : Record => r.seq != c) = fun r => decide (r.seq ≠ c) :=
    funext fun r => Bool.eq_iff_iff.mpr (by simp)
  rw [DefectList.from, htest]

/-- How many records from a cursor on are of the classes of a set. -/
def DefectList.unreadOf (l : DefectList) (cursor : Nat) (k : ClassSet) : Nat :=
  (l.records.dropWhile fun r => decide (r.seq ≠ cursor)).countP fun r => k.takes r.body

theorem unread_eq (l : DefectList) (x : Port) : l.unread x = l.unreadOf x.cursor x.sub := by
  rw [DefectList.unread, listFrom_eq, DefectList.unreadOf]

/-! ### The record that leaves (R142) -/

/-- The oldest record leaves a list of 512. -/
theorem dropped_eq_some {l : DefectList} {r : Record} :
    l.dropped = some r ↔ 512 ≤ l.records.length ∧ l.records.head? = some r := by
  rw [DefectList.dropped, Option.ite_none_right_eq_some]; rfl

/-- An append puts the record behind the others, less the oldest when they are 512. -/
theorem push_eq_tail (l : DefectList) (w : Nat) (b : RecordBody) : l.push w b =
    { records := (if l.records.length < 512 then l.records else l.records.tail) ++ [⟨l.next, w, b⟩]
      next := if l.next = 4294967295 then 1 else l.next + 1 } := by
  rw [push_eq, List.drop_one]
  by_cases hroom : l.records.length < 512
  · rw [if_pos hroom, if_neg (by omega)]
  · rw [if_neg hroom, if_pos (by omega)]

/-- Of a port the drop reaches the cursor and the skipped count alone. -/
theorem onDrop_frame (x : Port) (o : Option Record) :
    x.onDrop o = { x with cursor := (x.onDrop o).cursor, skipped := (x.onDrop o).skipped } := by
  cases o with
  | none => rfl
  | some r => simp only [Port.onDrop]; split <;> rfl

@[simp] theorem onDrop_sub (x : Port) (o : Option Record) : (x.onDrop o).sub = x.sub := by rw [onDrop_frame]

@[simp] theorem onDrop_enable (x : Port) (o : Option Record) : (x.onDrop o).enable = x.enable := by rw [onDrop_frame]

@[simp] theorem onDrop_causes (x : Port) (o : Option Record) : (x.onDrop o).causes = x.causes := by rw [onDrop_frame]

theorem onDrop_of_ne {x : Port} {o : Option Record} (h : ∀ r, o = some r → r.seq ≠ x.cursor) : x.onDrop o = x := by
  cases o with
  | none => rfl
  | some r => exact if_neg fun hr => h r rfl hr.symm

theorem onDrop_of_eq {x : Port} {r : Record} (h : r.seq = x.cursor) : x.onDrop (some r) =
    { x with
      cursor := following r.seq
      skipped := if x.sub.takes r.body then bump x.skipped else x.skipped } :=
  if_pos h.symm

/-! ### The causes raised (R144, R181) -/

theorem reportKind_causes (x : Port) (b : RecordBody) (d : Cause) : (x.reportKind b).causes.has d = true ↔
    x.causes.has d = true ∨ (b.cause = some d ∧ x.sub.takes b = true ∧ x.enable.has d = true) := by
  unfold Port.reportKind
  split
  · rename_i c hc
    rw [hc]
    split
    · rename_i htakes
      rw [raise_causes]
      simp only [Bool.or_eq_true, Bool.and_eq_true, decide_eq_true_eq, htakes, true_and, Option.some.injEq]
      exact or_congr_right ⟨fun ⟨hd, h⟩ => ⟨hd.symm, hd ▸ h⟩, fun ⟨hd, h⟩ => ⟨hd.symm, hd ▸ h⟩⟩
    · rename_i htakes
      simp [htakes]
  · rename_i hc
    simp [hc]

/-- The report of a record's kind reaches the pending set and ATNn alone. -/
theorem reportKind_frame (x : Port) (b : RecordBody) :
    x.reportKind b = { x with causes := (x.reportKind b).causes, atn := (x.reportKind b).atn } := by
  unfold Port.reportKind
  split
  · split
    · exact raise_frame x _
    · rfl
  · rfl

/-- Of a port an append reaches what the drop does, the pending set and ATNn. -/
theorem onAppend_eq (old new : DefectList) (b : RecordBody) (x : Port) : Port.onAppend old new b x =
    { x.onDrop old.dropped with
      causes := (Port.onAppend old new b x).causes, atn := (Port.onAppend old new b x).atn } := by
  unfold Port.onAppend
  dsimp only
  rw [reportKind_frame]
  split <;> rfl

/-- The causes that an append raises: that of the record's kind, and DATA when the unread count crosses the watermark. -/
theorem onAppend_causes (old new : DefectList) (b : RecordBody) (x : Port) (d : Cause) :
    (Port.onAppend old new b x).causes.has d = true ↔ x.causes.has d = true ∨ (x.enable.has d = true ∧
      (b.cause = some d ∧ x.sub.takes b = true ∨
        d = .data ∧ old.unread x < x.watermark ∧ x.watermark ≤ new.unread (x.onDrop old.dropped))) := by
  have hkind := reportKind_causes (x.onDrop old.dropped) b d
  have henable : ((x.onDrop old.dropped).reportKind b).enable = x.enable := by rw [reportKind_frame, onDrop_enable]
  rw [onDrop_sub, onDrop_enable, onDrop_causes] at hkind
  simp only [Port.onAppend]
  split
  · rename_i hcross
    rw [raise_causes, Bool.or_eq_true, hkind, henable, Bool.and_eq_true, decide_eq_true_eq]
    constructor
    · rintro ((h | ⟨hcause, htakes, hen⟩) | ⟨rfl, hen⟩)
      exacts [.inl h, .inr ⟨hen, .inl ⟨hcause, htakes⟩⟩, .inr ⟨hen, .inr ⟨rfl, hcross⟩⟩]
    · rintro (h | ⟨hen, ⟨hcause, htakes⟩ | ⟨rfl, -⟩⟩)
      exacts [.inl (.inl h), .inl (.inr ⟨hcause, htakes, hen⟩), .inr ⟨rfl, hen⟩]
  · rename_i hcross
    rw [hkind]
    tauto

/-! ### The statement -/

/-- The causes as the records raise them (R181): ALERT an EVENT, STREAK a STREAK_OPEN, PINHOLE a PINHOLE. -/
theorem raises_iff (b : RecordBody) (d : Cause) (wanted data : Prop) :
    (b.cause = some d ∧ wanted ∨ d = .data ∧ data) ↔ match d with
      | .alert => wanted ∧ ∃ code arg, b = .event code arg
      | .streak => wanted ∧ ∃ o, b = .streakOpen o
      | .pinhole => wanted ∧ ∃ o, b = .pinhole o
      | .data => data := by
  cases b <;> cases d <;> simp [RecordBody.cause]

theorem onDrop_stays {l : DefectList} {x : Port}
    (h : l.records.length < 512 ∨ l.records.head?.map Record.seq ≠ some x.cursor) : x.onDrop l.dropped = x := by
  refine onDrop_of_ne fun r hr hseq => ?_
  obtain ⟨hfull, hhead⟩ := dropped_eq_some.mp hr
  rcases h with h | h
  · omega
  · exact h (by rw [hhead, Option.map_some, hseq])

/-- Settles O52: every step comes to appends, a power-on reset or a port's own change, and an append at a port is the
drop of the oldest record and the causes raised. -/
theorem listKept : Obligations.ListKept := by
  refine ⟨step_keepsList, fun w b s p => ?_⟩
  have hy : (append w b s).ports.get p = Port.onAppend s.list (s.list.push w b) b (s.ports.get p) := by
    rw [append_ports, Triple.get_map]
  have hdrop := onAppend_eq s.list (s.list.push w b) b (s.ports.get p)
  refine ⟨append w b s, s.ports.get p, _, fun b => (s.ports.get p).sub.takes b,
    fun l c => l.unreadOf c (s.ports.get p).sub, rfl, rfl, rfl, takes_eq _, fun l c => rfl, push_eq_tail s.list w b, rfl,
    ?_, fun h => ?_, fun r hfull hhead hseq => ?_, fun d => ?_, fun h => ?_⟩ <;> rw [hy]
  · exact onAppend_frame _ _ _ _
  · rw [hdrop, onDrop_stays h]
    exact ⟨rfl, rfl⟩
  · rw [hdrop, dropped_eq_some.mpr ⟨hfull, hhead⟩, onDrop_of_eq hseq]
    exact ⟨rfl, rfl⟩
  · have hcursor := congrArg Port.cursor hdrop
    dsimp only at hcursor
    rw [onAppend_causes, unread_eq, unread_eq, onDrop_sub, ← hcursor, raises_iff]
    exact Iff.rfl
  · exact onAppend_attentionOk h _ _ _

end Sys2Proof.Machine
end

section
/-! SUPPORT. FETCH, SEEK and SUBSCRIBE at a port with no response in progress (R145, R147, R148, O32 to O34). -/

namespace Sys2Proof.Machine

/-! ### FETCH (R145) -/

theorem delivered_eq (l : DefectList) (x : Port) (n : Nat) : l.delivered x n =
    ((l.records.dropWhile fun r => decide (r.seq ≠ x.cursor)).filter fun r => x.sub.takes r.body).take n := by
  rw [DefectList.delivered, listFrom_eq]

/-- All that were asked for are delivered: the cursor goes behind the last of them. -/
theorem cursorAfter_full {l : DefectList} {x : Port} {n : Nat} (h : (l.delivered x n).length = n) {r : Record}
    (hr : (l.delivered x n).getLast? = some r) : l.cursorAfter x n = following r.seq := by
  simp only [DefectList.cursorAfter, hr, h, if_true]

/-- Fewer are delivered than were asked for: the cursor goes to the next sequence number. -/
theorem cursorAfter_short {l : DefectList} {x : Port} {n : Nat} (h : (l.delivered x n).length < n) :
    l.cursorAfter x n = l.next := by
  simp only [DefectList.cursorAfter, h.ne, if_false]
  split <;> rfl

/-- A count out of 1..16 is refused. -/
theorem fetch_refused {p : PortNo} {s : State} (h : s.ready p) (tag : Byte) {count : Byte}
    (hbad : count.toNat = 0 ∨ 16 < count.toNat) :
    exec (.fetch p tag count) s = .next (s.answering p 0x30 tag 8 []) := by
  have hrun : cmdFetch p count s = (s, .plain .range) := if_pos (by omega)
  refine congrArg Host.Outcome.next ((submit_ready h .fetch tag _ (cmdFetch p count)).trans ?_)
  rw [hrun]; rfl

/-- A count in 1..16 is answered with the skipped count, the new cursor, the unread count there and the records. -/
theorem fetch_answers {p : PortNo} {s : State} (h : s.ready p) (tag : Byte) {count : Byte} (hlo : 1 ≤ count.toNat)
    (hhi : count.toNat ≤ 16) {x y : Port} (hx : x = s.ports.get p)
    (hy : y = { x with cursor := s.list.cursorAfter x count.toNat, skipped := 0 }) :
    exec (.fetch p tag count) s = .next ((s.withPort p y).answering p 0x30 tag 0 (be 2 x.skipped ++ be 4 y.cursor ++
      be 2 (s.list.unread y) ++ be 1 (s.list.delivered x count.toNat).length ++
      (s.list.delivered x count.toNat).flatMap Record.bytes)) := by
  subst hx hy
  have hrange : ¬(count.toNat < 1 ∨ 16 < count.toNat) := by omega
  refine congrArg Host.Outcome.next ((submit_ready h .fetch tag _ (cmdFetch p count)).trans ?_)
  simp only [cmdFetch, if_neg hrange]; rfl

/-- Settles O32: a count refused, and one that is taken, with the cursor behind the last of all or at the next number. -/
theorem fetchDelivers : Obligations.FetchDelivers := by
  intro p tag count s h
  refine ⟨fetch_refused h tag, fun hlo hhi => ⟨_, _, s.list.cursorAfter (s.ports.get p) count.toNat, rfl, rfl,
    fun hfull r hr => ?_, fun hfew => ?_, ?_⟩⟩
  · rw [← delivered_eq] at hfull hr
    exact cursorAfter_full hfull hr
  · rw [← delivered_eq] at hfew
    exact cursorAfter_short hfew
  · rw [fetch_answers h tag hlo hhi rfl rfl, unread_eq, delivered_eq]
    rfl

/-! ### SEEK (R147) -/

/-- A target that SEEK may take: the cursor goes there, and all else stays. -/
theorem seek_answers {p : PortNo} {s : State} (h : s.ready p) (tag : Byte) {target : Byte} {seq : BitVec 32} {c : Nat}
    (hc : seekTarget s.list target seq = some c) {y : Port} (hy : y = { s.ports.get p with cursor := c }) :
    exec (.seek p tag target seq) s = .next ((s.withPort p y).answering p 0x31 tag 0
      (be 4 c ++ be 2 (s.list.unread y))) := by
  refine congrArg Host.Outcome.next ((submit_ready h .seek tag _ (cmdSeek p target seq)).trans ?_)
  rw [cmdSeek, hc, hy]; rfl

theorem seek_refused {p : PortNo} {s : State} (h : s.ready p) (tag : Byte) {target : Byte} {seq : BitVec 32}
    (hc : seekTarget s.list target seq = none) :
    exec (.seek p tag target seq) s = .next (s.answering p 0x31 tag 8 []) := by
  refine congrArg Host.Outcome.next ((submit_ready h .seek tag _ (cmdSeek p target seq)).trans ?_)
  rw [cmdSeek, hc]; rfl

theorem seekTarget_number {l : DefectList} {seq : BitVec 32}
    (h : (∃ r ∈ l.records, r.seq = seq.toNat) ∨ seq.toNat = l.next) : seekTarget l 0 seq = some seq.toNat :=
  if_pos (h.imp_left retained_iff.mpr)

theorem seekTarget_noNumber {l : DefectList} {seq : BitVec 32} (hno : ∀ r ∈ l.records, r.seq ≠ seq.toNat)
    (hnext : seq.toNat ≠ l.next) : seekTarget l 0 seq = none :=
  if_neg fun h => h.elim (fun hr => (retained_iff.mp hr).elim fun r ⟨hmem, hseq⟩ => hno r hmem hseq) hnext

theorem seekTarget_oldest (l : DefectList) (seq : BitVec 32) :
    seekTarget l 1 seq = some (match l.records with
      | [] => l.next
      | r :: _ => r.seq) := by
  obtain ⟨records, next⟩ := l
  cases records <;> rfl

theorem seekTarget_other {l : DefectList} {target : Byte} {seq : BitVec 32} (h : 2 < target.toNat) :
    seekTarget l target seq = none := by
  unfold seekTarget
  split
  case h_4 => rfl
  all_goals omega

/-- Settles O33, target by target. -/
theorem seekMovesCursor : Obligations.SeekMovesCursor := by
  intro p tag target seq s h
  have hmoves : ∀ c, seekTarget s.list target seq = some c → _ := fun c hc => seek_answers h tag hc rfl
  simp only [unread_eq] at hmoves
  refine ⟨_, fun c => rfl, ?_, ?_, ?_, ?_, fun hother => seek_refused h tag (seekTarget_other hother)⟩
  · rintro rfl hseq
    exact hmoves _ (seekTarget_number hseq)
  · rintro rfl hno hnext
    exact seek_refused h tag (seekTarget_noNumber hno hnext)
  · rintro rfl
    exact hmoves _ (seekTarget_oldest s.list seq)
  · rintro rfl
    exact hmoves _ rfl

/-! ### SUBSCRIBE (R144, R148, R181) -/

/-- The unread count crosses from under the old watermark under the old subscription to the new watermark under the new
one. -/
abbrev DefectList.Crosses (l : DefectList) (x : Port) (sub : ClassSet) (watermark : Nat) : Prop :=
  l.unreadOf x.cursor x.sub < x.watermark ∧ watermark ≤ l.unreadOf x.cursor sub

/-- The port that a SUBSCRIBE leaves. -/
def DefectList.resubscribed (l : DefectList) (x : Port) (sub : ClassSet) (watermark : Nat) (enable : CauseSet) : Port :=
  if l.Crosses x sub watermark then (x.subscribed sub watermark enable).raise .data
  else x.subscribed sub watermark enable

/-- Subscription, watermark and mask are replaced; of the pending causes those in the mask stay, and DATA comes in by a
crossing when it is in the mask. -/
theorem resubscribed_eq (l : DefectList) (x : Port) (sub : ClassSet) (watermark : Nat) (enable : CauseSet) :
    l.resubscribed x sub watermark enable = { x with
      sub := sub, watermark := watermark, enable := enable
      causes := ⟨x.causes.alert && enable.alert, x.causes.streak && enable.streak,
        x.causes.pinhole && enable.pinhole,
        (x.causes.data && enable.data) || (decide (l.Crosses x sub watermark) && enable.data)⟩
      atn := (l.resubscribed x sub watermark enable).atn } := by
  obtain ⟨alert, streak, pinhole, data⟩ := enable
  unfold DefectList.resubscribed
  split
  · rename_i hcrosses
    cases data <;> simp [hcrosses, Port.subscribed, Port.raise, CauseSet.inter, CauseSet.put, CauseSet.has]
  · rename_i hcrosses
    rw [decide_eq_false hcrosses, Bool.false_and, Bool.or_false]
    rfl

theorem resubscribed_unread (l : DefectList) (x : Port) (sub : ClassSet) (watermark : Nat) (enable : CauseSet) :
    l.unread (l.resubscribed x sub watermark enable) = l.unreadOf x.cursor sub := by
  rw [unread_eq, resubscribed_eq]

/-- A watermark out of 1..512 is refused. -/
theorem subscribe_refused {p : PortNo} {s : State} (h : s.ready p) (tag classes enable : Byte) {watermark : BitVec 16}
    (hbad : watermark.toNat = 0 ∨ 512 < watermark.toNat) :
    exec (.subscribe p tag classes watermark enable) s = .next (s.answering p 0x32 tag 8 []) := by
  have hrun : cmdSubscribe p classes watermark enable s = (s, .plain .range) := if_pos (by omega)
  refine congrArg Host.Outcome.next
    ((submit_ready h .subscribe tag _ (cmdSubscribe p classes watermark enable)).trans ?_)
  rw [hrun]; rfl

/-- A watermark in 1..512 is answered with the cursor and the unread count under the new subscription. -/
theorem subscribe_answers {p : PortNo} {s : State} (h : s.ready p) (tag classes enable : Byte) {watermark : BitVec 16}
    (hlo : 1 ≤ watermark.toNat) (hhi : watermark.toNat ≤ 512) {x y : Port} (hx : x = s.ports.get p)
    (hy : y = s.list.resubscribed x (ClassSet.ofByte classes) watermark.toNat (CauseSet.ofByte enable)) :
    exec (.subscribe p tag classes watermark enable) s = .next ((s.withPort p y).answering p 0x32 tag 0
      (be 4 x.cursor ++ be 2 (s.list.unreadOf x.cursor (ClassSet.ofByte classes)))) := by
  have hrange : ¬(watermark.toNat < 1 ∨ 512 < watermark.toNat) := by omega
  have hrun : cmdSubscribe p classes watermark enable s = (s.withPort p y, cursorReply s.list y) := by
    simp only [cmdSubscribe, if_neg hrange, ← hx, unread_eq]
    rw [hy]
    rfl
  refine congrArg Host.Outcome.next
    ((submit_ready h .subscribe tag _ (cmdSubscribe p classes watermark enable)).trans ?_)
  rw [hrun, cursorReply, hy, resubscribed_unread, resubscribed_eq]
  rfl

/-- Settles O34: a watermark refused, and one that is taken, with the port that SUBSCRIBE leaves. -/
theorem subscribeReplaces : Obligations.SubscribeReplaces := by
  intro p tag classes enable watermark s h
  refine ⟨subscribe_refused h tag classes enable, fun hlo hhi => ?_⟩
  have hport := resubscribed_eq s.list (s.ports.get p) (ClassSet.ofByte classes) watermark.toNat
    (CauseSet.ofByte enable)
  refine ⟨s.ports.get p, _, s.list.unreadOf (s.ports.get p).cursor,
    decide (s.list.Crosses (s.ports.get p) (ClassSet.ofByte classes) watermark.toNat) && enable.getLsbD 3, rfl,
    fun k => rfl, ?_, hport, ?_⟩
  · rw [Bool.and_eq_true, decide_eq_true_eq, and_assoc, hport]
  · rw [subscribe_answers h tag classes enable hlo hhi rfl rfl, hport]
    rfl

end Sys2Proof.Machine
end

section
/-! SUPPORT. The 32 bytes of a defect record (R138 to R140, O18): its fields in order, each read back at its place, and
the flag bits of byte 1. -/

namespace Sys2Proof.Machine

/-! ### Fields at their places -/

/-- Fields as bytes, each a size and a value. -/
def fieldBytes (fs : List (Nat × Nat)) : List Byte := fs.flatMap fun f => be f.1 f.2

/-- Fields with the offsets at which they stand, the first at `offset`: offset, size and value. -/
def placed : Nat → List (Nat × Nat) → List (Nat × Nat × Nat)
  | _, [] => []
  | offset, (size, v) :: fs => (offset, size, v) :: placed (offset + size) fs

/-- A field that fits its size is read back at its place. -/
theorem ofBe_placed {size v offset : Nat} (hv : v < 256 ^ size) (fs : List (Nat × Nat)) :
    ∀ pre : List Byte, (offset, size, v) ∈ placed pre.length fs →
      ofBe (((pre ++ fieldBytes fs).drop offset).take size) = v := by
  induction fs with
  | nil => intro pre h; cases h
  | cons f fs ih =>
    obtain ⟨n, x⟩ := f
    intro pre h
    have hbytes : pre ++ fieldBytes ((n, x) :: fs) = pre ++ (be n x ++ fieldBytes fs) := rfl
    rcases List.mem_cons.mp h with heq | hrest
    · obtain ⟨rfl, rfl, rfl⟩ : offset = pre.length ∧ size = n ∧ v = x := by simpa using heq
      rw [hbytes, List.drop_left, List.take_left' (be_length _ _), ofBe_be hv]
    · rw [hbytes, ← List.append_assoc]
      exact ih (pre ++ be n x) (by rwa [List.length_append, be_length])

/-! ### Flag bits -/

/-- Bits as a number, bit 0 first. -/
def bitsNumber (bits : List Bool) : Nat := bits.foldr (fun b acc => acc * 2 + (if b then 1 else 0)) 0

theorem bitsByte_eq (bits : List Bool) : bitsByte bits = [BitVec.ofNat 8 (bitsNumber bits)] := by
  rw [← Nat.div_one (bitsNumber bits)]
  rfl

theorem bitsNumber_testBit (bits : List Bool) (i : Nat) : (bitsNumber bits).testBit i = bits.getD i false := by
  induction bits generalizing i with
  | nil => simp [bitsNumber]
  | cons b bits ih =>
    have hcons : bitsNumber (b :: bits) = bitsNumber bits * 2 + (if b then 1 else 0) := rfl
    cases i with
    | zero => cases b <;> simp [hcons, Nat.testBit_zero]
    | succ i =>
      have hhalf : bitsNumber (b :: bits) / 2 = bitsNumber bits := by rw [hcons]; split <;> omega
      rw [Nat.testBit_succ, hhalf, ih, List.getD_cons_succ]

/-! ### The fields of a record -/

/-- The fields of a record's body, behind its header (R139, R140). -/
def RecordBody.fields (w : Nat) : RecordBody → List (Nat × Nat)
  | .pinhole b =>
    [(4, b.lastW), (1, b.lines), (1, 0), (2, b.left), (2, b.right), (2, b.area), (2, b.peak), (4, b.patch), (2, 0)]
  | .streakOpen b =>
    [(1, b.pol.num), (1, 0), (2, b.left), (2, b.right), (2, b.cellsAtOpen), (4, b.patch), (8, 0)]
  | .streakClose b =>
    [(4, b.openSeq), (4, b.mergedInto), (1, b.reason.num), (1, 0), (2, b.lines), (2, b.patches), (2, b.wideL),
      (2, b.wideR), (2, b.peak)]
  | .patch b =>
    [(4, b.num), (3, b.lastW - w), (3, w - b.s), (2, b.err.natAbs), (2, b.pinholes), (2, b.streakOpens),
      (2, b.lateMarks), (2, b.skipped)]
  | .event code arg => [(1, code.num), (1, 0), (2, arg), (16, 0)]

/-- The fields of a record, header first (R138). -/
def Record.fields (r : Record) : List (Nat × Nat) :=
  [(1, r.body.kindNum), (1, bitsNumber r.body.flagBits), (1, r.body.laneField), (1, r.body.profileField), (4, r.seq),
    (4, r.w)] ++ r.body.fields r.w

theorem record_bytes_eq (r : Record) : r.bytes = fieldBytes r.fields := by
  have hbody : r.body.bytes r.w = fieldBytes (r.body.fields r.w) := by
    cases r.body <;> simp [RecordBody.bytes, RecordBody.fields, fieldBytes]
  rw [Record.bytes, hbody]
  simp [Record.fields, fieldBytes, bitsByte, bitsNumber]

theorem record_length (r : Record) : r.bytes.length = 32 := by
  cases h : r.body <;> simp [Record.bytes, RecordBody.bytes, bitsByte_length, h]

/-- The flag bits of a record, the rest of its byte filled with 0. -/
def RecordBody.flagByte (b : RecordBody) : List Bool := b.flagBits ++ List.replicate (8 - b.flagBits.length) false

/-- Byte 1 of a record holds its flag bits, bit 0 first, and 0 above them. -/
theorem record_flags (r : Record) (i : Nat) (x : Bool) (h : r.body.flagByte[i]? = some x) :
    (r.bytes.getD 1 0).getLsbD i = x := by
  have hlength : r.body.flagByte.length = 8 := by
    cases hb : r.body <;> simp [RecordBody.flagByte, RecordBody.flagBits, PinFlags.bits]
  have hi : i < 8 := hlength ▸ (List.getElem?_eq_some_iff.mp h).1
  have hbyte : r.bytes.getD 1 0 = BitVec.ofNat 8 (bitsNumber r.body.flagBits) := by
    rw [Record.bytes, bitsByte_eq]; rfl
  have hbit : r.body.flagBits.getD i false = x := by
    rw [RecordBody.flagByte, List.getElem?_append] at h
    split at h
    · rw [List.getD_eq_getElem?_getD, h]; rfl
    · rename_i hbehind
      rw [List.getD_eq_default _ _ (not_lt.mp hbehind)]
      exact (List.eq_of_mem_replicate (List.mem_of_getElem? h)).symm
  rw [hbyte, BitVec.getLsbD_ofNat, bitsNumber_testBit, hbit, decide_eq_true hi, Bool.true_and]

/-- Each field of a record that fits its size is read back at its place; byte 1, the flags, is left aside. -/
theorem record_reads (r : Record) (offset size v : Nat) (h : (offset, size, v) ∈ (placed 0 r.fields).eraseIdx 1)
    (hv : v < 256 ^ size) : ofBe ((r.bytes.drop offset).take size) = v := by
  rw [record_bytes_eq]
  exact ofBe_placed hv r.fields [] (List.mem_of_mem_eraseIdx h)

/-- Settles O18: a record is its fields one behind the other, and kind by kind these are the fields of R138 to R140. -/
theorem recordLayout : Obligations.RecordLayout := by
  intro r
  refine ⟨record_length r, r.body.flagByte, (placed 0 r.fields).eraseIdx 1, record_flags r, record_reads r, ?_⟩
  obtain ⟨seq, w, body⟩ := r
  cases body with
  | pinhole b => rfl
  | streakOpen b => rfl
  | streakClose b => rfl
  | patch b => rfl
  | event code arg => cases code <;> rfl

end Sys2Proof.Machine
end

section
/-! SUPPORT. The condition of the mark queue and the outputs across every step (R152, R156, O54): whatever reaches
neither the scheduler nor W keeps it, a count that moves W settles the queue, RESET_POSITION empties it, and
FORCE_MARK and the engine change it by entering actions. -/

namespace Sys2Proof.Machine

/-- The condition of the mark queue and the outputs is kept from `s` to `t`. -/
def KeepsMarks (s t : State) : Prop := s.marksOk → t.marksOk

theorem KeepsMarks.trans {s t u : State} (h : KeepsMarks s t) (k : KeepsMarks t u) : KeepsMarks s u := k ∘ h

/-- The condition speaks of the scheduler and W alone. -/
theorem KeepsMarks.of_same {s t : State} (hmark : t.mark = s.mark) (hw : t.pos.w = s.pos.w) : KeepsMarks s t := by
  unfold KeepsMarks
  rw [marksOk_iff, marksOk_iff, hmark, hw]
  exact id

theorem WebWork.keepsMarks {s t : State} (h : WebWork s t) : KeepsMarks s t := .of_same h.mark (by rw [h.pos])

theorem LinkWork.keepsMarks {h : HeadNo} {s t : State} (k : LinkWork h s t) : KeepsMarks s t :=
  .of_same k.mark (by rw [k.pos])

/-! ### The counts (R156) -/

/-- Settling sets the outputs by W and takes the ended entries out, wherever W stood before. -/
theorem settleMarks_marksOk {s : State} (hlength : s.mark.queue.length ≤ 32)
    (hsorted : s.mark.queue.Pairwise MarkEntry.before) : (settleMarks s).marksOk :=
  settle_holdsAt s.pos.w hlength hsorted

/-- The work at a count that moves W settles the queue first. -/
theorem positionRose_marksOk {s : State} (hlength : s.mark.queue.length ≤ 32)
    (hsorted : s.mark.queue.Pairwise MarkEntry.before) : (positionRose s).marksOk :=
  (countWork_web _ _).keepsMarks (settleMarks_marksOk hlength hsorted)

theorem forwardCount_keepsMarks (s : State) : KeepsMarks s (forwardCount s) := by
  unfold forwardCount
  dsimp only
  split
  · exact .of_same rfl rfl
  · split
    · exact fun ⟨hlength, hsorted, _⟩ => positionRose_marksOk hlength hsorted
    · exact .of_same rfl rfl

theorem backwardCount_keepsMarks (s : State) : KeepsMarks s (backwardCount s) := by
  unfold backwardCount
  dsimp only
  split
  · exact .of_same rfl rfl
  · split <;> exact .of_same rfl rfl

theorem setReference_keepsMarks (a b : Bool) (s : State) : KeepsMarks s (setReference a b s) := .of_same rfl rfl

theorem encoderTransition_keepsMarks (a b : Bool) {s t : State} (h : exec (.encoderTransition a b) s = .next t) :
    KeepsMarks s t := by
  cases h
  split
  · exact id
  · split
    · exact (setReference_keepsMarks a b s).trans (forwardCount_keepsMarks _)
    · split
      · exact (setReference_keepsMarks a b s).trans (backwardCount_keepsMarks _)
      · exact .of_same rfl rfl

/-! ### The station commands -/

theorem restartSilence_mark (p : PortNo) (s : State) : (restartSilence p s).mark = s.mark := by
  unfold restartSilence; split <;> rfl

theorem armRun_mark (p : PortNo) (s : State) : (armRun p s).mark = s.mark := by
  unfold armRun
  extract_lets rcp s1 trig s2 s3
  have h3 : s3.mark = s.mark := (takeTrigger_web s2).mark
  split
  · exact (positionLimit_web s3).mark.trans h3
  · exact h3

theorem cmdCommit_mark (p : PortNo) (s : State) : (cmdCommit p s).1.mark = s.mark := by
  have h := restartSilence_mark p s
  unfold cmdCommit
  dsimp only
  split
  · exact h
  · split
    · exact h
    · split
      · exact h
      · split
        · exact (swapPoint_web _).mark.trans h
        · exact h

/-- Of the station commands RESET_POSITION and FORCE_MARK alone reach the marker scheduler (R157, R158). -/
theorem runCommand_mark {c : Command} (hc : c ∉ [.resetPosition, .forceMark]) (p : PortNo) (payload : List Byte)
    (s : State) : (runCommand p c payload s).1.mark = s.mark := by
  have hs := restartSilence_mark p s
  cases c <;> simp only [runCommand]
  case resetPosition | forceMark => simp at hc
  case ident | status | readCandidates | readStreaks => rfl
  case arm =>
    unfold cmdArm
    split
    · rfl
    · split
      · rfl
      · exact armRun_mark p s
  case disarm =>
    unfold cmdDisarm
    split
    · exact (beginStop_web _ s).mark
    · rfl
  case commit => exact cmdCommit_mark p s
  case resyncHead =>
    unfold cmdResyncHead
    split
    · rfl
    · exact (resyncLink_work _ s).mark
  case claimEdit =>
    unfold cmdClaimEdit
    split
    · rfl
    · split
      · exact hs
      · rfl
  case stageWrite | stageRead | cancelPending =>
    simp only [cmdStageWrite, cmdStageRead, cmdCancelPending]
    repeat' split
    all_goals exact hs
  case ackAttn | endService | releaseEdit | activeRead | fetch | seek | subscribe | readCells =>
    simp only [cmdAckAttn, cmdEndService, cmdReleaseEdit, cmdActiveRead, cmdFetch, cmdSeek, cmdSubscribe, cmdReadCells]
    split <;> rfl

/-- An empty queue with both outputs inactive, wherever W stands. -/
theorem holdsAt_of_empty {k : Scheduler} {w : Nat} (hqueue : k.queue = []) (h0 : k.mk0 = false) (h1 : k.mk1 = false) :
    k.holdsAt w := by
  unfold Scheduler.holdsAt
  rw [hqueue, h0, h1]
  simp

theorem cmdResetPosition_keepsMarks (s : State) : KeepsMarks s (cmdResetPosition s).1 := by
  unfold cmdResetPosition
  split
  · exact fun _ => holdsAt_of_empty rfl rfl rfl
  · exact id

theorem cmdForceMark_keepsMarks (marker : Byte) (distance : BitVec 16) (s : State) :
    KeepsMarks s (cmdForceMark marker distance s).1 := by
  unfold cmdForceMark
  split
  · exact id
  · exact fun h => enterAction_marksOk h _ _ _ _ _

theorem runCommand_keepsMarks (p : PortNo) (c : Command) (payload : List Byte) (s : State) :
    KeepsMarks s (runCommand p c payload s).1 := by
  by_cases hc : c ∈ [.resetPosition, .forceMark]
  · simp only [List.mem_cons, List.not_mem_nil, or_false] at hc
    rcases hc with rfl | rfl
    · exact cmdResetPosition_keepsMarks s
    · exact cmdForceMark_keepsMarks _ _ s
  · have hpos := (runCommand_holds (c := c) (by rintro rfl; simp at hc) p payload s).1
    exact .of_same (runCommand_mark hc p payload s) (by rw [hpos])

theorem keepsMarks_stationRel : StationRel KeepsMarks where
  same _ := id
  trans _ _ _ := KeepsMarks.trans
  port _ _ _ _ := .of_same rfl rfl
  command s p c payload := runCommand_keepsMarks p c payload s

/-! ### The links and the engine's steps -/

theorem carrierLost_keepsMarks (h : HeadNo) (bytes : List Byte) {s t : State}
    (ht : exec (.carrierLost h bytes) s = .next t) : KeepsMarks s t := by
  have hbytes := (headBytes_work h bytes s).keepsMarks
  cases ht
  dsimp only
  split
  · exact hbytes
  · exact hbytes
  · refine hbytes.trans (KeepsMarks.trans ?_ (headLost_work _ _ _).keepsMarks)
    exact .of_same rfl rfl

/-- Stages 1 and 2 write cell records alone. -/
theorem workedFrom_keepsMarks (ln : Line) (s : State) (φ ψ : LineProgress) :
    KeepsMarks s (workedFrom ln (s.atProgress φ) ψ) := by
  obtain ⟨cells, h⟩ := workedFrom_eq ln (s.atProgress φ) ψ
  rw [h]
  exact .of_same rfl rfl

theorem advanceLine_keepsMarks (i : Fin 4) (s : State) : KeepsMarks s (advanceLine i s) := by
  obtain ⟨v, hv, h⟩ := advanceLine_work i s
  rw [h]
  exact ((workedFrom_keepsMarks _ s _ _).trans hv.marks).trans (.of_same rfl rfl)

theorem publishLine_keepsMarks (i : Fin 4) (s : State) : KeepsMarks s (publishLine i s) := by
  obtain ⟨v, hv, h⟩ := publishLine_work i s
  rw [h, freeSlot_eq]
  exact ((workedFrom_keepsMarks _ s _ _).trans hv.marks).trans (.of_same rfl rfl)

theorem takeLine_keepsMarks (i : Fin 4) (s : State) : KeepsMarks s (takeLine i s) := by
  obtain ⟨v, hv, h⟩ := takeLine_work i s
  have htaken : KeepsMarks s (takenFrom i s) := .of_same rfl rfl
  rw [h]
  exact (htaken.trans hv.marks).trans (.of_same rfl rfl)

theorem completeStop_keepsMarks (s : State) : KeepsMarks s (completeStop s) := by
  obtain ⟨v, hv, h⟩ := completeStop_work s
  rw [h]
  refine KeepsMarks.trans hv.marks (KeepsMarks.trans ?_ (swapPoint_web _).keepsMarks)
  exact .of_same rfl rfl

/-! ### Every step -/

theorem exec_keepsMarks (c : Instr) (s t : State) (h : exec c s = .next t) : KeepsMarks s t := by
  refine exec_induct keepsMarks_stationRel (reset := ?_) (encoder := ?_) (edge := ?_) (gained := ?_) (lost := ?_)
    (head := ?_) (take := ?_) (publish := ?_) (stop := ?_) (expiry := ?_) c s t h
  · intro a b k s t h
    cases h
    exact fun _ => reset_marksOk
  · exact fun a b s t h => encoderTransition_keepsMarks a b h
  · exact fun s => (takeEdge_web s).keepsMarks
  · intro k s t h
    cases h
    dsimp only
    split <;> exact .of_same rfl rfl
  · exact fun k bytes s t h => carrierLost_keepsMarks k bytes h
  · exact fun k bytes s => (headBytes_work k bytes s).keepsMarks
  · exact fun s i _ => takeLine_keepsMarks i s
  · exact fun s i _ => publishLine_keepsMarks i s
  · exact fun s _ _ => completeStop_keepsMarks s
  · intro s t h
    cases h
    split <;> exact .of_same rfl rfl

/-- Settles O54, by the kinds of steps: a count settles the queue at the new W, RESET_POSITION and a power-on reset
empty it, FORCE_MARK and the engine enter actions, and every other step leaves the scheduler and W. -/
theorem marksKept : Obligations.MarksKept :=
  step_keeps (fun _ _ h => h) exec_keepsMarks fun s i _ => advanceLine_keepsMarks i s

end Sys2Proof.Machine
end

section
/-! SUPPORT. FORCE_MARK at a port with no response in progress (R153 to R157, O35): an action that collides with no
entry of its marker is entered or dropped, one that collides is merged, and the outputs follow the queue. -/

namespace Sys2Proof.Machine

/-! ### The outputs after an entry (R156) -/

/-- The scheduler with the given queue and its outputs set by it. -/
def Scheduler.driven (k : Scheduler) (w : Nat) (q : List MarkEntry) : Scheduler :=
  { k with
    queue := q
    mk0 := q.any fun e => decide (e.marker = .mk0 ∧ e.covers w)
    mk1 := q.any fun e => decide (e.marker = .mk1 ∧ e.covers w) }

/-- When no entry has ended, settling drives the outputs by the queue as it stands. -/
theorem settle_driven {k : Scheduler} {w : Nat} (h : ∀ e ∈ k.queue, w < e.stop) : k.settle w = k.driven w k.queue := by
  rw [settle_of_live h, markActive_eq, markActive_eq]; rfl

/-- An entry that ends ahead of W is put among others that do. -/
theorem insertMark_live {x : MarkEntry} {q : List MarkEntry} {w : Nat} (hx : w < x.stop) (hq : ∀ e ∈ q, w < e.stop) :
    ∀ e ∈ insertMark x q, w < e.stop := by
  intro e he
  rcases List.mem_cons.mp ((insertMark_perm x q).mem_iff.mp he) with rfl | he
  exacts [hx, hq e he]

/-! ### The rounds of a merge (R154) -/

/-- The merge of R154 at the end of its rounds: of a queue the survivor and the entries that leave lie in [a, b), which
the rest does not collide with, and [a, b) is the least that holds [lo, hi) and whatever collides with it. -/
structure Merges (q : List MarkEntry) (m : Marker) (spacing lo hi : Nat) (survivor : MarkEntry)
    (gone rest : List MarkEntry) (a b : Nat) : Prop where
  perm : q.Perm (survivor :: gone ++ rest)
  sublist : rest.Sublist q
  hit : survivor.hit m spacing lo hi = true
  lowest : ∀ e ∈ q, e.hit m spacing lo hi = true → survivor.rank ≤ e.rank
  inside : ∀ e ∈ survivor :: gone, e.marker = m ∧ a ≤ e.start ∧ e.stop ≤ b
  apart : ∀ e ∈ rest, ¬e.hit m spacing a b
  start_le : a ≤ lo
  le_stop : hi ≤ b
  start_attained : a = lo ∨ ∃ e ∈ survivor :: gone, e.start = a
  stop_attained : b = hi ∨ ∃ e ∈ survivor :: gone, e.stop = b
  least : ∀ c d, c ≤ lo → hi ≤ d → (∀ e ∈ q, e.hit m spacing c d = true → c ≤ e.start ∧ e.stop ≤ d) → c ≤ a ∧ b ≤ d

/-- Folding the queue into an interval that some entry collides with is such a merge. -/
theorem foldColliding_merges {q : List MarkEntry} {m : Marker} {spacing lo hi : Nat} (hle : lo ≤ hi)
    {survivor : MarkEntry} (hs : lowestRank (q.filter fun e => e.hit m spacing lo hi) = some survivor) :
    ∃ gone rest a b, Merges q m spacing lo hi survivor gone rest a b ∧
      foldColliding m spacing q.length lo hi q = (a, b, rest) := by
  obtain ⟨hmem, hlowest⟩ := lowestRank_some hs
  obtain ⟨hq, hhit⟩ := List.mem_filter.mp hmem
  obtain ⟨a, b, folded, rest, hfold, hperm, hsub, hinside, hapart, hfolded, ha, hb, hstart, hstop, hleast⟩ :=
    foldColliding_spec m spacing q.length lo hi q hle le_rfl
  have hcons : folded.Perm (survivor :: folded.erase survivor) := List.perm_cons_erase (hfolded survivor hq hhit)
  refine ⟨folded.erase survivor, rest, a, b, ⟨hperm.trans (hcons.append_right rest), hsub, hhit,
    fun e he h => hlowest e (List.mem_filter.mpr ⟨he, h⟩), fun e he => hinside e (hcons.mem_iff.mpr he),
    fun e he => by simp [hapart e he], ha, hb, ?_, ?_, hleast⟩, hfold⟩
  · exact hstart.imp_right fun ⟨e, he, h⟩ => ⟨e, hcons.mem_iff.mp he, h⟩
  · exact hstop.imp_right fun ⟨e, he, h⟩ => ⟨e, hcons.mem_iff.mp he, h⟩

/-! ### An action ahead of W, or at it (R153) -/

/-- The due test leaves a start that W has not passed. -/
theorem dueStart_ahead {w start : Nat} (h : w ≤ start) : dueStart w start = start := by
  unfold dueStart; split <;> omega

section
variable {k : Scheduler} {w start width spacing : Nat} {m : Marker} (hw : w ≤ start)
  (hlive : ∀ e ∈ k.queue, w < e.stop)
include hw hlive

/-- An action that collides with no entry, with room: it is entered with the next arrival rank. -/
theorem enter_apart (hwidth : 1 ≤ width) (hnone : ∀ e ∈ k.queue, ¬e.hit m spacing start (start + width))
    (hroom : k.queue.length < 32) :
    k.enter w m start width spacing =
      ({ k with nextRank := k.nextRank + 1 }.driven w
          (insertMark ⟨m, start, start + width, k.nextRank⟩ k.queue),
        ⟨.entered, start, start + width, decide (start ≤ w)⟩) := by
  have hno := lowestRank_none.mpr (List.filter_eq_nil_iff.mpr hnone)
  unfold Scheduler.enter
  simp only [dueStart_ahead hw, hno, markCapacity, hroom, if_true]
  rw [settle_driven (insertMark_live (show w < start + width by omega) hlive)]
  rfl

/-- An action that collides with no entry of a full queue: it is dropped (R155). -/
theorem enter_full (hnone : ∀ e ∈ k.queue, ¬e.hit m spacing start (start + width)) (hfull : k.queue.length = 32) :
    k.enter w m start width spacing =
      ({ k with latch := true, dropped := bump k.dropped }.driven w k.queue,
        ⟨.dropped, start, start + width, decide (start ≤ w)⟩) := by
  have hno := lowestRank_none.mpr (List.filter_eq_nil_iff.mpr hnone)
  unfold Scheduler.enter
  simp only [dueStart_ahead hw, hno, markCapacity, hfull, lt_irrefl, if_false]
  exact Prod.ext (settle_driven hlive) rfl

/-- An action that collides with an entry of its marker: it is merged, the entries that leave clear the latch, and each
is counted besides the action. -/
theorem enter_merged (hwidth : 1 ≤ width) (hsome : ∃ e ∈ k.queue, e.hit m spacing start (start + width) = true) :
    ∃ survivor gone rest a b, Merges k.queue m spacing start (start + width) survivor gone rest a b ∧
      k.enter w m start width spacing =
        ({ k with
            latch := if gone = [] then k.latch else false
            merges := min (k.merges + 1 + gone.length) 65535 }.driven w
            (insertMark { survivor with start := a, stop := b } rest),
          ⟨.merged, start, start + width, decide (start ≤ w)⟩) := by
  obtain ⟨e, he, hhit⟩ := hsome
  cases hs : lowestRank (k.queue.filter fun e => e.hit m spacing start (start + width)) with
  | none => exact absurd hhit (List.filter_eq_nil_iff.mp (lowestRank_none.mp hs) e he)
  | some survivor =>
    obtain ⟨gone, rest, a, b, hmerge, hfold⟩ := foldColliding_merges (Nat.le_add_right start width) hs
    have hleaving : k.queue.length - rest.length - 1 = gone.length := by
      have := hmerge.perm.length_eq
      simp only [List.cons_append, List.length_cons, List.length_append] at this
      omega
    have hend : w < b := by have := hmerge.le_stop; omega
    have hrest : ∀ e ∈ rest, w < e.stop := fun e he => hlive e (hmerge.sublist.mem he)
    refine ⟨survivor, gone, rest, a, b, hmerge, ?_⟩
    unfold Scheduler.enter
    simp only [dueStart_ahead hw, hs, hfold, hleaving]
    rw [settle_driven (insertMark_live hend hrest)]
    cases gone <;> simp [Scheduler.driven, bumpBy_eq, Nat.add_assoc]

end

/-! ### The command (R157) -/

/-- An action with patch number 0 is no late mark: entering it is the scheduler's own work, and MARK_QUEUE_FULL. -/
theorem enterAction_unpatched {s : State} {m : Marker} {start width spacing : Nat} {k : Scheduler} {r : MarkResult}
    (h : s.mark.enter s.pos.w m start width spacing = (k, r)) :
    enterAction m start width spacing 0 s =
      (if r.outcome = .dropped ∧ s.mark.latch = false then appendEvent .markQueueFull m.num { s with mark := k }
        else { s with mark := k }, r) := by
  rw [enterAction_eq, h]
  simp [lateAfter, MarkResult.isLate]

/-- A marker that does not exist is refused. -/
theorem forceMark_refused {p : PortNo} {s : State} (h : s.ready p) (tag : Byte) {marker : Byte} (distance : BitVec 16)
    (hbad : 1 < marker.toNat) : exec (.forceMark p tag marker distance) s = .next (s.answering p 0x51 tag 8 []) := by
  have hno : markerOf marker = none := by
    unfold markerOf
    split
    case h_3 => rfl
    all_goals omega
  refine congrArg Host.Outcome.next ((submit_ready h .forceMark tag _ (cmdForceMark marker distance)).trans ?_)
  rw [cmdForceMark, hno]; rfl

section
variable {p : PortNo} {s : State} (h : s.ready p) (tag : Byte) {marker : Byte} {distance : BitVec 16} {m : Marker}
  (hm : markerOf marker = some m) {k : Scheduler} {r : MarkResult}
  (he : s.mark.enter s.pos.w m (s.pos.w + distance.toNat) (s.rcp.active.markerFields m).width
    (s.rcp.active.markerFields m).spacing = (k, r))
include h hm he

/-- A marker that exists: its action is entered at W plus the distance, and answered with what became of it. -/
theorem forceMark_answers :
    exec (.forceMark p tag marker distance) s =
      .next ((if r.outcome = .dropped ∧ s.mark.latch = false then
          appendEvent .markQueueFull m.num { s with mark := k }
        else { s with mark := k }).answering p 0x51 tag 0
          ([BitVec.ofNat 8 r.outcome.num] ++ be 5 r.start ++ be 5 r.stop)) := by
  refine congrArg Host.Outcome.next ((submit_ready h .forceMark tag _ (cmdForceMark marker distance)).trans ?_)
  have hcode : be 1 r.outcome.num = [BitVec.ofNat 8 r.outcome.num] := by simp [be]
  simp only [cmdForceMark, hm, enterAction_unpatched he, hcode]
  rfl

/-- An action entered or merged appends nothing (R157). -/
theorem forceMark_kept (hr : r.outcome ≠ .dropped) :
    exec (.forceMark p tag marker distance) s =
      .next ({ s with mark := k }.answering p 0x51 tag 0
        ([BitVec.ofNat 8 r.outcome.num] ++ be 5 r.start ++ be 5 r.stop)) := by
  rw [forceMark_answers h tag hm he, if_neg fun ⟨hd, _⟩ => hr hd]

/-- An action dropped appends MARK_QUEUE_FULL when the latch was clear (R155). -/
theorem forceMark_dropped (hr : r.outcome = .dropped) :
    exec (.forceMark p tag marker distance) s =
      .next ((if s.mark.latch then { s with mark := k }
        else append s.pos.w (.event .markQueueFull m.num) { s with mark := k }).answering p 0x51 tag 0
          ([BitVec.ofNat 8 r.outcome.num] ++ be 5 r.start ++ be 5 r.stop)) := by
  rw [forceMark_answers h tag hm he]
  cases s.mark.latch
  · rw [if_pos ⟨hr, rfl⟩]; rfl
  · rw [if_neg (by simp)]; rfl

end

theorem markerOf_fields {r : Recipe} {marker : Byte} {m : Marker} {f : MarkerFields}
    (h : marker = 0 ∧ m = .mk0 ∧ f = r.mk0 ∨ marker = 1 ∧ m = .mk1 ∧ f = r.mk1) :
    markerOf marker = some m ∧ f = r.markerFields m := by
  rcases h with ⟨rfl, rfl, rfl⟩ | ⟨rfl, rfl, rfl⟩ <;> exact ⟨rfl, rfl⟩

theorem Marker.num_eq (m : Marker) : m.num = if m = .mk0 then 0 else 1 := by cases m <;> rfl

/-- An entry clear of an interval by the spacing does not collide with it (R154). -/
theorem not_hit_of_clear {e : MarkEntry} {m : Marker} {spacing lo hi : Nat} (hle : lo ≤ hi)
    (h : e.marker = m → hi + spacing ≤ e.start ∨ e.stop + spacing ≤ lo ∧ e.start < lo) : ¬e.hit m spacing lo hi := by
  rw [MarkEntry.hit_iff]
  rintro ⟨hm, hhit⟩
  have := h hm
  omega

/-- Settles O35: an unknown marker, and an action entered, dropped or merged by what it collides with. -/
theorem forceMarkEnters : Obligations.ForceMarkEnters := by
  intro p tag marker distance s h
  refine ⟨forceMark_refused h tag distance, fun m f hf hwidth hlive hsorted => ?_⟩
  obtain ⟨hm, rfl⟩ := markerOf_fields hf
  have hw : s.pos.w ≤ s.pos.w + distance.toNat := Nat.le_add_right _ _
  refine ⟨_, _, fun q k => k.driven s.pos.w q, rfl, rfl, fun q k => rfl, fun hclear => ?_, fun met hmet hsome => ?_⟩
  · have hnone := fun e he => not_hit_of_clear (Nat.le_add_right _ _) (hclear e he)
    refine ⟨fun hroom => ⟨_, insertMark_perm _ _, (insertMark_sorted _ hsorted).imp ?_,
      forceMark_kept h tag hm (enter_apart hw hlive hwidth hnone hroom) nofun⟩, fun hfull => ⟨_, rfl, ?_⟩⟩
    · exact fun hbefore => hbefore.elim le_of_lt fun ⟨heq, _⟩ => heq.le
    · rw [forceMark_dropped h tag hm (enter_full hw hlive hnone hfull) rfl, Marker.num_eq]
      rfl
  · have hhit : ∀ a b e, met a b e ↔ e.hit m (s.rcp.active.markerFields m).spacing a b = true :=
      fun a b e => (hmet a b e).trans (e.hit_iff m _ a b).symm
    simp only [hhit] at hsome ⊢
    obtain ⟨survivor, gone, rest, a, b, hmerge, henter⟩ := enter_merged hw hlive hwidth hsome
    exact ⟨survivor, gone, rest, _, a, b, hmerge.perm, hmerge.hit, hmerge.lowest, hmerge.inside, hmerge.apart,
      hmerge.start_le, hmerge.le_stop, hmerge.start_attained, hmerge.stop_attained, hmerge.least, insertMark_perm _ _,
      insertMark_sorted _ (hsorted.sublist hmerge.sublist), forceMark_kept h tag hm henter nofun⟩

end Sys2Proof.Machine
end

section
/-! SUPPORT. Any relation across the works of the web side (chapters 1 and 2): one that a swap, a trigger's forcing and
opening, the tracker's works and the beginning of a stop keep holds across every count. -/

namespace Sys2Proof.Machine

/-- A relation that can be chained, that holds where the tracker, the assembler and the recipe store stay, and that each
work at a count keeps under the condition on which it is done. -/
structure WebRel (R : State → State → Prop) : Prop where
  trans : ∀ s t u, R s t → R t u → R s u
  frame : ∀ s t : State, t.trk = s.trk → t.asm = s.asm → t.rcp = s.rcp → R s t
  swap : ∀ s, s.swapWaits = true → R s (takeSwap s)
  force : ∀ s, R s (forceSlots s)
  opened : ∀ s i, s.rcp.run = .armed → s.freeSlotNo = some i → R s (openLine i s)
  miss : ∀ s, R s (missWork s)
  pop : ∀ s, R s (popWork s)
  stop : ∀ s n, s.rcp.run = .armed → R s (beginStop n s)

variable {R : State → State → Prop}

theorem WebRel.same (h : WebRel R) (s : State) : R s s := h.frame s s rfl rfl rfl

/-- Work that starts from a machine with the same tracker, assembler and recipe store. -/
theorem WebRel.behind (h : WebRel R) {s u t : State} (k : R u t) (htrk : u.trk = s.trk) (hasm : u.asm = s.asm)
    (hrcp : u.rcp = s.rcp) : R s t :=
  h.trans _ _ _ (h.frame s u htrk hasm hrcp) k

theorem WebRel.swapPoint_rel (h : WebRel R) (s : State) : R s (swapPoint s) := by
  unfold swapPoint
  split
  · rename_i hwait
    exact h.trans _ _ _ (h.swap s hwait) (h.frame _ _ rfl rfl rfl)
  · exact h.same s

/-- A trigger in a run: the swap that waits for it, the forcing, the line opened or skipped (R8). -/
theorem WebRel.takeTrigger_rel (h : WebRel R) {s : State} (hrun : s.rcp.run = .armed) : R s (takeTrigger s) := by
  have hswap : R s (if s.triggerSwaps then takeSwap s else s) ∧
      (if s.triggerSwaps then takeSwap s else s).rcp.run = .armed := by
    split
    · rename_i hswaps
      have hwait : s.swapWaits = true := by
        simp only [State.triggerSwaps, Bool.and_eq_true] at hswaps
        exact hswaps.1.1
      exact ⟨h.swap s hwait, (takeSwap_run s).trans hrun⟩
    · exact ⟨h.same s, hrun⟩
  unfold takeTrigger
  dsimp only
  generalize (if s.triggerSwaps then takeSwap s else s) = u at hswap
  obtain ⟨hu, hurun⟩ := hswap
  refine h.trans _ _ _ (h.trans _ _ _ hu (h.force u)) ?_
  cases hi : (forceSlots u).freeSlotNo with
  | some i => exact h.trans _ _ _ (h.opened _ i hurun hi) (h.frame _ _ rfl rfl rfl)
  | none => exact h.frame _ _ rfl rfl rfl

theorem WebRel.triggerWork_rel (h : WebRel R) (s : State) : R s (triggerWork s) := by
  unfold triggerWork
  split
  · rename_i hdue
    simp only [State.triggerDue, Bool.and_eq_true, beq_iff_eq] at hdue
    exact h.takeTrigger_rel hdue.1
  · exact h.same s

theorem WebRel.positionLimit_rel (h : WebRel R) (s : State) : R s (positionLimit s) := by
  unfold positionLimit
  split
  · rename_i hrun
    exact h.behind (h.stop (appendEvent .positionLimit 1 s) 3 hrun) rfl rfl rfl
  · exact h.frame _ _ rfl rfl rfl

theorem WebRel.coatToGapWork_rel (h : WebRel R) (s : State) : R s (coatToGapWork s) := by
  unfold coatToGapWork
  split
  · exact h.swapPoint_rel s
  · exact h.same s

theorem WebRel.freePlace_rel (h : WebRel R) (p : State × Bool) : R p.1 (freePlace p).1 := by
  unfold freePlace
  extract_lets u
  have htrigger : R p.1 u := by
    rcases nowOrLater_cases p.1.triggerDue (p.1.trackerDue || p.2) triggerWork p.1 with ⟨n, hn⟩ | ⟨-, n, hn⟩
    · rw [show u = _ from hn]
      exact h.frame _ _ rfl rfl rfl
    · rw [show u = _ from hn]
      exact h.behind (h.triggerWork_rel _) rfl rfl rfl
  clear_value u
  refine h.trans _ _ _ htrigger ?_
  split
  · unfold drawChoice
    cases Config.orderChoice u.freeCount
    · exact h.frame _ _ rfl rfl rfl
    · exact h.behind (h.positionLimit_rel _) rfl rfl rfl
  · split
    · exact h.positionLimit_rel u
    · exact h.same u

/-- Across a count at which W has risen, whatever the free choices (R28, assumption 7). -/
theorem WebRel.countWork_rel (h : WebRel R) (limit : Bool) (s : State) : R s (countWork limit s) := by
  unfold countWork
  extract_lets p1 p2 p3 p4 s5
  have h1 : R s p1.1 := h.freePlace_rel (s, limit)
  have h2 : R p1.1 p2.1 := h.trans _ _ _ (h.coatToGapWork_rel _) (h.freePlace_rel (_, _))
  have h3 : R p2.1 p3.1 := h.trans _ _ _ (h.miss _) (h.freePlace_rel (_, _))
  have h4 : R p3.1 p4.1 := h.trans _ _ _ (h.pop _) (h.freePlace_rel (_, _))
  have h5 : R p4.1 s5 := by
    unfold s5
    split
    · exact h.positionLimit_rel _
    · exact h.same _
  have h14 : R s p4.1 := h.trans _ _ _ (h.trans _ _ _ h1 h2) (h.trans _ _ _ h3 h4)
  exact h.trans _ _ _ (h.trans _ _ _ h14 h5) (h.triggerWork_rel _)

theorem WebRel.forwardCount_rel (h : WebRel R) (s : State) : R s (forwardCount s) := by
  unfold forwardCount
  dsimp only
  split
  · exact h.frame _ _ rfl rfl rfl
  · split
    · exact h.behind (h.countWork_rel _ (settleMarks _)) rfl rfl rfl
    · exact h.frame _ _ rfl rfl rfl

theorem WebRel.backwardCount_rel (h : WebRel R) (s : State) : R s (backwardCount s) := by
  unfold backwardCount
  dsimp only
  split
  · exact h.frame _ _ rfl rfl rfl
  · split <;> exact h.frame _ _ rfl rfl rfl

/-- Across every transition of the encoder (R1). -/
theorem WebRel.encoderTransition_rel (h : WebRel R) {a b : Bool} {s t : State}
    (ht : exec (.encoderTransition a b) s = .next t) : R s t := by
  cases ht
  split
  · exact h.same s
  · split
    · exact h.behind (h.forwardCount_rel (setReference a b s)) rfl rfl rfl
    · split
      · exact h.behind (h.backwardCount_rel (setReference a b s)) rfl rfl rfl
      · exact h.frame _ _ rfl rfl rfl

/-! ### ARM (R170) -/

/-- The machine of an accepted ARM before line 0 is triggered (R17, R77, R95, R170). -/
def State.armedBy (s : State) (p : PortNo) : State :=
  { appendEvent .armed p.val s with
    rcp := { s.rcp with run := .armed }
    eng := s.eng.armed
    trk := s.trk.armed s.rcp.active.patch.c
    trig := { s.trig with n := 0, skipped := 0 } }

/-- An accepted ARM: the run begun, line 0 triggered, and the stop at the position limit (R6, R170). -/
theorem armRun_eq (p : PortNo) (s : State) :
    armRun p s = if s.pos.w = 4294967295 then positionLimit (takeTrigger (s.armedBy p))
      else takeTrigger (s.armedBy p) := by
  have hpos : (takeTrigger (s.armedBy p)).pos = s.pos := (takeTrigger_web _).pos
  show (if (takeTrigger (s.armedBy p)).pos.w = 4294967295 then _ else _) = _
  rw [hpos]; rfl

theorem WebRel.armRun_rel (h : WebRel R) (p : PortNo) (s : State) : R (s.armedBy p) (armRun p s) := by
  have htrigger : R (s.armedBy p) (takeTrigger (s.armedBy p)) := h.takeTrigger_rel rfl
  rw [armRun_eq]
  split
  · exact h.trans _ _ _ htrigger (h.positionLimit_rel _)
  · exact htrigger

end Sys2Proof.Machine
end

section
/-! SUPPORT. Slots, copies, tracker and run state (R16, R17, R64, R161, R167, R169), which every step keeps in agreement
(O56): swaps move the slots' references with the copies, a stop and a publication give references up, and everything
else leaves references and run state. -/

namespace Sys2Proof.Machine

/-! ### Steps that leave references and run state -/

/-- `y` is occupied for the same copy as `x`, and stays in the engine's hands. -/
structure SlotHeld (x y : Slot) : Prop where
  copy : y.copy = x.copy
  free : y.state = .free ↔ x.state = .free
  inWork : x.state = .inWork → y.state = .inWork

theorem SlotHeld.same (x : Slot) : SlotHeld x x := ⟨rfl, Iff.rfl, id⟩

/-- A link event may turn an OPEN slot READY. -/
theorem SlotStep.held {x y : Slot} (h : SlotStep x y) : SlotHeld x y := by
  refine ⟨h.copy, ?_, fun hx => ?_⟩ <;> rcases h.state with hs | ⟨hx', hs⟩
  · rw [hs]
  · rw [hs, hx']; exact iff_of_false nofun nofun
  · exact hs.trans hx
  · rw [hx'] at hx; cases hx

/-- Forcing turns an OPEN slot READY (R60). -/
theorem forced_held (n : BitVec 16) (x : Slot) : SlotHeld x (if x.stale n then x.forcedReady else x) := by
  split
  · rename_i hstale
    obtain ⟨hopen, -⟩ : x.state = .opened ∧ _ := by simpa [Slot.stale] using hstale
    exact ⟨rfl, by rw [hopen]; exact iff_of_false nofun nofun, fun h => by rw [hopen] at h; cases h⟩
  · exact .same x

/-- `t` has the references and the run state of `s`: every slot is held for the same copy, the retiring copy stays, no
copy comes to wait in IDLE, and the tracker stays frozen or not, OFF or not. -/
structure SameControl (s t : State) : Prop where
  slots : ∀ i, SlotHeld (s.asm.slots.get i) (t.asm.slots.get i)
  run : t.rcp.run = s.rcp.run
  retiring : t.rcp.retiring = s.rcp.retiring
  pending : s.rcp.run = .idle → s.rcp.pending = none → t.rcp.pending = none
  frozen : t.trk.frozen = s.trk.frozen
  off : t.trk.mode = .off ↔ s.trk.mode = .off

theorem SameControl.trans {s t u : State} (h : SameControl s t) (k : SameControl t u) : SameControl s u where
  slots i := ⟨(k.slots i).copy.trans (h.slots i).copy, (k.slots i).free.trans (h.slots i).free,
    fun hi => (k.slots i).inWork ((h.slots i).inWork hi)⟩
  run := k.run.trans h.run
  retiring := k.retiring.trans h.retiring
  pending hrun hp := k.pending (h.run.trans hrun) (h.pending hrun hp)
  frozen := k.frozen.trans h.frozen
  off := k.off.trans h.off

/-- Tracker, assembler and recipe store stay. -/
theorem SameControl.of_parts {s t : State} (htrk : t.trk = s.trk) (hasm : t.asm = s.asm) (hrcp : t.rcp = s.rcp) :
    SameControl s t where
  slots i := by rw [hasm]; exact .same _
  run := by rw [hrcp]
  retiring := by rw [hrcp]
  pending _ := by rw [hrcp]; exact id
  frozen := by rw [htrk]
  off := by rw [htrk]

theorem SameControl.same (s : State) : SameControl s s := .of_parts rfl rfl rfl

/-- The edit right alone changes (R162). -/
theorem SameControl.edit (s : State) (holder : Option PortNo) (staging : Option Recipe) (silence : Nat) :
    SameControl s { s with rcp := { s.rcp with holder := holder, staging := staging, silenceMs := silence } } :=
  ⟨fun _ => .same _, rfl, rfl, fun _ => id, rfl, Iff.rfl⟩

theorem LinkWork.sameControl {h : HeadNo} {s t : State} (k : LinkWork h s t) : SameControl s t :=
  ⟨fun i => (k.slots i).held, by rw [k.rcp], by rw [k.rcp], fun _ => by rw [k.rcp]; exact id, by rw [k.trk],
    by rw [k.trk]⟩

/-- Slots and run state are in agreement in `t` when they are in `s`. -/
def KeepsControl (s t : State) : Prop := s.controlOk → t.controlOk

theorem KeepsControl.trans {s t u : State} (h : KeepsControl s t) (k : KeepsControl t u) : KeepsControl s u :=
  fun hs => k (h hs)

theorem SameControl.keeps {s t : State} (h : SameControl s t) : KeepsControl s t := by
  rintro ⟨⟨hfree, hretiring⟩, hidle, hstopping, hfrozen, hoff⟩
  refine ⟨⟨fun i => ?_, ?_⟩, fun hrun => ⟨fun i => ?_, ?_⟩, fun hrun i => ?_, ?_, ?_⟩
  · rw [(h.slots i).free, (h.slots i).copy]; exact hfree i
  · rw [h.retiring, hretiring]
    simp only [fun i => (h.slots i).copy]
  · exact (h.slots i).free.mpr ((hidle (h.run ▸ hrun)).1 i)
  · exact h.pending (h.run ▸ hrun) (hidle (h.run ▸ hrun)).2
  · exact (hstopping (h.run ▸ hrun) i).imp (h.slots i).free.mpr (h.slots i).inWork
  · rw [h.frozen, h.run]; exact hfrozen
  · rw [h.off, h.run]; exact hoff

/-! ### The tracker's works (R19 to R24) -/

/-- Work on the tracker that leaves it frozen or not and OFF or not. -/
theorem TrackerWork.sameControl {s t : State} (h : TrackerWork s t) (hfrozen : t.trk.frozen = s.trk.frozen)
    (hoff : t.trk.mode = .off ↔ s.trk.mode = .off) : SameControl s t := by
  unfold TrackerWork at h
  have hasm : t.asm = s.asm := by rw [h]
  have hrcp : t.rcp = s.rcp := by rw [h]
  exact ⟨fun i => by rw [hasm]; exact .same _, by rw [hrcp], by rw [hrcp], fun _ => by rw [hrcp]; exact id, hfrozen,
    hoff⟩

theorem pushStart_sameControl (pos : Nat) (err : Int) (kind : StartKind) {s : State} (hm : s.trk.mode ≠ .off) :
    SameControl s (pushStart pos err kind s) := by
  refine (pushStart_tracker pos err kind s).sameControl ?_ ?_ <;> unfold pushStart <;> dsimp only <;> split
  · rfl
  · split <;> rfl
  · rfl
  · split
    · rfl
    · exact iff_of_false nofun hm

theorem popStarts_sameControl (n : Nat) : ∀ s, SameControl s (popStarts n s) := by
  induction n with
  | zero => exact .same
  | succ n ih =>
    intro s
    unfold popStarts
    split
    · exact .same s
    · rename_i e rest _
      split
      · exact SameControl.trans (TrackerWork.sameControl (t := popStart e rest s) rfl rfl Iff.rfl) (ih _)
      · exact .same s

theorem popWork_sameControl (s : State) : SameControl s (popWork s) := by
  unfold popWork
  split
  · exact popStarts_sameControl _ s
  · exact .same s

theorem missMark_sameControl {s : State} (hm : s.trk.mode ≠ .off) : SameControl s (missMark s) := by
  refine (missMark_tracker s).sameControl ?_ ?_ <;> unfold missMark <;> dsimp only <;> split
  · exact (pushStart_sameControl _ _ _ (s := s.missed) hm).frozen
  · rfl
  · exact (pushStart_sameControl _ _ _ (s := s.missed) hm).off
  · exact iff_of_false nofun hm

theorem missMarks_sameControl (n : Nat) : ∀ s, SameControl s (missMarks n s) := by
  induction n with
  | zero => exact .same
  | succ n ih =>
    intro s
    unfold missMarks
    split
    · rename_i hdue
      refine (missMark_sameControl fun hm => ?_).trans (ih _)
      simp [State.missDue, hm] at hdue
    · exact .same s

/-- An edge that starts or carries on registration finds and leaves the tracker not OFF. -/
theorem registered_sameControl {s u : State} (h : TrackerWork s u) (hfrozen : u.trk.frozen = s.trk.frozen)
    (hs : s.trk.mode ≠ .off) (hu : u.trk.mode ≠ .off) (pos : Nat) (err : Int) (kind : StartKind) :
    SameControl s (popWork (pushStart pos err kind u)) :=
  ((h.sameControl hfrozen (iff_of_false hu hs)).trans (pushStart_sameControl _ _ _ hu)).trans (popWork_sameControl _)

theorem takeEdge_sameControl (s : State) : SameControl s (takeEdge s) := by
  have hcount : ∀ n m, SameControl s { s with trk := { s.trk with backlogEdges := n, startsDropped := m } } :=
    fun n m => TrackerWork.sameControl rfl rfl Iff.rfl
  have hacquire : s.trk.mode ≠ .off → SameControl s (acquire s) := fun hm => by
    unfold acquire
    dsimp only
    split
    · refine registered_sameControl ?_ ?_ hm ?_ _ _ _
      exacts [rfl, rfl, nofun]
    · exact hcount _ _
  have hedge : s.trk.mode ≠ .off → SameControl s (edgeInTrack s) := fun hm => by
    unfold edgeInTrack
    dsimp only
    split
    · exact TrackerWork.sameControl rfl rfl Iff.rfl
    · refine registered_sameControl ?_ ?_ hm ?_ _ _ _
      exacts [rfl, rfl, hm]
  unfold takeEdge
  split
  · exact .same s
  · cases hm : s.trk.mode
    case off | continuous => exact .same s
    case seek | lost => dsimp only; split; exacts [hcount _ _, hacquire (by simp [hm])]
    case track => dsimp only; split; exacts [hcount _ _, hedge (by simp [hm])]

/-! ### References given up (R62, R64, R169) -/

/-- A retiring copy that no slot refers to any more is discarded. -/
theorem referencesOk_of_discard {t : State} {old : Option Recipe}
    (hfree : ∀ i, (t.asm.slots.get i).state = .free ↔ (t.asm.slots.get i).copy = .none)
    (hretiring : t.rcp.retiring = if t.references .retiring = 0 then none else old)
    (hold : (∃ i, (t.asm.slots.get i).copy = .retiring) → old.isSome = true) : t.referencesOk := by
  refine ⟨hfree, ?_⟩
  rw [hretiring]
  by_cases h : ∃ i, (t.asm.slots.get i).copy = .retiring
  · rw [if_neg fun h0 => (references_eq_zero t _).mp h0 h]
    exact iff_of_true (hold h) h
  · rw [if_pos ((references_eq_zero t _).mpr h)]
    exact iff_of_false nofun h

/-- Slot `i` made FREE gives its reference up (R62). -/
theorem freeSlot_keepsControl (i : Fin 4) (s : State) : KeepsControl s (freeSlot i s) := by
  rintro ⟨⟨hfree, hretiring⟩, hidle, hstopping, hfrozen, hoff⟩
  have hget : ∀ j, (freeSlot i s).asm.slots.get j =
      if j = i then (s.asm.slots.get i).freed else s.asm.slots.get j := fun j => by rw [freeSlot_eq, Quad.get_set]
  have hrun : (freeSlot i s).rcp.run = s.rcp.run := by rw [freeSlot_eq]
  have htrk : (freeSlot i s).trk = s.trk := by rw [freeSlot_eq]
  refine ⟨referencesOk_of_discard (old := s.rcp.retiring) (fun j => ?_) ?_ ?_, fun h => ⟨fun j => ?_, ?_⟩,
    fun h j => ?_, ?_, ?_⟩
  · rw [hget]
    split
    · exact iff_of_true rfl rfl
    · exact hfree j
  · rw [freeSlot_eq]; rfl
  · rintro ⟨j, hj⟩
    rw [hget] at hj
    split at hj
    · cases hj
    · exact hretiring.mpr ⟨j, hj⟩
  · rw [hget]
    split
    · rfl
    · exact (hidle (hrun ▸ h)).1 j
  · rw [freeSlot_eq]; exact (hidle (hrun ▸ h)).2
  · rw [hget]
    split
    · exact .inl rfl
    · exact hstopping (hrun ▸ h) j
  · rw [htrk, hrun]; exact hfrozen
  · rw [htrk, hrun]; exact hoff

/-- A stop leaves every slot FREE or IN_WORK, with the reference of one IN_WORK (R64). -/
theorem stopped_cases (x : Slot) : x.stopped.state = .free ∧ x.stopped.copy = .none ∨
    x.stopped = x ∧ (x.state = .free ∨ x.state = .inWork) := by
  unfold Slot.stopped
  cases hx : x.state <;> simp [Slot.freed]

/-- A stop begun in a run (R64, R169, R171). -/
theorem beginStop_keepsControl (n : Nat) {s : State} (hrun : s.rcp.run = .armed) :
    KeepsControl s (beginStop n s) := by
  rintro ⟨⟨hfree, hretiring⟩, -, -, -, hoff⟩
  obtain ⟨htrk, hasm, hrcp⟩ := beginStop_control n s
  have hget : ∀ j, (beginStop n s).asm.slots.get j = (s.asm.slots.get j).stopped := fun j => by
    rw [hasm]; exact Quad.get_map _ _ _
  have hstopping : (beginStop n s).rcp.run = .stopping := by rw [hrcp]
  refine ⟨referencesOk_of_discard (old := s.rcp.retiring) (fun j => ?_) ?_ ?_, fun h => ?_, fun _ j => ?_, ?_, ?_⟩
  · rw [hget]
    rcases stopped_cases (s.asm.slots.get j) with ⟨hstate, hcopy⟩ | ⟨hsame, -⟩
    · exact iff_of_true hstate hcopy
    · rw [hsame]; exact hfree j
  · rw [hrcp, State.references, hasm]
  · rintro ⟨j, hj⟩
    rw [hget] at hj
    rcases stopped_cases (s.asm.slots.get j) with ⟨-, hcopy⟩ | ⟨hsame, -⟩
    · rw [hcopy] at hj; cases hj
    · exact hretiring.mpr ⟨j, hsame ▸ hj⟩
  · rw [hstopping] at h; cases h
  · rw [hget]
    rcases stopped_cases (s.asm.slots.get j) with ⟨hstate, -⟩ | ⟨hsame, hstate⟩
    · exact .inl hstate
    · rw [hsame]; exact hstate
  · rw [htrk, hstopping]; exact iff_of_true rfl rfl
  · rw [htrk, hstopping]
    exact iff_of_false (fun h => by have := hoff.mp h; rw [hrun] at this; cases this) nofun

/-! ### Swaps (R29, R167, R168) -/

theorem swapWaits_iff {s : State} : s.swapWaits = true ↔ (∃ c, s.rcp.pending = some c) ∧ s.rcp.retiring = none := by
  simp [State.swapWaits, Option.isSome_iff_exists]

@[simp] theorem takeSwap_state (s : State) (i : Fin 4) :
    ((takeSwap s).asm.slots.get i).state = (s.asm.slots.get i).state := by
  cases hp : s.rcp.pending with
  | none => simp [takeSwap, hp]
  | some c =>
    rw [takeSwap_some hp]
    dsimp only [append_asm]
    rw [Quad.get_map]
    split <;> rfl

theorem takeSwap_copy {s : State} {c : PendingCopy} (h : s.rcp.pending = some c) (i : Fin 4) :
    ((takeSwap s).asm.slots.get i).copy =
      if (s.asm.slots.get i).copy = .active then .retiring else (s.asm.slots.get i).copy := by
  rw [takeSwap_some h]
  dsimp only [append_asm]
  rw [Quad.get_map]
  split <;> rfl

/-- A swap makes the references to the active copy references to the retiring one. -/
theorem takeSwap_referencesOk {s : State} (hwait : s.swapWaits = true) (h : s.referencesOk) :
    (takeSwap s).referencesOk := by
  obtain ⟨hfree, hretiring⟩ := h
  obtain ⟨⟨c, hc⟩, hnone⟩ := swapWaits_iff.mp hwait
  have hno : ∀ i, (s.asm.slots.get i).copy ≠ .retiring := fun i hi => by
    have hsome := hretiring.mpr ⟨i, hi⟩
    rw [hnone] at hsome; cases hsome
  refine ⟨fun i => ?_, ?_⟩
  · rw [takeSwap_state, takeSwap_copy hc, hfree]
    split
    · rename_i hactive; rw [hactive]; exact iff_of_false nofun nofun
    · exact Iff.rfl
  · have hiff : (∃ i, ((takeSwap s).asm.slots.get i).copy = .retiring) ↔ ∃ i, (s.asm.slots.get i).copy = .active := by
      simp only [takeSwap_copy hc, ite_eq_left_iff, hno, imp_false, not_not]
    have hret : (takeSwap s).rcp.retiring = if s.references .active = 0 then none else some s.rcp.active := by
      rw [takeSwap_some hc]; rfl
    rw [hiff, hret]
    by_cases hactive : ∃ i, (s.asm.slots.get i).copy = .active
    · rw [if_neg fun h0 => (references_eq_zero s _).mp h0 hactive]
      exact iff_of_true rfl hactive
    · rw [if_pos ((references_eq_zero s _).mpr hactive)]
      exact iff_of_false nofun hactive

theorem adopt_frozen (f : PatchFields) (k : Tracker) : (k.adopt f).frozen = k.frozen := by
  unfold Tracker.adopt
  cases k.mode
  case off => rfl
  all_goals dsimp only; split <;> rfl

theorem adopt_off (f : PatchFields) (k : Tracker) : (k.adopt f).mode = .off ↔ k.mode = .off := by
  by_cases hm : k.mode = .off
  · simp [Tracker.adopt, hm]
  · exact iff_of_false (adopt_mode_ne_off hm f) hm

/-- A swap leaves the tracker frozen or not and OFF or not (R29). -/
theorem takeSwap_tracker (s : State) :
    (takeSwap s).trk.frozen = s.trk.frozen ∧ ((takeSwap s).trk.mode = .off ↔ s.trk.mode = .off) := by
  cases hp : s.rcp.pending with
  | none => simp [takeSwap, hp]
  | some c =>
    rw [takeSwap_some hp]
    dsimp only [append_trk]
    split
    · exact ⟨adopt_frozen _ _, adopt_off _ _⟩
    · exact ⟨rfl, Iff.rfl⟩

/-- A copy that waits in agreement with the run state waits outside IDLE. -/
theorem takeSwap_keepsControl {s : State} (hwait : s.swapWaits = true) : KeepsControl s (takeSwap s) := by
  rintro ⟨hreferences, hidle, hstopping, hfrozen, hoff⟩
  obtain ⟨⟨c, hc⟩, -⟩ := swapWaits_iff.mp hwait
  obtain ⟨hkfrozen, hkoff⟩ := takeSwap_tracker s
  refine ⟨takeSwap_referencesOk hwait hreferences, fun hrun => ?_, fun hrun i => ?_, ?_, ?_⟩
  · have hnone := (hidle (takeSwap_run s ▸ hrun)).2
    rw [hc] at hnone; cases hnone
  · rw [takeSwap_state]; exact hstopping (takeSwap_run s ▸ hrun) i
  · rw [hkfrozen, takeSwap_run]; exact hfrozen
  · rw [hkoff, takeSwap_run]; exact hoff

/-- A swap point in IDLE with a copy waiting and no slot occupied: the copy becomes active, RECIPE_SWAP is appended and T
is set by the new pitch (R10, R167, R168). -/
theorem swapPoint_idle {s : State} {c : PendingCopy} (hrun : s.rcp.run = .idle) (hc : s.rcp.pending = some c)
    (hretiring : s.rcp.retiring = none) (hcopy : ∀ i, (s.asm.slots.get i).copy = .none) :
    swapPoint s = append s.pos.w (.event .recipeSwap (swapArgument s.rcp.active c.copy c.port)) { s with
      rcp := { s.rcp with active := c.copy, pending := none }
      trig := { s.trig with t := s.trig.lastTrigger + c.copy.p } } := by
  have hslots : (s.asm.slots.map fun x => if x.copy = .active then { x with copy := .retiring } else x) =
      s.asm.slots := Quad.ext_get fun i => by rw [Quad.get_map, if_neg (by simp [hcopy])]
  have hnone : s.references .active = 0 := (references_eq_zero s _).mpr (by simp [hcopy])
  rw [swapPoint, if_pos (swapWaits_iff.mpr ⟨⟨c, hc⟩, hretiring⟩), takeSwap_some hc, hslots, if_pos hnone,
    if_neg (by simp [hrun]), ← hretiring]
  rfl

/-- IDLE, entered or kept with every slot FREE, has no copy waiting behind its swap point (R167). -/
theorem swapPoint_idle_controlOk {s : State} (hrun : s.rcp.run = .idle) (hreferences : s.referencesOk)
    (hfree : ∀ i, (s.asm.slots.get i).state = .free) (hfrozen : s.trk.frozen = false) (hoff : s.trk.mode = .off) :
    (swapPoint s).controlOk := by
  have hcopy : ∀ i, (s.asm.slots.get i).copy = .none := fun i => (hreferences.1 i).mp (hfree i)
  have hretiring : s.rcp.retiring = none := by
    rw [← Option.not_isSome_iff_eq_none, hreferences.2]
    rintro ⟨i, hi⟩
    rw [hcopy] at hi; cases hi
  have hidle : ∀ t : State, t.asm = s.asm → t.trk = s.trk → t.rcp.run = .idle → t.rcp.retiring = none →
      t.rcp.pending = none → t.controlOk := fun t hasm htrk htrun htret htpend => by
    refine ⟨⟨fun i => ?_, ?_⟩, fun _ => ⟨fun i => ?_, htpend⟩, fun h => ?_, ?_, ?_⟩
    · rw [hasm]; exact hreferences.1 i
    · rw [htret, hasm, ← hretiring]; exact hreferences.2
    · rw [hasm]; exact hfree i
    · rw [htrun] at h; cases h
    · rw [htrk, hfrozen, htrun]; exact iff_of_false nofun nofun
    · rw [htrk, htrun]; exact iff_of_true hoff rfl
  cases hc : s.rcp.pending with
  | none =>
    have hstill : swapPoint s = s := if_neg (by simp [State.swapWaits, hc])
    rw [hstill]
    exact hidle s rfl rfl hrun hretiring hc
  | some c =>
    rw [swapPoint_idle hrun hc hretiring hcopy]
    exact hidle _ rfl rfl hrun hretiring rfl

/-! ### Line triggers and counts (R8, R54) -/

theorem freeSlotNo_free {s : State} {i : Fin 4} (h : s.freeSlotNo = some i) : (s.asm.slots.get i).state = .free := by
  simpa using List.find?_some h

/-- A line opens in a FREE slot under the active copy (R8, R54, R161). -/
theorem openLine_keepsControl {s : State} {i : Fin 4} (hrun : s.rcp.run = .armed) (hi : s.freeSlotNo = some i) :
    KeepsControl s (openLine i s) := by
  rintro ⟨⟨hfree, hretiring⟩, -, -, hfrozen, hoff⟩
  rw [openLine_eq]
  have hcopy : (s.lineSlot i).copy = .active := by rw [lineSlot_eq]
  have hstate : (s.lineSlot i).state ≠ .free := by
    rw [lineSlot_eq]; dsimp only; split <;> exact nofun
  have hnone : (s.asm.slots.get i).copy = .none := (hfree i).mp (freeSlotNo_free hi)
  refine ⟨⟨fun j => ?_, ?_⟩, fun h => absurd (hrun.symm.trans h) nofun, fun h => absurd (hrun.symm.trans h) nofun,
    hfrozen, hoff⟩
  · dsimp only
    rw [Quad.get_set]
    split
    · rw [hcopy]; exact iff_of_false hstate nofun
    · exact hfree j
  · dsimp only
    rw [hretiring]
    refine exists_congr fun j => ?_
    rw [Quad.get_set]
    split
    · rename_i hj; rw [hj, hnone, hcopy]; exact iff_of_false nofun nofun
    · exact Iff.rfl

theorem keepsControl_webRel : WebRel KeepsControl where
  trans _ _ _ := KeepsControl.trans
  frame _ _ htrk hasm hrcp := (SameControl.of_parts htrk hasm hrcp).keeps
  swap _ := takeSwap_keepsControl
  force s := SameControl.keeps ⟨fun i => by simp only [forceSlots, Quad.get_map]; exact forced_held _ _, rfl, rfl,
    fun _ => id, rfl, Iff.rfl⟩
  opened _ _ := openLine_keepsControl
  miss s := (missMarks_sameControl _ s).keeps
  pop s := (popWork_sameControl s).keeps
  stop _ n := beginStop_keepsControl n

/-! ### The station commands -/

/-- ARM takes the tracker out of OFF as it begins the run (R17, R170). -/
theorem armRun_keepsControl (p : PortNo) {s : State} (hrun : s.rcp.run = .idle) : KeepsControl s (armRun p s) := by
  refine KeepsControl.trans ?_ (keepsControl_webRel.armRun_rel p s)
  rintro ⟨hreferences, -, -, hfrozen, -⟩
  refine ⟨hreferences, nofun, nofun, ?_, ?_⟩
  · refine iff_of_false (fun h => ?_) nofun
    have hstopping := hfrozen.mp h
    rw [hrun] at hstopping; cases hstopping
  · refine iff_of_false ?_ nofun
    show (if _ then TrackerMode.continuous else TrackerMode.seek) ≠ .off
    split <;> exact nofun

theorem restartSilence_sameControl (p : PortNo) (s : State) : SameControl s (restartSilence p s) := by
  unfold restartSilence
  split
  · exact .edit s _ _ _
  · exact .same s

/-- Of the station commands ARM, DISARM, COMMIT and RESYNC_HEAD alone reach references or run state: the others that
reach the recipe store change the edit right, or take away a pending copy. -/
theorem runCommand_sameControl {c : Command} (hc : c ∉ [.arm, .disarm, .commit, .resyncHead]) (p : PortNo)
    (payload : List Byte) (s : State) : SameControl s (runCommand p c payload s).1 := by
  have hheard := restartSilence_sameControl p s
  cases c <;> simp only [runCommand]
  case arm | disarm | commit | resyncHead => simp at hc
  case ident | status | readCandidates | readStreaks => exact .same s
  case forceMark =>
    unfold cmdForceMark
    split
    · exact .same s
    · dsimp only; rw [enterAction_frame]; exact .of_parts rfl rfl rfl
  case claimEdit =>
    unfold cmdClaimEdit
    split
    · exact .edit s _ _ _
    · split
      · exact hheard
      · exact .same s
  case releaseEdit =>
    unfold cmdReleaseEdit
    split
    · exact .edit s _ _ _
    · exact .same s
  case stageWrite =>
    unfold cmdStageWrite
    dsimp only
    split
    · exact hheard
    · split
      · exact hheard
      · split
        · exact hheard.trans (.edit _ _ _ _)
        · exact hheard
  case stageRead =>
    unfold cmdStageRead
    dsimp only
    split
    · exact hheard
    · split <;> exact hheard
  case cancelPending =>
    unfold cmdCancelPending
    dsimp only
    split
    · split
      · exact hheard.trans ⟨fun _ => .same _, rfl, rfl, fun _ _ => rfl, rfl, Iff.rfl⟩
      · exact hheard
    · exact hheard
  case ackAttn | endService | resetPosition | activeRead | fetch | seek | subscribe | readCells =>
    simp only [cmdAckAttn, cmdEndService, cmdResetPosition, cmdActiveRead, cmdFetch, cmdSeek, cmdSubscribe,
      cmdReadCells]
    split <;> exact .of_parts rfl rfl rfl

/-- COMMIT (R164): in IDLE the accepted copy becomes active at once, in a run it waits. -/
theorem commit_keepsControl (p : PortNo) (s : State) : KeepsControl s (cmdCommit p s).1 := by
  have hheard := restartSilence_sameControl p s
  unfold cmdCommit
  dsimp only
  split
  · exact hheard.keeps
  · split
    · exact hheard.keeps
    · split
      · exact hheard.keeps
      · refine hheard.keeps.trans ?_
        generalize restartSilence p s = u
        rintro ⟨hreferences, hidle, hstopping, hfrozen, hoff⟩
        split
        · rename_i hrun
          refine swapPoint_idle_controlOk hrun hreferences (hidle hrun).1 ?_ (hoff.mpr hrun)
          rw [Bool.eq_false_iff]
          intro h
          have hstop := hfrozen.mp h
          rw [show u.rcp.run = .idle from hrun] at hstop; cases hstop
        · rename_i hrun
          exact ⟨hreferences, fun h => absurd h hrun, hstopping, hfrozen, hoff⟩

theorem runCommand_keepsControl (p : PortNo) (c : Command) (payload : List Byte) (s : State) :
    KeepsControl s (runCommand p c payload s).1 := by
  cases c
  case arm =>
    simp only [runCommand, cmdArm]
    split
    · exact id
    · rename_i hrun
      split
      · exact id
      · exact armRun_keepsControl p (not_not.mp hrun)
  case disarm =>
    simp only [runCommand, cmdDisarm]
    split
    · rename_i hrun; exact beginStop_keepsControl _ hrun
    · exact id
  case commit => exact commit_keepsControl p s
  case resyncHead =>
    simp only [runCommand, cmdResyncHead]
    split
    · exact id
    · exact (resyncLink_work _ s).sameControl.keeps
  all_goals exact (runCommand_sameControl (by decide) p payload s).keeps

theorem keepsControl_stationRel : StationRel KeepsControl where
  same _ := id
  trans _ _ _ := KeepsControl.trans
  port s p x _ := SameControl.keeps (t := s.withPort p x) (.of_parts rfl rfl rfl)
  command s p c payload := runCommand_keepsControl p c payload s

/-! ### The links and the engine's steps -/

theorem carrierLost_sameControl (h : HeadNo) (bytes : List Byte) {s t : State}
    (ht : exec (.carrierLost h bytes) s = .next t) : SameControl s t := by
  have hb := (headBytes_work h bytes s).sameControl
  cases ht
  dsimp only
  split
  · exact hb
  · exact hb.trans (.of_parts rfl rfl rfl)
  · refine hb.trans (SameControl.trans ?_ (headLost_work h _ _).sameControl)
    exact .of_parts rfl rfl rfl

theorem workedFrom_rcp (ln : Line) (s : State) (φ : LineProgress) : (workedFrom ln s φ).rcp = s.rcp := by
  obtain ⟨cells, h⟩ := workedFrom_eq ln s φ
  rw [h]; rfl

theorem advanceLine_rcp (i : Fin 4) (s : State) : (advanceLine i s).rcp = s.rcp := by
  obtain ⟨v, hv, h⟩ := advanceLine_work i s
  rw [h]; exact hv.rcp.trans (workedFrom_rcp _ _ _)

theorem takeLine_rcp (i : Fin 4) (s : State) : (takeLine i s).rcp = s.rcp := by
  obtain ⟨v, hv, h⟩ := takeLine_work i s
  rw [h]; exact hv.rcp

/-- The engine works on a line in an occupied slot (R61). -/
theorem takeLine_sameControl {s : State} {i : Fin 4} (h : s.takeable = some i) : SameControl s (takeLine i s) := by
  obtain ⟨hready, -⟩ := takeable_some h
  refine ⟨fun j => ?_, by rw [takeLine_rcp], by rw [takeLine_rcp], fun _ => by rw [takeLine_rcp]; exact id,
    by rw [takeLine_trk], by rw [takeLine_trk]⟩
  rw [takeLine_asm]
  dsimp only
  rw [Quad.get_set]
  split
  · rename_i hj
    rw [hj]
    exact ⟨rfl, by rw [hready]; exact iff_of_false nofun nofun, fun _ => rfl⟩
  · exact .same _

theorem publishLine_keepsControl (i : Fin 4) (s : State) : KeepsControl s (publishLine i s) := by
  obtain ⟨v, hv, h⟩ := publishLine_work i s
  rw [h]
  refine KeepsControl.trans (SameControl.keeps ?_) (freeSlot_keepsControl i _)
  exact .of_parts (hv.trk.trans (workedFrom_trk _ _ _)) (hv.asm.trans (workedFrom_asm _ _ _))
    (hv.rcp.trans (workedFrom_rcp _ _ _))

/-- A stop completes with no line in work, so that every slot is FREE as IDLE is entered (R171). -/
theorem completeStop_keepsControl {s : State} (hrun : s.rcp.run = .stopping) (hnone : s.slotInWork = none) :
    KeepsControl s (completeStop s) := by
  rintro ⟨hreferences, -, hstopping, -, -⟩
  obtain ⟨v, hv, h⟩ := completeStop_work s
  have hfree : ∀ i, (s.asm.slots.get i).state = .free := fun i =>
    (hstopping hrun i).resolve_right (slotInWork_none.mp hnone i)
  rw [h]
  refine swapPoint_idle_controlOk rfl ?_ (fun i => ?_) rfl rfl
  · unfold State.referencesOk
    dsimp only [appendEvent_asm, appendEvent_rcp]
    rw [hv.asm, hv.rcp]; exact hreferences
  · dsimp only [appendEvent_asm]
    rw [hv.asm]; exact hfree i

theorem exec_keepsControl (c : Instr) (s t : State) (h : exec c s = .next t) : KeepsControl s t := by
  refine exec_induct keepsControl_stationRel (reset := ?_) (encoder := ?_) (edge := ?_) (gained := ?_) (lost := ?_)
    (head := ?_) (take := ?_) (publish := ?_) (stop := ?_) (expiry := ?_) c s t h
  · intro a b k s t h
    cases h
    exact fun _ => reset_controlOk
  · exact fun a b s t h => keepsControl_webRel.encoderTransition_rel h
  · exact fun s => (takeEdge_sameControl s).keeps
  · intro k s t h
    cases h
    dsimp only
    split <;> exact SameControl.keeps (.of_parts rfl rfl rfl)
  · exact fun k bytes s t h => (carrierLost_sameControl k bytes h).keeps
  · exact fun k bytes s => (headBytes_work k bytes s).sameControl.keeps
  · exact fun s i h => (takeLine_sameControl h).keeps
  · exact fun s i _ => publishLine_keepsControl i s
  · exact fun s hrun hnone => completeStop_keepsControl hrun hnone
  · intro s t h
    cases h
    split
    · exact (SameControl.edit s none none 0).keeps
    · exact id

/-- Settles O56, by the kinds of steps: swaps, openings, stops and publications move references and run state together,
and everything else leaves both. -/
theorem controlKept : Obligations.ControlKept :=
  step_keeps (fun _ _ h => h) (fun c s t h => exec_keepsControl c s t h) fun s i _ =>
    SameControl.keeps (.of_parts (advanceLine_trk i s) (advanceLine_asm i s) (advanceLine_rcp i s))

end Sys2Proof.Machine
end

section
/-! SUPPORT. The commands of the edit right and of the recipe copies (R162 to R166): the entry a command names, an entry
written and read back, the silence timer (O36, O37, O39). -/

namespace Sys2Proof.Machine

/-! ### The entry a command names (R163, R178) -/

theorem entryNamed_some {sec entry : Byte} {x : Section} (hx : sectionOf sec = some x) (h : entry.toNat < x.entries) :
    entryNamed sec entry = some (x, entry.toNat) := by
  simp [entryNamed, hx, h]

theorem entryNamed_none {sec entry : Byte} (h : ∀ x, sectionOf sec = some x → x.entries ≤ entry.toNat) :
    entryNamed sec entry = none := by
  unfold entryNamed
  cases hx : sectionOf sec with
  | none => rfl
  | some x => exact if_neg (not_lt.mpr (h x hx))

/-- The entry named exists in its section. -/
theorem entryNamed_lt {sec entry : Byte} {x : Section} {i : Nat} (h : entryNamed sec entry = some (x, i)) :
    i < x.entries := by
  unfold entryNamed at h
  split at h
  · split at h
    · rename_i hlt; cases h; exact hlt
    · cases h
  · cases h

/-- An entry written reads as the bytes written, and every other entry as before. -/
theorem withEntry_spec {r : Recipe} (hr : r.shapeOk) {x : Section} {i : Nat} (hi : i < x.entries) (data : List Byte) :
    (r.withEntry x i data).shapeOk ∧ (data.length = x.sizes.sum → (r.withEntry x i data).entryBytes x i = data) ∧
      ∀ y f, f < y.entries → (y ≠ x ∨ f ≠ i) → (r.withEntry x i data).entryBytes y f = r.entryBytes y f := by
  obtain ⟨hshape, hfields, hothers⟩ := withFields_spec r hr x i hi (splitFields x.sizes data) (splitFields_length _ _)
  refine ⟨hshape, fun hlength => ?_, fun y f hf hne => congrArg (joinFields y.sizes) (hothers y f hf hne)⟩
  exact (congrArg (joinFields x.sizes) hfields).trans (joinFields_splitFields _ _ hlength)

/-! ### The holder (R162) -/

theorem holds_iff {s : State} {p : PortNo} : s.holds p = true ↔ s.rcp.holder = some p := by simp [State.holds]

theorem restartSilence_eq (p : PortNo) (s : State) : restartSilence p s = s.heard p := by
  simp only [restartSilence, State.heard, holds_iff, silenceLimit]

theorem heard_holder {s : State} {p : PortNo} (h : s.rcp.holder = some p) :
    s.heard p = { s with rcp := { s.rcp with silenceMs := 2000 } } := if_pos h

theorem heard_other {s : State} {p : PortNo} (h : s.rcp.holder ≠ some p) : s.heard p = s := if_neg h

/-- The staging copy as a command of the port finds it. -/
theorem stagingOf_holder {s : State} {p : PortNo} {r : Recipe} (h : s.rcp.holder = some p)
    (hr : s.rcp.staging = some r) : (if s.holds p then s.rcp.staging else none) = some r :=
  (if_pos (holds_iff.mpr h)).trans hr

theorem stagingOf_other {s : State} {p : PortNo} (h : s.rcp.holder ≠ some p) :
    (if s.holds p then s.rcp.staging else none) = none := if_neg fun hp => h (holds_iff.mp hp)

end Sys2Proof.Machine
end

section
/-! SUPPORT. The recipe store (R15, R50, R68, R75, R162, R165), whose condition every step keeps (O59): copies move from
the staging copy through COMMIT's checks to pending, active and retiring, and the edit right comes with its staging copy
and its timer. -/

namespace Sys2Proof.Machine

/-! ### Steps that move copies -/

/-- The copies pass their checks, and the edit right has its staging copy and its timer. -/
abbrev State.storeOk (s : State) : Prop := s.recipesOk ∧ s.editOk

/-- The condition of the recipe store is kept from `s` to `t`. -/
def KeepsStore (s t : State) : Prop := s.storeOk → t.storeOk

theorem KeepsStore.trans {s t u : State} (h : KeepsStore s t) (k : KeepsStore t u) : KeepsStore s u :=
  fun hs => k (h hs)

/-- The conditions read the recipe store alone. -/
theorem KeepsStore.of_rcp {s t : State} (h : t.rcp = s.rcp) : KeepsStore s t := by
  unfold KeepsStore State.storeOk State.recipesOk State.editOk
  rw [h]; exact id

/-- The copies of `t` are those of `s`, in their places or moved on by a swap, and the edit right stays. -/
structure CopiesMoved (s t : State) : Prop where
  active : t.rcp.active = s.rcp.active ∨ ∃ c, s.rcp.pending = some c ∧ t.rcp.active = c.copy
  pending : t.rcp.pending = none ∨ t.rcp.pending = s.rcp.pending
  retiring : t.rcp.retiring = none ∨ t.rcp.retiring = s.rcp.retiring ∨ t.rcp.retiring = some s.rcp.active
  staging : t.rcp.staging = s.rcp.staging
  holder : t.rcp.holder = s.rcp.holder
  silence : t.rcp.silenceMs = s.rcp.silenceMs

theorem CopiesMoved.keeps {s t : State} (h : CopiesMoved s t) : KeepsStore s t := by
  rintro ⟨⟨hactive, hpending, hretiring, hstaging⟩, hedit⟩
  refine ⟨⟨?_, fun c hc => ?_, fun r hr => ?_, fun r hr => hstaging r (h.staging ▸ hr)⟩, ?_⟩
  · rcases h.active with ha | ⟨c, hc, ha⟩ <;> rw [ha]
    exacts [hactive, hpending c hc]
  · rcases h.pending with hp | hp <;> rw [hp] at hc
    · cases hc
    · exact hpending c hc
  · rcases h.retiring with ht | ht | ht <;> rw [ht] at hr
    · cases hr
    · exact hretiring r hr
    · cases hr; exact hactive
  · unfold State.editOk
    rw [h.staging, h.holder, h.silence]; exact hedit

theorem takeSwap_keepsStore (s : State) : KeepsStore s (takeSwap s) := by
  cases hc : s.rcp.pending with
  | none => exact .of_rcp (by simp [takeSwap, hc])
  | some c =>
    rw [takeSwap_some hc]
    refine CopiesMoved.keeps ⟨.inr ⟨c, hc, rfl⟩, .inl rfl, ?_, rfl, rfl, rfl⟩
    dsimp only [append_rcp]
    split
    exacts [.inl rfl, .inr (.inr rfl)]

theorem beginStop_keepsStore (n : Nat) (s : State) : KeepsStore s (beginStop n s) := by
  obtain ⟨-, -, hrcp⟩ := beginStop_control n s
  refine CopiesMoved.keeps
    ⟨.inl (by rw [hrcp]), .inr (by rw [hrcp]), ?_, by rw [hrcp], by rw [hrcp], by rw [hrcp]⟩
  rw [hrcp]
  dsimp only
  split
  exacts [.inl rfl, .inr (.inl rfl)]

theorem TrackerWork.keepsStore {s t : State} (h : TrackerWork s t) : KeepsStore s t := by
  unfold TrackerWork at h
  exact .of_rcp (by rw [h])

theorem keepsStore_webRel : WebRel KeepsStore where
  trans _ _ _ := KeepsStore.trans
  frame _ _ _ _ := .of_rcp
  swap s _ := takeSwap_keepsStore s
  force _ := .of_rcp rfl
  opened s i _ _ := .of_rcp (by rw [openLine_eq])
  miss s := (missMarks_tracker _ s).keepsStore
  pop s := (popWork_tracker s).keepsStore
  stop s n _ := beginStop_keepsStore n s

/-! ### The edit right and COMMIT (R162 to R166) -/

/-- The timer stands at its length while it runs, so that a restart leaves it. -/
theorem heard_keepsStore (p : PortNo) (s : State) : KeepsStore s (s.heard p) := by
  unfold State.heard
  split
  · rename_i hholder
    rintro ⟨hrecipes, hstaging, -⟩
    exact ⟨hrecipes, hstaging, by rw [hholder]; rfl⟩
  · exact id

theorem freeEdit_keepsStore (s : State) : KeepsStore s (freeEdit s) := by
  rintro ⟨⟨hactive, hpending, hretiring, -⟩, -⟩
  exact ⟨⟨hactive, hpending, hretiring, nofun⟩, iff_of_false nofun nofun, rfl⟩

/-- A staging copy replaced by one that has all its entries. -/
theorem staged_keepsStore {s : State} {r r' : Recipe} (hr : s.rcp.staging = some r)
    (h : r.shapeOk → r'.shapeOk) : KeepsStore s { s with rcp := { s.rcp with staging := some r' } } := by
  rintro ⟨⟨hactive, hpending, hretiring, hstaging⟩, hedit, hsilence⟩
  refine ⟨⟨hactive, hpending, hretiring, fun q hq => ?_⟩, ?_, hsilence⟩
  · cases hq; exact h (hstaging r hr)
  · rw [hr] at hedit; exact hedit

/-- A staging copy that passes the checks comes to wait (R164). -/
theorem committed_keepsStore {s : State} {r : Recipe} (p : PortNo) (hr : s.rcp.staging = some r)
    (hvalid : r.valid = true) : KeepsStore s { s with rcp := { s.rcp with pending := some ⟨r, p⟩ } } := by
  rintro ⟨⟨hactive, -, hretiring, hstaging⟩, hedit⟩
  refine ⟨⟨hactive, fun c hc => ?_, hretiring, hstaging⟩, hedit⟩
  cases hc; exact ⟨hstaging r hr, hvalid⟩

theorem heard_staging (p : PortNo) (s : State) : (s.heard p).rcp.staging = s.rcp.staging := by
  unfold State.heard; split <;> rfl

theorem stagingOf_some {s : State} {p : PortNo} {r : Recipe}
    (h : (if s.holds p then s.rcp.staging else none) = some r) : s.rcp.staging = some r := by
  split at h
  · exact h
  · cases h

theorem claimEdit_keepsStore (p : PortNo) (s : State) : KeepsStore s (cmdClaimEdit p s).1 := by
  unfold cmdClaimEdit
  split
  · rintro ⟨⟨hactive, hpending, hretiring, -⟩, -⟩
    refine ⟨⟨hactive, hpending, hretiring, fun r hr => ?_⟩, iff_of_true rfl rfl, rfl⟩
    cases hr; exact hactive.1
  · split
    · rw [restartSilence_eq]; exact heard_keepsStore p s
    · exact id

theorem releaseEdit_keepsStore (p : PortNo) (s : State) : KeepsStore s (cmdReleaseEdit p s).1 := by
  unfold cmdReleaseEdit
  split
  · exact freeEdit_keepsStore s
  · exact id

theorem stageWrite_keepsStore (p : PortNo) (sec entry : Byte) (data : List Byte) (s : State) :
    KeepsStore s (cmdStageWrite p sec entry data s).1 := by
  have hheard := heard_keepsStore p s
  unfold cmdStageWrite
  rw [restartSilence_eq]
  dsimp only
  split
  · exact hheard
  · rename_i r hr
    split
    · exact hheard
    · rename_i x i hi
      split
      · have hstaged : (s.heard p).rcp.staging = some r := (heard_staging p s).trans (stagingOf_some hr)
        exact hheard.trans (staged_keepsStore hstaged fun hshape => (withEntry_spec hshape (entryNamed_lt hi) data).1)
      · exact hheard

theorem stageRead_keepsStore (p : PortNo) (sec entry : Byte) (s : State) :
    KeepsStore s (cmdStageRead p sec entry s).1 := by
  have hheard := heard_keepsStore p s
  unfold cmdStageRead
  rw [restartSilence_eq]
  dsimp only
  split
  · exact hheard
  · split <;> exact hheard

theorem commit_keepsStore (p : PortNo) (s : State) : KeepsStore s (cmdCommit p s).1 := by
  have hheard := heard_keepsStore p s
  unfold cmdCommit
  rw [restartSilence_eq]
  dsimp only
  split
  · exact hheard
  · rename_i r hr
    split
    · exact hheard
    · split
      · exact hheard
      · rename_i hnone
        have hstaged : (s.heard p).rcp.staging = some r := (heard_staging p s).trans (stagingOf_some hr)
        have hwaits := hheard.trans (committed_keepsStore p hstaged (by rw [Recipe.valid, hnone]; rfl))
        split
        · exact hwaits.trans (keepsStore_webRel.swapPoint_rel _)
        · exact hwaits

theorem cancelPending_keepsStore (p : PortNo) (s : State) : KeepsStore s (cmdCancelPending p s).1 := by
  have hheard := heard_keepsStore p s
  unfold cmdCancelPending
  rw [restartSilence_eq]
  dsimp only
  split
  · split
    · exact hheard.trans (CopiesMoved.keeps ⟨.inl rfl, .inl rfl, .inr (.inl rfl), rfl, rfl, rfl⟩)
    · exact hheard
  · exact hheard

/-! ### The other steps -/

/-- The commands of the run, of the edit right and of the copies alone reach the recipe store. -/
theorem runCommand_rcp {c : Command}
    (hc : c ∉ [.arm, .disarm, .claimEdit, .releaseEdit, .stageWrite, .stageRead, .commit, .cancelPending]) (p : PortNo)
    (payload : List Byte) (s : State) : (runCommand p c payload s).1.rcp = s.rcp := by
  cases c <;> simp only [runCommand]
  case arm | disarm | claimEdit | releaseEdit | stageWrite | stageRead | commit | cancelPending => simp at hc
  case ident | status | readCandidates | readStreaks => rfl
  case forceMark =>
    unfold cmdForceMark
    split
    · rfl
    · dsimp only; rw [enterAction_frame]
  case resyncHead =>
    unfold cmdResyncHead
    split
    · rfl
    · exact (resyncLink_work _ s).rcp
  case ackAttn | endService | resetPosition | activeRead | fetch | seek | subscribe | readCells =>
    simp only [cmdAckAttn, cmdEndService, cmdResetPosition, cmdActiveRead, cmdFetch, cmdSeek, cmdSubscribe,
      cmdReadCells]
    split <;> rfl

theorem armRun_keepsStore (p : PortNo) (s : State) : KeepsStore s (armRun p s) :=
  KeepsStore.trans (CopiesMoved.keeps (t := s.armedBy p) ⟨.inl rfl, .inr rfl, .inr (.inl rfl), rfl, rfl, rfl⟩)
    (keepsStore_webRel.armRun_rel p s)

theorem runCommand_keepsStore (p : PortNo) (c : Command) (payload : List Byte) (s : State) :
    KeepsStore s (runCommand p c payload s).1 := by
  cases c
  case arm =>
    simp only [runCommand, cmdArm]
    split
    · exact id
    · split
      · exact id
      · exact armRun_keepsStore p s
  case disarm =>
    simp only [runCommand, cmdDisarm]
    split
    · exact beginStop_keepsStore _ s
    · exact id
  case claimEdit => exact claimEdit_keepsStore p s
  case releaseEdit => exact releaseEdit_keepsStore p s
  case stageWrite => exact stageWrite_keepsStore p _ _ _ s
  case stageRead => exact stageRead_keepsStore p _ _ s
  case commit => exact commit_keepsStore p s
  case cancelPending => exact cancelPending_keepsStore p s
  all_goals exact .of_rcp (runCommand_rcp (by decide) p payload s)

theorem keepsStore_stationRel : StationRel KeepsStore where
  same _ := id
  trans _ _ _ := KeepsStore.trans
  port _ _ _ _ := .of_rcp rfl
  command s p c payload := runCommand_keepsStore p c payload s

theorem carrierLost_rcp (h : HeadNo) (bytes : List Byte) {s t : State} (ht : exec (.carrierLost h bytes) s = .next t) :
    t.rcp = s.rcp := by
  have hb := (headBytes_work h bytes s).rcp
  cases ht
  dsimp only
  split
  · exact hb
  · exact hb
  · exact (headLost_work _ _ _).rcp.trans hb

/-- A publication may discard the retiring copy (R169). -/
theorem publishLine_keepsStore (i : Fin 4) (s : State) : KeepsStore s (publishLine i s) := by
  obtain ⟨v, hv, h⟩ := publishLine_work i s
  rw [h, freeSlot_eq]
  refine (KeepsStore.of_rcp (hv.rcp.trans (workedFrom_rcp _ _ _))).trans (CopiesMoved.keeps ⟨.inl rfl, .inr rfl, ?_, rfl,
    rfl, rfl⟩)
  dsimp only
  split
  exacts [.inl rfl, .inr (.inl rfl)]

theorem completeStop_keepsStore (s : State) : KeepsStore s (completeStop s) := by
  obtain ⟨v, hv, h⟩ := completeStop_work s
  rw [h]
  refine KeepsStore.trans ?_ (keepsStore_webRel.swapPoint_rel _)
  refine (KeepsStore.of_rcp hv.rcp).trans (CopiesMoved.keeps ?_)
  exact ⟨.inl rfl, .inr rfl, .inr (.inl rfl), rfl, rfl, rfl⟩

theorem exec_keepsStore (c : Instr) (s t : State) (h : exec c s = .next t) : KeepsStore s t := by
  refine exec_induct keepsStore_stationRel (reset := ?_) (encoder := ?_) (edge := ?_) (gained := ?_) (lost := ?_)
    (head := ?_) (take := ?_) (publish := ?_) (stop := ?_) (expiry := ?_) c s t h
  · intro a b k s t h
    cases h
    exact fun _ => ⟨reset_recipesOk, Iff.rfl, rfl⟩
  · exact fun a b s t h => keepsStore_webRel.encoderTransition_rel h
  · exact fun s => (takeEdge_tracker s).keepsStore
  · intro k s t h
    cases h
    dsimp only
    split <;> exact .of_rcp rfl
  · exact fun k bytes s t h => .of_rcp (carrierLost_rcp k bytes h)
  · exact fun k bytes s => .of_rcp (headBytes_work k bytes s).rcp
  · exact fun s i _ => .of_rcp (takeLine_rcp i s)
  · exact fun s i _ => publishLine_keepsStore i s
  · exact fun s _ _ => completeStop_keepsStore s
  · intro s t h
    cases h
    split
    · exact freeEdit_keepsStore s
    · exact id

/-- Settles O59, by the kinds of steps: the commands of the edit right keep it with its staging copy and its timer,
COMMIT lets in copies that pass the checks, and everything else moves copies on. -/
theorem recipesKept : Obligations.RecipesKept := fun s t hrecipes hedit h =>
  step_keeps (P := State.storeOk) (fun _ _ h => h) (fun c s t h => exec_keepsStore c s t h)
    (fun s i _ => KeepsStore.of_rcp (advanceLine_rcp i s)) s t ⟨hrecipes, hedit⟩ h

end Sys2Proof.Machine
end

section
/-! SUPPORT. The commands of the recipe store and of the run at a port with no response in progress (R162 to R166, R170,
R171): the edit right, entries, COMMIT and CANCEL_PENDING, ARM and DISARM (O36, O37, O39 to O41). -/

namespace Sys2Proof.Machine

/-! ### The edit right (R162) -/

section
variable {p : PortNo} {s : State} (h : s.ready p) (tag : Byte)
include h

/-- A command row at a ready port, by what the command comes to at its block. -/
theorem exec_answers {c : Instr} {k : Command} {payload : List Byte} {run : State → State × Reply}
    (hc : exec c s = .next (submit p k tag payload run s)) {t : State} {status : Status} {reply : List Byte}
    (hrun : run s = (t, ⟨status, reply⟩)) :
    exec c s = .next (t.answering p k.code tag status.num reply) := by
  rw [hc, submit_ready h, hrun]

theorem claimEdit_answers : exec (.claimEdit p tag) s = .next (match s.rcp.holder with
    | none => { s with rcp := { s.rcp with
        holder := some p, staging := some s.rcp.active, silenceMs := 2000 } }.answering p 0x20 tag 0 []
    | some q => if q = p then { s with rcp := { s.rcp with silenceMs := 2000 } }.answering p 0x20 tag 0 []
      else s.answering p 0x20 tag 1 (be 1 q.val)) := by
  have hanswer : ∀ t status reply, cmdClaimEdit p s = (t, ⟨status, reply⟩) →
      exec (.claimEdit p tag) s = .next (t.answering p 0x20 tag status.num reply) :=
    fun _ _ _ hrun => exec_answers h tag (k := .claimEdit) rfl hrun
  cases hholder : s.rcp.holder with
  | none => exact hanswer _ .ok [] (by rw [cmdClaimEdit, hholder]; rfl)
  | some q =>
    dsimp only
    split
    · rename_i hq
      subst hq
      refine hanswer _ .ok [] ?_
      simp only [cmdClaimEdit, hholder, if_true, restartSilence_eq, heard_holder hholder]; rfl
    · rename_i hq
      refine hanswer s .held (be 1 q.val) ?_
      rw [cmdClaimEdit, hholder]
      exact if_neg hq

theorem releaseEdit_answers : exec (.releaseEdit p tag) s = .next (if s.rcp.holder = some p then
      { s with rcp := { s.rcp with holder := none, staging := none, silenceMs := 0 } }.answering p 0x21 tag 0 []
    else s.answering p 0x21 tag 2 []) := by
  split
  · rename_i hholder
    exact exec_answers h tag (k := .releaseEdit) (status := .ok) rfl
      (by rw [cmdReleaseEdit, if_pos (holds_iff.mpr hholder)]; rfl)
  · rename_i hholder
    exact exec_answers h tag (k := .releaseEdit) (status := .notHolder) rfl
      (by rw [cmdReleaseEdit, if_neg fun hp => hholder (holds_iff.mp hp)]; rfl)

end

/-- Settles O36: a claim by who holds the right, a release by the holder or another port, and the expiry. -/
theorem editRightHeldByOne : Obligations.EditRightHeldByOne := fun p tag s =>
  ⟨fun h => claimEdit_answers h tag, fun h => releaseEdit_answers h tag, fun q hq => by
    show Host.Outcome.next _ = _
    rw [hq]; rfl⟩

/-! ### Entries (R163, R178) -/

section
variable {p : PortNo} {s : State} (h : s.ready p) (tag sec entry : Byte)
include h

theorem stageRead_other (hp : s.rcp.holder ≠ some p) :
    exec (.stageRead p tag sec entry) s = .next (s.answering p 0x23 tag 2 []) :=
  exec_answers h tag (k := .stageRead) (status := .notHolder) rfl
    (by simp only [cmdStageRead, restartSilence_eq, heard_other hp, stagingOf_other hp]; rfl)

theorem stageWrite_other (data : List Byte) (hp : s.rcp.holder ≠ some p) :
    exec (.stageWrite p tag sec entry data) s = .next (s.answering p 0x22 tag 2 []) :=
  exec_answers h tag (k := .stageWrite) (status := .notHolder) rfl
    (by simp only [cmdStageWrite, restartSilence_eq, heard_other hp, stagingOf_other hp]; rfl)

variable {sec entry}

theorem activeRead_noEntry (hno : entryNamed sec entry = none) :
    exec (.activeRead p tag sec entry) s = .next (s.answering p 0x24 tag 8 []) :=
  exec_answers h tag (k := .activeRead) (status := .range) rfl (by simp only [cmdActiveRead, hno]; rfl)

theorem activeRead_entry {x : Section} {i : Nat} (he : entryNamed sec entry = some (x, i)) :
    exec (.activeRead p tag sec entry) s = .next (s.answering p 0x24 tag 0 (s.rcp.active.entryBytes x i)) :=
  exec_answers h tag (k := .activeRead) (status := .ok) rfl (by simp only [cmdActiveRead, he]; rfl)

variable {r : Recipe} (hp : s.rcp.holder = some p) (hr : s.rcp.staging = some r)
include hp hr

theorem stageRead_noEntry (hno : entryNamed sec entry = none) :
    exec (.stageRead p tag sec entry) s = .next ((s.heard p).answering p 0x23 tag 8 []) :=
  exec_answers h tag (k := .stageRead) (status := .range) rfl
    (by simp only [cmdStageRead, restartSilence_eq, stagingOf_holder hp hr, hno]; rfl)

theorem stageWrite_noEntry (data : List Byte) (hno : entryNamed sec entry = none) :
    exec (.stageWrite p tag sec entry data) s = .next ((s.heard p).answering p 0x22 tag 8 []) :=
  exec_answers h tag (k := .stageWrite) (status := .range) rfl
    (by simp only [cmdStageWrite, restartSilence_eq, stagingOf_holder hp hr, hno]; rfl)

variable {x : Section} {i : Nat} (he : entryNamed sec entry = some (x, i))
include he

theorem stageRead_entry :
    exec (.stageRead p tag sec entry) s = .next ((s.heard p).answering p 0x23 tag 0 (r.entryBytes x i)) :=
  exec_answers h tag (k := .stageRead) (status := .ok) rfl
    (by simp only [cmdStageRead, restartSilence_eq, stagingOf_holder hp hr, he]; rfl)

theorem stageWrite_length {data : List Byte} (hlength : data.length ≠ x.sizes.sum) :
    exec (.stageWrite p tag sec entry data) s = .next ((s.heard p).answering p 0x22 tag 9 []) :=
  exec_answers h tag (k := .stageWrite) (status := .length) rfl
    (by simp only [cmdStageWrite, restartSilence_eq, stagingOf_holder hp hr, he]; exact if_neg hlength)

theorem stageWrite_entry {data : List Byte} (hlength : data.length = x.sizes.sum) :
    exec (.stageWrite p tag sec entry data) s = .next ({ s with rcp := { s.rcp with
      staging := some (r.withEntry x i data), silenceMs := 2000 } }.answering p 0x22 tag 0 []) :=
  exec_answers h tag (k := .stageWrite) (status := .ok) rfl
    (by simp only [cmdStageWrite, restartSilence_eq, stagingOf_holder hp hr, he, heard_holder hp]
        exact if_pos hlength)

end

/-- Settles O37: the refusals in order, and an entry read, or written and read back. -/
theorem entriesReadBack : Obligations.EntriesReadBack := by
  intro p tag sec entry data s h
  refine ⟨fun hp => ⟨stageWrite_other h tag sec entry data hp, stageRead_other h tag sec entry hp⟩, fun hno => ?_,
    fun x hx hlt => ?_⟩
  · have hnone := entryNamed_none hno
    refine ⟨activeRead_noEntry h tag hnone, fun hp hstaging => ?_⟩
    obtain ⟨r, hr⟩ := Option.ne_none_iff_exists'.mp hstaging
    exact ⟨stageWrite_noEntry h tag hp hr data hnone, stageRead_noEntry h tag hp hr hnone⟩
  · have he := entryNamed_some hx hlt
    refine ⟨activeRead_entry h tag he, fun r hp hr => ⟨stageRead_entry h tag hp hr he,
      stageWrite_length h tag hp hr he, fun hlength hshape => ?_⟩⟩
    obtain ⟨hshape', hread, hothers⟩ := withEntry_spec hshape hlt data
    exact ⟨_, stageWrite_entry h tag hp hr he hlength, hshape', hread hlength, hothers⟩

/-! ### COMMIT and CANCEL_PENDING (R164 to R168) -/

/-- The machine with a copy waiting that the holder's port committed (R162, R164). -/
def State.withPending (s : State) (r : Recipe) (p : PortNo) : State :=
  { s with rcp := { s.rcp with pending := some ⟨r, p⟩, silenceMs := 2000 } }

section
variable {p : PortNo} {s : State} (h : s.ready p) (tag : Byte)
include h

theorem cancelPending_answers : exec (.cancelPending p tag) s = .next (
    if s.rcp.holder = some p then
      match s.rcp.pending with
      | none => (s.heard p).answering p 0x26 tag 5 []
      | some _ => { s with rcp := { s.rcp with pending := none, silenceMs := 2000 } }.answering p 0x26 tag 0 []
    else s.answering p 0x26 tag 2 []) := by
  have hanswer : ∀ t status reply, cmdCancelPending p s = (t, ⟨status, reply⟩) →
      exec (.cancelPending p tag) s = .next (t.answering p 0x26 tag status.num reply) :=
    fun _ _ _ hrun => exec_answers h tag (k := .cancelPending) rfl hrun
  split
  · rename_i hp
    have hholds := holds_iff.mpr hp
    cases hc : s.rcp.pending with
    | none => exact hanswer _ .nonePending [] (by simp [cmdCancelPending, hholds, hc, restartSilence_eq, Reply.plain])
    | some c =>
      exact hanswer _ .ok [] (by simp [cmdCancelPending, hholds, hc, restartSilence_eq, heard_holder hp, Reply.ok])
  · rename_i hp
    have hholds : s.holds p ≠ true := fun hp' => hp (holds_iff.mp hp')
    exact hanswer s .notHolder [] (by simp [cmdCancelPending, hholds, restartSilence_eq, heard_other hp, Reply.plain])

theorem commit_other (hp : s.rcp.holder ≠ some p) :
    exec (.commit p tag) s = .next (s.answering p 0x25 tag 2 []) :=
  exec_answers h tag (k := .commit) (status := .notHolder) rfl
    (by simp only [cmdCommit, restartSilence_eq, heard_other hp, stagingOf_other hp]; rfl)

variable {r : Recipe} (hp : s.rcp.holder = some p) (hr : s.rcp.staging = some r)
include hp hr

theorem commit_pending (hc : s.rcp.pending ≠ none) :
    exec (.commit p tag) s = .next ((s.heard p).answering p 0x25 tag 4 []) :=
  exec_answers h tag (k := .commit) (status := .pending) rfl
    (by
      simp only [cmdCommit, restartSilence_eq, stagingOf_holder hp hr, Option.isSome_iff_ne_none.mpr hc, if_true]
      rfl)

variable (hc : s.rcp.pending = none)
include hc

theorem commit_invalid {d : Detail} {e : Nat} (hd : r.firstFault = some (d, e)) :
    exec (.commit p tag) s = .next ((s.heard p).answering p 0x25 tag 3 (be 1 d.num ++ be 1 e)) :=
  exec_answers h tag (k := .commit) (status := .invalid) rfl
    (by simp only [cmdCommit, restartSilence_eq, stagingOf_holder hp hr, hc, hd]; rfl)

variable (hvalid : r.valid = true)
include hvalid

omit h in
/-- An accepted copy, with IDLE itself a swap point. -/
theorem cmdCommit_accepted : cmdCommit p s =
    ((if s.rcp.run = .idle then swapPoint (s.withPending r p) else s.withPending r p),
      .ok (be 1 (if (if s.rcp.run = .idle then swapPoint (s.withPending r p)
        else s.withPending r p).rcp.pending.isSome then 1 else 0))) := by
  have hnone : r.firstFault = none := by simpa [Recipe.valid] using hvalid
  simp only [cmdCommit, restartSilence_eq, stagingOf_holder hp hr, hc, hnone, heard_holder hp]
  rfl

/-- In a run an accepted copy waits for its swap point. -/
theorem commit_waits (hrun : s.rcp.run ≠ .idle) :
    exec (.commit p tag) s = .next ((s.withPending r p).answering p 0x25 tag 0 [1]) := by
  refine exec_answers h tag (k := .commit) (status := .ok) rfl ?_
  rw [cmdCommit_accepted hp hr hc hvalid, if_neg hrun, if_pos (by rfl), show be 1 1 = [1] by decide]
  rfl

/-- In IDLE with no line in a slot an accepted copy becomes active at once. -/
theorem commit_swaps (hrun : s.rcp.run = .idle) (hretiring : s.rcp.retiring = none)
    (hcopy : ∀ i, (s.asm.slots.get i).copy = .none) :
    exec (.commit p tag) s = .next ((append s.pos.w (.event .recipeSwap (swapArgument s.rcp.active r p)) { s with
      rcp := { s.rcp with active := r, silenceMs := 2000 }
      trig := { s.trig with t := s.trig.lastTrigger + r.p } }).answering p 0x25 tag 0 [0]) := by
  have hswap := swapPoint_idle (s := s.withPending r p) (c := ⟨r, p⟩) hrun rfl hretiring hcopy
  refine exec_answers h tag (k := .commit) (status := .ok) rfl ?_
  rw [cmdCommit_accepted hp hr hc hvalid, if_pos hrun, hswap, if_neg (by simp), show be 1 0 = [0] by decide, ← hc]
  rfl

end

/-- Settles O39: CANCEL_PENDING, and COMMIT by its checks and by the run state. -/
theorem commitAndCancel : Obligations.CommitAndCancel := by
  intro p tag s h
  refine ⟨cancelPending_answers h tag, commit_other h tag, fun r hp hr => ⟨commit_pending h tag hp hr, fun hc =>
    ⟨fun d e hd => commit_invalid h tag hp hr hc hd, commit_waits h tag hp hr hc,
      fun hvalid hrun hretiring hcopy => ?_⟩⟩⟩
  rw [commit_swaps h tag hp hr hc hvalid hrun hretiring hcopy, swapArgument_eq]

end Sys2Proof.Machine
end

section
/-! SUPPORT. The run begun and stopped by command (R170, R171, O40, O41). -/

namespace Sys2Proof.Machine

theorem stopped_free {x : Slot} (hx : x.state = .free) : x.stopped.state = .free := by
  rcases stopped_cases x with ⟨hfree, -⟩ | ⟨hsame, -⟩
  · exact hfree
  · rw [hsame]; exact hx

/-- A line just triggered is OPEN or READY, so a stop frees its slot (R64). -/
theorem lineSlot_stopped (i : Fin 4) (s : State) : (s.lineSlot i).stopped.state = .free := by
  rw [Slot.stopped, if_pos]
  · rfl
  · rw [lineSlot_eq]; dsimp only
    split
    · exact Or.inl rfl
    · exact Or.inr rfl

/-! ### DISARM (R64, R169, R171) -/

/-- A stop takes the reference to a retiring copy from an OPEN or READY slot. -/
theorem stopped_retiring (x : Slot) :
    x.stopped.copy = .retiring ↔ x.copy = .retiring ∧ x.state ≠ .opened ∧ x.state ≠ .ready := by
  unfold Slot.stopped
  cases hx : x.state <;> simp [Slot.freed]

theorem beginStop_slot (n : Nat) (s : State) (i : Fin 4) :
    (beginStop n s).asm.slots.get i = (s.asm.slots.get i).stopped := by
  obtain ⟨-, hasm, -⟩ := beginStop_control n s
  rw [hasm]; exact Quad.get_map _ _ _

/-- The recipe store as a stop begins: a retiring copy stays while a slot IN_WORK refers to it (R64, R169). -/
theorem beginStop_rcp (n : Nat) (s : State) : (beginStop n s).rcp = { s.rcp with
    run := .stopping, stopBy := n
    retiring := if ∃ i, (s.asm.slots.get i).copy = .retiring ∧ (s.asm.slots.get i).state ≠ .opened ∧
        (s.asm.slots.get i).state ≠ .ready then s.rcp.retiring else none } := by
  obtain ⟨-, hasm, hrcp⟩ := beginStop_control n s
  have hzero := references_eq_zero (beginStop n s) .retiring
  rw [State.references, hasm] at hzero
  simp only [Quad.get_map, stopped_retiring] at hzero
  rw [hrcp]
  simp only [hzero, ite_not]

/-- Settles O41: a refusal, and the stop begun, block by block. -/
theorem disarmBeginsStop : Obligations.DisarmBeginsStop := by
  intro p tag s h
  refine ⟨fun hrun => exec_answers h tag (k := .disarm) (status := .state) rfl (by rw [cmdDisarm, if_neg hrun]; rfl),
    fun hrun => ⟨beginStop p.val s,
      exec_answers h tag (k := .disarm) (status := .ok) rfl (by rw [cmdDisarm, if_pos hrun]; rfl), ?_⟩⟩
  obtain ⟨htrig, hlist⟩ := beginStop_report p.val s
  obtain ⟨htrk, -, -⟩ := beginStop_control p.val s
  have hweb := beginStop_web p.val s
  refine ⟨htrig, htrk, hlist.trans (withSkipReport_list s), fun i hi => ?_, fun i hopen hready => ?_, beginStop_rcp _ s,
    hweb.pos, hweb.eng, hweb.mark, hweb.links⟩
  · rw [beginStop_slot, Slot.stopped, if_pos hi]; rfl
  · rw [beginStop_slot, Slot.stopped, if_neg (not_or.mpr ⟨hopen, hready⟩)]

/-! ### ARM (R6, R7, R17, R170) -/

theorem armable_iff (r : Recipe) : r.armable = true ↔ ∃ l ∈ r.lanes, l.enabled = 1 := by simp [Recipe.armable]

/-- Forcing leaves slots that are all FREE. -/
theorem forceSlots_free {s : State} (hfree : ∀ i, (s.asm.slots.get i).state = .free) (i : Fin 4) :
    (forceSlots s).asm.slots.get i = s.asm.slots.get i := by
  rw [forceSlots_get, Slot.afterForcing, if_neg]
  simp [hfree]

section
variable {s : State} (p : PortNo) (hpending : s.rcp.pending = none) (hfree : ∀ i, (s.asm.slots.get i).state = .free)
include hpending hfree

/-- Line 0 is triggered with nothing pending and every slot FREE: it opens in slot 0. -/
theorem takeTrigger_armedBy : takeTrigger (s.armedBy p) = { forceSlots (s.armedBy p) with
    asm := { (forceSlots (s.armedBy p)).asm with
      slots := (forceSlots (s.armedBy p)).asm.slots.set 0 ((forceSlots (s.armedBy p)).lineSlot 0)
      lastRank := s.asm.lastRank + 1 }
    trig := { s.trig with
      t := s.pos.w + s.rcp.active.p, lastTrigger := s.pos.w, n := 1, skipped := 0, out := frameOf [0, 0] } } := by
  have hno : (s.armedBy p).triggerSwaps = false := by
    simp [State.triggerSwaps, State.swapWaits, State.armedBy, hpending]
  have hzero : (forceSlots (s.armedBy p)).freeSlotNo = some 0 := by
    refine freeSlotNo_some ?_ fun j hj => absurd hj (Fin.not_lt_zero j)
    rw [forceSlots_free (s := s.armedBy p) hfree]; exact hfree 0
  have hreport : (forceSlots (s.armedBy p)).withSkipReport = forceSlots (s.armedBy p) := if_pos rfl
  have htrig : (s.armedBy p).trig.n = 0 := rfl
  have hword : be 2 (0 : BitVec 16).toNat = [0, 0] := by decide
  rw [takeTrigger_opens (if_neg (by simp [hno])) hzero, hreport, htrig, hword]
  rfl

/-- The run begun, block by block (R7, R17, R170). -/
theorem armedBy_begins {t : State} (ht : t = takeTrigger (s.armedBy p)) :
    t.rcp = { s.rcp with run := .armed } ∧ t.list = s.list.push s.pos.w (.event .armed p.val) ∧
    t.trig = { s.trig with
      t := s.pos.w + s.rcp.active.p, lastTrigger := s.pos.w, n := 1, skipped := 0, out := frameOf [0, 0] } ∧
    t.trk = { s.trk with
      mode := if s.rcp.active.patch.c = 0 then .continuous else .seek
      misses := 0, patch := none, prevShort := false } ∧
    t.eng = s.eng.armed ∧ t.asm.slots.get 0 = (forceSlots (s.armedBy p)).lineSlot 0 ∧
    (∀ i, i ≠ 0 → t.asm.slots.get i = s.asm.slots.get i) ∧ t.pos = s.pos ∧ t.mark = s.mark ∧ t.links = s.links := by
  rw [ht, takeTrigger_armedBy p hpending hfree]
  refine ⟨rfl, rfl, rfl, rfl, rfl, by dsimp only; rw [Quad.get_set_self], fun i hi => ?_, rfl, rfl, rfl⟩
  dsimp only
  rw [Quad.get_set_of_ne _ _ hi]
  exact forceSlots_free (s := s.armedBy p) hfree i

end

/-- The zone of line 0: no patch has begun (R17, R25, R27). -/
theorem armedBy_zone (p : PortNo) (s : State) : (forceSlots (s.armedBy p)).lineZone =
    .bare (if s.rcp.active.patch.c = 0 then .body else .unknown) := by
  have hmode : (forceSlots (s.armedBy p)).trk.mode =
      if s.rcp.active.patch.c = 0 then .continuous else .seek := rfl
  by_cases hc : s.rcp.active.patch.c = 0
  · rw [if_pos hc] at hmode ⊢
    exact lineZone_continuous hmode
  · rw [if_neg hc] at hmode ⊢
    exact lineZone_noPatch (by rw [hmode]; exact nofun) rfl

/-- Settles O40: the refusals, and the run begun below the limit and at it. -/
theorem armBeginsRun : Obligations.ArmBeginsRun := by
  intro p tag s h
  have hcmd : ∀ t status reply, cmdArm p s = (t, ⟨status, reply⟩) →
      exec (.arm p tag) s = .next (t.answering p 0x10 tag status.num reply) :=
    fun _ _ _ hrun => exec_answers h tag (k := .arm) rfl hrun
  refine ⟨fun hrun => hcmd s .state [] (by rw [cmdArm, if_pos hrun]; rfl), fun hrun hno => ?_,
    fun hrun hlane hpending hfree => ?_⟩
  · have harmable : s.rcp.active.armable = false := by
      rw [Bool.eq_false_iff, ne_eq, armable_iff]
      rintro ⟨l, hl, hon⟩
      exact hno l hl hon
    exact hcmd s .notReady [] (by rw [cmdArm, if_neg (not_not.mpr hrun), harmable]; rfl)
  · have harm : exec (.arm p tag) s = .next ((armRun p s).answering p 0x10 tag 0 []) :=
      hcmd _ .ok [] (by rw [cmdArm, if_neg (not_not.mpr hrun), (armable_iff _).mpr hlane]; rfl)
    obtain ⟨hrcp, hlist, htrig, htrk, heng, hslot, hslots, hpos, hmark, hlinks⟩ :=
      armedBy_begins p hpending hfree rfl
    rw [harm, armRun_eq]
    refine ⟨fun hw => ?_, fun hw => ?_⟩
    · rw [if_neg (by omega)]
      refine ⟨_, rfl, hrcp, hlist, htrig, htrk, by rw [heng]; rfl, by rw [heng]; rfl, by rw [heng]; rfl,
        by rw [heng]; rfl, ?_, ?_, by rw [heng]; rfl, ?_, ?_, ?_, ?_, ?_, fun k => ?_, hslots, hpos, hmark, hlinks⟩
      · rw [heng]; simp [Engine.armed]
      · rw [heng]; simp [Engine.armed]
      · rw [hslot, lineSlot_eq]; rfl
      · rw [hslot, lineSlot_eq]; rfl
      · rw [hslot, lineSlot_eq]
      · rw [hslot, lineSlot_eq]; dsimp only; rw [armedBy_zone]; rfl
      · rw [hslot, lineSlot_eq]; dsimp only; rw [armedBy_zone]; rfl
      · rw [hslot, lineSlot_eq]; exact expectedHeads_get (forceSlots (s.armedBy p)) k
    · rw [if_pos hw]
      generalize takeTrigger (s.armedBy p) = u at *
      have hrun' : u.rcp.run = .armed := by rw [hrcp]
      have hskipped : u.trig.skipped = 0 := by rw [htrig]
      have hstop := positionLimit_list hrun'
      rw [if_pos hskipped, hlist, hpos, hw] at hstop
      rw [positionLimit_armed hrun'] at hstop ⊢
      obtain ⟨hstrig, -⟩ := beginStop_report 3 (appendEvent .positionLimit 1 u)
      obtain ⟨hstrk, -, hsrcp⟩ := beginStop_control 3 (appendEvent .positionLimit 1 u)
      have hsweb := beginStop_web 3 (appendEvent .positionLimit 1 u)
      refine ⟨_, rfl, by rw [hsrcp], by rw [hsrcp], by rw [hsrcp]; dsimp only [appendEvent_rcp]; rw [hrcp], hstop, ?_, ?_,
        fun i => ?_, hsweb.pos.trans hpos⟩
      · rw [hstrig]; dsimp only [appendEvent_trig]; rw [htrig]
      · rw [hstrk]; dsimp only [appendEvent_trk]; rw [htrk]
      · rw [beginStop_slot]
        by_cases hi : i = 0
        · rw [hi, appendEvent_asm, hslot]
          exact lineSlot_stopped _ _
        · rw [appendEvent_asm, hslots i hi]
          exact stopped_free (hfree i)

end Sys2Proof.Machine
end

section
/-! SUPPORT. The checks of COMMIT (R165, O38): what each check reports is the lowest entry at fault in it, and the
checks stand in the order of their numbers. -/

namespace Sys2Proof.Machine

/-! ### The lowest entry at fault -/

/-- What is found is the lowest number of which `P` holds, and nothing is found when there is none. -/
def Finds (o : Option Nat) (P : Nat → Prop) : Prop := ∀ e, o = some e ↔ P e ∧ ∀ f, f < e → ¬ P f

theorem Finds.congr {o : Option Nat} {P Q : Nat → Prop} (h : Finds o P) (hpq : ∀ e, P e ↔ Q e) : Finds o Q := by
  have hsame : P = Q := funext fun e => propext (hpq e)
  exact hsame ▸ h

theorem Finds.none_iff {o : Option Nat} {P : Nat → Prop} (h : Finds o P) : o = none ↔ ∀ e, ¬ P e := by
  classical
  constructor
  · intro hnone e he
    have hfound := (h (Nat.find ⟨e, he⟩)).mpr ⟨Nat.find_spec _, fun f hf => Nat.find_min _ hf⟩
    rw [hnone] at hfound; cases hfound
  · intro hno
    rw [Option.eq_none_iff_forall_ne_some]
    exact fun e he => hno e ((h e).mp he).1

theorem finds_none : Finds none fun _ => False := fun e => by simp

/-- One entry tested before all that are found otherwise. -/
theorem Finds.test {o : Option Nat} {P : Nat → Prop} {i : Nat} {c : Prop} [Decidable c] (h : Finds o P)
    (hlater : ∀ e, P e → i < e) : Finds (if c then some i else o) fun e => e = i ∧ c ∨ P e := by
  intro e
  by_cases hc : c
  · rw [if_pos hc, Option.some.injEq]
    constructor
    · rintro rfl
      exact ⟨.inl ⟨rfl, hc⟩, fun f hf hbad => hbad.elim (fun h => by omega) (fun h => absurd (hlater f h) (by omega))⟩
    · rintro ⟨hbad | hbad, hmin⟩
      · exact hbad.1.symm
      · exact absurd (.inl ⟨rfl, hc⟩) (hmin i (hlater e hbad))
  · rw [if_neg hc, h e]
    simp [hc]

/-- A check that concerns no single entry. -/
theorem finds_single (i : Nat) (c : Prop) [Decidable c] : Finds (if c then some i else none) fun e => e = i ∧ c :=
  (finds_none.test fun _ => False.elim).congr fun e => by simp

theorem firstAt_finds_from {α : Type} (bad : α → Bool) : ∀ (xs : List α) (i : Nat),
    Finds (firstAt bad i xs) fun e => ∃ k x, e = i + k ∧ xs[k]? = some x ∧ bad x = true
  | [], _ => finds_none.congr fun e => by simp
  | x :: xs, i => by
    refine ((firstAt_finds_from bad xs (i + 1)).test (i := i) (c := bad x = true) ?_).congr fun e => ?_
    · rintro e ⟨k, y, rfl, -⟩; omega
    · constructor
      · rintro (⟨rfl, hbad⟩ | ⟨k, y, rfl, hy, hbad⟩)
        · exact ⟨0, x, rfl, rfl, hbad⟩
        · exact ⟨k + 1, y, by omega, hy, hbad⟩
      · rintro ⟨k, y, rfl, hy, hbad⟩
        cases k with
        | zero => cases hy; exact .inl ⟨rfl, hbad⟩
        | succ k => exact .inr ⟨k, y, by omega, hy, hbad⟩

theorem firstAt_finds {α : Type} (bad : α → Bool) (xs : List α) :
    Finds (firstAt bad 0 xs) fun e => ∃ x, xs[e]? = some x ∧ bad x = true :=
  (firstAt_finds_from bad xs 0).congr fun e => by simp

theorem firstPair_finds_from {α : Type} (bad : α → α → Bool) : ∀ (xs : List α) (i : Nat), Finds (firstPair bad i xs)
    fun e => ∃ k x, e = i + k ∧ xs[k]? = some x ∧ ∃ f y, k < f ∧ xs[f]? = some y ∧ bad x y = true
  | [], _ => finds_none.congr fun e => by simp
  | x :: xs, i => by
    refine ((firstPair_finds_from bad xs (i + 1)).test (i := i) (c := xs.any (bad x) = true) ?_).congr fun e => ?_
    · rintro e ⟨k, y, rfl, -⟩; omega
    · constructor
      · rintro (⟨rfl, hbad⟩ | ⟨k, y, rfl, hy, f, z, hf, hz, hbad⟩)
        · obtain ⟨y, hy, hbad⟩ := List.any_eq_true.mp hbad
          obtain ⟨f, hf⟩ := List.mem_iff_getElem?.mp hy
          exact ⟨0, x, rfl, rfl, f + 1, y, by omega, hf, hbad⟩
        · exact ⟨k + 1, y, by omega, hy, f + 1, z, by omega, hz, hbad⟩
      · rintro ⟨k, y, rfl, hy, f, z, hf, hz, hbad⟩
        obtain ⟨g, rfl⟩ : ∃ g, f = g + 1 := ⟨f - 1, by omega⟩
        cases k with
        | zero => cases hy; exact .inl ⟨rfl, List.any_eq_true.mpr ⟨z, List.mem_of_getElem? hz, hbad⟩⟩
        | succ k => exact .inr ⟨k, y, by omega, hy, g, z, by omega, hz, hbad⟩

theorem firstPair_finds {α : Type} (bad : α → α → Bool) (xs : List α) : Finds (firstPair bad 0 xs)
    fun e => ∃ x, xs[e]? = some x ∧ ∃ f y, e < f ∧ xs[f]? = some y ∧ bad x y = true :=
  (firstPair_finds_from bad xs 0).congr fun e => by simp

/-! ### The entries of a copy -/

theorem toList_getElem? {α : Type} (v : Quad α) (e : Nat) (x : α) :
    v.toList[e]? = some x ↔ ∃ h : Fin 4, e = h.val ∧ v.get h = x := by
  constructor
  · intro he
    match e, he with
    | 0, he => exact ⟨0, rfl, Option.some.inj he⟩
    | 1, he => exact ⟨1, rfl, Option.some.inj he⟩
    | 2, he => exact ⟨2, rfl, Option.some.inj he⟩
    | 3, he => exact ⟨3, rfl, Option.some.inj he⟩
  · rintro ⟨h, rfl, rfl⟩
    match h with
    | 0 => rfl
    | 1 => rfl
    | 2 => rfl
    | 3 => rfl

theorem getElem?_iff_getD {α : Type} (xs : List α) (d : α) (e : Nat) (x : α) :
    xs[e]? = some x ↔ e < xs.length ∧ xs.getD e d = x := by
  rw [List.getElem?_eq_some_iff, ← exists_prop]
  exact exists_congr fun he => by rw [List.getD_eq_getElem _ _ he]

theorem lanes_getElem? {r : Recipe} (hshape : r.shapeOk) (e : Nat) (l : LaneEntry) :
    r.lanes[e]? = some l ↔ e < 16 ∧ r.lane e = l := by
  have hlen := hshape.1
  rw [getElem?_iff_getD _ defaultLane, hlen]; rfl

theorem profiles_getElem? {r : Recipe} (hshape : r.shapeOk) (e : Nat) (p : Profile) :
    r.profiles[e]? = some p ↔ e < 16 ∧ r.profile e = p := by
  have hlen := hshape.2
  rw [getElem?_iff_getD _ defaultProfile, hlen]; rfl

theorem markers_getElem? (r : Recipe) (e : Nat) (f : MarkerFields) :
    [r.mk0, r.mk1][e]? = some f ↔ e = 0 ∧ f = r.mk0 ∨ e = 1 ∧ f = r.mk1 := by
  match e with
  | 0 => simp [eq_comm]
  | 1 => simp [eq_comm]
  | e + 2 => simp

/-! ### The tests of the checks -/

theorem within_iff (lo hi n : Nat) : within lo hi n = true ↔ lo ≤ n ∧ n ≤ hi := by simp [within]

theorem headEntry_inRange_iff (e : HeadEntry) : e.inRange = true ↔ e.enabled ≤ 1 ∧ e.expectedId ≤ 65535 ∧
    e.l0 ≤ 511 ∧ 1 ≤ e.n ∧ e.l0 + e.n ≤ 512 ∧ e.g0 ≤ 2047 ∧ e.g0 + e.n ≤ 2048 := by
  simp only [HeadEntry.inRange, Bool.and_eq_true, within_iff]
  omega

theorem laneEntry_inRange_iff (l : LaneEntry) : l.inRange = true ↔ l.enabled ≤ 1 ∧ l.first ≤ l.last ∧
    l.last ≤ 2047 ∧ l.guard ≤ 15 ∧ l.base ≤ 15 ∧ l.marker ≤ 2 := by
  simp only [LaneEntry.inRange, Bool.and_eq_true, within_iff]
  omega

theorem profile_inRange_iff (p : Profile) : p.inRange = true ↔ p.pinEnable ≤ 1 ∧ p.streakEnable ≤ 1 ∧
    p.markEnable ≤ 1 ∧ 1 ≤ p.tp ∧ p.tp ≤ 4095 ∧ 1 ≤ p.ts ∧ p.ts ≤ 4095 ∧ 1 ≤ p.k ∧ p.k ≤ 10 ∧ 2 ≤ p.lOpen ∧
    p.lOpen ≤ 4095 ∧ 1 ≤ p.lClose ∧ p.lClose < p.lOpen ∧ p.warm ≤ 255 := by
  simp only [Profile.inRange, Bool.and_eq_true, within_iff]
  omega

theorem patchFields_inRange_iff (f : PatchFields) : f.inRange = true ↔ (f.c = 0 ∨ 16 ≤ f.c ∧ f.c ≤ 16777215) ∧
    1 ≤ f.g ∧ f.g ≤ 16777215 ∧ f.m ≤ 16777215 ∧ f.leadLen ≤ 65535 ∧ f.trailLen ≤ 65535 ∧ f.wm ≤ 65535 ∧ f.f ≤ 7 ∧
    f.polarity ≤ 1 := by
  simp only [PatchFields.inRange, Bool.and_eq_true, Bool.or_eq_true, beq_iff_eq, within_iff, maxLength]
  omega

theorem markerFields_inRange_iff (f : MarkerFields) : f.inRange = true ↔ f.offset ≤ 16777215 ∧ 1 ≤ f.width ∧
    f.width ≤ 65535 ∧ f.spacing ≤ 65535 := by
  simp only [MarkerFields.inRange, Bool.and_eq_true, within_iff, maxLength]
  omega

/-- Two enabled entries that feed at least one cell each overlap exactly when they feed a common one (R50). -/
theorem headsOverlap_iff {a b : HeadEntry} (ha : 1 ≤ a.n) (hb : 1 ≤ b.n) :
    headsOverlap a b = true ↔ a.enabled = 1 ∧ b.enabled = 1 ∧
      ∃ c, a.g0 ≤ c ∧ c < a.g0 + a.n ∧ b.g0 ≤ c ∧ c < b.g0 + b.n := by
  simp only [headsOverlap, Bool.and_eq_true, beq_iff_eq, decide_eq_true_eq, and_assoc]
  refine and_congr_right fun _ => and_congr_right fun _ => ⟨fun ⟨h₁, h₂⟩ => ?_, fun ⟨c, h⟩ => by omega⟩
  exact ⟨max a.g0 b.g0, by omega⟩

/-- Two enabled lanes of at least one cell each overlap exactly when they share a cell (R68). -/
theorem lanesOverlap_iff {a b : LaneEntry} (ha : a.first ≤ a.last) (hb : b.first ≤ b.last) :
    lanesOverlap a b = true ↔ a.enabled = 1 ∧ b.enabled = 1 ∧
      ∃ c, a.first ≤ c ∧ c ≤ a.last ∧ b.first ≤ c ∧ c ≤ b.last := by
  simp only [lanesOverlap, Bool.and_eq_true, beq_iff_eq, decide_eq_true_eq, and_assoc]
  refine and_congr_right fun _ => and_congr_right fun _ => ⟨fun ⟨h₁, h₂⟩ => ?_, fun ⟨c, h⟩ => by omega⟩
  exact ⟨max a.first b.first, by omega⟩

theorem feeds_eq_false_iff (e : HeadEntry) (c : Nat) :
    e.feeds c = false ↔ (e.enabled = 1 → c < e.g0 ∨ e.g0 + e.n ≤ c) := by
  rw [Bool.eq_false_iff]
  simp only [HeadEntry.feeds, ne_eq, Bool.and_eq_true, beq_iff_eq, decide_eq_true_eq]
  omega

theorem laneCovered_eq_false_iff (v : Quad HeadEntry) (l : LaneEntry) : laneCovered v.toList l = false ↔
    l.enabled = 1 ∧ ∃ c, l.first ≤ c ∧ c ≤ l.last ∧
      ∀ h, (v.get h).enabled = 1 → c < (v.get h).g0 ∨ (v.get h).g0 + (v.get h).n ≤ c := by
  have hfed : ∀ c, (v.toList.any fun e => e.feeds c) = false ↔
      ∀ h, (v.get h).enabled = 1 → c < (v.get h).g0 ∨ (v.get h).g0 + (v.get h).n ≤ c := fun c => by
    rw [List.any_eq_false]
    simp only [Quad.mem_toList, Bool.not_eq_true, feeds_eq_false_iff]
    exact ⟨fun h k => h _ ⟨k, rfl⟩, fun h _ ⟨k, hk⟩ => hk ▸ h k⟩
  simp only [laneCovered, Bool.or_eq_false_iff, bne_eq_false_iff_eq, List.all_eq_false, List.mem_range,
    Bool.not_eq_true, hfed]
  refine and_congr_right fun _ => ⟨fun ⟨i, hi, h⟩ => ⟨l.first + i, by omega, by omega, h⟩, fun ⟨c, hc, hl, h⟩ => ?_⟩
  exact ⟨c - l.first, by omega, by rwa [Nat.add_sub_cancel' hc]⟩

theorem offsetFails_iff {r : Recipe} (hshape : r.shapeOk) (m : Nat) (f : MarkerFields) :
    offsetFails r m f = true ↔ f.offset < (r.pmax + 5) * r.p ∧
      ∃ l, l < 16 ∧ (r.lane l).enabled = 1 ∧ (r.lane l).marker = m := by
  have hnamed : markerNamed r.lanes m = true ↔ ∃ l, l < 16 ∧ (r.lane l).enabled = 1 ∧ (r.lane l).marker = m := by
    simp only [markerNamed, List.any_eq_true, Bool.and_eq_true, beq_iff_eq, List.mem_iff_getElem?,
      lanes_getElem? hshape]
    exact ⟨fun ⟨_, ⟨l, hl, rfl⟩, h⟩ => ⟨l, hl, h⟩, fun ⟨l, hl, h⟩ => ⟨_, ⟨l, hl, rfl⟩, h⟩⟩
  rw [offsetFails, Bool.and_eq_true, hnamed, decide_eq_true_eq, and_comm]

/-! ### Each check reports its lowest entry at fault -/

section
variable (r : Recipe)

theorem headsRange_finds : Finds (r.fails .headsRange) (r.atFault 1) := by
  refine (firstAt_finds _ _).congr fun e => ?_
  simp only [toList_getElem?, Bool.not_eq_true', ← Bool.not_eq_true, headEntry_inRange_iff]
  simp [Recipe.atFault]

theorem headOverlap_finds (hrange : ∀ e, ¬ r.atFault 1 e) : Finds (r.fails .headOverlap) (r.atFault 2) := by
  refine (firstPair_finds _ _).congr fun e => ?_
  have hn : ∀ h, 1 ≤ (r.heads.get h).n := fun h => by
    by_contra hz
    exact hrange h.val (.inl ⟨rfl, h, rfl, fun hok => hz hok.2.2.2.1⟩)
  simp only [toList_getElem?, Recipe.atFault, Nat.reduceEqDiff, false_and, true_and, false_or, or_false]
  constructor
  · rintro ⟨_, ⟨h, rfl, rfl⟩, _, _, hlt, ⟨k, rfl, rfl⟩, hbad⟩
    exact ⟨h, k, rfl, hlt, (headsOverlap_iff (hn h) (hn k)).mp hbad⟩
  · rintro ⟨h, k, rfl, hlt, hbad⟩
    exact ⟨_, ⟨h, rfl, rfl⟩, k.val, _, hlt, ⟨k, rfl, rfl⟩, (headsOverlap_iff (hn h) (hn k)).mpr hbad⟩

theorem laneRange_finds (hshape : r.shapeOk) : Finds (r.fails .laneRange) (r.atFault 3) := by
  refine (firstAt_finds _ _).congr fun e => ?_
  simp only [lanes_getElem? hshape, Bool.not_eq_true', ← Bool.not_eq_true, laneEntry_inRange_iff]
  simp [Recipe.atFault]

theorem laneOverlap_finds (hshape : r.shapeOk) (hrange : ∀ e, ¬ r.atFault 3 e) :
    Finds (r.fails .laneOverlap) (r.atFault 4) := by
  refine (firstPair_finds _ _).congr fun e => ?_
  have hn : ∀ e, e < 16 → (r.lane e).first ≤ (r.lane e).last := fun e he => by
    by_contra hz
    exact hrange e (.inr (.inr (.inl ⟨rfl, he, fun hok => hz hok.2.1⟩)))
  simp only [lanes_getElem? hshape, Recipe.atFault, Nat.reduceEqDiff, false_and, true_and, false_or, or_false]
  constructor
  · rintro ⟨_, ⟨he, rfl⟩, f, _, hlt, ⟨hf, rfl⟩, hbad⟩
    exact ⟨f, hlt, hf, (lanesOverlap_iff (hn e he) (hn f hf)).mp hbad⟩
  · rintro ⟨f, hlt, hf, hbad⟩
    have he : e < 16 := hlt.trans hf
    exact ⟨_, ⟨he, rfl⟩, f, _, hlt, ⟨hf, rfl⟩, (lanesOverlap_iff (hn e he) (hn f hf)).mpr hbad⟩

theorem laneCoverage_finds (hshape : r.shapeOk) : Finds (r.fails .laneCoverage) (r.atFault 5) := by
  refine (firstAt_finds _ _).congr fun e => ?_
  simp only [lanes_getElem? hshape, Bool.not_eq_true', laneCovered_eq_false_iff]
  simp [Recipe.atFault]

theorem profileRange_finds (hshape : r.shapeOk) : Finds (r.fails .profileRange) (r.atFault 6) := by
  refine (firstAt_finds _ _).congr fun e => ?_
  simp only [profiles_getElem? hshape, Bool.not_eq_true', ← Bool.not_eq_true, profile_inRange_iff]
  simp [Recipe.atFault]

theorem patchRange_finds : Finds (r.fails .patchRange) (r.atFault 7) := by
  have hfails : r.fails .patchRange = if ¬ r.patch.inRange = true then some 255 else none := (ite_not _ _ _).symm
  rw [hfails]
  refine (finds_single _ _).congr fun e => ?_
  rw [patchFields_inRange_iff]
  simp [Recipe.atFault]

theorem queueDepth_finds : Finds (r.fails .queueDepth) (r.atFault 8) := by
  refine (finds_single 255 _).congr fun e => ?_
  simp [Recipe.atFault]

theorem markerRange_finds : Finds (r.fails .markerRange) (r.atFault 9) := by
  refine (firstAt_finds _ _).congr fun e => ?_
  simp only [markers_getElem?, Bool.not_eq_true', ← Bool.not_eq_true, markerFields_inRange_iff]
  simp [Recipe.atFault]

theorem markerOffset_finds (hshape : r.shapeOk) : Finds (r.fails .markerOffset) (r.atFault 10) := by
  refine ((finds_single 1 _).test (i := 0) fun e he => by omega).congr fun e => ?_
  simp only [offsetFails_iff hshape, Recipe.atFault, Nat.reduceEqDiff, false_and, true_and, false_or, or_false]
  constructor
  · rintro (⟨rfl, hbad⟩ | ⟨rfl, hbad⟩)
    · exact ⟨r.mk0, .inl ⟨rfl, rfl⟩, hbad⟩
    · exact ⟨r.mk1, .inr ⟨rfl, rfl⟩, hbad⟩
  · rintro ⟨f, ⟨rfl, rfl⟩ | ⟨rfl, rfl⟩, hbad⟩
    · exact .inl ⟨rfl, hbad⟩
    · exact .inr ⟨rfl, hbad⟩

theorem pitch_finds : Finds (r.fails .pitch) (r.atFault 11) := by
  have hfails : r.fails .pitch = if ¬ (within 1 4095 r.p && within 1 255 r.pmax) = true then some 255 else none :=
    (ite_not _ _ _).symm
  rw [hfails]
  refine (finds_single _ _).congr fun e => ?_
  rw [Bool.and_eq_true, within_iff, within_iff]
  simp [Recipe.atFault, and_assoc]

/-- A check reports its lowest entry at fault once the checks before it pass: the overlap checks presume the ranges. -/
theorem check_finds (hshape : r.shapeOk) (d : Detail) (hlow : ∀ c, c < d.num → ∀ f, ¬ r.atFault c f) :
    Finds (r.fails d) (r.atFault d.num) :=
  match d with
  | .headsRange => headsRange_finds r
  | .headOverlap => headOverlap_finds r (hlow 1 (by decide))
  | .laneRange => laneRange_finds r hshape
  | .laneOverlap => laneOverlap_finds r hshape (hlow 3 (by decide))
  | .laneCoverage => laneCoverage_finds r hshape
  | .profileRange => profileRange_finds r hshape
  | .patchRange => patchRange_finds r
  | .queueDepth => queueDepth_finds r
  | .markerRange => markerRange_finds r
  | .markerOffset => markerOffset_finds r hshape
  | .pitch => pitch_finds r

/-! ### The checks in their order -/

/-- Only the eleven checks put an entry at fault. -/
theorem atFault_detail {c e : Nat} (h : r.atFault c e) : ∃ d : Detail, d.num = c := by
  rcases h with ⟨rfl, -⟩ | ⟨rfl, -⟩ | ⟨rfl, -⟩ | ⟨rfl, -⟩ | ⟨rfl, -⟩ | ⟨rfl, -⟩ | ⟨rfl, -⟩ | ⟨rfl, -⟩ |
    ⟨rfl, -⟩ | ⟨rfl, -⟩ | ⟨rfl, -⟩
  exacts [⟨.headsRange, rfl⟩, ⟨.headOverlap, rfl⟩, ⟨.laneRange, rfl⟩, ⟨.laneOverlap, rfl⟩, ⟨.laneCoverage, rfl⟩,
    ⟨.profileRange, rfl⟩, ⟨.patchRange, rfl⟩, ⟨.queueDepth, rfl⟩, ⟨.markerRange, rfl⟩, ⟨.markerOffset, rfl⟩,
    ⟨.pitch, rfl⟩]

theorem mem_allDetails (d : Detail) : d ∈ allDetails := by cases d <;> decide

theorem allDetails_ascending : allDetails.Pairwise fun a b => a.num < b.num := by decide

theorem detail_num_injective : Function.Injective Detail.num := fun a b hab =>
  List.inj_on_of_nodup_map (by decide : (allDetails.map Detail.num).Nodup) (mem_allDetails a) (mem_allDetails b) hab

/-- The entry `e` is what COMMIT reports of the check `d`: the lowest at fault in it, every check before it passed. -/
def Recipe.reports (d : Detail) (e : Nat) : Prop :=
  r.atFault d.num e ∧ (∀ f, f < e → ¬ r.atFault d.num f) ∧ ∀ c, c < d.num → ∀ f, ¬ r.atFault c f

/-- Checks in ascending order, all the others passed: the first of them that fails is reported. -/
theorem findSome_reports (hshape : r.shapeOk) : ∀ (ds : List Detail), ds.Pairwise (fun a b => a.num < b.num) →
    (∀ c, (∀ d ∈ ds, d.num ≠ c) → ∀ f, ¬ r.atFault c f) → ∀ d e,
    ds.findSome? (fun d => (r.fails d).map fun e => (d, e)) = some (d, e) ↔ r.reports d e
  | [], _, hothers, d, e => by
    have hnone : ¬ r.reports d e := fun h => hothers d.num (fun _ h => absurd h List.not_mem_nil) e h.1
    simpa using hnone
  | a :: ds, hasc, hothers, d, e => by
    obtain ⟨hfirst, hasc'⟩ := List.pairwise_cons.mp hasc
    have hlow : ∀ c, c < a.num → ∀ f, ¬ r.atFault c f := fun c hc => hothers c fun b hb => by
      rcases List.mem_cons.mp hb with rfl | hb
      · exact hc.ne'
      · exact (hc.trans (hfirst b hb)).ne'
    have hfinds := check_finds r hshape a hlow
    cases ha : r.fails a with
    | none =>
      rw [List.findSome?_cons, ha]
      refine findSome_reports hshape ds hasc' (fun c hc f hbad => ?_) d e
      by_cases hca : a.num = c
      · exact hfinds.none_iff.mp ha f (hca ▸ hbad)
      · exact hothers c (List.forall_mem_cons.mpr ⟨hca, hc⟩) f hbad
    | some e₀ =>
      obtain ⟨hbad, hmin⟩ := (hfinds e₀).mp ha
      have hhead : (a :: ds).findSome? (fun d => (r.fails d).map fun e => (d, e)) = some (a, e₀) :=
        by rw [List.findSome?_cons, ha]; rfl
      rw [hhead, Option.some.injEq, Prod.mk.injEq]
      constructor
      · rintro ⟨rfl, rfl⟩
        exact ⟨hbad, hmin, hlow⟩
      · rintro ⟨hbad', hmin', hlow'⟩
        rcases lt_trichotomy a.num d.num with hlt | heq | hgt
        · exact absurd hbad (hlow' _ hlt e₀)
        · obtain rfl := detail_num_injective heq
          exact ⟨rfl, Option.some.inj (ha.symm.trans ((hfinds e).mpr ⟨hbad', hmin'⟩))⟩
        · exact absurd hbad' (hlow _ hgt e)

theorem firstFault_iff (hshape : r.shapeOk) (d : Detail) (e : Nat) : r.firstFault = some (d, e) ↔ r.reports d e :=
  findSome_reports r hshape allDetails allDetails_ascending (fun _ hc _ hbad => by
    obtain ⟨d, hd⟩ := atFault_detail r hbad
    exact hc d (mem_allDetails d) hd) d e

/-- An entry at fault in some check has an entry that is reported: the lowest of the first check with one. -/
theorem exists_reports {c e : Nat} (h : r.atFault c e) : ∃ d e, r.reports d e := by
  classical
  have hfaulty : ∃ c e, r.atFault c e := ⟨c, e, h⟩
  obtain ⟨d, hd⟩ := atFault_detail r (Nat.find_spec hfaulty).choose_spec
  have hentry : ∃ e, r.atFault d.num e := hd ▸ Nat.find_spec hfaulty
  refine ⟨d, Nat.find hentry, Nat.find_spec hentry, fun f hf => Nat.find_min hentry hf, fun c hc f hbad => ?_⟩
  exact Nat.find_min hfaulty (hd ▸ hc) ⟨f, hbad⟩

theorem valid_iff (hshape : r.shapeOk) : r.valid = true ↔ ∀ c f, ¬ r.atFault c f := by
  rw [Recipe.valid, Option.isNone_iff_eq_none]
  constructor
  · intro hnone c f hbad
    obtain ⟨d, e, hreports⟩ := exists_reports r hbad
    rw [(firstFault_iff r hshape d e).mpr hreports] at hnone
    cases hnone
  · intro hno
    rw [Option.eq_none_iff_forall_ne_some]
    exact fun ⟨d, e⟩ hfault => hno _ _ ((firstFault_iff r hshape d e).mp hfault).1

end

/-- Settles O38: each check finds its lowest entry at fault, and they stand in order. -/
theorem commitChecks : Obligations.CommitChecks :=
  fun r hshape => ⟨firstFault_iff r hshape, valid_iff r hshape⟩

end Sys2Proof.Machine
end

section
/-! SUPPORT. The completion of a stop (R34, R111, R131, R171, O31). -/

namespace Sys2Proof.Machine

/-! ### The open entries of a table -/

theorem slotsWhere_length {α : Type} (p : α → Bool) (t : List (Option α)) : (slotsWhere p t).length ≤ t.length := by
  unfold slotsWhere
  exact (List.length_filterMap_le _ _).trans (by simp)

theorem entryAt_getElem? {α : Type} {t : List (Option α)} {i : Nat} {o : Option α} (h : t[i]? = some o) :
    entryAt t i = o := by
  rw [entryAt, List.getD_eq_getElem?_getD, h]; rfl

/-- The entries counted by their slots, and in the table. -/
theorem slotsWhere_countP {α : Type} (p : α → Bool) (t : List (Option α)) :
    (slotsWhere (fun _ => true) t).countP (fun i => (entryAt t i).any p) = t.countP fun o => o.any p := by
  rw [slotsWhere, List.countP_filterMap]
  calc _ = t.zipIdx.countP fun x => x.1.any p := List.countP_congr fun x hx => by
        obtain ⟨o, i⟩ := x
        have hentry := entryAt_getElem? (List.mk_mem_zipIdx_iff_getElem?.mp hx)
        cases o <;> simp [hentry]
    _ = (t.zipIdx.map Prod.fst).countP fun o => o.any p := by rw [List.countP_map]; rfl
    _ = t.countP fun o => o.any p := by rw [List.zipIdx_map_fst]

/-- A table whose open slots all end empty is empty. -/
theorem allSlots_empty {α : Type} {t u : List (Option α)} {order : List Nat}
    (horder : order.Perm (slotsWhere (fun _ => true) t))
    (hclosed : ∀ i ∈ order, ∀ a, t[i]? = some (some a) → u[i]? = some none)
    (hother : ∀ i, i ∉ order → u[i]? = t[i]?) : ∀ o ∈ u, o = none := by
  intro o ho
  obtain ⟨i, hi⟩ := List.mem_iff_getElem?.mp ho
  by_cases hmem : i ∈ order
  · obtain ⟨a, ha, -⟩ := (mem_slotsWhere _ _ _).mp (horder.mem_iff.mp hmem)
    rw [hclosed i hmem a ha] at hi
    exact (Option.some.inj hi).symm
  · rw [hother i hmem] at hi
    cases o with
    | none => rfl
    | some a => exact absurd (horder.mem_iff.mpr ((mem_slotsWhere _ _ _).mpr ⟨a, hi, rfl⟩)) hmem

/-! ### The closes of a stop, one kind after the other -/

/-- Every open streak closes with its record, and the table ends empty (R131, R133). -/
theorem closeStreaks_every (reason : CloseReason) (w : Nat) (s : State) : ∃ u xs,
    closeStreaks s.streakSlots reason w s = u ∧ u.list = s.list.pushAll xs ∧ xs.length ≤ s.eng.work.streaks.length ∧
    (∀ st, some st ∈ s.eng.work.streaks → (w, st.closeBody reason 0) ∈ xs) ∧ (∀ o ∈ u.eng.work.streaks, o = none) ∧
    u.eng.work.cands = s.eng.work.cands ∧ u.eng.work.tally = s.eng.work.tally ∧ u.eng.contribs = s.eng.contribs := by
  have hperm := streakAgeOrder_perm s.list.next s.eng.work.streaks s.streakSlots
  obtain ⟨u, xs, hu, hlist, -, hsize, hclosed, hother, -, -, heng, -⟩ :=
    closeStreak_fold reason w _ s (hperm.nodup_iff.mpr (slotsWhere_nodup _ _))
  refine ⟨u, xs, hu, hlist, ?_, fun st hst => ?_, ?_, by rw [heng], by rw [heng], by rw [heng]⟩
  · exact hsize.trans (hperm.length_eq ▸ slotsWhere_length _ _)
  · obtain ⟨i, hi⟩ := List.mem_iff_getElem?.mp hst
    exact (hclosed i (hperm.mem_iff.mpr ((mem_slotsWhere _ _ _).mpr ⟨st, hi, rfl⟩)) st hi).1
  · exact allSlots_empty hperm (fun i hi st hst => (hclosed i hi st hst).2) hother

/-- Every open candidate closes with its record, counted for its patch, and the table ends empty (R32, R111). -/
theorem closeCands_every (markers : Marker → MarkerFields) (how : PinEnd) (s : State) : ∃ u xs cs,
    closeCands markers how s.candSlots s = u ∧ u.list = s.list.pushAll xs ∧ xs.length ≤ 2 * s.eng.work.cands.length ∧
    (∀ k, some k ∈ s.eng.work.cands → (k.firstW, k.closeBody how) ∈ xs) ∧ (∀ o ∈ u.eng.work.cands, o = none) ∧
    u.eng.work.streaks = s.eng.work.streaks ∧ u.eng.work.tally = s.eng.work.tally ∧
    u.eng.contribs = s.eng.contribs ++ cs ∧
    (∀ p, cs.countP (· == .pinhole p) = s.eng.work.cands.countP fun o => o.any fun k => k.patch == p) ∧
    (∀ p, .streakOpen p ∉ cs) ∧
    ((∀ k, some k ∈ s.eng.work.cands → k.target = none) → ∀ p, .lateMark p ∉ cs) := by
  have hperm := candAgeOrder_perm s.eng.work.cands s.candSlots
  obtain ⟨u, xs, cs, hu, hlist, -, hsize, hclosed, hother, -, hwork, hcontribs, hpinholes, hopens, hlate⟩ :=
    closeCand_fold markers how _ s (hperm.nodup_iff.mpr (slotsWhere_nodup _ _))
  refine ⟨u, xs, cs, hu, hlist, ?_, fun k hk => ?_, ?_, by rw [hwork], by rw [hwork], hcontribs, fun p => ?_, hopens,
    fun hnone => hlate fun _ _ k hk => hnone k (List.mem_of_getElem? hk)⟩
  · exact hsize.trans (Nat.mul_le_mul_left _ (hperm.length_eq ▸ slotsWhere_length _ _))
  · obtain ⟨i, hi⟩ := List.mem_iff_getElem?.mp hk
    exact (hclosed i (hperm.mem_iff.mpr ((mem_slotsWhere _ _ _).mpr ⟨k, hi, rfl⟩)) k hi).1
  · exact allSlots_empty hperm (fun i hi k hk => (hclosed i hi k hk).2) hother
  · rw [hpinholes p, hperm.countP_eq]; exact slotsWhere_countP _ _

/-- The PATCH record of a tally cut by a stop, with what the stop contributed entered first (R33, R34). -/
def Tally.cutBody (y : Tally) (cs : List Contribution) : RecordBody :=
  ({ y.addAll cs with cut := true } : Tally).closeBody

/-- An open tally closes with its record (R34). -/
theorem cutTally_closes (s : State) : ∃ xs, (cutTally s).list = s.list.pushAll xs ∧ xs.length ≤ 1 ∧
    (cutTally s).eng.work = { s.eng.work with tally := none } ∧
    ∀ y, s.eng.work.tally = some y → (y.firstW, y.cutBody s.eng.contribs) ∈ xs := by
  unfold cutTally; dsimp only
  split
  next hnone => exact ⟨[], rfl, by simp, by rw [← hnone], fun y hy => by rw [hnone] at hy; cases hy⟩
  next y hy =>
    have hfirst : (y.addAll s.eng.contribs).firstW = y.firstW := by rw [(addAll_eq _ y).1]
    refine ⟨[(y.firstW, y.cutBody s.eng.contribs)], by rw [pushAll_one, ← hfirst]; rfl, by simp, rfl, fun z hz => ?_⟩
    rw [hy] at hz; cases hz
    exact List.mem_singleton.mpr rfl

/-- What the record of a cut tally says, when no streak opened in between (R32, R33). -/
theorem cutBody_eq (y : Tally) {cs : List Contribution} (hy : y.pinholes ≤ 65535)
    (hopens : ∀ p, Contribution.streakOpen p ∉ cs) : y.cutBody cs = .patch
      { num := y.num, lastW := y.lastW, s := y.s, err := y.err, streakOpens := y.streakOpens, skipped := y.skipped
        pinholes := min (y.pinholes + cs.countP (· == .pinhole y.num)) 65535
        lateMarks := (y.addAll cs).lateMarks, kind := y.kind, short := y.short, cut := true } := by
  obtain ⟨hfields, hpinholes, hstreaks, -⟩ := addAll_eq cs y
  rw [← hpinholes hy, ← hstreaks hopens, Tally.cutBody]
  generalize y.addAll cs = z at *
  rw [hfields]; rfl

/-! ### The closes of a stop together -/

/-- The closes of a stop: the records appended, and tables and tally empty (R34, R111, R131). -/
structure StopClosed (s v : State) (xs : List (Nat × RecordBody)) (cs : List Contribution) : Prop where
  list : v.list = s.list.pushAll xs
  size : xs.length ≤ s.eng.work.streaks.length + 2 * s.eng.work.cands.length + 1
  streaks : ∀ st, some st ∈ s.eng.work.streaks → (s.stopW, st.closeBody .disarm 0) ∈ xs
  cands : ∀ k, some k ∈ s.eng.work.cands → (k.firstW, k.closeBody .cut) ∈ xs
  tally : ∀ y, s.eng.work.tally = some y → (y.firstW, y.cutBody cs) ∈ xs
  pinholes : ∀ p, cs.countP (· == .pinhole p) = s.eng.work.cands.countP fun o => o.any fun k => k.patch == p
  opens : ∀ p, .streakOpen p ∉ cs
  late : (∀ k, some k ∈ s.eng.work.cands → k.target = none) → ∀ p, .lateMark p ∉ cs
  noStreak : ∀ o ∈ v.eng.work.streaks, o = none
  noCand : ∀ o ∈ v.eng.work.cands, o = none
  noLatch : v.eng.work.streakLatch = false ∧ v.eng.work.candLatch = false
  noTally : v.eng.work.tally = none

theorem stopCloses_closed (s : State) : ∃ xs cs, StopClosed s (stopCloses s) xs cs := by
  obtain ⟨u, xs, hu, hulist, husize, hustreaks, hunone, hucands, hutally, hucontribs⟩ :=
    closeStreaks_every .disarm s.stopW { s with eng := { s.eng with contribs := [] } }
  obtain ⟨v, ys, cs, hv, hvlist, hvsize, hvcands, hvnone, hvstreaks, hvtally, hvcontribs, hpinholes, hopens, hlate⟩ :=
    closeCands_every s.stopMarkers .cut u
  obtain ⟨zs, hzlist, hzsize, hzwork, hztally⟩ := cutTally_closes v
  have hstop : stopCloses s = (cutTally v).withWork
      { (cutTally v).eng.work with streakLatch := false, candLatch := false } := by
    unfold stopCloses
    have hslots : ({ s with eng := { s.eng with contribs := [] } } : State).streakSlots = s.streakSlots := rfl
    rw [hslots] at hu
    dsimp only
    rw [hu, hv]
  have hcs : v.eng.contribs = cs := by rw [hvcontribs, hucontribs]; rfl
  rw [hucands] at hvcands hvsize hpinholes hlate
  rw [hvtally, hutally, hcs] at hztally
  refine ⟨xs ++ ys ++ zs, cs, ?_⟩
  rw [hstop]
  constructor
  case list =>
    rw [pushAll_append, pushAll_append, ← hulist, ← hvlist]; exact hzlist
  case size =>
    simp only [List.length_append]
    dsimp only at husize hvsize
    omega
  case streaks => exact fun st hst => List.mem_append_left _ (List.mem_append_left _ (hustreaks st hst))
  case cands => exact fun k hk => List.mem_append_left _ (List.mem_append_right _ (hvcands k hk))
  case tally => exact fun y hy => List.mem_append_right _ (hztally y hy)
  case pinholes => exact hpinholes
  case opens => exact hopens
  case late => exact hlate
  case noStreak =>
    show ∀ o ∈ (cutTally v).eng.work.streaks, o = none
    rw [hzwork, hvstreaks]; exact hunone
  case noCand =>
    show ∀ o ∈ (cutTally v).eng.work.cands, o = none
    rw [hzwork]; exact hvnone
  case noLatch => exact ⟨rfl, rfl⟩
  case noTally =>
    show (cutTally v).eng.work.tally = none
    rw [hzwork]

/-! ### The stop completed -/

/-- The machine as a stop ends in IDLE, before the swap point (R171). -/
def State.stopEnded (v : State) : State :=
  { appendEvent .disarmed v.rcp.stopBy { v with
      eng := { v.eng with pub := v.eng.work }, trk := v.trk.stopped } with
    rcp := { v.rcp with run := .idle } }

theorem completeStop_eq (s : State) : completeStop s = swapPoint (stopCloses s).stopEnded := rfl

/-- IDLE entered: at most a RECIPE_SWAP is appended, and a waiting copy becomes active (R167). -/
theorem swapPoint_inIdle {s : State} (hrun : s.rcp.run = .idle) : ∃ xs, (swapPoint s).list = s.list.pushAll xs ∧
    xs.length ≤ 1 ∧ (swapPoint s).eng = s.eng ∧ (swapPoint s).trk = s.trk ∧ (swapPoint s).links = s.links ∧
    (s.rcp.pending = none → swapPoint s = s) ∧
    ∀ c, s.rcp.pending = some c → s.rcp.retiring = none →
      xs = [(s.pos.w, .event .recipeSwap (swapArgument s.rcp.active c.copy c.port))] ∧
      (swapPoint s).rcp.active = c.copy ∧ (swapPoint s).rcp.pending = none ∧
      (swapPoint s).trig = { s.trig with t := s.trig.lastTrigger + c.copy.p } := by
  by_cases hwait : s.swapWaits = true
  · obtain ⟨⟨c, hc⟩, hretiring⟩ := swapWaits_iff.mp hwait
    rw [swapPoint, if_pos hwait, takeSwap_some hc, if_neg (by simp [hrun])]
    refine ⟨[(s.pos.w, .event .recipeSwap (swapArgument s.rcp.active c.copy c.port))], rfl, by simp, rfl, rfl, rfl,
      fun hnone => ?_, fun d hd _ => ?_⟩
    · rw [hnone] at hc; cases hc
    · rw [hd] at hc; cases hc
      exact ⟨rfl, rfl, rfl, rfl⟩
  · rw [swapPoint, if_neg hwait]
    exact ⟨[], rfl, by simp, rfl, rfl, rfl, fun _ => rfl,
      fun c hc hretiring => absurd (swapWaits_iff.mpr ⟨⟨c, hc⟩, hretiring⟩) hwait⟩

/-- The W of a close by a stop: the last line taken in the run, or the present position when none was (R133). -/
theorem stopW_eq (s : State) : (s.eng.kept = none → s.stopW = s.pos.w) ∧
    ∀ k x, s.eng.kept = some k → s.eng.lastLine = some x → s.stopW = x.2 :=
  ⟨fun h => by simp [State.stopW, h], fun k x hk hx => by simp [State.stopW, hk, hx]⟩

/-- Settles O31: the closes, the run state and the swap point. -/
theorem stopCompletes : Obligations.StopCompletes := by
  intro s hrun hwork hstreaks hcands hsize
  have hexec : exec .stopComplete s = .next (completeStop s) := by
    show execStopComplete s = _
    rw [execStopComplete, if_pos ⟨hrun, by rw [slotInWork_none.mpr hwork]; rfl⟩]
  refine ⟨completeStop s, hexec, ?_⟩
  obtain ⟨xs, cs, hclosed⟩ := stopCloses_closed s
  have hframe := stopCloses_work s
  rw [completeStop_eq]
  generalize stopCloses s = v at *
  have hidle : v.stopEnded.rcp.run = .idle := rfl
  obtain ⟨ys, hlist, hys, heng, htrk, hlinks, hnone, hswap⟩ := swapPoint_inIdle hidle
  have hpos : (swapPoint v.stopEnded).pos = s.pos := (swapPoint_web _).pos.trans hframe.pos
  have hall : (swapPoint v.stopEnded).list =
      s.list.pushAll (xs ++ (v.pos.w, .event .disarmed v.rcp.stopBy) :: ys) := by
    rw [hlist, pushAll_append, ← hclosed.list]; rfl
  have hkept : ∀ w b, (w, b) ∈ xs → ∃ q ∈ (swapPoint v.stopEnded).list.records, q.w = w ∧ q.body = b := by
    intro w b hb
    rw [hall]
    refine pushAll_retained _ _ ?_ _ (List.mem_append_left _ hb)
    have hxs := hclosed.size
    simp only [List.length_append, List.length_cons]
    omega
  refine ⟨(swapPoint_run _).trans hidle, ?_, ?_, ?_, ?_, ?_, ?_, fun st hst => ?_, fun k hk => ?_, fun y hy hy' => ?_, ?_,
    hpos, hlinks.trans hframe.links, fun hpending => ?_, fun c hc hretiring => ?_⟩
  · rw [heng]; exact hclosed.noStreak
  · rw [heng]; exact hclosed.noCand
  · rw [heng]; exact hclosed.noLatch.1
  · rw [heng]; exact hclosed.noLatch.2
  · rw [heng]; exact hclosed.noTally
  · rw [heng]; rfl
  · obtain ⟨q, hq, hw, hbody⟩ := hkept _ _ (hclosed.streaks st hst)
    obtain ⟨hfirst, hlast⟩ := stopW_eq s
    exact ⟨q, hq, hbody, fun h => hw.trans (hfirst h), fun k x hk hx => hw.trans (hlast k x hk hx)⟩
  · exact hkept _ _ (hclosed.cands k hk)
  · obtain ⟨q, hq, hw, hbody⟩ := hkept _ _ (hclosed.tally y hy)
    rw [cutBody_eq y hy' hclosed.opens, hclosed.pinholes] at hbody
    exact ⟨q, hq, _, hw, hbody, fun htarget => (addAll_eq cs y).2.2.2 (hclosed.late htarget)⟩
  · rw [htrk]; show v.trk.stopped = _; rw [hframe.trk]; rfl
  · rw [hnone (by rw [← hpending, ← hframe.rcp]; rfl)]
    refine ⟨?_, by rw [← hframe.rcp]; rfl, hframe.trig⟩
    rw [← hframe.pos, ← hframe.rcp]
    exact ⟨_, push_getLast _ _ _⟩
  · have hactive : v.rcp.active = s.rcp.active := by rw [hframe.rcp]
    obtain ⟨rfl, hnow, hnot, hpitch⟩ := hswap c (by rw [← hc, ← hframe.rcp]; rfl) (by rw [← hretiring, ← hframe.rcp]; rfl)
    refine ⟨hnow, hnot, hpitch.trans ?_, ?_⟩
    · rw [← hframe.trig]; rfl
    · rw [hlist, pushAll_one, ← hframe.pos, ← hactive, ← swapArgument_eq]
      exact ⟨_, push_getLast _ _ _⟩

end Sys2Proof.Machine
end

section
/-! SUPPORT. The queue of waiting commands (O1), and the events of a head link at the other links (O15). -/

namespace Sys2Proof.Machine

/-- Settles O1: the two branches of `step`, the empty queue with no slot IN_WORK. -/
theorem stepRunsFront : Obligations.StepRunsFront := by
  refine fun s => ⟨fun c rest hpending => ?_, fun hpending hidle => ?_⟩
  · simp only [step, hpending]
  · simp only [step, hpending, idle, slotInWork_none.mpr hidle]

/-! ### The events of a link (R36, R41) -/

theorem carrierGained_work (h : HeadNo) {s t : State} (ht : exec (.carrierGained h) s = .next t) : LinkWork h s t := by
  cases ht
  dsimp only
  split
  · exact .withLink h s _ ⟨.same _, .same _, .same _⟩
  · exact .same h s

theorem carrierLost_work (h : HeadNo) (bytes : List Byte) {s t : State}
    (ht : exec (.carrierLost h bytes) s = .next t) : LinkWork h s t := by
  have hb := headBytes_work h bytes s
  have hdrop := hb.trans (.withLink h _ _ (dropped_ups _))
  cases ht
  dsimp only
  split
  · exact hb
  · exact hdrop
  · exact hdrop.trans (headLost_work _ _ _)

/-- Settles O15: each of the four events is work at its own link. -/
theorem linksIndependent : Obligations.LinksIndependent := by
  intro h k bytes c s t hc ht hk
  have hwork : LinkWork h s t := by
    simp only [List.mem_cons, List.not_mem_nil, or_false] at hc
    rcases hc with rfl | rfl | rfl | rfl
    · exact carrierGained_work h ht
    · exact carrierLost_work h bytes ht
    · cases ht; exact headBytes_work h _ s
    · cases ht; exact headBytes_work h _ s
  exact hwork.links k hk

end Sys2Proof.Machine
end

section
/-! SUPPORT. The diagnostic counters (R14, R30, R49, R66, R115, R136, R159, R175, O60), block by block: every step but a
power-on reset moves each of them up alone, within its 16 bits. -/

namespace Sys2Proof.Machine

/-! ### The counters of each block -/

/-- The position counter's counters have moved up alone. -/
structure PositionUps (x y : PositionCounter) : Prop where
  illegal : Up x.illegal y.illegal := by exact .same _
  limitDiscards : Up x.limitDiscards y.limitDiscards := by exact .same _
  reverseDiscards : Up x.reverseDiscards y.reverseDiscards := by exact .same _

/-- The tracker's counters have moved up alone. -/
structure TrackerUps (k l : Tracker) : Prop where
  spurious : Up k.spurious l.spurious := by exact .same _
  backlogEdges : Up k.backlogEdges l.backlogEdges := by exact .same _
  marksMissed : Up k.marksMissed l.marksMissed := by exact .same _
  startsDropped : Up k.startsDropped l.startsDropped := by exact .same _

/-- The assembler's counters have moved up alone. -/
structure AssemblerUps (a b : Assembler) : Prop where
  late : ∀ h, Up (a.late.get h) (b.late.get h) := by exact fun _ => .same _
  duplicate : ∀ h, Up (a.duplicate.get h) (b.duplicate.get h) := by exact fun _ => .same _
  short : ∀ h, Up (a.short.get h) (b.short.get h) := by exact fun _ => .same _
  illum : ∀ h, Up (a.illum.get h) (b.illum.get h) := by exact fun _ => .same _
  forced : Up a.forced b.forced := by exact .same _

/-- A port's counters have moved up alone. -/
structure PortUps (x y : Port) : Prop where
  badFrames : Up x.badFrames y.badFrames := by exact .same _
  aborted : Up x.aborted y.aborted := by exact .same _
  inactivity : Up x.inactivity y.inactivity := by exact .same _
  overruns : Up x.overruns y.overruns := by exact .same _

/-- Every diagnostic counter has moved up alone. -/
structure CountersUp (s t : State) : Prop where
  pos : PositionUps s.pos t.pos := by exact {}
  linesSkipped : Up s.trig.linesSkipped t.trig.linesSkipped := by exact .same _
  trk : TrackerUps s.trk t.trk := by exact {}
  links : ∀ h, LinkUps (s.links.get h) (t.links.get h) := by exact fun _ => .same _
  asm : AssemblerUps s.asm t.asm := by exact {}
  splits : Up s.eng.work.splits t.eng.work.splits := by exact .same _
  refusals : Up s.eng.work.refusals t.eng.work.refusals := by exact .same _
  mark : MarkUps s.mark t.mark := by exact .same _
  ports : ∀ p, PortUps (s.ports.get p) (t.ports.get p) := by exact fun _ => {}

theorem PositionUps.trans {x y z : PositionCounter} (h : PositionUps x y) (k : PositionUps y z) : PositionUps x z :=
  ⟨h.illegal.trans k.illegal, h.limitDiscards.trans k.limitDiscards, h.reverseDiscards.trans k.reverseDiscards⟩

theorem TrackerUps.trans {k l m : Tracker} (h : TrackerUps k l) (i : TrackerUps l m) : TrackerUps k m :=
  ⟨h.spurious.trans i.spurious, h.backlogEdges.trans i.backlogEdges, h.marksMissed.trans i.marksMissed,
    h.startsDropped.trans i.startsDropped⟩

theorem AssemblerUps.trans {a b c : Assembler} (h : AssemblerUps a b) (k : AssemblerUps b c) : AssemblerUps a c :=
  ⟨fun i => (h.late i).trans (k.late i), fun i => (h.duplicate i).trans (k.duplicate i),
    fun i => (h.short i).trans (k.short i), fun i => (h.illum i).trans (k.illum i), h.forced.trans k.forced⟩

theorem PortUps.trans {x y z : Port} (h : PortUps x y) (k : PortUps y z) : PortUps x z :=
  ⟨h.badFrames.trans k.badFrames, h.aborted.trans k.aborted, h.inactivity.trans k.inactivity,
    h.overruns.trans k.overruns⟩

theorem CountersUp.same (s : State) : CountersUp s s := {}

theorem CountersUp.trans {s t u : State} (h : CountersUp s t) (k : CountersUp t u) : CountersUp s u :=
  ⟨h.pos.trans k.pos, h.linesSkipped.trans k.linesSkipped, h.trk.trans k.trk, fun i => (h.links i).trans (k.links i),
    h.asm.trans k.asm, h.splits.trans k.splits, h.refusals.trans k.refusals, h.mark.trans k.mark,
    fun p => (h.ports p).trans (k.ports p)⟩

/-! ### The counters as one list -/

theorem forall₂_quad {α β : Type} {R : α → β → Prop} {v : Quad α} {w : Quad β}
    (h : ∀ i, R (v.get i) (w.get i)) : List.Forall₂ R v.toList w.toList :=
  .cons (h 0) (.cons (h 1) (.cons (h 2) (.cons (h 3) .nil)))

theorem forall₂_triple {α β : Type} {R : α → β → Prop} {v : Triple α} {w : Triple β}
    (h : ∀ i, R (v.get i) (w.get i)) : List.Forall₂ R v.toList w.toList :=
  .cons (h 0) (.cons (h 1) (.cons (h 2) .nil))

theorem CountersUp.forall₂ {s t : State} (h : CountersUp s t) : List.Forall₂ Up s.counters t.counters := by
  have hlinks : List.Forall₂ Up (s.links.toList.flatMap fun k => [k.aborted, k.badFrames, k.idMismatches])
      (t.links.toList.flatMap fun k => [k.aborted, k.badFrames, k.idMismatches]) :=
    List.rel_flatMap (forall₂_quad h.links) fun _ _ k => .cons k.aborted (.cons k.bad (.cons k.ids .nil))
  have hports : List.Forall₂ Up
      (s.ports.toList.flatMap fun x => [x.badFrames, x.aborted, x.inactivity, x.overruns])
      (t.ports.toList.flatMap fun x => [x.badFrames, x.aborted, x.inactivity, x.overruns]) :=
    List.rel_flatMap (forall₂_triple h.ports) fun _ _ k =>
      .cons k.badFrames (.cons k.aborted (.cons k.inactivity (.cons k.overruns .nil)))
  have hposition : List.Forall₂ Up
      [s.pos.illegal, s.pos.limitDiscards, s.pos.reverseDiscards, s.trig.linesSkipped]
      [t.pos.illegal, t.pos.limitDiscards, t.pos.reverseDiscards, t.trig.linesSkipped] :=
    .cons h.pos.illegal (.cons h.pos.limitDiscards (.cons h.pos.reverseDiscards (.cons h.linesSkipped .nil)))
  have htracker : List.Forall₂ Up
      [s.trk.spurious, s.trk.backlogEdges, s.trk.marksMissed, s.trk.startsDropped]
      [t.trk.spurious, t.trk.backlogEdges, t.trk.marksMissed, t.trk.startsDropped] :=
    .cons h.trk.spurious (.cons h.trk.backlogEdges (.cons h.trk.marksMissed (.cons h.trk.startsDropped .nil)))
  have hmarks : List.Forall₂ Up [s.mark.merges, s.mark.late, s.mark.dropped, s.mark.discarded]
      [t.mark.merges, t.mark.late, t.mark.dropped, t.mark.discarded] :=
    .cons h.mark.merges (.cons h.mark.late (.cons h.mark.dropped (.cons h.mark.discarded .nil)))
  have hasm := h.asm
  exact List.rel_append (List.rel_append (List.rel_append (List.rel_append (List.rel_append (List.rel_append
    (List.rel_append (List.rel_append (List.rel_append (List.rel_append hposition htracker) hlinks)
      (forall₂_quad hasm.late)) (forall₂_quad hasm.duplicate)) (forall₂_quad hasm.short))
      (forall₂_quad hasm.illum)) (.cons hasm.forced .nil)) (.cons h.splits (.cons h.refusals .nil))) hmarks)
    hports

/-- Counts of 16 bits that move up alone stay within them, and none falls. -/
theorem forall₂_up {xs ys : List Nat} (h : List.Forall₂ Up xs ys) (hxs : ∀ n ∈ xs, n ≤ 65535) :
    (∀ n ∈ ys, n ≤ 65535) ∧ List.Forall₂ (· ≤ ·) xs ys := by
  induction h with
  | nil => exact ⟨nofun, .nil⟩
  | cons hup _ ih =>
    obtain ⟨hx, hrest⟩ := List.forall_mem_cons.mp hxs
    obtain ⟨hle, hy⟩ := hup hx
    obtain ⟨hys, hles⟩ := ih hrest
    exact ⟨List.forall_mem_cons.mpr ⟨hy, hys⟩, .cons hle hles⟩

/-! ### Appends, link events and the engine's work -/

theorem Appends.portUps {s t : State} (h : Appends s t) (p : PortNo) : PortUps (s.ports.get p) (t.ports.get p) := by
  rw [h.port p]; exact {}

theorem LinkWork.countersUp {h : HeadNo} {s t : State} (k : LinkWork h s t) : CountersUp s t where
  pos := by rw [k.pos]; exact {}
  linesSkipped := by rw [k.trig]; exact .same _
  trk := by rw [k.trk]; exact {}
  links i := by
    by_cases hi : i = h
    · rw [hi]; exact k.ups
    · rw [k.links i hi]; exact .same _
  asm := ⟨k.late, k.duplicate, k.short, k.illum, by rw [k.forced]; exact .same _⟩
  splits := by rw [k.work]; exact .same _
  refusals := by rw [k.work]; exact .same _
  mark := by rw [k.mark]; exact .same _
  ports := k.appends.portUps

theorem EngineWork.countersUp {s t : State} (h : EngineWork s t) : CountersUp s t where
  pos := by rw [h.pos]; exact {}
  linesSkipped := by rw [h.trig]; exact .same _
  trk := by rw [h.trk]; exact {}
  links i := by rw [h.links]; exact .same _
  asm := by rw [h.asm]; exact {}
  splits := h.splits
  refusals := h.refusals
  mark := h.ups
  ports := h.appends.portUps

/-! ### The tracker, the trigger and the assembler at a count (chapters 1 and 2) -/

/-- The counters of the trigger generator, the tracker and the assembler have moved up alone. -/
structure WebUps (s t : State) : Prop where
  linesSkipped : Up s.trig.linesSkipped t.trig.linesSkipped := by exact .same _
  trk : TrackerUps s.trk t.trk := by exact {}
  asm : AssemblerUps s.asm t.asm := by exact {}

theorem WebUps.same (s : State) : WebUps s s := {}

theorem WebUps.trans {s t u : State} (h : WebUps s t) (k : WebUps t u) : WebUps s u :=
  ⟨h.linesSkipped.trans k.linesSkipped, h.trk.trans k.trk, h.asm.trans k.asm⟩

theorem WebWork.countersUp {s t : State} (h : WebWork s t) (k : WebUps s t) : CountersUp s t where
  pos := by rw [h.pos]; exact {}
  linesSkipped := k.linesSkipped
  trk := k.trk
  links i := by rw [h.links]; exact .same _
  asm := k.asm
  splits := by rw [h.eng]; exact .same _
  refusals := by rw [h.eng]; exact .same _
  mark := by rw [h.mark]; exact .same _
  ports := h.appends.portUps

/-- Work on the tracker alone. -/
theorem TrackerWork.webUps {s t : State} (h : TrackerWork s t) (k : TrackerUps s.trk t.trk) : WebUps s t := by
  unfold TrackerWork at h
  exact ⟨by rw [h]; exact .same _, k, by rw [h]; exact {}⟩

theorem pushStart_trackerUps (pos : Nat) (err : Int) (kind : StartKind) (s : State) :
    TrackerUps s.trk (pushStart pos err kind s).trk := by
  unfold pushStart
  dsimp only
  split
  · exact { startsDropped := .bump _ }
  · split
    · exact {}
    · exact { startsDropped := .bump _ }

theorem popStarts_trackerUps (n : Nat) : ∀ s, TrackerUps s.trk (popStarts n s).trk := by
  induction n with
  | zero => exact fun s => {}
  | succ n ih =>
    intro s
    unfold popStarts
    split
    · exact {}
    · rename_i e rest _
      split
      · exact TrackerUps.trans (l := (popStart e rest s).trk) {} (ih _)
      · exact {}

theorem popWork_trackerUps (s : State) : TrackerUps s.trk (popWork s).trk := by
  unfold popWork
  split
  · exact popStarts_trackerUps _ s
  · exact {}

theorem missMark_trackerUps (s : State) : TrackerUps s.trk (missMark s).trk := by
  have hmissed : TrackerUps s.trk s.trk.missed := { marksMissed := .bump _ }
  rcases Nat.lt_or_ge s.trk.misses s.rcp.active.patch.f with h | h
  · rw [missMark_bridged h]
    exact (hmissed.trans (l := s.trk.missed) (m := s.bridged.trk) {}).trans (pushStart_trackerUps _ _ _ _)
  · rw [missMark_lost h]
    exact hmissed.trans {}

theorem missMarks_trackerUps (n : Nat) : ∀ s, TrackerUps s.trk (missMarks n s).trk := by
  induction n with
  | zero => exact fun s => {}
  | succ n ih =>
    intro s
    unfold missMarks
    split
    · exact (missMark_trackerUps s).trans (ih _)
    · exact {}

theorem takeEdge_trackerUps (s : State) : TrackerUps s.trk (takeEdge s).trk := by
  have hpushPop : ∀ pos err kind (u : State), TrackerUps s.trk u.trk →
      TrackerUps s.trk (popWork (pushStart pos err kind u)).trk :=
    fun pos err kind u hu => (hu.trans (pushStart_trackerUps pos err kind u)).trans (popWork_trackerUps _)
  have hacquire : TrackerUps s.trk (acquire s).trk := by
    unfold acquire
    dsimp only
    split
    · exact hpushPop _ _ _ _ {}
    · exact { startsDropped := .bump _ }
  have hedge : TrackerUps s.trk (edgeInTrack s).trk := by
    unfold edgeInTrack
    dsimp only
    split
    · exact { spurious := .bump _ }
    · exact hpushPop _ _ _ _ {}
  unfold takeEdge
  split
  · exact {}
  · cases s.trk.mode
    case off | continuous => exact {}
    case seek | lost => dsimp only; split; exacts [{ backlogEdges := .bump _ }, hacquire]
    case track => dsimp only; split; exacts [{ backlogEdges := .bump _ }, hedge]

/-- The starts that an adoption discards are counted (R29). -/
theorem adopt_trackerUps (f : PatchFields) (k : Tracker) : TrackerUps k (k.adopt f) := by
  unfold Tracker.adopt
  cases k.mode
  case off => exact {}
  case continuous => dsimp only; split <;> exact {}
  case seek | lost => dsimp only; split; exacts [{ startsDropped := .bumpBy _ _ }, {}]
  case track => dsimp only; split; exacts [{ startsDropped := .bumpBy _ _ }, {}]

theorem takeSwap_webUps (s : State) : WebUps s (takeSwap s) := by
  cases hp : s.rcp.pending with
  | none => simp only [takeSwap, hp]; exact .same s
  | some c =>
    rw [takeSwap_some hp]
    refine { trk := ?_ }
    show TrackerUps s.trk (if s.rcp.run = .armed then s.trk.adopt c.copy.patch else s.trk)
    split
    · exact adopt_trackerUps _ _
    · exact {}

theorem swapPoint_webUps (s : State) : WebUps s (swapPoint s) := by
  unfold swapPoint
  split
  · exact (takeSwap_webUps s).trans {}
  · exact .same s

theorem forceSlots_webUps (s : State) : WebUps s (forceSlots s) := { asm := { forced := .bumpBy _ _ } }

theorem openLine_webUps (i : Fin 4) (s : State) : WebUps s (openLine i s) := by
  rw [openLine_eq]; exact {}

theorem takeTrigger_webUps (s : State) : WebUps s (takeTrigger s) := by
  have hswap : WebUps s (if s.triggerSwaps then takeSwap s else s) := by
    split
    · exact takeSwap_webUps s
    · exact .same s
  unfold takeTrigger
  dsimp only
  generalize (if s.triggerSwaps then takeSwap s else s) = u at hswap
  refine (hswap.trans (forceSlots_webUps u)).trans ?_
  split
  · exact (openLine_webUps _ _).trans {}
  · exact { linesSkipped := .bump _ }

theorem triggerWork_webUps (s : State) : WebUps s (triggerWork s) := by
  unfold triggerWork
  split
  · exact takeTrigger_webUps s
  · exact .same s

theorem beginStop_webUps (n : Nat) (s : State) : WebUps s (beginStop n s) := by
  obtain ⟨htrk, hasm, -⟩ := beginStop_control n s
  refine ⟨?_, by rw [htrk]; exact {}, by rw [hasm]; exact {}⟩
  unfold beginStop
  dsimp only
  rw [discardRetiring_eq, reportSkipped_eq]
  split <;> exact .same _

theorem positionLimit_webUps (s : State) : WebUps s (positionLimit s) := by
  unfold positionLimit
  split
  · exact WebUps.trans {} (beginStop_webUps _ (appendEvent .positionLimit 1 s))
  · exact {}

theorem freePlace_webUps (p : State × Bool) : WebUps p.1 (freePlace p).1 := by
  unfold freePlace
  extract_lets u
  have htrigger : WebUps p.1 u := by
    rcases nowOrLater_cases p.1.triggerDue (p.1.trackerDue || p.2) triggerWork p.1 with ⟨n, hn⟩ | ⟨-, n, hn⟩
    · rw [show u = _ from hn]; exact {}
    · rw [show u = _ from hn]; exact WebUps.trans {} (triggerWork_webUps { p.1 with freeCount := n })
  clear_value u
  refine htrigger.trans ?_
  split
  · unfold drawChoice
    cases Config.orderChoice u.freeCount
    · exact {}
    · exact WebUps.trans {} (positionLimit_webUps { u with freeCount := u.freeCount + 1 })
  · split
    · exact positionLimit_webUps u
    · exact .same u

theorem coatToGapWork_webUps (s : State) : WebUps s (coatToGapWork s) := by
  unfold coatToGapWork
  split
  · exact swapPoint_webUps s
  · exact .same s

theorem countWork_webUps (limit : Bool) (s : State) : WebUps s (countWork limit s) := by
  unfold countWork
  extract_lets p1 p2 p3 p4 s5
  have h1 : WebUps s p1.1 := freePlace_webUps (s, limit)
  have h2 : WebUps p1.1 p2.1 := (coatToGapWork_webUps _).trans (freePlace_webUps (_, _))
  have h3 : WebUps p2.1 p3.1 :=
    ((missMarks_tracker _ _).webUps (missMarks_trackerUps _ _)).trans (freePlace_webUps (missWork p2.1, _))
  have h4 : WebUps p3.1 p4.1 :=
    ((popWork_tracker _).webUps (popWork_trackerUps _)).trans (freePlace_webUps (_, _))
  have h5 : WebUps p4.1 s5 := by
    unfold s5
    split
    · exact positionLimit_webUps _
    · exact .same _
  exact (((h1.trans h2).trans h3).trans (h4.trans h5)).trans (triggerWork_webUps _)

/-! ### The encoder (R3 to R6, R14) -/

theorem positionRose_countersUp (s : State) : CountersUp s (positionRose s) := by
  have hsettle : CountersUp s (settleMarks s) := { mark := ⟨.same _, .same _, .same _, .same _⟩ }
  exact hsettle.trans ((countWork_web _ _).countersUp (countWork_webUps _ _))

theorem forwardCount_countersUp (s : State) : CountersUp s (forwardCount s) := by
  unfold forwardCount
  dsimp only
  split
  · exact {}
  · split
    · exact CountersUp.trans {} (positionRose_countersUp { s with
        pos := { s.pos with e := s.pos.e + 1, w := s.pos.w + 1 } })
    · exact { pos := { limitDiscards := .bump _ } }

theorem backwardCount_countersUp (s : State) : CountersUp s (backwardCount s) := by
  unfold backwardCount
  dsimp only
  split
  · exact {}
  · split
    · exact { pos := { reverseDiscards := .bump _ } }
    · exact { pos := { reverseDiscards := .bump _ }, ports := (Appends.more _ _ (.same rfl rfl) rfl rfl).portUps }

theorem encoderTransition_countersUp (a b : Bool) {s t : State} (h : exec (.encoderTransition a b) s = .next t) :
    CountersUp s t := by
  cases h
  split
  · exact .same s
  · split
    · exact CountersUp.trans {} (forwardCount_countersUp (setReference a b s))
    · split
      · exact CountersUp.trans {} (backwardCount_countersUp (setReference a b s))
      · exact { pos := { illegal := .bump _ } }

/-! ### The station commands -/

theorem PortStep.portUps {x y : Port} (h : PortStep x y) : PortUps x y :=
  ⟨h.badFrames, h.aborted, h.inactivity, h.overruns⟩

theorem withPort_countersUp {s : State} {p : PortNo} {x : Port} (hx : PortUps (s.ports.get p) x) :
    CountersUp s (s.withPort p x) := by
  refine { ports := fun q => ?_ }
  rw [State.withPort_ports, Triple.get_set]
  split
  · rename_i hq; rw [hq]; exact hx
  · exact {}

theorem restartSilence_countersUp (p : PortNo) (s : State) : CountersUp s (restartSilence p s) := by
  unfold restartSilence; split <;> exact {}

theorem armRun_countersUp (p : PortNo) (s : State) : CountersUp s (armRun p s) := by
  have harmed : CountersUp s (s.armedBy p) := { ports := (Appends.more _ _ (.rfl' s) rfl rfl).portUps }
  have htrigger := harmed.trans ((takeTrigger_web _).countersUp (takeTrigger_webUps (s.armedBy p)))
  rw [armRun_eq]
  split
  · exact htrigger.trans ((positionLimit_web _).countersUp (positionLimit_webUps _))
  · exact htrigger

theorem cmdCommit_countersUp (p : PortNo) (s : State) : CountersUp s (cmdCommit p s).1 := by
  have h := restartSilence_countersUp p s
  unfold cmdCommit
  dsimp only
  split
  · exact h
  · split
    · exact h
    · split
      · exact h
      · split
        · exact (h.trans {}).trans ((swapPoint_web _).countersUp (swapPoint_webUps _))
        · exact h.trans {}

theorem cmdForceMark_countersUp (marker : Byte) (distance : BitVec 16) (s : State) :
    CountersUp s (cmdForceMark marker distance s).1 := by
  unfold cmdForceMark
  split
  · exact .same s
  · rename_i m _
    dsimp only
    generalize hstart : s.pos.w + distance.toNat = start
    generalize hf : s.rcp.active.markerFields m = f
    have hups := enterAction_ups m start f.width f.spacing 0 s
    have hports := (enterAction_appends m start f.width f.spacing 0 s).portUps
    rw [enterAction_frame]
    exact { mark := hups, ports := hports }

theorem runCommand_countersUp (p : PortNo) (c : Command) (payload : List Byte) (s : State) :
    CountersUp s (runCommand p c payload s).1 := by
  have hs := restartSilence_countersUp p s
  cases c <;> simp only [runCommand]
  case ident | status | readCandidates | readStreaks => exact .same s
  case arm =>
    unfold cmdArm
    split
    · exact .same s
    · split
      · exact .same s
      · exact armRun_countersUp p s
  case disarm =>
    unfold cmdDisarm
    split
    · exact (beginStop_web _ s).countersUp (beginStop_webUps _ s)
    · exact .same s
  case resetPosition =>
    unfold cmdResetPosition
    split
    · exact { mark := ⟨.same _, .same _, .same _, .bumpBy _ _⟩ }
    · exact .same s
  case commit => exact cmdCommit_countersUp p s
  case resyncHead =>
    unfold cmdResyncHead
    split
    · exact .same s
    · exact (resyncLink_work _ s).countersUp
  case forceMark => exact cmdForceMark_countersUp _ _ s
  case claimEdit =>
    unfold cmdClaimEdit
    split
    · exact {}
    · split
      · exact hs
      · exact .same s
  case stageWrite | stageRead | cancelPending =>
    simp only [cmdStageWrite, cmdStageRead, cmdCancelPending]
    repeat' split
    all_goals exact hs.trans {}
  case releaseEdit | activeRead | readCells =>
    simp only [cmdReleaseEdit, cmdActiveRead, cmdReadCells]
    split <;> exact {}
  case ackAttn | endService | fetch | seek =>
    simp only [cmdAckAttn, cmdEndService, cmdFetch, cmdSeek]
    split
    · exact .same s
    · exact withPort_countersUp {}
  case subscribe =>
    simp only [cmdSubscribe]
    split
    · exact .same s
    · split <;> exact withPort_countersUp {}

theorem countersUp_stationRel : StationRel CountersUp where
  same := .same
  trans _ _ _ := .trans
  port _ _ _ hx := withPort_countersUp hx.portUps
  command s p c payload := runCommand_countersUp p c payload s

/-! ### The engine's steps -/

/-- Stages 1 and 2 write cell records alone. -/
theorem workedFrom_countersUp (ln : Line) (s : State) (φ ψ : LineProgress) :
    CountersUp s (workedFrom ln (s.atProgress φ) ψ) := by
  obtain ⟨cells, h⟩ := workedFrom_eq ln (s.atProgress φ) ψ
  rw [h]
  exact {}

theorem advanceLine_countersUp (i : Fin 4) (s : State) : CountersUp s (advanceLine i s) := by
  obtain ⟨v, hv, h⟩ := advanceLine_work i s
  rw [h]
  exact ((workedFrom_countersUp _ s _ _).trans hv.countersUp).trans {}

theorem publishLine_countersUp (i : Fin 4) (s : State) : CountersUp s (publishLine i s) := by
  obtain ⟨v, hv, h⟩ := publishLine_work i s
  rw [h, freeSlot_eq]
  exact ((workedFrom_countersUp _ s _ _).trans hv.countersUp).trans {}

theorem takeLine_countersUp (i : Fin 4) (s : State) : CountersUp s (takeLine i s) := by
  obtain ⟨v, hv, h⟩ := takeLine_work i s
  have htaken : CountersUp s (takenFrom i s) := {}
  rw [h]
  exact (htaken.trans hv.countersUp).trans {}

theorem completeStop_countersUp (s : State) : CountersUp s (completeStop s) := by
  obtain ⟨v, hv, h⟩ := completeStop_work s
  rw [h]
  refine (hv.countersUp.trans ?_).trans ((swapPoint_web _).countersUp (swapPoint_webUps _))
  exact { ports := (Appends.more _ _ (.rfl' v) rfl rfl).portUps }

/-! ### Every step -/

/-- A step that is neither a station port's nor a power-on reset moves the counters up alone. -/
theorem exec_countersUp_noPort {c : Instr} (hp : stationPort c = none) (hr : ∀ a b k, c ≠ .powerOnReset a b k)
    {s t : State} (h : exec c s = .next t) : CountersUp s t := by
  cases c <;> simp only [stationPort, reduceCtorEq] at hp
  case powerOnReset => exact absurd rfl (hr _ _ _)
  case encoderTransition => exact encoderTransition_countersUp _ _ h
  case carrierGained => exact (carrierGained_work _ h).countersUp
  case carrierLost => exact (carrierLost_work _ _ h).countersUp
  all_goals cases h
  case markEdge =>
    split
    · exact (takeEdge_web s).countersUp ((takeEdge_tracker s).webUps (takeEdge_trackerUps s))
    · exact .same s
  case headFrame => exact (headBytes_work _ _ s).countersUp
  case headFrameAbort => exact (headBytes_work _ _ s).countersUp
  case engineTakeLine => split; exacts [takeLine_countersUp _ s, .same s]
  case linePublish => split; exacts [publishLine_countersUp _ s, .same s]
  case stopComplete => split; exacts [completeStop_countersUp s, .same s]
  case editExpiry => split; exacts [{ ports := (Appends.more _ _ (.same rfl rfl) rfl rfl).portUps }, .same s]

theorem exec_countersUp {c : Instr} (hr : ∀ a b k, c ≠ .powerOnReset a b k) {s t : State} (h : exec c s = .next t) :
    CountersUp s t := by
  cases hp : stationPort c with
  | some p => exact countersUp_stationRel.step hp h
  | none => exact exec_countersUp_noPort hp hr h

theorem idle_countersUp (s : State) : CountersUp s (idle s) := by
  unfold idle
  split
  · exact advanceLine_countersUp _ s
  · exact .same s

/-- A step with no power-on reset at the front of the queue moves the counters up alone. -/
theorem step_countersUp {s t : State} (hr : ∀ a b k rest, s.pending ≠ .powerOnReset a b k :: rest)
    (h : step s = .next t) : CountersUp s t := by
  unfold step at h
  split at h
  · cases h
    exact idle_countersUp s
  · rename_i c rest hpending
    have hqueue : CountersUp s { s with pending := rest } := {}
    exact hqueue.trans (exec_countersUp (fun a b k hc => hr a b k rest (by rw [hpending, hc])) h)

theorem atPowerOnReset_countersOk (a b : Bool) (carriers : Quad Bool) (s : State) :
    (s.atPowerOnReset a b carriers).countersOk := by
  intro n hn
  rw [atPowerOnReset_counters] at hn
  rw [List.eq_of_mem_replicate hn]
  exact Nat.zero_le _

/-- Settles O60: a power-on reset leaves every counter at 0, and every other step moves it up alone. -/
theorem countersKept : Obligations.CountersKept := by
  intro s t hs h
  by_cases hr : ∃ a b k rest, s.pending = .powerOnReset a b k :: rest
  · obtain ⟨a, b, k, rest, hr⟩ := hr
    refine ⟨?_, fun hno => absurd hr (hno a b k rest)⟩
    simp only [step, hr, exec_powerOnReset] at h
    cases h
    exact atPowerOnReset_countersOk a b k _
  · push Not at hr
    obtain ⟨hwidth, hle⟩ := forall₂_up (step_countersUp hr h).forall₂ hs
    exact ⟨hwidth, fun _ => hle⟩

end Sys2Proof.Machine
end

section
/-! SUPPORT. ATNn and the two sets of causes at every port (R181 to R183, O50, O53): appends keep their agreement, and
so does each of the three commands that set a port's causes or its mask. -/

namespace Sys2Proof.Machine

/-! ### A port whose sets are replaced -/

/-- ATNn set from the sets, and only enabled causes pending. -/
theorem withSets_attentionOk {x : Port} {causes : CauseSet} (service : CauseSet)
    (h : ∀ c, causes.has c = true → x.enable.has c = true) : (x.withSets causes service).attentionOk :=
  ⟨attentionLevel_iff _ _, h⟩

/-- The port after an ACK_ATTN that takes the cause (R183). -/
def Port.acked (x : Port) (c : Cause) : Port := x.withSets (x.causes.put c false) (x.service.put c true)

/-- The port after an END_SERVICE that takes the cause (R183). -/
def Port.serviceEnded (x : Port) (c : Cause) : Port := x.withSets x.causes (x.service.put c false)

theorem acked_pending (x : Port) (c d : Cause) :
    (x.acked c).causes.has d = true ↔ x.causes.has d = true ∧ d ≠ c := by
  show (x.causes.put c false).has d = true ↔ _
  rw [CauseSet.has_put]
  by_cases hd : d = c <;> simp [hd]

theorem acked_service (x : Port) (c d : Cause) :
    (x.acked c).service.has d = true ↔ x.service.has d = true ∨ d = c := by
  show (x.service.put c true).has d = true ↔ _
  rw [CauseSet.has_put]
  by_cases hd : d = c <;> simp [hd]

theorem serviceEnded_service (x : Port) (c d : Cause) :
    (x.serviceEnded c).service.has d = true ↔ x.service.has d = true ∧ d ≠ c := by
  show (x.service.put c false).has d = true ↔ _
  rw [CauseSet.has_put]
  by_cases hd : d = c <;> simp [hd]

theorem acked_attentionOk {x : Port} (h : x.attentionOk) (c : Cause) : (x.acked c).attentionOk := by
  obtain ⟨-, henabled⟩ := h
  exact withSets_attentionOk _ fun d hd => henabled d ((acked_pending x c d).mp hd).1

theorem serviceEnded_attentionOk {x : Port} (h : x.attentionOk) (c : Cause) : (x.serviceEnded c).attentionOk := by
  obtain ⟨-, henabled⟩ := h
  exact withSets_attentionOk _ henabled

/-- SUBSCRIBE clears the pending flags of causes taken out of the mask (R148, R181). -/
theorem subscribed_attentionOk (x : Port) (sub : ClassSet) (watermark : Nat) (enable : CauseSet) :
    (x.subscribed sub watermark enable).attentionOk := by
  refine ⟨attentionLevel_iff _ _, fun c hc => ?_⟩
  have hboth : (x.causes.has c && enable.has c) = true := (CauseSet.has_inter _ _ c).symm.trans hc
  exact (Bool.and_eq_true _ _ ▸ hboth).2

/-! ### ACK_ATTN and END_SERVICE (R183) -/

theorem cmdAckAttn_none {p : PortNo} {s : State} (h : (s.ports.get p).causes.highest = none) :
    cmdAckAttn p s = (s, attentionReply none (s.ports.get p)) := by
  simp only [cmdAckAttn, h]

theorem cmdAckAttn_some {p : PortNo} {s : State} {c : Cause} (h : (s.ports.get p).causes.highest = some c) :
    cmdAckAttn p s = (s.withPort p ((s.ports.get p).acked c), attentionReply (some c) ((s.ports.get p).acked c)) := by
  simp only [cmdAckAttn, h]; rfl

theorem cmdEndService_none {p : PortNo} {s : State} (h : (s.ports.get p).service.highest = none) :
    cmdEndService p s = (s, attentionReply none (s.ports.get p)) := by
  simp only [cmdEndService, h]

theorem cmdEndService_some {p : PortNo} {s : State} {c : Cause} (h : (s.ports.get p).service.highest = some c) :
    cmdEndService p s =
      (s.withPort p ((s.ports.get p).serviceEnded c), attentionReply (some c) ((s.ports.get p).serviceEnded c)) := by
  simp only [cmdEndService, h]; rfl

theorem ackAttn_answers {p : PortNo} {s : State} (h : s.ready p) (tag : Byte) {u : State} {r : Reply}
    (hrun : cmdAckAttn p s = (u, r)) :
    exec (.ackAttn p tag) s = .next (u.answering p 0x03 tag r.status.num r.payload) := by
  refine congrArg Host.Outcome.next ((submit_ready h .ackAttn tag _ (cmdAckAttn p)).trans ?_)
  rw [hrun]; rfl

theorem endService_answers {p : PortNo} {s : State} (h : s.ready p) (tag : Byte) {u : State} {r : Reply}
    (hrun : cmdEndService p s = (u, r)) :
    exec (.endService p tag) s = .next (u.answering p 0x04 tag r.status.num r.payload) := by
  refine congrArg Host.Outcome.next ((submit_ready h .endService tag _ (cmdEndService p)).trans ?_)
  rw [hrun]; rfl

/-- Settles O50: the highest-ranked cause of each set, or none, and the port that the command leaves. -/
theorem attentionServiceInRank : Obligations.AttentionServiceInRank := by
  intro p tag s h hok
  refine ⟨s.ports.get p, fun code c y => (s.withPort p y).answering p code tag 0
    (be 1 c ++ y.causes.toByte ++ y.service.toByte), rfl, fun _ _ _ => rfl, fun hnone => ?_, fun c hc hmin => ?_,
    fun hnone => ?_, fun c hc hmin => ?_⟩
  · rw [ackAttn_answers h tag (cmdAckAttn_none (CauseSet.highest_none.mpr hnone))]
    dsimp only
    rw [State.withPort_self]
    rfl
  · exact ⟨_, ackAttn_answers h tag (cmdAckAttn_some (CauseSet.highest_some.mpr ⟨hc, hmin⟩)),
      acked_attentionOk hok c, rfl, acked_pending _ c, acked_service _ c⟩
  · rw [endService_answers h tag (cmdEndService_none (CauseSet.highest_none.mpr hnone))]
    dsimp only
    rw [State.withPort_self]
    rfl
  · exact ⟨_, endService_answers h tag (cmdEndService_some (CauseSet.highest_some.mpr ⟨hc, hmin⟩)),
      serviceEnded_attentionOk hok c, rfl, serviceEnded_service _ c⟩

/-! ### Every step -/

/-- The attention of every port is kept from `s` to `t` (R181, R182). -/
def KeepsAttention (s t : State) : Prop := s.attentionOk → t.attentionOk

theorem Appends.keepsAttention {s t : State} (h : Appends s t) : KeepsAttention s t := h.attentionOk

/-- One port is replaced, by one whose attention is as R181 and R182 say if the port's was. -/
theorem withPort_keepsAttention {s : State} {p : PortNo} {x : Port}
    (hx : (s.ports.get p).attentionOk → x.attentionOk) : KeepsAttention s (s.withPort p x) := by
  intro h q
  rw [State.withPort_ports, Triple.get_set]
  split
  · exact hx (h p)
  · exact h q

theorem cmdSubscribe_keepsAttention (p : PortNo) (classes : Byte) (watermark : BitVec 16) (enable : Byte)
    (s : State) : KeepsAttention s (cmdSubscribe p classes watermark enable s).1 := by
  unfold cmdSubscribe
  dsimp only
  split
  · exact id
  · split
    · exact withPort_keepsAttention fun _ => raise_attentionOk (subscribed_attentionOk _ _ _ _) _
    · exact withPort_keepsAttention fun _ => subscribed_attentionOk _ _ _ _

theorem cmdAckAttn_keepsAttention (p : PortNo) (s : State) : KeepsAttention s (cmdAckAttn p s).1 := by
  cases hc : (s.ports.get p).causes.highest with
  | none => rw [cmdAckAttn_none hc]; exact id
  | some c => rw [cmdAckAttn_some hc]; exact withPort_keepsAttention fun h => acked_attentionOk h c

theorem cmdEndService_keepsAttention (p : PortNo) (s : State) : KeepsAttention s (cmdEndService p s).1 := by
  cases hc : (s.ports.get p).service.highest with
  | none => rw [cmdEndService_none hc]; exact id
  | some c => rw [cmdEndService_some hc]; exact withPort_keepsAttention fun h => serviceEnded_attentionOk h c

/-- FETCH and SEEK leave the causes, and the commands that reach the ports by appends alone keep them. -/
theorem runCommand_keepsAttention (p : PortNo) (c : Command) (payload : List Byte) (s : State) :
    KeepsAttention s (runCommand p c payload s).1 := by
  cases c
  case ackAttn => exact cmdAckAttn_keepsAttention p s
  case endService => exact cmdEndService_keepsAttention p s
  case subscribe => exact cmdSubscribe_keepsAttention p _ _ _ s
  case fetch | seek =>
    simp only [runCommand, cmdFetch, cmdSeek]
    split
    · exact id
    · exact withPort_keepsAttention id
  all_goals exact (runCommand_appends (by decide) p payload s).keepsAttention

theorem PortStep.attentionOk {x y : Port} (h : PortStep x y) (hx : x.attentionOk) : y.attentionOk := by
  unfold Port.attentionOk
  rw [h.atn, h.causes, h.service, h.enable]
  exact hx

theorem keepsAttention_stationRel : StationRel KeepsAttention where
  same _ := id
  trans _ _ _ h k := k ∘ h
  port _ _ _ hx := withPort_keepsAttention hx.attentionOk
  command s p c payload := runCommand_keepsAttention p c payload s

theorem exec_keepsAttention (c : Instr) (s t : State) (h : exec c s = .next t) : KeepsAttention s t := by
  cases hp : stationPort c with
  | some p => exact keepsAttention_stationRel.step hp h
  | none =>
    by_cases hr : ∃ a b k, c = .powerOnReset a b k
    · obtain ⟨a, b, k, rfl⟩ := hr
      cases h
      exact fun _ => attentionOk_congr rfl reset_attentionOk
    · exact (exec_appends hp (fun a b k hc => hr ⟨a, b, k, hc⟩) h).keepsAttention

/-- Settles O53: every step comes to appends, a power-on reset or a port's own change, and each of them sets ATNn from
the sets and leaves only enabled causes pending. -/
theorem attentionKept : Obligations.AttentionKept :=
  ⟨reset_attentionOk,
    step_keeps (fun _ _ h => h) exec_keepsAttention fun s i _ => (advanceLine_appends i s).keepsAttention⟩

end Sys2Proof.Machine
end

section
/-! SUPPORT. A station port with a response in progress (R172, R175, O45), the sizes of the responses (R176, O46), and
what IDENT and STATUS answer (R178 to R180, O47). -/

namespace Sys2Proof.Machine

/-! ### A response in progress (R175) -/

theorem holdBody_waits {s : State} {p : PortNo} (h : (s.ports.get p).held = none) (body : List Byte) :
    holdBody p body s = s.withPort p { s.ports.get p with held := some body } := by
  simp [holdBody, h]

theorem holdBody_lost {s : State} {p : PortNo} (h : (s.ports.get p).held ≠ none) (body : List Byte) :
    holdBody p body s = s.withPort p { s.ports.get p with overruns := bump (s.ports.get p).overruns } := by
  simp [holdBody, h]

/-- The machine when a port's response has been sent (R175). -/
def State.responded (s : State) (p : PortNo) (response : List Byte) : State :=
  s.withPort p { s.ports.get p with response := none, held := none, sent := frameOf response }

theorem responded_ready (s : State) (p : PortNo) (response : List Byte) : (s.responded p response).ready p := by
  simp [State.ready, State.responded]

theorem responseSent_free {s : State} {p : PortNo} {response : List Byte}
    (h : (s.ports.get p).response = some response) (hheld : (s.ports.get p).held = none) :
    exec (.responseSent p) s = .next (s.responded p response) := by
  simp only [exec, execResponseSent, sendResponse, h, hheld]; rfl

theorem responseSent_takes {s : State} {p : PortNo} {response body : List Byte}
    (h : (s.ports.get p).response = some response) (hheld : (s.ports.get p).held = some body) :
    exec (.responseSent p) s = .next (takeBody p body (s.responded p response)) := by
  simp only [exec, execResponseSent, sendResponse, h, hheld]; rfl

/-- The body of a command's frame, taken at a free port, is the command's row (R175, assumption 3). -/
theorem exec_takeBody {c : Instr} {f : HostFrame} (h : hostFrame c = some f) (hlen : f.payload.length < 65536)
    {s : State} (hready : s.ready f.port) : exec c s = .next (takeBody f.port f.body s) := by
  obtain ⟨k, hcode, hfits, hexec⟩ := exec_command h s
  have hbody : f.body = commandBody k.code f.tag f.payload := by rw [← hcode]; rfl
  rw [hexec, hbody, ← acceptBody_ready hready, acceptBody_command hlen (hfits hlen)]

/-- The body of a command's frame waits, or is lost, at a port with a response in progress. -/
theorem exec_holdBody {c : Instr} {f : HostFrame} (h : hostFrame c = some f) {s : State} {response : List Byte}
    (hbusy : (s.ports.get f.port).response = some response) : exec c s = .next (holdBody f.port f.body s) := by
  obtain ⟨k, hcode, -, hexec⟩ := exec_command h s
  have hbody : f.body = commandBody k.code f.tag f.payload := by rw [← hcode]; rfl
  rw [hexec, hbody, submit_busy hbusy]

/-- Settles O45: the frame held or lost, and the held one taken as its row would be. -/
theorem commandsWait : Obligations.CommandsWait := by
  intro c f s response hc hlen hbusy
  refine ⟨fun hheld => ?_, fun hheld => ?_, s.responded f.port response, rfl, responseSent_free hbusy, fun hheld => ?_⟩
  · rw [exec_holdBody hc hbusy, holdBody_waits hheld]; rfl
  · rw [exec_holdBody hc hbusy, holdBody_lost hheld]; rfl
  · rw [responseSent_takes hbusy hheld, exec_takeBody hc (by omega) (responded_ready s f.port response)]

/-! ### The sizes of the responses (R176) -/

@[simp] theorem Reply.ok_payload (l : List Byte) : (Reply.ok l).payload = l := rfl

@[simp] theorem Reply.plain_payload (x : Status) : (Reply.plain x).payload = [] := rfl

theorem portsGroup_length (ports : Triple Port) (p : PortNo) : (portsGroup ports p).length = 27 := by
  simp [portsGroup, Triple.toList, portCounters, CauseSet.toByte, bitsByte_length]

/-- The nine groups of STATUS (R180). -/
theorem cmdStatus_length (p : PortNo) (s : State) : (cmdStatus p s).2.payload.length = 236 := by
  simp only [cmdStatus, Reply.ok_payload, List.length_append, runGroup_length, positionGroup_length,
    trackerGroup_length, linkBytes_length, assemblerGroup_length, engineGroup_length, listGroup_length,
    markersGroup_length, portsGroup_length]

theorem records_length (rs : List Record) : (rs.flatMap Record.bytes).length = 32 * rs.length := by
  induction rs with
  | nil => rfl
  | cons r rs ih => simp only [List.flatMap_cons, List.length_append, record_length, ih, List.length_cons]; omega

/-- An entry of a section has at most 20 bytes (R178). -/
theorem entryBytes_length_le (r : Recipe) (x : Section) (entry : Nat) : (r.entryBytes x entry).length ≤ 20 := by
  rw [Recipe.entryBytes, joinFields_length _ _ (by cases x <;> rfl)]
  cases x <;> decide

theorem attentionReply_length (c : Option Cause) (x : Port) : (attentionReply c x).payload.length = 3 := by
  simp [attentionReply, CauseSet.toByte, bitsByte_length]

theorem cmdFetch_length_le (p : PortNo) (count : Byte) (s : State) :
    (cmdFetch p count s).2.payload.length ≤ 521 := by
  unfold cmdFetch
  dsimp only
  split
  · exact Nat.zero_le _
  · have htake : (s.list.delivered (s.ports.get p) count.toNat).length ≤ count.toNat := List.length_take_le _ _
    simp only [Reply.ok_payload, List.length_append, be_length, records_length]
    omega

theorem cmdReadCells_length_le (first : BitVec 16) (count : Byte) (s : State) :
    (cmdReadCells first count s).2.payload.length ≤ 583 := by
  unfold cmdReadCells
  dsimp only
  split
  · exact Nat.zero_le _
  · simp only [Reply.ok_payload, List.length_append, lastLineBytes_length, cellsBytes_length, List.length_take]
    omega

theorem cmdReadCandidates_length (s : State) : (cmdReadCandidates s).2.payload.length =
    9 + 30 * occupied s.eng.pub.cands := by
  simp only [cmdReadCandidates, Reply.ok_payload, List.length_append, lastLineBytes_length, boolByte, be_length,
    tableBytes_length _ 30 candBytes_length]
  rfl

theorem cmdReadStreaks_length (s : State) : (cmdReadStreaks s).2.payload.length =
    9 + 35 * occupied s.eng.pub.streaks := by
  simp only [cmdReadStreaks, Reply.ok_payload, List.length_append, lastLineBytes_length, boolByte, be_length,
    tableBytes_length _ 35 streakBytes_length]
  rfl

/-- The largest payload is that of READ_STREAKS with all 32 streaks open. -/
theorem runCommand_length_le (p : PortNo) (c : Command) (payload : List Byte) {s : State}
    (hstreaks : s.eng.pub.streaks.length = 32) (hcands : s.eng.pub.cands.length = 24) :
    (runCommand p c payload s).2.payload.length ≤ 1129 := by
  cases c <;> simp only [runCommand]
  case ident => simp [cmdIdent, vendorBytes, partBytes]
  case status => rw [cmdStatus_length]; decide
  case fetch => exact (cmdFetch_length_le p _ s).trans (by decide)
  case readCells => exact (cmdReadCells_length_le _ _ s).trans (by decide)
  case readCandidates =>
    have hcount : occupied s.eng.pub.cands ≤ 24 := hcands ▸ List.countP_le_length
    rw [cmdReadCandidates_length]
    omega
  case readStreaks =>
    have hcount : occupied s.eng.pub.streaks ≤ 32 := hstreaks ▸ List.countP_le_length
    rw [cmdReadStreaks_length]
    omega
  case ackAttn | endService =>
    simp only [cmdAckAttn, cmdEndService]
    split <;> rw [attentionReply_length] <;> decide
  case stageRead | activeRead =>
    simp only [cmdStageRead, cmdActiveRead]
    repeat' split
    all_goals simp only [Reply.plain_payload, Reply.ok_payload, List.length_nil, Nat.zero_le]
    all_goals exact (entryBytes_length_le _ _ _).trans (by decide)
  case stageWrite | commit | cancelPending | claimEdit | subscribe | seek | forceMark =>
    simp only [cmdStageWrite, cmdCommit, cmdCancelPending, cmdClaimEdit, cmdSubscribe, cmdSeek, cmdForceMark,
      cursorReply]
    repeat' split
    all_goals simp
  case arm | disarm | resetPosition | releaseEdit | resyncHead =>
    simp only [cmdArm, cmdDisarm, cmdResetPosition, cmdReleaseEdit, cmdResyncHead]
    repeat' split
    all_goals simp

/-- Settles O46: a response is its command's payload behind five bytes. -/
theorem responsesBounded : Obligations.ResponsesBounded := by
  intro c f s t hc hready hstreaks hcands h
  obtain ⟨k, -, -, hexec⟩ := exec_command hc s
  rw [hexec, submit_ready hready] at h
  cases h
  have hle := runCommand_length_le f.port k f.payload hstreaks hcands
  refine ⟨_, by rw [answering_get, if_pos rfl], ?_⟩
  simp only [List.length_append, List.length_cons, List.length_nil, be_length]
  omega

/-! ### IDENT and STATUS (R178 to R180) -/

/-- A yes/no field as a number (R178). -/
def flagBit (b : Bool) : Nat := if b then 1 else 0

theorem bitsByte_four (a b c d : Bool) :
    bitsByte [a, b, c, d] = be 1 (flagBit a + 2 * flagBit b + 4 * flagBit c + 8 * flagBit d) := by
  revert a b c d; decide

theorem headSetByte_eq (q : Quad Bool) : headSetByte q =
    be 1 (flagBit (q.get 0) + 2 * flagBit (q.get 1) + 4 * flagBit (q.get 2) + 8 * flagBit (q.get 3)) :=
  bitsByte_four _ _ _ _

/-- A slot with its fields in their order (R180). -/
theorem slotBytes_eq (x : Slot) : slotBytes x =
    if x.state = .free then be 6 0
    else be 1 x.state.num ++ be 2 x.line.toNat ++ [x.expected, x.received, x.absent].flatMap fun q =>
      be 1 (flagBit (q.get 0) + 2 * flagBit (q.get 1) + 4 * flagBit (q.get 2) + 8 * flagBit (q.get 3)) := by
  simp [slotBytes, headSetByte_eq]

/-- Whether a copy is pending, and its port (R180). -/
theorem pendingBytes_eq (o : Option PendingCopy) : boolByte o.isSome ++ portByte (o.map PendingCopy.port) =
    match o with | none => [0, 0xFF] | some c => [1] ++ be 1 c.port.val := by
  cases o with
  | none => rfl
  | some c => rw [boolByte_eq]; rfl

theorem portByte_eq (o : Option PortNo) : portByte o = be 1 (match o with | none => 255 | some q => q.val) := by
  cases o <;> rfl

theorem causes_toByte_eq (x : CauseSet) : x.toByte =
    be 1 (flagBit x.alert + 2 * flagBit x.streak + 4 * flagBit x.pinhole + 8 * flagBit x.data) :=
  bitsByte_four _ _ _ _

theorem ident_answers {p : PortNo} {s : State} (h : s.ready p) (tag : Byte) :
    exec (.ident p tag) s = .next (s.answering p 0x01 tag 0 (cmdIdent p s).2.payload) :=
  congrArg Host.Outcome.next (submit_ready h .ident tag _ (cmdIdent p))

theorem status_answers {p : PortNo} {s : State} (h : s.ready p) (tag : Byte) :
    exec (.status p tag) s = .next (s.answering p 0x02 tag 0 (cmdStatus p s).2.payload) :=
  congrArg Host.Outcome.next (submit_ready h .status tag _ (cmdStatus p))

/-- Settles O47: IDENT's bytes, and the nine groups of STATUS field by field. -/
theorem identAndStatusAnswer : Obligations.IdentAndStatusAnswer := by
  intro p tag s h
  refine ⟨⟨Config.firmwareMajor, Config.firmwareMinor, ident_answers h tag⟩, flagBit, _, _, _, _, _, _, _, _, _,
    fun _ => rfl, status_answers h tag, cmdStatus_length p s, ?_, rfl, rfl, rfl, ?_, ?_, ?_, rfl, ?_⟩
  · rw [runGroup, List.append_assoc (be 1 _), pendingBytes_eq, portByte_eq]
    rfl
  · rw [assemblerGroup, funext slotBytes_eq]
    rfl
  · rw [engineGroup, lastLineBytes_eq]
    rfl
  · cases hrecords : s.list.records <;>
      simp only [listGroup, DefectList.oldest, DefectList.newest, hrecords] <;> rfl
  · simp only [portsGroup, causes_toByte_eq]
    rfl

end Sys2Proof.Machine
end
